-- ==== Sys2Proof/Word.lean ====
section
/-! DEFINITION. The widths the manual counts in (R9, R10): bytes, half words, words, double words. -/

namespace Sys2Proof

/-- One byte. -/
abbrev Byte := BitVec 8
/-- A 16-bit field. -/
abbrev Half := BitVec 16
/-- A 32-bit field: a register (R13), an FP32 pattern, a hit-core register. -/
abbrev Word := BitVec 32
/-- A 64-bit field. -/
abbrev Dword := BitVec 64
/-- A partition or system address, 56 bits (Table 11.2, Table 11.4). -/
abbrev Addr := BitVec 56

end Sys2Proof
end

