-- ==== Sys2Proof/Syntax.lean ====
section
/-! DEFINITION. The commands of the block: one constructor per row of spec/opcode_table.json, in the table's order, with
the operands the rule of the row gives the event. A row's operands are what arrives from outside (a message, a register
word, a memory response, a reading) or which of the engine's units the event concerns. -/

namespace Sys2Proof

/-- An ingress message (Table 9.2) with its port and the pclk in which its last flit completed (R275). TYPE is the
command's own; LEN is the payload's length. -/
structure Msg where
  port : Nat
  pclk : Nat
  flags : Byte
  stream : Half
  sgen : Byte
  cls : Byte
  seq : Word
  peer : Word
  payload : List Byte
  deriving DecidableEq, Repr

/-- A package-domain packet (Table 5.5) with the die link on which it arrived. TYPE is the command's own. -/
structure Packet where
  link : Nat
  nmemb : Byte
  src : Byte
  dst : Byte
  part : Byte
  arg : Half
  xfer : Word
  payload : List Byte
  deriving DecidableEq, Repr

/-- Where a hit-core instruction issues: slice, context slot of its hit core, group of the context (R197, R205). -/
structure Place where
  slice : Nat
  slot : Nat
  group : Nat
  deriving DecidableEq, Repr

/-- How one try of a memory access fails (R322): STATUS ERROR, POISON of a granule the access needs, no response within 5 µs.
A command that carries the tries of an access lists its failures in the order they came; four are a final failure (R296). -/
inductive MemFail where
  | error
  | poison
  | timeout
  deriving DecidableEq, Repr

/-- The failed tries of several accesses, each under the index by which its command counts them: lane, line, ring slot. -/
abbrev Fails := List (Nat × List MemFail)

/-- What a command names, with the failed tries of the accesses it makes. -/
structure Tried (α φ : Type) where
  it : α
  fails : φ
  deriving DecidableEq, Repr

/-- What a response of a memory port says (Table 11.3): STATUS and PMASK. -/
structure MemResp where
  status : Byte
  pmask : Byte
  deriving DecidableEq, Repr

/-- A word written over MPORT, with the aclk cycle of the write (R15). -/
structure MpData where
  aclk : Nat
  data : Word
  deriving DecidableEq, Repr

/-- What waits on an older line under R47: a query, or the header read of a deposit (R44). -/
inductive EpochWaiter where
  | query (uid : Nat)
  | header (dep : Nat)
  deriving DecidableEq, Repr

/-- The message whose 1.5 µs answer bound runs out (R29, R268, R287): a DEPOSIT whose record write is pending, a DEPOSIT
held behind such a write, or a GATE EVENT held for a deposit not yet accepted. -/
inductive BoundKind where
  | journal
  | held
  | gate
  deriving DecidableEq, Repr

/-- A SIGNAL that arrives (R34, R207): the one that stands at an index among those of hit cores on their way, or one that a lead
core sends for a partition to a signal address. -/
inductive SigSource where
  | hit (index : Nat)
  | lead (core part : Nat) (addr bits : Word)
  deriving DecidableEq, Repr

/-- IEEE 1149.1 TAP instructions as R405 groups them. `other` is a code the TAP does not list. -/
inductive TapInstr where
  | bypass
  | samplePreload
  | extest
  | idcode
  | debug (code : Nat)
  | other (code : Nat)
  deriving DecidableEq, Repr

/-- The operations and events of the opcode table. -/
inductive Instr where
  -- resets and start-up (13, 14)
  | coldReset
  | porstNDeassert (inst : BitVec 23)
  | warmReset
  | genCtlWarm (data : Word)
  | thermalTrip (cluster sensor : Nat) (reading : Byte)
  | fuseSenseDone
  | sfdpDiscovery
  | slotSelection
  | imageAuthentication
  | applyImage
  | bistDone (badSlices badClusters : List Nat)
  | ringScanDone (part : Option Nat) (fails : Fails)
  | mportRegisterWrite (aclk : Nat) (off : BitVec 24) (data : Word)
  -- ledger messages (09, 10)
  | deposit (m : Msg)
  | journalWriteAck (port tag : Nat)
  | acceptBoundExpiry (kind : BoundKind) (stream : Half) (seq : Word)
  | receiptAck (m : Msg)
  | retireRecordAck (port tag : Nat)
  | endpointRefuse (m : Msg)
  | receiptSend (dep : Nat)
  | receiptTimeout (dep : Nat)
  -- other messages (09, 12, 13, 14)
  | eventGate (m : Msg)
  | eventMintTail (m : Msg)
  | hint (m : Msg)
  | budget (m : Msg)
  | treeFence (m : Msg)
  | status (m : Msg)
  | ident (m : Msg)
  | imageWriteErase (m : Msg)
  | imageWriteWrite (m : Msg)
  | imageWriteVerify (m : Msg)
  | imageWriteCommit (m : Msg)
  | imageWriteConfirm (m : Msg)
  | imageOpStart
  | imageOpDone (timedOut : Bool)
  | partReloadBegin (m : Msg)
  | partReloadEnd (m : Msg)
  | partLoadDone (part : Nat) (fails : Fails)
  | captureStart (m : Msg)
  | captureStop (m : Msg)
  | replayStart (m : Msg)
  | replayStop (m : Msg)
  | captureRecordWrite (part : Nat) (fails : List MemFail)
  | replayInject (part : Nat)
  | malformedFlitSequence (type : Byte) (m : Msg) (headerWhole : Bool)
  | reservedMessage (type : Byte) (m : Msg)
  -- ports and streams (09)
  | egressCreditReturn (port cls : Nat)
  | fabPortEnable (port : Nat) (data : Word)
  | ingressCreditReturn (port cls : Nat)
  | streamOpen (data : Word)
  | streamClose (write : MpData)
  | healthSend
  -- clearing and traversal (02 to 06)
  | releaseStampReached (dep : Nat)
  | queryRecordRead (dep slice : Nat)
  | imageHeaderRead (dep : Nat)
  | epochReread (w : EpochWaiter)
  | epochMissingTimeout (w : EpochWaiter)
  | nodeQueueReady (cluster queue : Nat)
  | queueRipe (cluster queue : Nat)
  | batchRelease (cluster : Nat)
  | clusterForward (cluster : Nat)
  | boxTestVisit (slice : Nat)
  | spillFill (query : Nat)
  | primitiveLeafTest (slice : Nat)
  | neuralLeafVisit (slice : Nat)
  | marchTracking (query : Nat)
  -- kernels and tasks (07)
  | kernelLeafLaunch (slice core slot : Nat)
  | kernelTaskLaunch (dep node core slot : Nat)
  | gatherExpiry (dep node core slot : Nat)
  | emitTask (dep query : Nat)
  | reduceTask (dep : Nat)
  | deliverTask (dep : Nat)
  | bufferHeaderAck (port tag : Nat)
  | deadlockKill (part : Nat)
  | signalDelivery (g : SigSource)
  -- the hit-core instructions of Table 7.4
  | iadd (pl : Place)
  | isub (pl : Place)
  | imul (pl : Place)
  | imulhi (pl : Place)
  | umulhi (pl : Place)
  | imin (pl : Place)
  | imax (pl : Place)
  | umin (pl : Place)
  | umax (pl : Place)
  | bAnd (pl : Place)
  | bOr (pl : Place)
  | bXor (pl : Place)
  | shl (pl : Place)
  | shr (pl : Place)
  | sar (pl : Place)
  | isetp (pl : Place)
  | sel (pl : Place)
  | popc (pl : Place)
  | clz (pl : Place)
  | mov (pl : Place)
  | fadd (pl : Place)
  | fmul (pl : Place)
  | ffma (pl : Place)
  | fmin (pl : Place)
  | fmax (pl : Place)
  | fsetp (pl : Place)
  | fsqrt (pl : Place)
  | fdiv (pl : Place)
  | f2i (pl : Place)
  | i2f (pl : Place)
  | padd (pl : Place)
  | pfma (pl : Place)
  | ld (pl : Place) (fails : Fails)
  | ld64 (pl : Place) (fails : Fails)
  | st (pl : Tried Place Fails)
  | st64 (pl : Tried Place Fails)
  | lds (pl : Place)
  | sts (pl : Place)
  | atom (pl : Place)
  | atoms (pl : Place)
  | fence (pl : Place)
  | ldline (pl : Place)
  | bra (pl : Place)
  | call (pl : Place)
  | ret (pl : Place)
  | exit (pl : Place)
  | brx (pl : Place)
  | mma (pl : Place)
  | cvt (pl : Place)
  | ldf (pl : Place)
  | stf (pl : Place)
  | signal (pl : Place)
  | waitev (pl : Place)
  | bar (pl : Place)
  | getwork (pl : Place)
  | gate (pl : Place)
  | ldq (pl : Place)
  | rng (pl : Place)
  | hitacc (pl : Place)
  | nres (pl : Place)
  | ldres (pl : Place)
  | wrx (pl : Place)
  | dropres (pl : Place)
  | emitq (pl : Place)
  | setrv (pl : Place)
  | s2r (pl : Place)
  | u2r (pl : Place)
  | moveToUniform (pl : Place)
  | vote (pl : Place)
  -- die links (05)
  | forwardRelease (cluster die part : Nat)
  | forward (p : Packet)
  | fwdAck (p : Packet)
  | fwdNack (p : Packet)
  | forwardResend (xfer : Word)
  | fwdAckTimeout (xfer : Word)
  | fwdReturn (p : Packet)
  | retAck (p : Packet)
  | routeDown (p : Packet)
  | fencePacket (p : Packet)
  | hello (p : Packet)
  | packetRelay (type : Byte) (p : Packet)
  | reservedPacket (type : Byte) (p : Packet)
  | linkDown (link : Nat)
  | linkTrained (link : Nat) (repaired : Bool)
  | linkRetrain (link : Nat) (data : Word)
  | forwardingResume (die : Nat)
  -- faults, audit, probation, locked pairs (10)
  | sliceFault (slice : Nat)
  | batchWatchdog (slice : Nat)
  | sliceRetireWrite (cluster : Nat) (data : Word)
  | eccCorrected (cluster : Nat)
  | leadCoreFault (core : Nat)
  | leadWatchdog (core : Nat)
  | clusterFault (cluster : Tried Nat Fails)
  | recoveryOverrun
  | auditCompare (query : Nat)
  | auditVote (query : Nat)
  | sliceReadmit (cluster : Nat) (data : Word)
  | readmitBistDone (slice : Nat) (pass : Bool)
  | probationEnd (slice : Nat)
  | sliceAdmission (slice : Nat)
  | lockCompare (dep : Nat)
  | lockVote (dep : Nat)
  -- memory ports (11, 10)
  | memAccessFailure (port tag : Nat) (write : Bool) (resp : MemResp)
  | memAccessTimeout (port tag : Nat) (write : Bool)
  | memAccessRetry (port tag : Nat) (write : Bool)
  | lateResponse (port tag : Nat) (write : Bool)
  | journalStallRetry (port tag : Nat)
  | journalFormat (part : Nat) (data : Word)
  | journalFormatDone (part : Nat)
  | journalResume (part : Nat) (data : Word)
  | journalDisable (part : Nat) (write : MpData)
  | poolEnable (part pool : Nat) (data : Word)
  | poolDisable (part pool : Nat) (write : MpData)
  -- node caches (11)
  | l1OwnRequest (cluster : Nat) (line : Tried Nat (List MemFail))
  | ownGrant (cluster line : Nat)
  | recall (cluster line : Nat)
  | recallResponse (cluster : Nat) (line : Tried Nat (List MemFail))
  | l1Writeback (cluster : Nat) (line : Tried Nat (List MemFail))
  | writebackAck (cluster line : Nat)
  | homeBankWrite (port tag : Nat)
  | preloadGo (cluster : Nat) (data : Word)
  | preloadUnlock (cluster : Nat) (data : Word)
  -- mint (08)
  | mintBuild (part : Nat) (fails : Fails)
  | mintRefit (part : Nat) (fails : Fails)
  | mintDrainEnd
  | mintComplete (port tag : Nat)
  | mintRingEnable (part : Nat) (write : MpData)
  | mintRingDisable (part : Nat) (write : MpData)
  | mintTailWrite (part aclk : Nat) (data : Word)
  -- power (12)
  | wclkAck (level : Bool)
  | vidAck (level : Bool)
  | wclkAckLate
  | powerEstimateTick
  | budgetReleaseTick
  | thermalStep (readings : List (Nat × Byte))
  | marginSample (reports : List (Nat × Byte))
  | fixedModeWrite (data : Word)
  | squallBegin (slice : Nat)
  | squallEnd (slice : Nat)
  | squallLogClose
  | drizzleStart
  | drizzleEnd
  | hintPreRamp (index : Nat)
  | hintTakeoverExpiry (index : Nat)
  | hintPhaseEnd (index : Nat)
  | budgetCapEffective
  -- time base and till (12, 14)
  | tbTick
  | syncWord (w : Dword)
  | syncMissed
  | tbNotick
  | tbWallSetLo (data : Word)
  | tbWallSetHi (data : Word)
  | tillEnable (data : Word)
  | tillBoundaryClose
  -- pair lock, fuses (14)
  | pairLock (part : Nat) (data : Word)
  | fuseBlowDbgKill (data : Word)
  | fuseRevokeKey (data : Word)
  | fuseProgramDone
  -- rows the table lists last
  | counterLowWordRead (off : BitVec 24)
  | tbAdvancesOnAclk
  | gateRecordAck (port tag : Nat)
  | preloadComplete (cluster : Tried Nat Fails)
  | tapInstruction (code : TapInstr)
  deriving DecidableEq, Repr

end Sys2Proof
end

