-- ==== Sys2Proof/Decode.lean ====
section
/-! DEFINITION. The commands of this block are spelled by no words: spec/opcode_table.json gives bits to no row. -/

namespace Sys2Proof

/-- The command a word spells: none, since no row of the table has bits. -/
def decodeTableWord (_nbits _w : Nat) : Option Instr := none

end Sys2Proof
end

