-- ==== Sys2Proof/Machine/State.lean ====
section
/-! DEFINITION. The state of one Limwin LW4 instance as plain data: every register, queue, buffer, counter, mode and pin
the manual names, the memory behind the memory ports, and the queue of waiting commands. Repeated blocks are sparse
maps from index to value (`NMap`), whose unlisted entries stand at their reset value. -/

namespace Sys2Proof.Machine

/-- A sparse map from indices: a list of pairs, keys strictly rising, no entry equal to what an unlisted key reads as. -/
abbrev NMap (β : Type) := List (Nat × β)

/-- The bytes behind the memory ports, by system address (R316 to R324). -/
abbrev Memory := List Host.Cell

/-! ## Build, start-up, security -/

/-- What the build fixes and GEN_CFG reports (R3, R7). -/
structure Build where
  clusters : Nat := 16
  dlinks : Nat := 4
  plru : Bool := true
  deriving DecidableEq, Repr

/-- Engine states of Table 13.2. -/
inductive EngState where
  | fuse | load | auth | apply | bist | admitting | sync | replay | opened | failed | tripped
  deriving DecidableEq, Repr

/-- What the applied configuration image leaves in the image store (R370, R379 to R381). -/
structure ImageStore where
  version : Word := 0
  svn : Nat := 0
  keyIdx : Nat := 0
  leadFw : List Byte := []
  vf : List (Nat × Nat) := []
  energy : List Word := []
  regInit : List (Word × Word) := []
  deriving DecidableEq, Repr

/-- A queued IMAGE_WRITE operation (Table 9.14). -/
structure ImgOp where
  op : Nat
  slot : Nat
  offset : Nat
  version : Word
  data : List Byte
  deriving DecidableEq, Repr

/-- Start-up state (R372, R386 to R391) and the pins it samples. -/
structure Boot where
  porst : Bool := true
  inst : BitVec 23 := 0
  phase : EngState := .fuse
  failcode : Byte := 0
  warm : Bool := false
  rolledBack : Bool := false
  trial : Bool := false
  slot : Nat := 0
  version : Word := 0
  openedOnce : Bool := false
  /-- The bring-up under way is a warm one (R373). -/
  warmUp : Bool := false
  /-- SFDP discovery has ended (R377). -/
  sfdpOk : Bool := false
  sizeLog2 : Nat := 0
  readMode : Nat := 0
  pageSize : Nat := 256
  quadReq : Nat := 0
  /-- Erase types: exponent of the size, longest erase in ns; longest page program in ns; zero where the table gives no time. -/
  eraseTypes : List (Nat × Nat) := []
  programMax : Nat := 0
  /-- Fast read: instruction, dummy clocks, mode clocks (R377). -/
  fastRead : Nat × Nat × Nat := (0, 0, 0)
  /-- The commit record that the loader is programming: ATTEMPT or ROLLBACK (R386, R389). -/
  recOut : Option Nat := none
  /-- The slot being read and authenticated, and the slots found unusable with the reason as a code of R388 (R386). -/
  trying : Option Nat := none
  tryTrial : Bool := false
  unusable : List (Nat × Byte) := []
  /-- VERSION of the trial this bring-up withdrew, and that the slot tried is the fallback of R386. -/
  withdrawn : Option Word := none
  fellBack : Bool := false
  image : ImageStore := {}
  updQ : List ImgOp := []
  updRun : Bool := false
  /-- Elapsed time at which the operation that runs began (R377). -/
  updAt : Nat := 0
  /-- The running image booted as a trial (R387). -/
  trialBoot : Bool := false
  updResult : Byte := 0
  /-- VERSION of the verified image of the inactive slot, while it carries a verified mark (R387). -/
  verified : Option Word := none
  /-- Elapsed time at which the lead cores began to run (R291). -/
  ranSince : Nat := 0
  tap : TapInstr := .idcode
  deriving DecidableEq, Repr

/-- Fuses of Table 14.6 and the fused lead-core codes of R344. -/
structure Fuses where
  dbgKill : Bool := false
  flashSlow : Bool := false
  keyHash : List (List Byte) := []
  revoke : BitVec 4 := 0
  svn : Nat := 0
  kroot : List Byte := []
  leadCodes : NMap Byte := []
  deriving DecidableEq, Repr

/-- A fuse being programmed (R404). -/
inductive FuseCmd where
  | dbgKill
  | revoke (slot : Nat)
  deriving DecidableEq, Repr

/-- Security unit registers (R404, R406, R422). -/
structure Sec where
  busy : Option FuseCmd := none
  refused : Bool := false
  events : Word := 0
  deriving DecidableEq, Repr

/-! ## Time base and power -/

/-- The time-base unit (R361 to R369). -/
structure Tb where
  tb : Dword := 0
  lock : Bool := false
  /-- A first sync word has been taken since PORST_N. -/
  taken : Bool := false
  fault : Bool := false
  notick : Bool := false
  /-- Ticks have returned while NOTICK still reads 1 (R364). -/
  ticksBack : Bool := false
  /-- While slewing, the TB a unit without the lead would hold (R363). -/
  slew : Option Dword := none
  slips : Byte := 0
  missed : Byte := 0
  /-- Elapsed time at which the missed-sync window opened (R364). -/
  window : Option Nat := none
  /-- The first miss after a taken word has been raised. -/
  missRaised : Bool := false
  lastGood : Dword := 0
  wall : Dword := 0
  staged : Word := 0
  deriving DecidableEq, Repr

/-- The clock or supply step in progress (R340): `vidUp` raises VID before a faster code, `clk` waits for WCLK_ACK (its
flag tells whether VID is lowered after), `vidDown` lowers VID last. -/
inductive Shake where
  | idle
  | vidUp
  | clk
  | vidDown
  deriving DecidableEq, Repr

/-- A pre-ramp in progress (R358): power at its start, target power, start and end in elapsed ns, with dummy MACs or box
tests. -/
structure PreRamp where
  p0 : Nat
  target : Nat
  start : Nat
  stop : Nat
  macs : Bool
  deriving DecidableEq, Repr

/-- A pending HINT (R358), in elapsed ns, with its pre-ramp once that has begun. -/
structure Hint where
  start : Nat
  stop : Nat
  arrived : Nat
  hclass : Nat
  level : Nat
  ramp : Option PreRamp := none
  deriving DecidableEq, Repr

/-- Drizzle in progress: the power it started from (0.125 W), the start, and the level its floor starts at in 0.1 % of P0
(R359), or a hinted floor falling from a hinted level (R358). -/
structure Drizzle where
  p0 : Nat
  start : Nat
  floorPm : Nat
  deriving DecidableEq, Repr

/-- A throttle-log entry (R356). -/
structure TLog where
  reason : Nat := 0
  isOpen : Bool := false
  start : Dword := 0
  stop : Dword := 0
  deriving DecidableEq, Repr

/-- The power controller (R339 to R360, R368). -/
structure Pwr where
  fixed : Bool := false
  fmax : BitVec 7 := 84
  code : BitVec 7 := 0
  vid : Byte := 0
  reqCode : BitVec 7 := 0
  reqVid : Byte := 0
  wclkReq : Bool := false
  wclkAck : Bool := false
  vidReq : Bool := false
  vidAck : Bool := false
  shake : Shake := .idle
  shakeStart : Nat := 0
  shakeLate : Bool := false
  budgetPos : Nat := 0
  /-- The budget position that a clock step takes once its handshakes are complete (R352). -/
  budgetNext : Option Nat := none
  thermPos : Nat := 0
  cap : Word := 0xFFFFFFFF
  bcap : Word := 0xFFFFFFFF
  pendCap : Option (Word × Dword) := none
  ests : List Nat := []
  energy : Dword := 0
  energyRem : Nat := 0
  activity : List Nat := []
  target : Byte := 100
  sensors : NMap Byte := []
  slope : Byte := 20
  floor : Byte := 60
  lead : Byte := 20
  hints : List Hint := []
  drizzle : Option Drizzle := none
  /-- Hinted floors that real work has not taken over, falling (R358). -/
  falls : List Drizzle := []
  /-- The last estimate without drizzle and pre-ramps (R359), and the egress flits counted up to it. -/
  bare : Nat := 0
  flitsSeen : Nat := 0
  drzCount : Word := 0
  trim : Byte := 0
  worst : Byte := 0
  tlog : NMap TLog := []
  tlogHead : Word := 0
  tlogSel : Byte := 0
  /-- Throttle reasons active, with one more than the number of the log entry each opened (R355, R356). -/
  active : NMap Nat := []
  tcum : NMap Dword := []
  sq : NMap Word := []
  /-- Elapsed time at which the last stretched slice recovered (R346). -/
  lastStretch : Nat := 0
  /-- Elapsed times of the last estimate, of the last budget release and of the last thermal move (R347, R349, R352), and
  the number of the 1 ms TB boundary last sampled (R343). -/
  estAt : Nat := 0
  relAt : Nat := 0
  thermAt : Nat := 0
  marginMs : Nat := 0
  deriving DecidableEq, Repr

/-! ## Fabric -/

/-- One count per ordering class (Table 9.4). -/
structure Four where
  ctrl : Nat := 0
  work : Nat := 0
  resp : Nat := 0
  dlv : Nat := 0
  deriving DecidableEq, Repr

/-- A message leaving the engine (Table 9.2). LEN is the payload's length. -/
structure OutMsg where
  port : Nat
  cls : Nat
  type : Byte
  flags : Byte
  stream : Half
  sgen : Byte
  seq : Word
  peer : Word
  payload : List Byte
  deriving DecidableEq, Repr

/-- A fabric port (R242 to R251, R276). `buf` holds the flits in the input buffer: class and home cluster. -/
structure Port where
  en : Bool := false
  egress : Four := {}
  ingress : Four := {}
  buf : List (Nat × Nat) := []
  deferred : List Nat := []
  badmsg : Nat := 0
  up : Bool := false
  deriving DecidableEq, Repr

/-- A stream-table entry (R252). -/
structure Stream where
  en : Bool := false
  closing : Bool := false
  port : BitVec 6 := 0
  gen : Byte := 0
  part : BitVec 5 := 0
  rights : Byte := 0
  anysrc : Bool := false
  owner : BitVec 20 := 0
  lastAcc : Word := 0
  deriving DecidableEq, Repr

/-- Gate bits held for a deposit not yet journaled, and the EVENTs waiting for its record (R268). -/
structure HeldGate where
  stream : Half
  sgen : Byte
  seq : Word
  bits : Half
  waiters : List (Nat × Msg)
  deriving DecidableEq, Repr

/-- A HEALTH event (R273, R312). -/
structure Health where
  code : Half
  unit : Half
  part : Byte
  severity : Byte
  tb : Dword
  detail : List Byte
  deriving DecidableEq, Repr

/-- What an MPORT write can order against an in-band message (R15): the TAIL of a mint ring, the close of a stream, a journal or a
buffer pool turned off. -/
inductive MpOrder where
  | tail (part v : Nat)
  | close (stream : Nat)
  | noJournal (part : Nat)
  | noPool (part pool : Nat)
  deriving DecidableEq, Repr

/-- Instance-level fabric state (R252, R273, R275, R276). -/
structure Fab where
  idx : Half := 0
  hEn : Bool := false
  hPort : BitVec 6 := 0
  hEp : BitVec 20 := 0
  strmFull : Bool := false
  hlost : Nat := 0
  refuses : NMap Word := []
  hq : List Health := []
  hseq : Word := 0
  heldGates : List HeldGate := []
  /-- The pclk last acted in and the messages taken in it, with their types (R275). -/
  arbPclk : Nat := 0
  arbTaken : List (Byte × Msg) := []
  /-- What MPORT writes of the last aclk cycle ordered, with the cycle (R15). -/
  mportOrders : List (Nat × MpOrder) := []
  egressQ : List (OutMsg × Nat) := []
  sent : List OutMsg := []
  /-- Flits that have left on all ports (R349). -/
  flitsOut : Nat := 0
  deriving DecidableEq, Repr

/-! ## Partitions -/

/-- Partition states of Table 14.1. -/
inductive PState where
  | empty | loaded | draining | isolated | loading
  deriving DecidableEq, Repr

/-- A partition window (R324, Table 11.4). -/
structure Win where
  base : Addr := 0
  limit : Addr := 0
  tgt : Addr := 0
  en : Bool := false
  rd : Bool := false
  wr : Bool := false
  persist : Bool := false
  deriving DecidableEq, Repr

/-- A result buffer (R102 to R105): GEN, the deposit that claims it, the owner tag (partition, stream). -/
structure Buf where
  gen : Byte := 0
  claim : Option Nat := none
  owner : Option (Nat × Nat) := none
  deriving DecidableEq, Repr

/-- A result pool (R103). -/
structure Pool where
  base : Addr := 0
  count : Half := 0
  sizeLog2 : BitVec 5 := 0
  en : Bool := false
  draining : Bool := false
  bufs : NMap Buf := []
  deriving DecidableEq, Repr

/-- A partition's journal controls (R277, R278, R314). `rings` holds, for each ring, the number of records written since
formatting: slot and LAP of the next record follow from it (R281). -/
structure Jrnl where
  base : Addr := 0
  jlog2 : BitVec 5 := 0
  resume : Bool := false
  en : Bool := false
  formatting : Bool := false
  replaying : Bool := false
  rings : NMap Nat := []
  /-- Deposits replayed and those of them not yet retired (R307). -/
  replayed : Nat := 0
  replayLeft : List Nat := []
  deriving DecidableEq, Repr

/-- A record waiting to be written into a capture ring (R410). -/
structure CapRec where
  tb : Dword
  port : Nat
  /-- The answer, once decided. -/
  answer : Option Byte
  msg : List Byte
  /-- The END record of STOP. -/
  last : Bool := false
  deriving DecidableEq, Repr

/-- A partition's capture state (R409 to R411, R423). -/
structure Cap where
  active : Bool := false
  cut : Bool := false
  memfail : Bool := false
  ovf : Bool := false
  paced : Bool := false
  wr : Word := 0
  rd : Word := 0
  base : Nat := 0
  log2 : Nat := 0
  num : Nat := 0
  queue : List CapRec := []
  deriving DecidableEq, Repr

/-- A replay in progress (R412 to R414). -/
structure Replay where
  base : Nat
  log2 : Nat
  pos : Nat := 0
  lastNum : Option Nat := none
  firstTb : Option Dword := none
  startTb : Dword
  count : Nat := 0
  deriving DecidableEq, Repr

/-- An open till interval (R416, R418). -/
structure Till where
  start : Dword := 0
  queries : Dword := 0
  visits : Dword := 0
  busy : Dword := 0
  step : Dword := 0
  back : Bool := false
  fwd : Bool := false
  reset : Bool := false
  deriving DecidableEq, Repr

/-- A till snapshot (R417, R419, Table 14.13). -/
structure Snap where
  seq : Word := 0
  valid : Bool := false
  skipped : Nat := 0
  missed : Bool := false
  reset : Bool := false
  fwd : Bool := false
  back : Bool := false
  start : Dword := 0
  stop : Dword := 0
  bound : Dword := 0
  queries : Dword := 0
  visits : Dword := 0
  busy : Dword := 0
  step : Dword := 0
  deriving DecidableEq, Repr

/-- A kernel descriptor (Table 7.1). -/
structure KDesc where
  codeOfs : Nat := 0
  codeLen : Nat := 0
  width : Nat := 0
  ngroups : Nat := 0
  nreg : Nat := 0
  lsplit : Nat := 0
  lsGroup : Nat := 0
  flags : Byte := 0
  deriving DecidableEq, Repr

/-- A task-graph node (Table 7.7). -/
structure GNode where
  op : Nat
  prio : Nat
  kernel : Nat
  mask : Word
  addr : Dword
  arg : Word
  deriving DecidableEq, Repr

/-- A task graph (Table 7.6); no node marks an empty slot (Table 14.4). -/
structure Graph where
  gather : Nat := 0
  nodes : List GNode := []
  deriving DecidableEq, Repr

/-- A partition's mint ring (R221, R222). -/
structure MRing where
  base : Addr := 0
  irqEn : Bool := false
  sizeLog2 : BitVec 4 := 0
  en : Bool := false
  tail : BitVec 12 := 0
  head : BitVec 12 := 0
  deriving DecidableEq, Repr

/-- A partition (R392 to R423). -/
structure Part where
  st : PState := .empty
  loadfail : Byte := 0
  quotaCtx : BitVec 20 := 0
  liveMax : Half := 0
  codePages : BitVec 6 := 0
  ways : BitVec 4 := 0
  lockEn : Bool := false
  lockRole : Bool := false
  lockPeer : BitVec 5 := 0
  /-- A deposit of the locked pair stayed split (R311). -/
  split : Bool := false
  seed : Dword := 0
  /-- The wclk up to which a live context of it has run or been launched (R219). -/
  ranAt : Nat := 0
  kernels : NMap KDesc := []
  graphs : NMap Graph := []
  code : List Dword := []
  pages : Nat := 0
  /-- The load image being read: address, length, and the windows in force at END (R397). -/
  loadReq : Option (Nat × Nat × NMap Win) := none
  wins : NMap Win := []
  pools : NMap Pool := []
  dfree : Word := 0
  ffree : Word := 0
  spill : Addr := 0
  jrnl : Jrnl := {}
  mring : MRing := {}
  cap : Cap := {}
  replay : Option Replay := none
  till : Option Till := none
  snap : Snap := {}
  deriving DecidableEq, Repr

/-! ## Caches -/

/-- A cached line (R327, R328): its way, its system line number (address / 64), the partition that filled it, its data.
In L1 `owned` marks an owned scratch line (R331). In L2 `sharers` and `owner` are its directory entry (R334). -/
structure CLine where
  way : Nat
  line : Nat
  part : Nat
  data : List Byte
  owned : Bool := false
  sharers : BitVec 16 := 0
  owner : Option Nat := none
  deriving DecidableEq, Repr

/-- A cache with its replacement state (R329): the LFSR, and the tree bits of each set. -/
structure Cache where
  lines : List CLine := []
  lfsr : Half := 0xACE1
  tree : NMap Nat := []
  deriving DecidableEq, Repr

/-- Messages of an L1 to a home bank, and of a home bank to an L1, whose order R333 keeps. An OWN is sent in the wclk in which
the bank takes it (log 15). -/
inductive UpMsg where
  | writeback
  | response
  deriving DecidableEq, Repr
inductive DownMsg where
  | grant
  | recall
  | ack
  deriving DecidableEq, Repr

/-- A home bank (R327, R330 to R334, R336): its L2 lines, the recall responses on their way to it with the cluster that
sent each, the recalls it has sent (line, owner, the cluster whose OWN waits), the bank that took over from it. -/
structure Bank where
  l2 : Cache := {}
  q : List (Nat × CLine) := []
  recalls : List (Nat × Nat × Option Nat) := []
  takenBy : Option Nat := none
  deriving DecidableEq, Repr

/-! ## Clearing and queries -/

/-- Test classes of R138. -/
inductive TestClass where
  | ray | distance | point | leaf
  deriving DecidableEq, Repr

/-- A tree handle (Table 2.3). -/
structure Handle where
  base : Dword := 0
  epoch : Word := 0
  treeId : Half := 0
  deriving DecidableEq, Repr

/-- The key of a node queue (R138). -/
structure NodeKey where
  part : Nat
  base : Dword
  epoch : Word
  line : Nat
  cls : TestClass
  /-- The run of a locked pair, which shares no batch with another (R309). -/
  run : Nat := 0
  deriving DecidableEq, Repr

/-- A waiting query and the wclk of its arrival. -/
structure Member where
  uid : Nat
  arrived : Nat
  deriving DecidableEq, Repr

/-- A node queue (R138 to R140): its head line has been read and the lines after it are on their way; the wclk at which all of
them became present. -/
structure NQueue where
  id : Nat
  key : NodeKey
  members : List Member
  headIn : Bool := false
  readyAt : Option Nat := none
  ripe : Bool := false
  deriving DecidableEq, Repr

/-- A member of the straggler queue (R138 to R140). -/
structure Straggler where
  id : Nat
  key : NodeKey
  member : Member
  headIn : Bool := false
  readyAt : Option Nat := none
  deriving DecidableEq, Repr

/-- A batch at a slice (R140, R141), with the wclk of its release. -/
structure Batch where
  key : NodeKey
  members : List Nat
  released : Nat
  deriving DecidableEq, Repr

/-- A forward queue (R145, R146). -/
structure FwdQueue where
  die : Nat
  part : Nat
  members : List Member
  deriving DecidableEq, Repr

/-- A held result (Table 3.7 without its identity). -/
structure Held where
  prim : Word
  leaf : Word
  x0 : Word
  x1 : Word
  x2 : Word
  ord : Byte
  flags : Byte
  deriving DecidableEq, Repr

/-- A stacked child (R134): line, path key, and what its slot says of it: T_out (R113) and whether it is a leaf (R52). A member
record carries no T_out (R151): `known` is false for a child that came in one (log 28). -/
structure Child where
  line : Nat
  key : Word
  tout : Word := 0
  leaf : Bool := false
  known : Bool := true
  deriving DecidableEq, Repr

/-- A volume leaf a MARCH walk collected (R90): leaf address, segment as FP32, PRIM_ID[0], and the payload read in the
walk, of a brick or of a blob. -/
structure Vol where
  leaf : Nat
  t0 : Word
  t1 : Word
  prim : Word
  neural : Bool
  payload : List Byte
  deriving DecidableEq, Repr

/-- One visit of a visit trace (R301): line, accepted-slot mask or leaf outcome, slice. -/
structure Visit where
  line : Nat
  outcome : Nat
  slice : Nat
  deriving DecidableEq, Repr

/-- Tracking of a MARCH query so far (R90): t, tr, n, and whether a density was clamped. -/
structure Track where
  t : Word
  tr : Word := 0x3F800000
  n : Nat := 0
  clamped : Bool := false
  deriving DecidableEq, Repr

/-- Where a query stands. `ready` is in a node queue or batch; `older` waits under R47 (elapsed time of the first and of
the last read that found it older); `spill` waits for a spilled line; `leafKernel` for a leaf kernel; `march` has walked
and tracks next; `tasks` has ended traversal and runs its other nodes; `ended` has ended and waits for its audit
comparison; `forwarding` waits in a forward queue; `transit` is frozen under R146; `returned` waits for RET_ACK. -/
inductive QSt where
  | ready
  | older (line : Nat) (first last : Nat)
  | spill
  | leafKernel
  | march
  | tasks
  | ended
  | forwarding
  | transit (xfer : Word)
  | returned (xfer : Word)
  deriving DecidableEq, Repr

/-- A sharding entry (Table 2.19). -/
structure ShardEnt where
  lo : Nat
  die : Nat
  fallback : Dword
  deriving DecidableEq, Repr

/-- The parts of an image header and sharding record a walk uses (Tables 2.4, 2.19). -/
structure ImgHdr where
  dims : Nat
  lineCount : Nat
  root : Nat
  repl : Nat := 0
  shards : List ShardEnt := []
  deriving DecidableEq, Repr

/-- What a leaf kernel may change of a visitor, as it stood at the launch (log 29). -/
structure Undo where
  held : List Held
  capped : Bool
  rv : Word
  rngWord : Nat
  staged : List (List Byte)
  deriving DecidableEq, Repr

/-- A query context (R77, R132, Table 5.7). `stack` lists the children on chip, top first; `spilled` those in the spill
slot, bottom first. `run` is 0 but for the follower's run (1) and third run (2) of a locked pair. -/
structure Query where
  uid : Nat
  dep : Nat
  part : Nat
  qid : Word
  bounce : Nat := 0
  bytes : List Byte
  handle : Handle
  hdr : ImgHdr
  graphId : Nat
  cluster : Nat
  slice : Nat
  slot : Nat := 0
  st : QSt := .ready
  /-- The status a pinned copy ended with. -/
  status : Option Byte := none
  /-- The child being visited or queued for. -/
  next : Child := { line := 0, key := 0 }
  stack : List Child := []
  spilled : List Child := []
  held : List Held := []
  capped : Bool := false
  total : Nat := 0
  visits : Nat := 0
  rngWord : Nat := 0
  rv : Word := 0
  staged : List (List Byte) := []
  created : Nat := 0
  bits : Half := 0
  /-- Per graph node, the wclk at which the query became ready for it (R214). -/
  readyAt : NMap Nat := []
  vols : List Vol := []
  track : Option Track := none
  trace : List Visit := []
  /-- The slices that ran a visit of it, with one more than the wclk of the last (R302). -/
  ran : NMap Nat := []
  shadowOf : Option Nat := none
  /-- A third copy: the shadow it votes with (R302). -/
  voteWith : Option Nat := none
  pin : Option Nat := none
  run : Nat := 0
  /-- DEP_REF of its member records: the deposit at the home die and the task graph (Table 5.7). -/
  depRef : Dword := 0
  /-- The home die of a visitor query and its transit ID (R147). -/
  visitor : Option (Nat × Word) := none
  undo : Option Undo := none
  /-- Its family runs again under R292, so the till does not charge its work (R416). -/
  rerun : Bool := false
  /-- The family has lost a spill access once (R296). -/
  spillFails : Nat := 0
  /-- A final memory failure of R297 touched this query. -/
  memEvent : Bool := false
  deriving DecidableEq, Repr

/-- A completed query with the dispatcher of its home cluster (R132). -/
structure Done where
  qid : Word
  bounce : Nat
  status : Byte
  total : Nat
  visits : Nat
  rv : Word
  held : List Held
  kind : Nat
  run : Nat := 0
  ran : NMap Nat := []
  /-- In a locked pair, its visit trace (R310). -/
  trace : List Visit := []
  /-- A final memory failure of R297 touched it. -/
  memEvent : Bool := false
  deriving DecidableEq, Repr

/-- Steps of a deposit (Tables 1.5 and 10.5). `journal` waits for its record; `held` is accepted and waits for a release
stamp or the mint; `reading` reads the header and the query records; `running` runs queries and tasks; `writing` has
its header write outstanding; `delivered` waits for its turn to send the RECEIPT; `receipt` waits for RECEIPT_ACK;
`retiring` waits for its RETIRE record; `split` is a locked-pair deposit no two runs agree on. -/
inductive DStep where
  | journal | held | reading | running | writing | delivered | receipt | retiring | split
  deriving DecidableEq, Repr

/-- One run's outputs of a locked pair's deposit (R310). -/
structure RunOut where
  run : Nat
  records : List (List Byte)
  receipt : List Byte
  memEvent : Bool
  traces : List (Word × Nat × List Visit)
  deriving DecidableEq, Repr

/-- A deposit (R257, R280, R282). -/
structure Dep where
  id : Nat
  part : Nat
  stream : Half
  sgen : Byte
  seq : Word
  port : Nat
  peer : Word
  qbase : Dword
  qcount : Nat
  graphId : Nat
  timed : Bool
  handle : Handle
  dmode : Nat
  terse : Bool
  endpoint : Word
  buffer : Word := 0
  release : Dword
  gate : Half := 0
  home : Nat
  ring : Nat
  pos : Nat
  step : DStep
  arrived : Nat := 0
  answered : Bool := false
  /-- DEPOSITs held under R287 and GATE EVENTs that wait for its record (R268), with the elapsed time of their arrival. -/
  dupHeld : List (Nat × Msg) := []
  gateWaiters : List (Nat × Msg) := []
  mintHeld : Bool := false
  stampReached : Bool := true
  hdr : Option ImgHdr := none
  hdrRead : Bool := false
  hdrStatus : Option Byte := none
  /-- Lines of the header and the sharding run read so far, each once it was current (R44). -/
  hdrLines : List (List Byte) := []
  /-- The line waited for under R47: line, elapsed time of the first and of the last read that found it older. -/
  hdrOlder : Option (Nat × Nat × Nat) := none
  nextIdx : Nat := 0
  done : List Done := []
  depBits : Half := 0
  /-- The runs a kernel kill has ended, each with its DSTATUS (R217, R310). -/
  killed : List (Nat × Byte) := []
  bufFault : Bool := false
  /-- Port, partition address and cause of the last final memory failure that touched it (R297). -/
  memFault : Option (Nat × Nat × Nat) := none
  receipt : List Byte := []
  receiptAt : Nat := 0
  resends : Nat := 0
  redirected : Bool := false
  stopDelivery : Bool := false
  freeList : List Word := []
  rreason : Byte := 0
  replayed : Bool := false
  injected : Bool := false
  runs : List RunOut := []
  /-- The slices that ran visits of its completed queries, with one more than the wclk of the last (R302). -/
  ran : NMap Nat := []
  /-- The third run of a locked pair is under way (R310). -/
  third : Bool := false
  /-- The till has counted it (R416). -/
  charged : Bool := false
  /-- The owner tag its buffer carried before the claim (R104). -/
  prevOwner : Option (Nat × Nat) := none
  /-- Its FREE and RETIRE records are being written (R281). -/
  retireOn : Bool := false
  deriving DecidableEq, Repr

/-! ## Hit cores -/

/-- An atomic operation waiting for its line (R331), by system and partition address. -/
structure AtomReq where
  addr : Nat
  paddr : Nat
  part : Nat
  op : Nat
  b : Word
  c : Word
  dst : Nat
  deriving DecidableEq, Repr

/-- What a thread waits for (R197). -/
inductive TWait where
  | run
  | atomic (r : AtomReq)
  | event (mask : Word)
  | barrier
  | work (pred : Nat)
  /-- An older image line under R47 (R196): line, destination, byte, elapsed time of the first and the last read. -/
  | line (line dst byte first last : Nat)
  deriving DecidableEq, Repr

/-- A thread (R186, R187). -/
structure Thread where
  regs : NMap Word := []
  preds : Byte := 0
  pc : BitVec 15 := 0
  calls : List (BitVec 15) := []
  issued : Nat := 0
  exited : Bool := false
  wait : TWait := .run
  /-- The query served, by context, with what SR_QID, SR_BOUNCE and SR_KEY read. -/
  query : Option Nat := none
  qid : Word := 0
  bounce : Nat := 0
  key : Word := 0
  deriving DecidableEq, Repr

/-- A group: its threads by lane and its uniform registers (R186). -/
structure Group where
  threads : List Thread
  uregs : NMap Word := []
  deriving DecidableEq, Repr

/-- A leaf as a kernel sees it (R187, R195). -/
structure LeafInfo where
  line : Nat
  count : Nat
  prims : List Word
  user : Dword
  recBase : Nat
  recLines : Nat
  deriving DecidableEq, Repr

/-- A kernel context (R189, R190). `node` is 255 for a leaf kernel. -/
structure Ctx where
  slice : Nat
  slot : Nat
  gen : Byte
  part : Nat
  dep : Nat
  kernel : Nat
  node : Nat
  leaf : Option LeafInfo := none
  batch : List Nat := []
  launch : Nat
  nq : Nat
  groups : List Group
  localBytes : Nat
  /-- Local store: bytes written since launch. -/
  ls : NMap (Option Byte) := []
  ev : Word := 0
  /-- wclk since when all its groups are blocked in WAITEV or BAR (R219). -/
  blockedAt : Option Nat := none
  run : Nat := 0
  deriving DecidableEq, Repr

/-- A SIGNAL on its way (R207). -/
structure Sig where
  fromPart : Nat
  fromCluster : Nat
  addr : Word
  bits : Word
  deriving DecidableEq, Repr

/-! ## Slices, clusters, links, memory ports -/

/-- Admission of a slice (R293, R304). -/
inductive SliceSt where
  | untested | admitted | retired | bist | probation | waiting
  deriving DecidableEq, Repr

/-- A walker slice (R17). -/
structure Slice where
  st : SliceSt := .untested
  fails : Nat := 0
  compared : Nat := 0
  mismatch : Bool := false
  inQ : List Batch := []
  l0 : Cache := {}
  lsplit : Nat := 0
  splitReady : Nat := 0
  dcache : Cache := {}
  gens : NMap Byte := []
  stretched : Bool := false
  /-- wclk in which the stretch began (R345). -/
  stretchedAt : Nat := 0
  /-- The slice held work at the last TB tick or has taken some since, and the elapsed time at which it was last found to have
  passed to idle (R359). -/
  busy : Bool := false
  idleAt : Option Nat := none
  /-- One more than the wclk in which issue slots A and B last issued, and the bulk-class group (context slot, group) that slot A
  issued from then (R205). -/
  slotA : Nat := 0
  slotB : Nat := 0
  aGroup : Option (Nat × Nat) := none
  /-- wclk of the last matching audit a visit of this slice took part in (R302). -/
  lastMatch : Nat := 0
  /-- TB at which probation ended (R304). -/
  since : Dword := 0
  deriving DecidableEq, Repr

/-- A lead core (R18, R206, R294). -/
structure Lead where
  faulted : Bool := false
  ev : Word := 0
  deriving DecidableEq, Repr

/-- A cluster (R18) with its registers. -/
structure Cluster where
  retired : Bool := false
  adopter : Option Nat := none
  adopted : Option Nat := none
  lead : Nat := 0
  age : Half := 256
  xcluster : Bool := true
  visitMax : Byte := 25
  fwdLow : Byte := 25
  fwdHigh : Byte := 75
  waitMax : Word := 0
  fwdout : Word := 0
  fallback : Word := 0
  /-- One more than the wclk in which its clearing unit last released batches, and last sent one to a cluster (R140, R144). -/
  relAt : Nat := 0
  fwdAt : Nat := 0
  nqs : List NQueue := []
  strag : List Straggler := []
  fqs : List FwdQueue := []
  nextQueue : Nat := 0
  boxtests : Dword := 0
  primtests : Dword := 0
  voidrec : Word := 0
  macs : Dword := 0
  halo8 : Word := 0
  halopair : Word := 0
  unres : Word := 0
  steplim : Word := 0
  nonfin : Word := 0
  holdCred : BitVec 13 := 7168
  stopPull : BitVec 13 := 6144
  ibudget : Word := 0
  deadlocks : Half := 0
  faults : Half := 0
  stalesig : Word := 0
  flogValid : Bool := false
  flogKind : Byte := 0
  flogPart : BitVec 5 := 0
  flogSlice : Byte := 0
  flogKernel : Half := 0
  flogPc : BitVec 15 := 0
  /-- The wclk of the recorded kill, and the group and lane of its thread (R218). -/
  flogAt : Nat := 0
  flogGroup : Nat := 0
  flogLane : Nat := 0
  bpPull : Bool := false
  bpHold : Bool := false
  bpBusy : Bool := false
  auditRate : BitVec 5 := 12
  auditReads : Nat := 0
  rerun : Word := 0
  audits : Word := 0
  amiss : Word := 0
  replay : Word := 0
  cecc : Word := 0
  preAddr : Addr := 0
  preLines : BitVec 15 := 0
  preWays : Half := 0
  prePart : BitVec 5 := 0
  preFail : Bool := false
  /-- A preload in progress: partition, ways (R335). -/
  preload : Option (Nat × Half) := none
  l1 : Cache := {}
  /-- Locked ways and one more than the partition each is locked for (R335). -/
  locks : NMap Nat := []
  /-- Lines preloaded into locked ways: line, way, partition; a lost one is read again into its way (R335). -/
  preloaded : List (Nat × Nat × Nat) := []
  /-- The eviction buffer: `owned` until the home bank has merged the write-back (R332). -/
  evbuf : List CLine := []
  /-- Lines granted to this L1, and recalls on their way to it (R331). -/
  grants : List CLine := []
  recalls : List Nat := []
  wbAcks : List Nat := []
  /-- Messages on their way from this L1 to the home banks, and from them to it, oldest first, each with its line (R333). -/
  up : List (UpMsg × Nat) := []
  down : List (DownMsg × Nat) := []
  bank : Bank := {}
  deriving DecidableEq, Repr

/-- A die link (R157). -/
structure Link where
  en : Bool := false
  rate : Bool := false
  pkgType : Bool := false
  downs : Nat := 0
  badpkt : Nat := 0
  peerDie : BitVec 7 := 0
  peerBad : Bool := false
  repaired : Bool := false
  downEvt : Bool := false
  helloIn : Bool := false
  helloOut : Bool := false
  up : Bool := false
  /-- TB at which both ends had exchanged HELLO (R154). -/
  helloTb : Dword := 0
  deriving DecidableEq, Repr

/-- A packet sent on a die link (Table 5.5). -/
structure OutPkt where
  link : Nat
  type : Byte
  nmemb : Byte
  src : Byte
  dst : Byte
  part : Byte
  arg : Half
  xfer : Word
  payload : List Byte
  deriving DecidableEq, Repr

/-- A forwarded batch at its home die (R146 to R148): `resendAt` is the elapsed time a resend is due after a NACK. -/
structure Transit where
  xfer : Word
  die : Nat
  link : Nat
  part : Nat
  cluster : Nat
  members : List Nat
  sentAt : Nat
  acked : Bool := false
  nacks : Nat := 0
  resendAt : Option Nat := none
  deriving DecidableEq, Repr

/-- Package-domain state (R152 to R154): routes hold 8 + LINK for a valid entry. -/
structure Dom where
  routes : NMap (BitVec 4) := []
  fwdEn : Bool := false
  transits : List Transit := []
  nextXfer : Word := 0
  /-- Dies to which forwarding has stopped, with the TB at which it did (R154). -/
  down : List (Nat × Dword) := []
  sent : List OutPkt := []
  deriving DecidableEq, Repr

/-- A memory port (R337). -/
structure MPort where
  en : Bool := false
  errors : Byte := 0
  poison : Byte := 0
  timeouts : Byte := 0
  late : Byte := 0
  deriving DecidableEq, Repr

/-- What an outstanding access serves (R296). -/
inductive Purpose where
  | depositRec (dep : Nat)
  | gateRec (dep : Nat) (bits : Half) (ms : List (Nat × Msg))
  | freeRec (dep : Nat)
  | retireRec (dep : Nat)
  | format (part : Nat)
  | queryRec (dep idx : Nat)
  | rerun (dep idx run fails : Nat)
  | header (dep : Nat)
  | node (uid : Nat)
  | reread (uid : Nat)
  | spillRd (uid : Nat)
  | spillWr (uid : Nat)
  | resultRec (dep : Nat)
  | resultHdr (dep : Nat)
  | reduce (dep node : Nat)
  | mintLine
  | mintHeader
  | mintRec
  deriving DecidableEq, Repr

/-- Progress of an access (R318, R296, R322): `queued` waits for MEM_n_CTL.EN (R337). -/
inductive AccSt where
  | queued
  | out
  | retryAt (t : Nat)
  | stalled (t : Nat)
  deriving DecidableEq, Repr

/-- An outstanding access of a memory port (R317, R318). -/
structure Acc where
  port : Nat
  tag : Nat
  write : Bool
  part : Nat
  /-- System address, and the partition address it came from. -/
  addr : Nat
  paddr : Nat
  data : List Byte
  /-- RQATTR.PERSIST of its request, copied from the window that translated it (R317, R324). -/
  persist : Bool := false
  purpose : Purpose
  /-- Repeats so far; from 4 on, those of a record write that failed finally and is repeated without end (R296). -/
  tries : Nat := 0
  issued : Nat
  st : AccSt := .out
  /-- A write the home bank has already forwarded (R330). -/
  applied : Bool := false
  deriving DecidableEq, Repr

/-- A tag whose response has not arrived though nothing waits for it: timed out (R322), or given up with the work it
served. -/
structure LateTag where
  port : Nat
  tag : Nat
  write : Bool
  timedOut : Bool
  deriving DecidableEq, Repr

/-! ## Mint -/

/-- The mint's current command (R221 to R239). -/
structure MintCmd where
  part : Nat
  index : Nat
  desc : List Byte
  target : Dword
  epoch : Word
  /-- The command waits for older deposits (R238). -/
  drain : Bool := false
  /-- Writes not yet issued, by partition address, in order; the header of an in-place refit is last (R237). -/
  writes : List (Nat × List Byte) := []
  status : Byte := 0
  /-- Completion fields (Table 8.5): EPOCH, LINE_COUNT, PLACED, VOIDS, NODES, Q8NODES, Q3NODES, DEPTH. -/
  fields : List Nat := []
  tbStart : Dword := 0
  notify : Word := 0
  prims : Nat := 0
  lines : Nat := 0
  completing : Bool := false
  /-- A write of the command failed finally (R239, R297). -/
  failed : Bool := false
  /-- The ring goes off when the command ends (Table 8.2). -/
  stop : Bool := false
  deriving DecidableEq, Repr

/-- The mint (R241). -/
structure Mint where
  cur : Option MintCmd := none
  /-- Partition, target and epoch of a command a warm reset ended, which starts again (R239). -/
  redo : Option (Nat × Dword × Word) := none
  lastPart : BitVec 5 := 31
  doneEvt : Bool := false
  prims : Dword := 0
  part : BitVec 5 := 0
  deriving DecidableEq, Repr

/-- Till control (R417, R423). -/
structure TillCtl where
  en : Bool := false
  irqEn : Bool := false
  period : Word := 3600
  bhi : Dword := 0
  deriving DecidableEq, Repr

/-- A deposit retired after its RECEIPT: what SUSPECT_DELIVERED says of it, and the slices it ran on (R303). -/
structure Sent where
  dep : Nat
  part : Nat
  home : Nat
  stream : Half
  sgen : Byte
  seq : Word
  ran : NMap Nat
  deriving DecidableEq, Repr

/-- A family under R292: deposit, bits [11:0] of the query ID, run of a locked pair. -/
abbrev Fam := Nat × Nat × Nat

/-- A recovery (R290, R299): its start in elapsed ns, the families it discarded, whether two others were in progress when it began,
whether RECOVERY_OVERRUN has been raised for it. -/
structure Recov where
  start : Nat
  fams : List Fam
  third : Bool
  reported : Bool := false
  deriving DecidableEq, Repr

/-- A shadow that waits for a context: its original and the slice it is pinned to (R300, R304). -/
structure ShadowDue where
  orig : Query
  pin : Nat
  deriving DecidableEq, Repr

/-- One Limwin LW4 instance. -/
structure State where
  build : Build := {}
  boot : Boot := {}
  /-- Flash device contents: bytes that differ from the erased 0xFF (R378), and its SFDP bytes (R377). -/
  flash : NMap Byte := []
  sfdp : List Byte := []
  fuses : Fuses := {}
  sensed : Fuses := {}
  sec : Sec := {}
  tbu : Tb := {}
  pwr : Pwr := {}
  ports : NMap Port := []
  strms : NMap Stream := []
  fab : Fab := {}
  mports : NMap MPort := []
  ilv : BitVec 5 := 12
  mem : Memory := []
  accs : List Acc := []
  lateTags : List LateTag := []
  parts : NMap Part := []
  clusters : NMap Cluster := []
  slices : NMap Slice := []
  leads : NMap Lead := []
  deps : List Dep := []
  queries : List Query := []
  /-- Originals with a shadow, as they ended traversal, kept for the comparison (R301), with their status. -/
  snaps : List (Query × Byte) := []
  shadowsDue : List ShadowDue := []
  recovs : List Recov := []
  /-- Retired deposits whose visits no later matching audit has covered (R303). -/
  delivered : List Sent := []
  ctxs : List Ctx := []
  signals : List Sig := []
  links : NMap Link := []
  dom : Dom := {}
  mint : Mint := {}
  tillCtl : TillCtl := {}
  /-- One latch per 64-bit counter, by the offset of its low word (R14). -/
  latches : NMap Word := []
  mportRdata : Word := 0
  /-- Elapsed time in ns since cold reset, as R429 measures durations; wclk cycles since cold reset (log 4). -/
  elapsed : Nat := 0
  wclk : Nat := 0
  nextDep : Nat := 0
  nextUid : Nat := 0
  nextLaunch : Nat := 0
  /-- The model's own: how many free values have been taken (log 8). -/
  free : Nat := 0
  /-- The model's own: the commands waiting, first in, first out. -/
  pending : List Instr := []
  deriving DecidableEq, Repr

/-- Why a command stops the machine. -/
inductive Fault where
  /-- Raised by a command that names a slice, cluster, port or link the build does not hold (R16, R424). Safe: no such
  unit exists, so the hardware has no such event. -/
  | noSuchUnit
  /-- Raised by a memory response, acknowledgement, packet answer or handshake of the surroundings that answers nothing
  outstanding (R319, R340). Safe: the manual obliges the surroundings not to send it and gives it no effect. -/
  | unsolicited
  deriving DecidableEq, Repr

/-- Why a command has no meaning. -/
inductive Refusal where
  /-- A command whose meaning is not written yet. Safe. -/
  | notModelled (mnemonic : String)
  /-- Raised by TAP_INSTRUCTION for a Plodun debug instruction before DBG_KILL is blown: R405 says they are not described
  in the manual. Safe. -/
  | debugInstruction
  deriving DecidableEq, Repr

/-- The instance while PORST_N is first held low: every register at its reset value. -/
def State.reset : State := {}

end Sys2Proof.Machine
end

