-- ==== Sys2Proof/Machine/Maps.lean ====
section
/-! DEFINITION. Reading and writing the sparse maps, byte order (R9) and bit fields (R10). -/

namespace Sys2Proof.Machine

variable {β : Type}

/-- The entry at `i`, or `d` where none is listed. -/
def NMap.get (d : β) : NMap β → Nat → β
  | [], _ => d
  | (k, v) :: t, i => if i = k then v else NMap.get d t i

/-- Insert an entry before the first of a higher key. -/
def NMap.ins : NMap β → Nat → β → NMap β
  | [], i, v => [(i, v)]
  | (k, w) :: t, i, v => if i < k then (i, v) :: (k, w) :: t else (k, w) :: NMap.ins t i v

/-- Set the entry at `i`; writing the default removes it, so that equal maps are equal lists. -/
def NMap.put [DecidableEq β] (d : β) (m : NMap β) (i : Nat) (v : β) : NMap β :=
  let rest : NMap β := m.filter fun e => e.1 != i
  if v = d then rest else NMap.ins rest i v

/-- The canonical form: keys strictly rising, no entry equal to the default. -/
def NMap.wf [DecidableEq β] (d : β) : NMap β → Bool
  | [] => true
  | [(_, v)] => decide (v ≠ d)
  | (k, v) :: (k', v') :: t => decide (v ≠ d) && decide (k < k') && NMap.wf d ((k', v') :: t)

/-- What an unlisted byte of memory reads as (log 2). -/
def Memory.blank : Byte := 0

/-- One byte of memory. -/
def Memory.read (m : Memory) (a : Nat) : Byte := NMap.get Memory.blank m a

/-- Write one byte of memory. -/
def Memory.write (m : Memory) (a : Nat) (b : Byte) : Memory := NMap.put Memory.blank m a b

/-- The canonical form of memory. -/
def Memory.wf (m : Memory) : Bool := NMap.wf Memory.blank m

/-- `n` bytes from address `a`. -/
def Memory.readN (m : Memory) (a n : Nat) : List Byte := (List.range n).map fun i => m.read (a + i)

/-- Write bytes from address `a` upwards. -/
def Memory.writeN (m : Memory) : Nat → List Byte → Memory
  | _, [] => m
  | a, b :: bs => Memory.writeN (m.write a b) (a + 1) bs

/-- Little-endian value of a list of bytes (R9). -/
def leNat : List Byte → Nat
  | [] => 0
  | b :: bs => b.toNat + 256 * leNat bs

/-- Big-endian value of a list of bytes (R379, R401). -/
def beNat (bs : List Byte) : Nat := bs.foldl (fun a b => 256 * a + b.toNat) 0

/-- `n` little-endian bytes of a value. -/
def leBytes : Nat → Nat → List Byte
  | 0, _ => []
  | n + 1, v => BitVec.ofNat 8 v :: leBytes n (v / 256)

/-- `n` big-endian bytes of a value. -/
def beBytes (n v : Nat) : List Byte := (leBytes n v).reverse

/-- The little-endian field of `n` bytes at an offset of a record; bytes beyond its end read 0. -/
def fieldAt (bs : List Byte) (off n : Nat) : Nat := leNat ((bs.drop off).take n)

/-- Byte `i` of a record. -/
def byteAt (bs : List Byte) (i : Nat) : Byte := bs.getD i 0

/-- NAME[hi:lo] of a value (R10). -/
def bitsAt (v hi lo : Nat) : Nat := v / 2 ^ lo % 2 ^ (hi + 1 - lo)

/-- NAME[i] of a value (R10). -/
def bitAt (v i : Nat) : Bool := v / 2 ^ i % 2 = 1

/-- The two's-complement reading of the low `w` bits. -/
def signedAt (w v : Nat) : Int := (BitVec.ofNat w v).toInt

/-- A Bool as a bit. -/
def bit (b : Bool) : Nat := if b then 1 else 0

/-- Pad with zero bytes, or cut, to `n` bytes. -/
def padTo (n : Nat) (bs : List Byte) : List Byte := (bs ++ List.replicate n 0).take n

/-- A saturating count. -/
def satAdd (max v n : Nat) : Nat := min max (v + n)

/-- A register counter that saturates at all ones. -/
def satInc {w : Nat} (v : BitVec w) (n : Nat) : BitVec w := BitVec.ofNat w (satAdd (2 ^ w - 1) v.toNat n)

/-- Round up to a whole number of units. -/
def ceilDiv (a b : Nat) : Nat := (a + b - 1) / b

/-- Replace the first element that satisfies `p`. -/
def modFirst {α : Type} (p : α → Bool) (f : α → α) : List α → List α
  | [] => []
  | a :: t => if p a then f a :: t else a :: modFirst p f t

/-- Change every element that satisfies `p`. -/
def modAll {α : Type} (p : α → Bool) (f : α → α) (l : List α) : List α := l.map fun a => if p a then f a else a

/-- Insert before the first element the new one comes before; equal elements keep their order of insertion. -/
def insertBy {α : Type} (lt : α → α → Bool) (a : α) : List α → List α
  | [] => [a]
  | b :: t => if lt a b then a :: b :: t else b :: insertBy lt a t

/-- A stable insertion sort. -/
def sortBy {α : Type} (lt : α → α → Bool) (l : List α) : List α := l.foldl (fun acc a => insertBy lt a acc) []

/-- Split a list into pieces of `n` (the last may be shorter), with fuel. -/
def chunks {α : Type} (n : Nat) : Nat → List α → List (List α)
  | 0, _ => []
  | k + 1, l => if l.isEmpty then [] else l.take n :: chunks n k (l.drop n)

end Sys2Proof.Machine
end

