-- ==== Sys2Proof/Machine/Num.lean ====
section
/-! DEFINITION. Exact real arithmetic and the roundings of R109 to R111: every rounding step of the manual is a function
of an exact rational (or of the root or logarithm of one). -/

namespace Sys2Proof.Machine

/-- An exact rational num/den with den > 0, not reduced. -/
structure Q where
  num : Int
  den : Nat
  deriving DecidableEq, Repr

namespace Q

def ofInt (n : Int) : Q := ⟨n, 1⟩
def zero : Q := ⟨0, 1⟩
def one : Q := ⟨1, 1⟩

/-- Sum over a common denominator; denominators that divide each other do not grow. -/
def add (a b : Q) : Q :=
  if a.den = b.den then ⟨a.num + b.num, a.den⟩
  else if b.den % a.den = 0 then ⟨a.num * (b.den / a.den : Nat) + b.num, b.den⟩
  else if a.den % b.den = 0 then ⟨a.num + b.num * (a.den / b.den : Nat), a.den⟩
  else ⟨a.num * b.den + b.num * a.den, a.den * b.den⟩

def neg (a : Q) : Q := ⟨-a.num, a.den⟩
def sub (a b : Q) : Q := a.add b.neg
def mul (a b : Q) : Q := if a.num = 0 ∨ b.num = 0 then zero else ⟨a.num * b.num, a.den * b.den⟩
def sq (a : Q) : Q := a.mul a
def abs (a : Q) : Q := ⟨a.num.natAbs, a.den⟩

/-- Quotient; a zero divisor, which callers exclude, gives 0. -/
def div (a b : Q) : Q :=
  if b.num = 0 then zero
  else if b.num > 0 then ⟨a.num * b.den, a.den * b.num.natAbs⟩ else ⟨-(a.num * b.den), a.den * b.num.natAbs⟩

def lt (a b : Q) : Bool := decide (a.num * b.den < b.num * a.den)
def le (a b : Q) : Bool := decide (a.num * b.den ≤ b.num * a.den)
def eq (a b : Q) : Bool := decide (a.num * b.den = b.num * a.den)
def isZero (a : Q) : Bool := decide (a.num = 0)
def isNeg (a : Q) : Bool := decide (a.num < 0)
def isPos (a : Q) : Bool := decide (a.num > 0)
def max (a b : Q) : Q := if a.lt b then b else a
def min (a b : Q) : Q := if b.lt a then b else a

/-- 2^e for any integer e. -/
def pow2 (e : Int) : Q := if e ≥ 0 then ⟨(2 ^ e.toNat : Nat), 1⟩ else ⟨1, 2 ^ (-e).toNat⟩

def floor (a : Q) : Int := a.num / (a.den : Int)
def ceil (a : Q) : Int := -((-a.num) / (a.den : Int))

/-- Nearest integer, ties to even. -/
def rne (a : Q) : Int :=
  let f := a.floor
  let r := (a.sub (ofInt f)).add (a.sub (ofInt f))
  if r.lt one then f else if one.lt r then f + 1 else if f % 2 = 0 then f else f + 1

/-- floor(log2 a) for a > 0. -/
def log2 (a : Q) : Int :=
  let e : Int := (Nat.log2 a.num.natAbs : Int) - (Nat.log2 a.den : Int)
  if (pow2 e).le a then e else e - 1

def sum (l : List Q) : Q := l.foldl add zero

end Q

/-- A real or an infinity: what FP32 and B20 values other than NaN are. -/
inductive XR where
  | ninf
  | fin (q : Q)
  | pinf
  deriving DecidableEq, Repr

namespace XR

def zero : XR := .fin Q.zero

def lt : XR → XR → Bool
  | .fin a, .fin b => a.lt b
  | .ninf, .ninf => false
  | .ninf, _ => true
  | _, .ninf => false
  | .pinf, _ => false
  | _, .pinf => true

def le (a b : XR) : Bool := !(lt b a)
def max (a b : XR) : XR := if lt a b then b else a
def min (a b : XR) : XR := if lt b a then b else a

def neg : XR → XR
  | .ninf => .pinf
  | .fin q => .fin q.neg
  | .pinf => .ninf

def isFin : XR → Bool
  | .fin _ => true
  | _ => false

def isZero : XR → Bool
  | .fin q => q.isZero
  | _ => false

def isNeg : XR → Bool
  | .fin q => q.isNeg
  | .ninf => true
  | .pinf => false

def toQ : XR → Q
  | .fin q => q
  | _ => Q.zero

/-- Product, with the rule of R110 that an operand 0 gives 0. -/
def mul0 : XR → XR → XR
  | .fin a, .fin b => .fin (a.mul b)
  | a, b => if a.isZero || b.isZero then zero else if a.isNeg == b.isNeg then .pinf else .ninf

end XR

/-- The rounding grids: precision in bits, exponent of the smallest normal value, exponent of the largest. -/
structure Grid where
  p : Nat
  emin : Int
  emax : Int

/-- FP32 as the engine holds it: no subnormals (R111). -/
def gridFp32 : Grid := ⟨24, -126, 127⟩
/-- B20 (R108). -/
def gridB20 : Grid := ⟨13, -62, 63⟩

/-- The largest finite value of a grid. -/
def Grid.maxFin (g : Grid) : Q := (Q.ofInt ((2 ^ g.p : Nat) - 1)).mul (Q.pow2 (g.emax - (g.p : Int) + 1))

/-- Directed rounding of a positive real: R109's cases, then floor or ceiling on the binade's step. -/
def Grid.dirPos (g : Grid) (up : Bool) (q : Q) : XR :=
  if q.lt (Q.pow2 g.emin) then (if up then .fin (Q.pow2 g.emin) else XR.zero)
  else if g.maxFin.lt q then (if up then .pinf else .fin g.maxFin)
  else
    let u := q.log2 - (g.p : Int) + 1
    let m := q.mul (Q.pow2 (-u))
    .fin ((Q.ofInt (if up then m.ceil else m.floor)).mul (Q.pow2 u))

/-- round_down and round_up of R109 and R111. -/
def Grid.dir (g : Grid) (up : Bool) (q : Q) : XR :=
  if q.isZero then XR.zero else if q.isNeg then (g.dirPos (!up) q.neg).neg else g.dirPos up q

/-- Directed rounding of a value that may be infinite already. -/
def Grid.dirX (g : Grid) (up : Bool) : XR → XR
  | .fin q => g.dir up q
  | x => x

/-- Round to nearest even in the two steps of R111: first to the grid's precision with an unbounded exponent, then flush
below the smallest normal and overflow above the largest. -/
def Grid.near (g : Grid) (q : Q) : XR :=
  if q.isZero then XR.zero
  else
    let a := q.abs
    let u := a.log2 - (g.p : Int) + 1
    let r := (Q.ofInt (a.mul (Q.pow2 (-u))).rne).mul (Q.pow2 u)
    if r.lt (Q.pow2 g.emin) then XR.zero
    else if g.maxFin.lt r then (if q.isNeg then .ninf else .pinf)
    else .fin (if q.isNeg then r.neg else r)

def downB20 (x : XR) : XR := gridB20.dirX false x
def upB20 (x : XR) : XR := gridB20.dirX true x

/-- The quiet NaN the engine writes (R167). -/
def fpNaN : Word := 0x7FC00000

/-- An FP32 pattern under R41 and R163: subnormals and -0 read as +0; `none` is a NaN. -/
def fpVal (w : Word) : Option XR :=
  let v := w.toNat
  let e := bitsAt v 30 23
  let f := bitsAt v 22 0
  if e = 255 then (if f = 0 then some (if bitAt v 31 then .ninf else .pinf) else none)
  else if e = 0 then some XR.zero
  else
    let q := (Q.ofInt ((2 ^ 23 + f : Nat) : Int)).mul (Q.pow2 ((e : Int) - 150))
    some (.fin (if bitAt v 31 then q.neg else q))

/-- The FP32 pattern of a value on the FP32 grid; other values are rounded to nearest first. -/
def fpWord (x : XR) : Word :=
  match x with
  | .ninf => 0xFF800000
  | .pinf => 0x7F800000
  | .fin q =>
    match gridFp32.near q with
    | .ninf => 0xFF800000
    | .pinf => 0x7F800000
    | .fin r =>
      if r.isZero then 0
      else
        let a := r.abs
        let e := a.log2
        let m := (a.mul (Q.pow2 (23 - e))).rne
        BitVec.ofNat 32 ((if r.isNeg then 2 ^ 31 else 0) + (e + 127).toNat * 2 ^ 23 + (m.toNat - 2 ^ 23))

/-- round_to_nearest_even to an FP32 pattern. -/
def rneW (q : Q) : Word := fpWord (.fin q)

/-- round_to_nearest_even to an FP32 value. -/
def rneX (q : Q) : XR := gridFp32.near q

/-- round_down_fp32 and round_up_fp32 (R111). -/
def downFp (q : Q) : XR := gridFp32.dir false q
def upFp (q : Q) : XR := gridFp32.dir true q

/-- A finite FP32 pattern's value; infinities and NaN, which callers exclude, read 0. -/
def fpQ (w : Word) : Q :=
  match fpVal w with
  | some (.fin q) => q
  | _ => Q.zero

/-- The pattern holds a finite value. -/
def fpFinite (w : Word) : Bool :=
  match fpVal w with
  | some (.fin _) => true
  | _ => false

/-- The FP32 value next above x (R111): the smallest of +0, the normal values and the infinities that exceeds x. -/
def nextAbove (x : XR) : XR :=
  match x with
  | .pinf => .pinf
  | .ninf => .fin gridFp32.maxFin.neg
  | .fin q =>
    if q.isZero then .fin (Q.pow2 (-126))
    else if q.isPos then
      (if gridFp32.maxFin.le q then .pinf else .fin (q.add (Q.pow2 (q.log2 - 23))))
    else
      let a := q.neg
      if a.le (Q.pow2 (-126)) then XR.zero
      else
        let e := a.log2
        let step := if a.eq (Q.pow2 e) then Q.pow2 (e - 24) else Q.pow2 (e - 23)
        .fin (a.sub step).neg

/-! ## Roots and logarithms -/

/-- One bit of an integer square root: keep bit `b` when the square still fits. -/
def isqrtBits (n : Nat) : Nat → Nat → Nat
  | 0, r => if (r + 1) * (r + 1) ≤ n then r + 1 else r
  | b + 1, r =>
    let t := r + 2 ^ (b + 1)
    isqrtBits n b (if t * t ≤ n then t else r)

/-- The integer square root. -/
def isqrt (n : Nat) : Nat := isqrtBits n (Nat.log2 n / 2 + 1) 0

/-- A rational within 2^-k below or at the square root of q ≥ 0, exact when it can be; the flag says exact. -/
def sqrtLow (k : Nat) (q : Q) : Q × Bool :=
  let n := q.num.natAbs * 4 ^ k
  let r := isqrt (n / q.den)
  (⟨r, 2 ^ k⟩, decide (r * r * q.den = n))

/-- A rational that rounds as the square root of q does: the root cut to enough bits, with a sticky bit below them when it
is inexact. `extra` bits are kept below the root's leading bit. -/
def sqrtSticky (extra : Nat) (q : Q) : Q :=
  if q.isZero then Q.zero
  else
    let k := (extra + (-(q.log2 / 2)).toNat + 2)
    let (r, ex) := sqrtLow k q
    if ex then r else r.add ⟨1, 2 ^ (k + 1)⟩

/-- round_to_nearest_even(sqrt q) for q ≥ 0. -/
def rneSqrt (q : Q) : XR := rneX (sqrtSticky 30 q)

/-- Terms of atanh: z + z^3/3 + z^5/5 + ..., in fixed point of `fb` fraction bits. -/
def atanhSeries (fb : Nat) (z2 : Nat) : Nat → Nat → Nat → Nat
  | 0, _, _ => 0
  | k + 1, term, n => term / n + atanhSeries fb z2 k (term * z2 / 2 ^ fb) (n + 2)

/-- ln(a/b) for a ≥ b > 0 with a/b < 2 in fixed point of 256 fraction bits: 2 atanh((a-b)/(a+b)). -/
def lnFix (a b : Nat) : Nat :=
  let fb := 256
  let z := (a - b) * 2 ^ fb / (a + b)
  2 * atanhSeries fb (z * z / 2 ^ fb) 100 z 1

/-- -ln(x) for x = m / 2^24 with 0 < m ≤ 2^24, to within 2^-240 (R128, log 11). -/
def negLn (m : Nat) : Q :=
  let e := Nat.log2 m
  -- x = (m / 2^e) 2^(e - 24), so -ln x = (24 - e) ln 2 - ln(m / 2^e); ln 2 = 2 atanh(1/3)
  let ln2 := 2 * atanhSeries 256 (2 ^ 256 / 9) 100 (2 ^ 256 / 3) 1
  ⟨((24 - e) * ln2 : Nat) - (lnFix m (2 ^ e) : Nat), 2 ^ 256⟩

/-- The pair of R120: hi and lo; beyond the FP32 range hi is an infinity and lo is +0. -/
def pairOf (q : Q) : Word × Word :=
  match rneX q with
  | .fin h => (fpWord (.fin h), rneW (q.sub h))
  | x => (fpWord x, 0)

end Sys2Proof.Machine
end

