-- ==== Sys2Proof/Machine/Fp.lean ====
section
/-! DEFINITION. FP32 operations of the hit core and the neural unit (R163, R167, R171, R192). A value is a real, an infinity
or NaN (`none`); an operation forms the exact result and rounds it once. Infinities and NaN follow IEEE 754-2019 (log 13). -/

namespace Sys2Proof.Machine

open Sys2Proof

/-- An FP32 value as read; `none` is NaN. -/
abbrev FV := Option XR

/-- Exact sum; opposite infinities give NaN (R167). -/
def addX : XR → XR → FV
  | .fin a, .fin b => some (.fin (a.add b))
  | .fin _, y => some y
  | x, .fin _ => some x
  | x, y => if x = y then some x else none

/-- Exact product; infinity times zero is NaN (R167). -/
def mulX (a b : XR) : FV :=
  match a, b with
  | .fin x, .fin y => some (.fin (x.mul y))
  | x, y => if x.isZero || y.isZero then none else some (if x.isNeg == y.isNeg then .pinf else .ninf)

def fvAdd (a b : FV) : FV := a.bind fun x => b.bind (addX x)
def fvMul (a b : FV) : FV := a.bind fun x => b.bind (mulX x)
def fvNeg (a : FV) : FV := a.map XR.neg

/-- Round to nearest even to FP32 (R111, R163). -/
def fvRound : FV → FV
  | some (.fin q) => some (rneX q)
  | x => x

/-- The pattern of a rounded value; NaN is 0x7FC0_0000 (R167). -/
def fvWord : FV → Word
  | some x => fpWord x
  | none => fpNaN

/-- A value is finite. -/
def fvFinite : FV → Bool
  | some (.fin _) => true
  | _ => false

def faddW (a b : Word) : Word := fvWord (fvAdd (fpVal a) (fpVal b))
def fmulW (a b : Word) : Word := fvWord (fvMul (fpVal a) (fpVal b))
def ffmaW (a b c : Word) : Word := fvWord (fvAdd (fvMul (fpVal a) (fpVal b)) (fpVal c))

/-- Quotient with one rounding; x / 0 is an infinity of the sign of x, 0 / 0 and infinity / infinity are NaN (log 13). -/
def fdivW (a b : Word) : Word :=
  match fpVal a, fpVal b with
  | some (.fin x), some (.fin y) =>
    if y.isZero then (if x.isZero then fpNaN else if x.isNeg then 0xFF800000 else 0x7F800000) else rneW (x.div y)
  | some (.fin _), some _ => 0
  | some x, some (.fin y) => fpWord (if y.isNeg then x.neg else x)
  | _, _ => fpNaN

/-- Square root with one rounding; a negative operand gives NaN (log 13). -/
def fsqrtW (a : Word) : Word :=
  match fpVal a with
  | some (.fin x) => if x.isNeg then fpNaN else fpWord (rneSqrt x)
  | some .pinf => 0x7F800000
  | _ => fpNaN

/-- Minimum and maximum of two numbers; `none` where an operand is NaN, for which the manual states no result (log 14). -/
def fminW (a b : Word) : Option Word := do
  let x ← fpVal a
  let y ← fpVal b
  some (fpWord (XR.min x y))

def fmaxW (a b : Word) : Option Word := do
  let x ← fpVal a
  let y ← fpVal b
  some (fpWord (XR.max x y))

/-- F2I: to nearest even, saturating, NaN gives 0 (R192). -/
def f2iW (a : Word) : Word :=
  match fpVal a with
  | none => 0
  | some .pinf => 0x7FFFFFFF
  | some .ninf => 0x80000000
  | some (.fin q) => BitVec.ofInt 32 (max (-(2 ^ 31)) (min (2 ^ 31 - 1) q.rne))

/-- I2F of a signed word (R192). -/
def i2fW (a : Word) : Word := rneW (Q.ofInt a.toInt)

/-- The comparisons of FSETP by SC[2:0]; with a NaN operand only NE and unordered hold (log 13). -/
def fcmp (c : Nat) (a b : Word) : Bool :=
  match fpVal a, fpVal b with
  | some x, some y =>
    match c with
    | 0 => !XR.lt x y && !XR.lt y x
    | 1 => XR.lt x y || XR.lt y x
    | 2 => XR.lt x y
    | 3 => XR.le x y
    | 4 => XR.lt y x
    | 5 => XR.le y x
    | _ => false
  | _, _ => c == 1 || c == 6

/-- The pair of an exact value (R120, R171): hi, and lo, which is open where hi is NaN (log 14). -/
def fvPair : FV → Word × Option Word
  | some (.fin q) => let (h, l) := pairOf q; (h, some l)
  | some x => (fpWord x, some 0)
  | none => (fpNaN, none)

/-- PADD: the pair of the sum of two pairs (R192). -/
def paddW (ah al bh bl : Word) : Word × Option Word :=
  fvPair (fvAdd (fvAdd (fpVal ah) (fpVal al)) (fvAdd (fpVal bh) (fpVal bl)))

/-- PFMA: the pair of A × B + C.hi + C.lo (R192). -/
def pfmaW (a b ch cl : Word) : Word × Option Word :=
  fvPair (fvAdd (fvMul (fpVal a) (fpVal b)) (fvAdd (fpVal ch) (fpVal cl)))

end Sys2Proof.Machine
end

