-- ==== Sys2Proof/Machine/Image.lean ====
section
/-! DEFINITION. Reading a Byzil tree image (02_byzil_tree_images.md): epochs, header, nodes, leaves, records, payload
streams, sharding records. A parse that fails is BAD_IMAGE; its callers have applied the epoch rule to every line. -/

namespace Sys2Proof.Machine

open Sys2Proof

/-- How a line's tag compares with a handle's epoch (R45). -/
inductive Age where
  | current | older | newer
  deriving DecidableEq, Repr

/-- R45. -/
def epochAge (tag epoch : Word) : Age :=
  if tag = epoch then .current
  else
    let d := (epoch - tag).toNat
    if tag = 0 ∨ (1 ≤ d ∧ d ≤ 2 ^ 31) then .older else .newer

/-- The tag of a line (R38). -/
def lineTag (l : List Byte) : Word := BitVec.ofNat 32 (fieldAt l 4 4)

/-- An FP32 field of a record (R41). -/
def fpAt (l : List Byte) (off : Nat) : Word := BitVec.ofNat 32 (fieldAt l off 4)

/-- `n` FP32 fields that must be finite; `none` where one is not. -/
def finiteAt (l : List Byte) (off : Nat) : Nat → Option (List Q)
  | 0 => some []
  | n + 1 =>
    let w := fpAt l off
    if fpFinite w then (finiteAt l (off + 4) n).map (fpQ w :: ·) else none

/-- Component of a coordinate list. -/
def at3 (v : List Q) (a : Nat) : Q := v.getD a Q.zero

/-! ## Header and sharding record -/

/-- The header of Table 2.4 under the checks of R44; the sharding run's first line and length go with it. -/
def parseHeader (treeId : Half) (l : List Byte) : Option (ImgHdr × Nat × Nat) :=
  let dims := (byteAt l 2).toNat
  let lc := fieldAt l 8 4
  let root := fieldAt l 12 4
  let sl := fieldAt l 18 2
  let sr := fieldAt l 20 4
  if byteAt l 0 = 0x40 ∧ byteAt l 1 = 0x02 ∧ fieldAt l 16 2 = treeId.toNat ∧ 3 ≤ dims ∧ dims ≤ 8 ∧ 2 ≤ lc ∧ root ≠ 0 ∧
      root < lc ∧ (sl = 0 ↔ sr = 0) ∧ (sr ≠ 0 → sr + sl ≤ lc) then
    some ({ dims := dims, lineCount := lc, root := root }, sr, sl)
  else none

/-- The 56-byte payloads of record lines, joined (R67). -/
def payloadOf (lines : List (List Byte)) : List Byte := (lines.map fun l => (l.drop 8).take 56).flatten

/-- A record line of a payload stream (R64, R67). -/
def payloadLine (type : Nat) (l : List Byte) : Bool :=
  byteAt l 0 == 0x20 && (byteAt l 1).toNat == type && byteAt l 2 == 0

/-- Entries of a sharding payload (Table 2.19). -/
def shardEntries (bs : List Byte) (n : Nat) : List ShardEnt :=
  (List.range n).map fun j =>
    { lo := fieldAt bs (16 + 16 * j) 4, die := bitsAt (byteAt bs (20 + 16 * j)).toNat 6 0,
      fallback := BitVec.ofNat 64 (fieldAt bs (24 + 16 * j) 8) }

/-- LINE_LO values strictly ascend below LINE_COUNT (R75). -/
def ascending (lc : Nat) : List Nat → Bool
  | [] => true
  | [a] => decide (a < lc)
  | a :: b :: t => decide (a < b) && ascending lc (b :: t)

/-- The sharding record under the checks of R75, for an instance of package `pkg`. -/
def parseShard (pkg : Nat) (h : ImgHdr) (sr sl : Nat) (lines : List (List Byte)) : Option ImgHdr :=
  let bs := payloadOf lines
  let n := fieldAt bs 0 2
  let repl := fieldAt bs 4 4
  let es := shardEntries bs n
  if lines.all (payloadLine 0) ∧ fieldAt bs 2 2 = pkg ∧ 1 ≤ n ∧ n ≤ 1024 ∧ 16 + 16 * n ≤ 56 * sl ∧ sr + sl ≤ repl ∧
      (es.head?.map (·.lo)) = some repl ∧ ascending h.lineCount (es.map (·.lo)) ∧
      es.all (fun e => e.fallback ≠ 0 ∧ e.fallback.toNat % 64 = 0) then
    some { h with repl := repl, shards := es }
  else none

/-- The sharding entry that covers a line, when it is not replicated (R74). -/
def ImgHdr.entryOf (h : ImgHdr) (line : Nat) : Option ShardEnt :=
  if line < h.repl then none else (h.shards.filter fun e => e.lo ≤ line).getLast?

/-- The member dies of a sharded image (R74). -/
def ImgHdr.members (h : ImgHdr) : List Nat := (h.shards.map (·.die)).eraseDups

/-! ## Nodes -/

/-- One axis of a node: grid origin, grid exponent, low and high codes of slots 0 to 7 (R53). -/
structure Axis where
  origin : Q
  exp : Int
  lo : List Nat
  hi : List Nat
  deriving DecidableEq, Repr

/-- A node as its lines hold it (Tables 2.6 to 2.9). `children` are the line indices of the used slots. -/
structure Node where
  nint : Nat
  axes : List Axis
  children : List Nat
  masks : List Byte
  passes : Nat
  deriving DecidableEq, Repr

/-- Lines of the node with this head line (Table 2.6); `none` where KIND is no node head. -/
def nodeLines (head : List Byte) : Option Nat :=
  match (byteAt head 0).toNat with
  | 1 => some 1
  | 2 => some 1
  | 3 => some 2
  | 4 => some (if (byteAt head 2).toNat ≤ 6 then 2 else 3)
  | _ => none

/-- Codes of slots 0 to 7 packed `w` bits each (R54). -/
def unpack8 (w v : Nat) : List Nat := (List.range 8).map fun k => v / 2 ^ (w * k) % 2 ^ w

/-- Where axis `a` stands: line, offset of ORIGIN, of EXP (in `gline`), line of the codes, offsets of LOCODE and HICODE,
bytes per group, code width (Tables 2.7 to 2.9). -/
def axisPlace (kind a : Nat) : Nat × Nat × Nat × Nat × Nat × Nat × Nat × Nat :=
  match kind with
  | 1 => (0, 20 + 4 * a, 32 + a, 0, 36 + 6 * a, 39 + 6 * a, 3, 3)
  | 3 =>
    if a = 0 then (0, 20, 32, 0, 36, 44, 8, 8)
    else (0, 20 + 4 * a, 32 + a, 1, 8 + 16 * (a - 1), 16 + 16 * (a - 1), 8, 8)
  | _ =>
    if a < 3 then (0, 20 + 4 * a, 32 + a, 0, 36 + 8 * a, 40 + 8 * a, 4, 4)
    else
      let j := a % 3
      (a / 3, 8 + 4 * j, 20 + j, a / 3, 24 + 8 * j, 28 + 8 * j, 4, 4)

/-- One axis of a node; `none` for a non-finite ORIGIN. -/
def parseAxis (lines : List (List Byte)) (kind a : Nat) : Option Axis :=
  let (gl, oo, eo, cl, lo, hi, n, w) := axisPlace kind a
  let g := lines.getD gl []
  let c := lines.getD cl []
  (finiteAt g oo 1).map fun o =>
    { origin := at3 o 0, exp := (byteAt g eo).toInt, lo := unpack8 w (fieldAt c lo n), hi := unpack8 w (fieldAt c hi n) }

/-- A node under the checks of R57 (a node's own child indices among them, log 12). -/
def parseNode (h : ImgHdr) (line : Nat) (lines : List (List Byte)) : Option Node :=
  let head := lines.getD 0 []
  let kind := (byteAt head 0).toNat
  let nc := (byteAt head 1).toNat
  let used := bitsAt nc 3 0 + bitsAt nc 7 4
  let base := fieldAt head 8 4
  let kids := (List.range used).map fun k => base + if k = 0 then 0 else (byteAt head (11 + k)).toNat
  match nodeLines head with
  | none => none
  | some n =>
    if 1 ≤ used ∧ used ≤ 8 ∧ (byteAt head 2).toNat = h.dims ∧ (kind = 4 ↔ h.dims ≠ 3) ∧ line + n ≤ h.lineCount ∧
        kids.all (fun c => decide (c < h.lineCount)) ∧
        ((List.range n).drop 1).all (fun p => byteAt (lines.getD p []) 0 = 0x08 ∧ (byteAt (lines.getD p []) 1).toNat = p) then
      ((List.range h.dims).mapM (parseAxis lines kind)).map fun axes =>
        { nint := bitsAt nc 3 0, axes := axes, children := kids,
          masks := (List.range 8).map fun k => if kind = 1 then byteAt head (54 + k) else 0xFF,
          passes := if kind = 4 then (h.dims + 2) / 3 else 1 }
    else none

/-! ## Leaves and records -/

/-- A leaf line (Table 2.11). -/
structure Leaf where
  addr : Nat
  type : Nat
  count : Nat
  recBase : Nat
  recLines : Nat
  prims : List Word
  kernel : Nat
  user : Dword
  deriving DecidableEq, Repr

/-- Maximum COUNT of a leaf type (Table 2.12); 0 for a type the table does not list. -/
def leafMax (t : Nat) : Nat := if 1 ≤ t ∧ t ≤ 6 then 8 else if t = 7 ∨ t = 8 then 1 else if t = 9 then 8 else 0

/-- A leaf line under the checks of R57. -/
def parseLeaf (h : ImgHdr) (addr : Nat) (l : List Byte) : Option Leaf :=
  let t := (byteAt l 1).toNat
  let n := (byteAt l 2).toNat
  if byteAt l 0 = 0x10 ∧ 1 ≤ n ∧ n ≤ leafMax t ∧ (t = 5 → (byteAt l 3).toNat = h.dims) then
    some { addr := addr, type := t, count := n, recBase := fieldAt l 8 4, recLines := fieldAt l 12 2,
           prims := (List.range 8).map fun j => BitVec.ofNat 32 (fieldAt l (16 + 4 * j) 4),
           kernel := fieldAt l 48 2, user := BitVec.ofNat 64 (fieldAt l 56 8) }
  else none

/-- The record run lies in the image (R40). -/
def Leaf.runOk (h : ImgHdr) (f : Leaf) : Bool := decide (1 ≤ f.recLines) && decide (f.recBase + f.recLines ≤ h.lineCount)

/-- A primitive that is not void, by its exact coordinates (Table 2.14). -/
inductive Prim where
  | tri (v0 v1 v2 : List Q)
  | sphere (c : List Q) (r : Q)
  | aabb (lo hi : List Q)
  | point (p : List Q)
  | tet (v0 v1 v2 v3 : List Q)
  deriving DecidableEq, Repr

/-- Bytes of a record and the largest COUNT of a record line (Table 2.12). -/
def recordSize (t dims : Nat) : Nat × Nat :=
  match t with
  | 1 => (36, 2)
  | 2 => (16, 3)
  | 3 => (24, 2)
  | 4 => (12, 4)
  | 5 => (4 * dims, 56 / (4 * dims))
  | _ => (48, 1)

/-- One primitive of a record that starts at `off`; `none` is a void primitive (R66). -/
def parsePrim (t dims : Nat) (l : List Byte) (off : Nat) : Option Prim :=
  match t with
  | 2 => do
    let c ← finiteAt l off 3
    let r ← finiteAt l (off + 12) 1
    if (at3 r 0).isNeg then none else some (.sphere c (at3 r 0))
  | 3 => do
    let lo ← finiteAt l off 3
    let hi ← finiteAt l (off + 12) 3
    if (List.range 3).all fun a => (at3 lo a).le (at3 hi a) then some (.aabb lo hi) else none
  | 4 => (finiteAt l off 3).map .point
  | 5 => (finiteAt l off dims).map .point
  | _ => do
    let a ← finiteAt l off 3
    let b ← finiteAt l (off + 12) 3
    let c ← finiteAt l (off + 24) 3
    let d ← finiteAt l (off + 36) 3
    some (.tet a b c d)

/-- Triangle with vertices at three offsets. -/
def parseTri (l : List Byte) (a b c : Nat) : Option Prim := do
  let v0 ← finiteAt l a 3
  let v1 ← finiteAt l b 3
  let v2 ← finiteAt l c 3
  some (.tri v0 v1 v2)

/-- The primitives of one record line; `none` inside marks a void one (R64 to R66). -/
def linePrims (t dims : Nat) (l : List Byte) : List (Option Prim) :=
  let n := (byteAt l 2).toNat
  if t = 1 then
    if n = 2 then [parseTri l 8 20 32, parseTri l 32 20 44] else [parseTri l 8 20 32]
  else
    let sz := (recordSize t dims).1
    (List.range n).map fun r => parsePrim t dims l (8 + r * sz)

/-- A record line of a leaf of type `t` (R64). -/
def recordLine (t dims : Nat) (l : List Byte) : Bool :=
  byteAt l 0 == 0x20 && (byteAt l 1).toNat == t && decide (1 ≤ (byteAt l 2).toNat) &&
    decide ((byteAt l 2).toNat ≤ (recordSize t dims).2)

/-- The primitives of a leaf in ordinal order (R63); `none` where the run breaks R64 or R66. -/
def parseRecords (h : ImgHdr) (f : Leaf) (lines : List (List Byte)) : Option (List (Option Prim)) :=
  if lines.all (recordLine f.type h.dims) ∧ (lines.map fun l => (byteAt l 2).toNat).sum = f.count then
    some (lines.map (linePrims f.type h.dims)).flatten
  else none

/-! ## Voxel bricks and neural blobs -/

/-- A VOXEL brick (Table 2.15). -/
structure Brick where
  origin : List Q
  cell : List Q
  scale : Q
  majorant : Q
  values : List Byte
  deriving DecidableEq, Repr

/-- A brick under R68. -/
def parseBrick (f : Leaf) (lines : List (List Byte)) : Option Brick :=
  let bs := payloadOf lines
  if lines.all (payloadLine 7) ∧ 10 ≤ f.recLines then do
    let o ← finiteAt bs 0 3
    let c ← finiteAt bs 12 3
    let s ← finiteAt bs 24 1
    let m ← finiteAt bs 28 1
    if c.all Q.isPos ∧ ¬(at3 s 0).isNeg ∧ ¬(at3 m 0).isNeg then
      some { origin := o, cell := c, scale := at3 s 0, majorant := at3 m 0, values := (bs.drop 32).take 512 }
    else none
  else none

/-- A NEURAL layer descriptor (Table 2.17). -/
structure Layer where
  win : Nat
  wout : Nat
  wfmt : Nat
  afmt : Nat
  relu : Bool
  wofs : Nat
  sofs : Nat
  deriving DecidableEq, Repr

/-- A NEURAL blob (Tables 2.16 and 2.17). -/
structure Blob where
  output : Nat
  origin : List Q
  inv : List Q
  lip : Q
  err : Q
  halo : Q
  layers : List Layer
  bytes : List Byte
  deriving DecidableEq, Repr

/-- Element width of a format code of Table 2.17. -/
def fmtBits (f : Nat) : Nat := if f = 1 then 4 else if f = 2 ∨ f = 3 then 6 else 8

/-- Bytes of a layer's weight block (R70). -/
def Layer.wbytes (l : Layer) : Nat := l.wout * (ceilDiv l.win 32 * (1 + 4 * fmtBits l.wfmt))

/-- The arrays of a layer: offset and length of the weights, and of the scales and biases. -/
def Layer.arrays (l : Layer) : List (Nat × Nat) := [(l.wofs, l.wbytes), (l.sofs, 8 * l.wout)]

/-- Layer `i` of a blob with `n` layers, its WIDTH_IN given, under the ranges of Table 2.17. -/
def parseLayers (bs : List Byte) (n : Nat) : Nat → Nat → Nat → Option (List Layer)
  | 0, _, _ => some []
  | k + 1, i, win =>
    let o := 48 + 16 * i
    let b := fun j => (byteAt bs (o + j)).toNat
    let last := decide (i + 1 = n)
    if b 0 = win ∧ 1 ≤ b 1 ∧ b 1 ≤ 64 ∧ (last → b 1 = 1) ∧ 1 ≤ b 2 ∧ b 2 ≤ 6 ∧ 1 ≤ b 3 ∧ b 3 ≤ 6 ∧ b 4 ≤ 1 ∧
        (last → b 4 = 0) then
      (parseLayers bs n k (i + 1) (b 1)).map fun rest =>
        { win := b 0, wout := b 1, wfmt := b 2, afmt := b 3, relu := decide (b 4 = 1), wofs := fieldAt bs (o + 8) 4,
          sofs := fieldAt bs (o + 12) 4 } :: rest
    else none

/-- No two ranges of a list overlap. -/
def disjointRanges : List (Nat × Nat) → Bool
  | [] => true
  | (a, n) :: t => t.all (fun (b, m) => decide (a + n ≤ b) || decide (b + m ≤ a)) && disjointRanges t

/-- OUTPUT of a blob from its first payload bytes. -/
def blobOutput (bs : List Byte) : Nat := (byteAt bs 0).toNat

/-- A blob under R71. -/
def parseBlob (f : Leaf) (lines : List (List Byte)) : Option Blob :=
  let bs := payloadOf lines
  let n := (byteAt bs 1).toNat
  if lines.all (payloadLine 8) ∧ 112 ≤ bs.length ∧ blobOutput bs ≤ 1 ∧ 1 ≤ n ∧ n ≤ 4 ∧ byteAt bs 2 = 3 then do
    let o ← finiteAt bs 4 3
    let v ← finiteAt bs 16 3
    let q ← finiteAt bs 28 3
    let ls ← parseLayers bs n n 0 3
    let arrs := (ls.map Layer.arrays).flatten
    if (at3 q 0).isPos ∧ ¬(at3 q 1).isNeg ∧ ¬(at3 q 2).isNeg ∧
        arrs.all (fun (a, m) => decide (a + m ≤ min 16384 (56 * f.recLines))) ∧ disjointRanges arrs then
      some { output := blobOutput bs, origin := o, inv := v, lip := at3 q 0, err := at3 q 1, halo := at3 q 2,
             layers := ls, bytes := bs }
    else none
  else none

end Sys2Proof.Machine
end

