-- ==== Sys2Proof/Machine/Tensor.lean ====
section
/-! DEFINITION. Block-scaled and integer arithmetic of the neural unit (06_neural_leaves_and_tensor_formats.md): formats,
dot products, fused conversions, and the three evaluations of a NEURAL blob. -/

namespace Sys2Proof.Machine

open Sys2Proof

/-! ## Formats -/

/-- Element bits of a format code (Table 6.1); 0 for a reserved code. -/
def fmtWidth (f : Nat) : Nat :=
  match f with
  | 0 => 32
  | 1 => 4
  | 2 => 6
  | 3 => 6
  | 4 => 8
  | 5 => 8
  | 6 => 8
  | 7 => 8
  | 8 => 8
  | 9 => 8
  | 10 => 4
  | _ => 0

/-- Formats with a block scale. -/
def fmtMx (f : Nat) : Bool := decide (1 ≤ f) && decide (f ≤ 6)
/-- INT8 and INT4. -/
def fmtInt (f : Nat) : Bool := f == 9 || f == 10
/-- Plain FP8. -/
def fmtFp8 (f : Nat) : Bool := f == 7 || f == 8

/-- Operands that may meet (R164): two MX formats, E4M3 and E5M2 plain or MX, or two of the INT family (Table 6.1). -/
def mayMeet (a b : Nat) : Bool :=
  let e8 := fun f => f == 4 || f == 5 || fmtFp8 f
  (fmtMx a && fmtMx b) || (e8 a && e8 b) || (fmtInt a && fmtInt b)

/-- Fields of a floating-point element: exponent bits, fraction bits, bias (Tables 6.2 and 6.3). -/
def fpFields (f : Nat) : Nat × Nat × Nat :=
  match f with
  | 1 => (2, 1, 1)
  | 2 => (2, 3, 1)
  | 3 => (3, 2, 3)
  | 5 => (5, 2, 15)
  | 8 => (5, 2, 15)
  | _ => (4, 3, 7)

/-- The value an element code reads as (R159 to R163). -/
def elemVal (f c : Nat) : FV :=
  match f with
  | 6 => some (.fin ⟨signedAt 8 c, 64⟩)
  | 9 => some (.fin (Q.ofInt (signedAt 8 c)))
  | 10 => some (.fin (Q.ofInt (signedAt 4 c)))
  | _ =>
    let (eb, mb, bias) := fpFields f
    let e := c / 2 ^ mb % 2 ^ eb
    let m := c % 2 ^ mb
    let neg := bitAt c (eb + mb)
    let e5 := f == 5 || f == 8
    let e4 := f == 4 || f == 7
    if e = 0 then some XR.zero
    else if e5 && e == 31 then (if m = 0 then some (if neg then .ninf else .pinf) else none)
    else if e4 && e == 15 && m == 7 then none
    else
      let q := (Q.ofInt (2 ^ mb + m : Nat)).mul (Q.pow2 ((e : Int) - bias - mb))
      some (.fin (if neg then q.neg else q))

/-- The value of an E8M0 scale byte; 0xFF is NaN (R161). -/
def scaleVal (b : Nat) : Option Q := if b = 255 then none else some (Q.pow2 ((b : Int) - 127))

/-- A block of operand elements with its scale byte. -/
structure Block where
  scale : Nat
  elems : List FV

/-! ## Dot products -/

/-- The block sum s_j (R166, R167). -/
def blockSum (a b : List FV) : FV := (a.zip b).foldl (fun s (x, y) => fvAdd s (fvMul x y)) (some XR.zero)

/-- A product with two scales; a NaN scale gives NaN (R167). -/
def scaleBy (v : FV) (sa sb : Nat) : FV := do
  let x ← v
  let p ← scaleVal sa
  let q ← scaleVal sb
  match x with
  | .fin r => some (.fin (r.mul (p.mul q)))
  | y => some y

/-- b_j of R166: exact but for overflow at 2^128 and underflow below 2^-126. -/
def scaledBlock (a b : Block) : FV :=
  match scaleBy (fvRound (blockSum a.elems b.elems)) a.scale b.scale with
  | some (.fin q) =>
    if q.abs.lt (Q.pow2 (-126)) then some XR.zero
    else if (Q.pow2 128).le q.abs then some (if q.isNeg then .ninf else .pinf)
    else some (.fin q)
  | x => x

/-- The dot product of R166 with accumulator C. -/
def dotFp (c : FV) (as bs : List Block) : FV :=
  (as.zip bs).foldl (fun acc (a, b) => fvRound (fvAdd acc (scaledBlock a b))) c

/-- A pair in the course of a computation; lo is 0 where hi is infinite. -/
structure FPair where
  hi : FV
  lo : Q

/-- The exact value a pair stands for. -/
def FPair.val (p : FPair) : FV := fvAdd p.hi (some (.fin p.lo))

/-- pair(x) of R120 as values. -/
def toPair (v : FV) : FPair :=
  match v with
  | some (.fin q) =>
    match rneX q with
    | .fin h => ⟨some (.fin h), (rneX (q.sub h)).toQ⟩
    | x => ⟨some x, Q.zero⟩
  | x => ⟨x, Q.zero⟩

/-- The pair dot product of R171 from the pair C. -/
def dotPair (c : FPair) (as bs : List Block) : FPair :=
  (as.zip bs).foldl (fun acc (a, b) => toPair (fvAdd acc.val (scaleBy (blockSum a.elems b.elems) a.scale b.scale))) c

/-- One accumulation of R168. -/
def intAcc (wrap : Bool) (acc : Int) (s : Int) : Int :=
  if wrap then (BitVec.ofInt 32 (acc + s)).toInt else max (-(2 ^ 31)) (min (2 ^ 31 - 1) (acc + s))

/-- An exact integer element. -/
def elemInt (v : FV) : Int :=
  match v with
  | some (.fin q) => q.floor
  | _ => 0

/-- The integer dot product of R168. -/
def dotInt (wrap : Bool) (c : Int) (as bs : List (List FV)) : Int :=
  (as.zip bs).foldl (fun acc (a, b) => intAcc wrap acc (((a.zip b).map fun (x, y) => elemInt x * elemInt y).sum)) c

/-! ## Conversions -/

/-- emax of R170. -/
def fmtEmax (f : Nat) : Int :=
  match f with
  | 1 => 2
  | 2 => 2
  | 3 => 4
  | 4 => 8
  | 5 => 15
  | _ => 0

/-- The largest finite value of a floating-point element. -/
def fmtMaxVal (f : Nat) : Q :=
  match f with
  | 1 => Q.ofInt 6
  | 2 => ⟨15, 2⟩
  | 3 => Q.ofInt 28
  | 5 => Q.ofInt 57344
  | 8 => Q.ofInt 57344
  | _ => Q.ofInt 448

/-- The element code of a value on the format's normal grid, or +0. -/
def elemCode (f : Nat) (q : Q) : Nat :=
  if q.isZero then 0
  else
    let (eb, mb, bias) := fpFields f
    let a := q.abs
    let e := a.log2
    let m := (a.mul (Q.pow2 ((mb : Int) - e))).floor.toNat - 2 ^ mb
    bit q.isNeg * 2 ^ (eb + mb) + (e + bias).toNat * 2 ^ mb + m

/-- A converted element: its code, and whether it carries SAT and INV (Table 6.8). -/
structure Conv where
  code : Nat
  sat : Bool := false
  inv : Bool := false
  deriving DecidableEq, Repr

/-- A finite value to a floating-point element: rounded on the grid, subnormals included, saturated, then flushed (Table
6.8, R163). -/
def toElem (f : Nat) (q : Q) : Conv :=
  let (_, mb, bias) := fpFields f
  if q.isZero then ⟨0, false, false⟩
  else
    let a := q.abs
    let emin : Int := 1 - (bias : Int)
    let u := max a.log2 emin - mb
    let r := (Q.ofInt (a.mul (Q.pow2 (-u))).rne).mul (Q.pow2 u)
    let top := fmtMaxVal f
    let (v, s) := if top.lt r then (top, true) else (r, false)
    if v.lt (Q.pow2 emin) then ⟨0, false, false⟩ else ⟨elemCode f (if q.isNeg then v.neg else v), s, false⟩

/-- An integer clamped to a range, with SAT. -/
def clampInt (lo hi n : Int) : Int × Bool := if n < lo then (lo, true) else if hi < n then (hi, true) else (n, false)

/-- One value to a target that is no MX group (Table 6.8). -/
def convOne (f : Nat) (wrap : Bool) (c : FV) : Conv :=
  match f with
  | 0 => { code := (fvWord (fvRound c)).toNat }
  | 9 | 10 =>
    let w := if f = 9 then 8 else 4
    let top : Int := 2 ^ (w - 1) - 1
    match c with
    | none => ⟨0, false, true⟩
    | some .pinf => ⟨(BitVec.ofInt w top).toNat, false, true⟩
    | some .ninf => ⟨(BitVec.ofInt w (-(2 ^ (w - 1)))).toNat, false, true⟩
    | some (.fin q) =>
      if wrap then ⟨(BitVec.ofInt w q.rne).toNat, false, false⟩
      else
        let (n, s) := clampInt (-(2 ^ (w - 1))) top q.rne
        ⟨(BitVec.ofInt w n).toNat, s, false⟩
  | 6 =>
    match c with
    | some (.fin q) =>
      let (n, s) := clampInt (-127) 127 (q.mul (Q.ofInt 64)).rne
      ⟨(BitVec.ofInt 8 n).toNat, s, false⟩
    | some .pinf => ⟨127, false, true⟩
    | some .ninf => ⟨(BitVec.ofInt 8 (-127)).toNat, false, true⟩
    | none => ⟨0, false, true⟩
  | _ =>
    let e5 := f == 5 || f == 8
    match c with
    | some (.fin q) => toElem f q
    | none => ⟨if e5 || f == 4 || f == 7 then 0x7F else 0, false, true⟩
    | some x =>
      if e5 then ⟨if x.isNeg then 0xFC else 0x7C, false, false⟩
      else ⟨elemCode f (if x.isNeg then (fmtMaxVal f).neg else fmtMaxVal f), false, true⟩

/-- A group of 32 values to an MX block: its scale byte and elements (R170). -/
def convGroup (f : Nat) (cs : List FV) : Nat × List Conv :=
  if !cs.all fvFinite then (255, cs.map fun _ => ⟨0, false, true⟩)
  else
    let qs := cs.map fun c => (c.getD XR.zero).toQ
    let m := (qs.map Q.abs).foldl Q.max Q.zero
    let x : Int := max (-127) (min 127 (if m.isZero then -127 else m.log2 - fmtEmax f))
    ((x + 127).toNat, qs.map fun q => convOne f false (some (.fin (q.mul (Q.pow2 (-x))))))

/-- The value converted: min(max(a × SCALE + BIAS, LO), HI), exact; NaN passes (R169). -/
def fused (a scale bias lo hi : FV) : FV :=
  (fvAdd (fvMul a scale) bias).map fun x => XR.min (XR.max x (lo.getD .ninf)) (hi.getD .pinf)

/-! ## Evaluating a NEURAL blob -/

/-- The elements of a packed group of 32 (R70). -/
def unpackElems (f : Nat) (bs : List Byte) : List FV :=
  let w := fmtWidth f
  let v := leNat bs
  (List.range 32).map fun j => elemVal f (v / 2 ^ (w * j) % 2 ^ w)

/-- Block `b` of weight row `r` of a layer. -/
def Layer.block (l : Layer) (bs : List Byte) (r b : Nat) : Block :=
  let w := 1 + 4 * fmtBits l.wfmt
  let o := l.wofs + (r * ceilDiv l.win 32 + b) * w
  ⟨(byteAt bs o).toNat, unpackElems l.wfmt ((bs.drop (o + 1)).take (w - 1))⟩

/-- SCALE[r] and BIAS[r] of a layer. -/
def Layer.scaleBias (l : Layer) (bs : List Byte) (r : Nat) : FV × FV :=
  (fpVal (fpAt bs (l.sofs + 4 * r)), fpVal (fpAt bs (l.sofs + 4 * l.wout + 4 * r)))

/-- A group of converted elements as an operand block. -/
def asBlock (f : Nat) (g : Nat × List Conv) : Block := ⟨g.1, g.2.map fun c => elemVal f c.code⟩

/-- Channels in groups of 32, padded with +0 (R170). -/
def groups32 (cs : List FV) : List (List FV) :=
  (chunks 32 (cs.length + 1) cs).map fun g => g ++ List.replicate (32 - g.length) (some XR.zero)

/-- The channels of a layer after the clip, and before conversion (R173 steps 3 and 4). -/
def Layer.channels (l : Layer) (bs : List Byte) (input : List Block) : List FV :=
  (List.range l.wout).map fun r =>
    let row := (List.range (ceilDiv l.win 32)).map (l.block bs r)
    let (sc, bi) := l.scaleBias bs r
    fused (dotFp (some XR.zero) row input) sc bi (some (if l.relu then XR.zero else .ninf)) (some .pinf)

/-- The layers of the first evaluation (`fmt8` false) or the MXFP8 one; `none` where an output is not finite (R177). -/
def evalLayers (bs : List Byte) (fmt8 : Bool) : List Layer → List Block → Option Q
  | [], _ => none
  | [l], inp =>
    match (l.channels bs inp).head? with
    | some c =>
      match fvRound c with
      | some (.fin q) => some q
      | _ => none
    | none => none
  | l :: rest, inp =>
    let cs := l.channels bs inp
    if cs.all fvFinite then
      let f := if fmt8 then 4 else l.afmt
      evalLayers bs fmt8 rest ((groups32 cs).map fun g => asBlock f (convGroup f g))
    else none

/-- The input block of layer 0 (R173 steps 1 and 2). -/
def evalInput (b : Blob) (p : List XR) : List Block :=
  let us : List FV := (List.range 3).map fun a =>
    fvRound (fvMul (fvRound (fvAdd (some (p.getD a XR.zero)) (some (.fin (at3 b.origin a).neg)))) (some (.fin (at3 b.inv a))))
  (groups32 us).map fun g => asBlock 4 (convGroup 4 g)

/-- The first evaluation (R173). -/
def firstEval (b : Blob) (p : List XR) : Option Q := evalLayers b.bytes false b.layers (evalInput b p)

/-- The MXFP8 evaluation equals the first (R174). -/
def sameEval (b : Blob) : Bool := b.layers.dropLast.all fun l => l.afmt == 4

/-- The MXFP8 evaluation (R174). -/
def mxfp8Eval (b : Blob) (p : List XR) : Option Q := evalLayers b.bytes true b.layers (evalInput b p)

/-- The exact weight w_rj with its block scale (R176). -/
def Layer.weight (l : Layer) (bs : List Byte) (r j : Nat) : FV :=
  let k := l.block bs r (j / 32)
  scaleBy (k.elems.getD (j % 32) none) k.scale 127

/-- |x| of a value. -/
def fvAbs (v : FV) : FV := v.map fun x => if x.isNeg then x.neg else x

/-- round_up_fp32 of an exact value. -/
def fvUp (v : FV) : FV := v.map (gridFp32.dirX true)

/-- One layer of the pair evaluation: the outputs and their magnitude bounds (R176). -/
def Layer.pairStep (l : Layer) (bs : List Byte) (xs : List (FPair × FV)) : List (FPair × FV) :=
  (List.range l.wout).map fun r =>
    let ws := (List.range l.win).map fun j => (l.weight bs r j, xs.getD j (⟨none, Q.zero⟩, none))
    let acc := ws.foldl (fun (acc : FPair) (w, (x, _)) =>
      toPair (fvAdd (fvAdd acc.val (fvMul w x.hi)) (fvMul w (some (.fin x.lo))))) ⟨some XR.zero, Q.zero⟩
    let m := ws.foldl (fun (m : FV) (w, (_, b)) => fvUp (fvAdd m (fvUp (fvMul (fvAbs w) b)))) (some XR.zero)
    let (sc, bi) := l.scaleBias bs r
    let y := toPair (fvAdd (fvMul sc acc.val) bi)
    let y' : FPair := match y.hi with
      | some h => if l.relu && h.isNeg then ⟨some XR.zero, Q.zero⟩ else y
      | none => y
    (y', fvUp (fvAdd (fvUp (fvMul (fvAbs sc) m)) (fvAbs bi)))

/-- The layers of the pair evaluation; `none` where an output is not finite (R177). -/
def pairLayers (bs : List Byte) : List Layer → List (FPair × FV) → Option (List (FPair × FV))
  | [], xs => some xs
  | l :: rest, xs =>
    let ys := l.pairStep bs xs
    if ys.all fun y => fvFinite y.1.hi then pairLayers bs rest ys else none

/-- The pair evaluation: hi, lo and τ (R176); `none` under R177. -/
def pairEval (b : Blob) (p : List XR) : Option (Q × Q × Q) :=
  let us : List (FPair × FV) := (List.range 3).map fun a =>
    let u := toPair (fvMul (fvAdd (some (p.getD a XR.zero)) (some (.fin (at3 b.origin a).neg))) (some (.fin (at3 b.inv a))))
    (u, fvUp (fvAdd (fvAbs u.hi) (some (.fin u.lo.abs))))
  match (pairLayers b.bytes b.layers us).bind List.head? with
  | some (y, some (.fin m)) =>
    match y.hi, upFp (m.mul (Q.pow2 (-36))) with
    | some (.fin h), .fin t => some (h, y.lo, t)
    | _, _ => none
  | _ => none

/-- Multiply-accumulates of a first or MXFP8 evaluation, padding included (R165, R183). -/
def firstMacs (b : Blob) : Nat := (b.layers.map fun l => l.wout * (32 * ceilDiv l.win 32)).sum

/-- Those of the first evaluation with both operands in MXFP4 (Table 13.7). -/
def fourMacs (b : Blob) : Nat :=
  ((b.layers.zip (b.layers.drop 1)).map fun (p, l) => if p.afmt = 1 ∧ l.wfmt = 1 then l.wout * (32 * ceilDiv l.win 32) else 0).sum

/-- Multiply-accumulates of a pair evaluation (Table 6.11). -/
def pairMacs (b : Blob) : Nat := (b.layers.map fun l => l.wout * l.win).sum

end Sys2Proof.Machine
end

