-- ==== Sys2Proof/Machine/Box.lean ====
section
/-! DEFINITION. Query geometry (R79, R80), the box array (R112 to R118) and the intersector (R120 to R128). -/

namespace Sys2Proof.Machine

open Sys2Proof

/-! ## Query records -/

/-- The kinds of Table 3.2. -/
inductive QKind where
  | ray | segment | range | knn | locate | march | probe
  deriving DecidableEq, Repr

/-- A query record that R80 lets run. `o` is ORIG, P0, CENTRE, POINT or COORD; `d` is empty for kinds without direction. -/
structure Geo where
  kind : QKind
  mode : Nat
  mask : Byte
  cull : Bool
  exclude : Bool
  dedup : Bool
  cap : Nat
  o : List Q
  d : List Q
  tmin : XR
  tmax : XR
  radius : XR
  self : Word
  salt : Word
  maj : Q
  deriving DecidableEq, Repr

/-- KIND (Table 3.2). -/
def kindOf (b : Byte) : Option QKind :=
  match b.toNat with
  | 1 => some .ray
  | 2 => some .segment
  | 3 => some .range
  | 4 => some .knn
  | 5 => some .locate
  | 6 => some .march
  | 7 => some .probe
  | _ => none

/-- MODE and CAP lie in the ranges of Table 3.2 (R80). -/
def modeOk (k : QKind) (mode cap : Nat) : Bool :=
  match k with
  | .ray | .segment => decide (mode ≤ 2) && (mode != 2 || (decide (1 ≤ cap) && decide (cap ≤ 256)))
  | .range => mode == 0 && decide (1 ≤ cap) && decide (cap ≤ 1024)
  | .knn => mode == 0 && decide (1 ≤ cap) && decide (cap ≤ 64)
  | .locate | .march => decide (mode ≤ 1)
  | .probe => decide (mode ≤ 1) && decide (1 ≤ cap) && decide (cap ≤ if mode = 0 then 1024 else 64)

/-- KNN and PROBE_ND KNN. -/
def Geo.nearest (g : Geo) : Bool := g.kind == .knn || (g.kind == .probe && g.mode == 1)

/-- RANGE and PROBE_ND RANGE. -/
def Geo.ranged (g : Geo) : Bool := g.kind == .range || (g.kind == .probe && g.mode == 0)

/-- Kinds with a direction. -/
def Geo.rayLike (g : Geo) : Bool := g.kind == .ray || g.kind == .segment || g.kind == .march

/-- T_MIN and T_MAX are legal (R80). -/
def intervalOk (lo hi : XR) : Bool := lo.isFin && !lo.isNeg && XR.le lo hi

/-- RADIUS is legal (R80). -/
def radiusOk (inf : Bool) (r : XR) : Bool := !r.isNeg && (r.isFin || inf)

/-- A query record on an image of `dims` axes; `none` is BAD_QUERY (R79, R80). -/
def parseGeo (dims : Nat) (l : List Byte) : Option Geo :=
  match kindOf (byteAt l 0) with
  | none => none
  | some k =>
    let mode := (byteAt l 1).toNat
    let cap := fieldAt l 4 2
    let fl := (byteAt l 3).toNat
    let g : Geo := { kind := k, mode := mode, mask := byteAt l 2, cull := bitAt fl 0, exclude := bitAt fl 1,
                     dedup := bitAt fl 2, cap := cap, o := [], d := [], tmin := XR.zero, tmax := XR.zero,
                     radius := XR.zero, self := fpAt l 40, salt := fpAt l 44, maj := Q.zero }
    if !modeOk k mode cap || decide (dims = 3) == (k == .probe) then none
    else
      match k with
      | .ray | .march => do
        let o ← finiteAt l 8 3
        let d ← finiteAt l 20 3
        let lo ← fpVal (fpAt l 32)
        let hi ← fpVal (fpAt l 36)
        if d.all Q.isZero || !intervalOk lo hi then none
        else if k = .march then
          (finiteAt l 40 1).bind fun m =>
            if (at3 m 0).isNeg then none
            else some { g with o := o, d := d, tmin := lo, tmax := hi, maj := at3 m 0 }
        else some { g with o := o, d := d, tmin := lo, tmax := hi }
      | .segment => do
        let o ← finiteAt l 8 3
        let e ← finiteAt l 20 3
        let d := (List.range 3).map fun a => rneX ((at3 e a).sub (at3 o a))
        if d.all XR.isZero || !d.all XR.isFin then none
        else some { g with o := o, d := d.map XR.toQ, tmin := XR.zero, tmax := .fin Q.one }
      | .locate => (finiteAt l 8 3).map fun o => { g with o := o }
      | .range | .knn => do
        let o ← finiteAt l 8 3
        let r ← fpVal (fpAt l 20)
        if radiusOk (k == .knn) r then some { g with o := o, radius := r } else none
      | .probe => do
        let o ← finiteAt l 8 dims
        let r ← fpVal (fpAt l 40)
        if radiusOk (mode == 1) r then some { g with o := o, radius := r } else none

/-- EXCLUDE_SELF acts for the kinds whose AUX is SELF_ID (Table 3.3). -/
def Geo.excludes (g : Geo) (prim : Word) : Bool :=
  g.exclude && prim == g.self && (g.kind == .ray || g.kind == .segment || g.kind == .range || g.kind == .knn)

/-- Leaf types a kind tests (Table 3.2), NEURAL leaves of either OUTPUT among them. -/
def Geo.tests (g : Geo) (t : Nat) : Bool :=
  match g.kind with
  | .ray | .segment => t == 1 || t == 2 || t == 3 || t == 8 || t == 9
  | .range | .knn => t == 4 || t == 2 || t == 3 || t == 9
  | .locate => t == (if g.mode = 0 then 6 else 3) || t == 9
  | .march => t == 7 || t == 8
  | .probe => t == 5

/-- The squared radius, exact. -/
def Geo.radius2 (g : Geo) : XR :=
  match g.radius with
  | .fin r => .fin r.sq
  | x => x

/-- The root's path key (R114, R116, R117). -/
def Geo.rootKey (g : Geo) : XR := if g.rayLike then g.tmin else XR.zero

/-! ## The box array -/

/-- a - b where at most one is infinite. -/
def XR.subX : XR → XR → XR
  | .fin a, .fin b => .fin (a.sub b)
  | .fin _, .ninf => .pinf
  | .fin _, .pinf => .ninf
  | a, _ => a

/-- A child the box array accepts: slot, line, path key, and T_out for ray kinds. -/
structure Hit where
  slot : Nat
  line : Nat
  key : XR
  tout : XR
  deriving DecidableEq, Repr

/-- The query on one axis of the node's grid: q_lo and q_hi (R112). -/
def gridPos (ax : Axis) (p : Q) : XR × XR :=
  let q := (p.sub ax.origin).mul (Q.pow2 (-ax.exp))
  (gridB20.dir false q, gridB20.dir true q)

/-- v_lo and v_hi (R112). -/
def gridInv (ax : Axis) (d : Q) : XR × XR :=
  let v := (Q.pow2 ax.exp).div d.abs
  (gridB20.dir false v, gridB20.dir true v)

/-- A code as an exact value. -/
def codeX (n : Nat) : XR := .fin (Q.ofInt n)

/-- t_in_a and t_out_a of one axis (R113); `none` where an axis with d_a = 0 does not pass. -/
def slab (ax : Axis) (k : Nat) (p d : Q) : Option (XR × XR) :=
  let (qlo, qhi) := gridPos ax p
  let lo := codeX (ax.lo.getD k 0)
  let hi := codeX (ax.hi.getD k 0)
  if d.isZero then
    if XR.le lo qhi && XR.le qlo hi then some (.ninf, .pinf) else none
  else
    let (vlo, vhi) := gridInv ax d
    let nin := downB20 (if d.isPos then lo.subX qhi else qlo.subX hi)
    let nout := upB20 (if d.isPos then hi.subX qlo else qhi.subX lo)
    some (downB20 (nin.mul0 (if XR.le XR.zero nin then vlo else vhi)),
          upB20 (nout.mul0 (if XR.lt XR.zero nout then vhi else vlo)))

/-- T_in and T_out over the axes (R113). -/
def raySpan (n : Node) (g : Geo) (k : Nat) : Option (XR × XR) :=
  ((List.range n.axes.length).zip n.axes).foldl
    (fun acc (a, ax) => acc.bind fun (i, o) => (slab ax k (at3 g.o a) (at3 g.d a)).map fun (x, y) => (XR.max i x, XR.min o y))
    (some (.ninf, .pinf))

/-- The lower bound D on the squared distance to the child's box (R116, R118). -/
def boxDist (n : Node) (g : Geo) (k : Nat) : XR :=
  ((List.range n.axes.length).zip n.axes).foldl
    (fun acc (a, ax) =>
      let (qlo, qhi) := gridPos ax (at3 g.o a)
      let gap := XR.max (XR.max (downB20 ((codeX (ax.lo.getD k 0)).subX qhi)) (downB20 (qlo.subX (codeX (ax.hi.getD k 0)))))
        XR.zero
      let w := downB20 (gap.mul0 (.fin (Q.pow2 ax.exp)))
      let s := downB20 (w.mul0 w)
      match acc, s with
      | .fin x, .fin y => downB20 (.fin (x.add y))
      | _, _ => .pinf)
    XR.zero

/-- LOCATE's axis test (R117). -/
def boxHolds (n : Node) (g : Geo) (k : Nat) : Bool :=
  ((List.range n.axes.length).zip n.axes).all fun (a, ax) =>
    let (qlo, qhi) := gridPos ax (at3 g.o a)
    XR.le (codeX (ax.lo.getD k 0)) qhi && XR.le qlo (codeX (ax.hi.getD k 0))

/-- An empty box (R53). -/
def Node.emptySlot (n : Node) (k : Nat) : Bool := n.axes.any fun ax => decide (ax.hi.getD k 0 < ax.lo.getD k 0)

/-- Slots that are box-tested: used, not empty, past the mask check (R52, R53, R55). -/
def Node.tested (n : Node) (mask : Byte) : List Nat :=
  (List.range n.children.length).filter fun k => !n.emptySlot k && (n.masks.getD k 0 &&& mask) != 0

/-- A distance key passes R116: within RADIUS², and below the bound once k results are held. -/
def Geo.keyOk (g : Geo) (bound : Option XR) (k : XR) : Bool :=
  XR.le k g.radius2 && (match bound with | none => true | some b => XR.lt k (nextAbove b))

/-- One slot's test: the accepted child, its key bounded by the limit L (R114), the k-th held distance (R116). -/
def slotTest (n : Node) (g : Geo) (key limit : XR) (bound : Option XR) (k : Nat) : Option Hit :=
  let line := n.children.getD k 0
  if g.rayLike then
    (raySpan n g k).bind fun (tin, tout) =>
      let kk := XR.max key tin
      if XR.le kk tout && XR.le kk limit then some ⟨k, line, kk, tout⟩ else none
  else if g.kind = .locate then (if boxHolds n g k then some ⟨k, line, XR.zero, .pinf⟩ else none)
  else
    let kk := XR.max key (boxDist n g k)
    if g.keyOk bound kk then some ⟨k, line, kk, .pinf⟩ else none

/-- Accepted children in visit order (R85), and how many box tests were made (R131). -/
def boxVisit (n : Node) (g : Geo) (key limit : XR) (bound : Option XR) : List Hit × Nat :=
  let ks := n.tested g.mask
  (sortBy (fun a b => XR.lt a.key b.key) (ks.filterMap (slotTest n g key limit bound)), ks.length * n.passes)

/-! ## Primitive tests -/

def dot3 (a b : List Q) : Q := Q.sum ((List.range 3).map fun i => (at3 a i).mul (at3 b i))

/-- The shear constants: kx, ky, kz, sx, sy, sz (R121). -/
def shear (d : List Q) : Nat × Nat × Nat × Q × Q × Q :=
  let m := fun i => (at3 d i).abs
  let kz := if (m 0).lt (m 1) then (if (m 1).lt (m 2) then 2 else 1) else if (m 0).lt (m 2) then 2 else 0
  let x := (kz + 1) % 3
  let y := (x + 1) % 3
  let (kx, ky) := if (at3 d kz).isNeg then (y, x) else (x, y)
  let dz := at3 d kz
  (kx, ky, kz, (rneX ((at3 d kx).div dz)).toQ, (rneX ((at3 d ky).div dz)).toQ, (rneX (Q.one.div dz)).toQ)

/-- A sheared vertex; `none` where a coordinate is not finite (R121). -/
def shearVertex (o d v : List Q) : Option (Q × Q × Q) :=
  let (kx, ky, kz, sx, sy, sz) := shear d
  let e := fun a => rneX ((at3 v a).sub (at3 o a))
  if !((List.range 3).all fun a => (e a).isFin) then none
  else
    let z := (e kz).toQ
    let x' := rneX ((e kx).toQ.sub (sx.mul z))
    let y' := rneX ((e ky).toQ.sub (sy.mul z))
    let z' := rneX (sz.mul z)
    if x'.isFin && y'.isFin && z'.isFin then some (x'.toQ, y'.toQ, z'.toQ) else none

/-- A triangle hit: t, u, v and BACK (R121). -/
def triHit (g : Geo) (v0 v1 v2 : List Q) : Option (Q × Q × Q × Bool) := do
  let (ax, ay, az) ← shearVertex g.o g.d v0
  let (bx, by', bz) ← shearVertex g.o g.d v1
  let (cx, cy, cz) ← shearVertex g.o g.d v2
  let ue := (cx.mul by').sub (cy.mul bx)
  let ve := (ax.mul cy).sub (ay.mul cx)
  let we := (bx.mul ay).sub (by'.mul ax)
  let tot := (ue.add ve).add we
  let allPos := !ue.isNeg && !ve.isNeg && !we.isNeg
  let allNeg := !ue.isPos && !ve.isPos && !we.isPos
  if !(allPos || allNeg) || tot.isZero then none
  else
    let u := rneX ue
    let v := rneX ve
    let w := rneX we
    if !(u.isFin && v.isFin && w.isFin) then none
    else
      let det := rneX ((u.toQ.add v.toQ).add w.toQ)
      let t := rneX (((u.toQ.mul az).add (v.toQ.mul bz)).add (w.toQ.mul cz))
      if !(det.isFin && t.isFin) || det.isZero then none
      else
        let rt := rneX (t.toQ.div det.toQ)
        let ru := rneX (v.toQ.div det.toQ)
        let rv := rneX (w.toQ.div det.toQ)
        if rt.isFin && ru.isFin && rv.isFin then some (rt.toQ, ru.toQ, rv.toQ, tot.isNeg) else none

/-- The candidates of a sphere, in order, with INSIDE (R123). -/
def sphereHit (g : Geo) (c : List Q) (r : Q) : Option (List XR × Bool) :=
  let f := (List.range 3).map fun a => rneX ((at3 c a).sub (at3 g.o a))
  let a := rneX (dot3 g.d g.d)
  if !f.all XR.isFin || !a.isFin || a.isZero then none
  else
    let fq := f.map XR.toQ
    let tc := rneX ((dot3 fq g.d).div a.toQ)
    if !tc.isFin then none
    else
      let l := (List.range 3).map fun i => rneX ((at3 fq i).sub (tc.toQ.mul (at3 g.d i)))
      if !l.all XR.isFin then none
      else
        let lq := l.map XR.toQ
        let h := r.sq.sub (dot3 lq lq)
        if h.isNeg then none
        else
          let s := rneSqrt (h.div a.toQ)
          if !s.isFin then none
          else
            let t0 := rneX (tc.toQ.sub s.toQ)
            let t1 := rneX (tc.toQ.add s.toQ)
            if !(t0.isFin && t1.isFin) then none
            else
              let co := (List.range 3).map fun i => (at3 c i).sub (at3 g.o i)
              some ([t0, t1], (dot3 co co).lt r.sq)

/-- te and tx of a box along the ray; `none` where it is missed (R124). -/
def boxSpan (g : Geo) (lo hi : List Q) : Option (XR × XR) :=
  let r := (List.range 3).foldl
    (fun acc a => acc.bind fun ((i, o) : XR × XR) =>
      let d := at3 g.d a
      let p := at3 g.o a
      if d.isZero then (if (at3 lo a).le p && p.le (at3 hi a) then some (i, o) else none)
      else
        let near := if d.isPos then at3 lo a else at3 hi a
        let far := if d.isPos then at3 hi a else at3 lo a
        some (XR.max i (downFp ((near.sub p).div d)), XR.min o (upFp ((far.sub p).div d))))
    (some (XR.ninf, XR.pinf))
  r.bind fun (te, tx) => if XR.le te tx then some (te, tx) else none

/-- p lies in the closed box, exactly. -/
def inBox (p lo hi : List Q) : Bool := (List.range 3).all fun a => (at3 lo a).le (at3 p a) && (at3 p a).le (at3 hi a)

/-- t_rep of the first candidate in [T_MIN, L] (R115, R123). The interval's upper end here is T_MAX: the narrowed limit is
judged when the hit is offered to the held set (R86). -/
def pickRep (g : Geo) (key : XR) (cands : List XR) : Option XR :=
  (cands.map fun t => XR.max t key).find? fun t => t != .pinf && XR.le g.tmin t && XR.le t g.tmax

/-- The pair of a squared sphere distance (√D2 - r)² with √D2 > r: the root is cut far below the pair's last bit, with a
sticky bit where it is not exact (R120, R125). With r = 0 the distance is D2 itself, which can lie on a tie. -/
def spherePair (d2 r : Q) : Word × Word :=
  let (s, ex) := sqrtLow 1700 d2
  let s' := if ex then s else s.add ⟨1, 2 ^ 1701⟩
  if r.isZero then pairOf d2 else pairOf (s'.sub r).sq

/-- The distance of R125: X0, X1 and whether the primitive lies within RADIUS. -/
def distTo (g : Geo) : Prim → Option (Word × Word × Bool)
  | .point p =>
    let x := Q.sum ((List.range p.length).map fun a => ((at3 p a).sub (at3 g.o a)).sq)
    let (h, l) := pairOf x
    some (h, l, XR.le (.fin x) g.radius2)
  | .aabb lo hi =>
    let x := Q.sum ((List.range 3).map fun a =>
      (Q.max (Q.max ((at3 lo a).sub (at3 g.o a)) ((at3 g.o a).sub (at3 hi a))) Q.zero).sq)
    let (h, l) := pairOf x
    some (h, l, XR.le (.fin x) g.radius2)
  | .sphere c r =>
    let d2 := Q.sum ((List.range 3).map fun a => ((at3 c a).sub (at3 g.o a)).sq)
    if d2.le r.sq then some (0, 0, true)
    else
      let (h, l) := spherePair d2 r
      let inside := match g.radius with | .fin q => d2.le (q.add r).sq | _ => true
      some (h, l, inside)
  | _ => none

def det3 (a b c : List Q) : Q :=
  let m := fun (x y z w : Q) => (x.mul w).sub (y.mul z)
  (((at3 a 0).mul (m (at3 b 1) (at3 b 2) (at3 c 1) (at3 c 2))).sub
    ((at3 a 1).mul (m (at3 b 0) (at3 b 2) (at3 c 0) (at3 c 2)))).add
    ((at3 a 2).mul (m (at3 b 0) (at3 b 1) (at3 c 0) (at3 c 1)))

def tetDet (v0 v1 v2 v3 : List Q) : Q :=
  let r := fun v => (List.range 3).map fun a => (at3 v a).sub (at3 v0 a)
  det3 (r v1) (r v2) (r v3)

/-- λ1 to λ3 when the closed tetrahedron contains the point (R126). -/
def tetHolds (p v0 v1 v2 v3 : List Q) : Option (Word × Word × Word) :=
  let d := tetDet v0 v1 v2 v3
  let d0 := tetDet p v1 v2 v3
  let d1 := tetDet v0 p v2 v3
  let d2 := tetDet v0 v1 p v3
  let d3 := tetDet v0 v1 v2 p
  if d.isZero || !([d0, d1, d2, d3].all fun x => x.isZero || (x.isPos == d.isPos)) then none
  else some (rneW (d1.div d), rneW (d2.div d), rneW (d3.div d))

/-- Weight of a primitive test in half triangle-equivalents (Table 4.4). -/
def primWeight (t : Nat) : Nat :=
  match t with
  | 1 => 2
  | 2 => 2
  | 3 => 1
  | 4 => 1
  | 5 => 4
  | 6 => 8
  | 7 => 8
  | _ => 0

/-- A primitive's hit before acceptance: X0, X1, X2 and HFLAGS (Table 3.8), or `none` for a miss. CULL_BACK is applied,
EXCLUDE_SELF, DEDUP and the limit are the caller's. -/
def primTest (g : Geo) (key : XR) (p : Prim) : Option (Word × Word × Word × Byte) :=
  match g.kind with
  | .ray | .segment =>
    match p with
    | .tri a b c => do
      let (t, u, v, back) ← triHit g a b c
      if back && g.cull then none
      else (pickRep g key [.fin t]).map fun tr => (fpWord tr, rneW u, rneW v, if back then 1 else 0)
    | .sphere c r => do
      let (cs, ins) ← sphereHit g c r
      (pickRep g key cs).map fun tr => (fpWord tr, 0, 0, if ins then 4 else 0)
    | .aabb lo hi => do
      let (te, tx) ← boxSpan g lo hi
      (pickRep g key [te, tx]).map fun tr => (fpWord tr, 0, 0, if inBox g.o lo hi then 4 else 0)
    | _ => none
  | .locate =>
    match p with
    | .tet a b c d => (tetHolds g.o a b c d).map fun (x, y, z) => (x, y, z, 0)
    | .aabb lo hi => if inBox g.o lo hi then some (0, 0, 0, 0) else none
    | _ => none
  | .march => none
  | _ => (distTo g p).bind fun (h, l, w) => if w then some (h, l, 0, 0) else none

/-! ## Voxel bricks -/

/-- The brick's volume segment (R128); `none` where it is missed or empty. -/
def brickSpan (g : Geo) (b : Brick) : Option (XR × XR) :=
  let lo := (List.range 3).map fun a => downFp (at3 b.origin a)
  let hi := (List.range 3).map fun a => upFp ((at3 b.origin a).add ((Q.ofInt 8).mul (at3 b.cell a)))
  -- a corner rounded to infinity bounds nothing: a value beyond every finite quotient stands for it
  let big : Q := Q.pow2 400
  (boxSpan g (lo.map fun x => match x with | .fin q => q | .ninf => big.neg | .pinf => big)
    (hi.map fun x => match x with | .fin q => q | .ninf => big.neg | .pinf => big)).bind fun (t0, t1) =>
      if XR.lt t0 t1 then some (t0, t1) else none

/-- The point at t, one rounding an axis (R128). -/
def pointAt (g : Geo) (t : Q) : List XR := (List.range 3).map fun a => rneX ((at3 g.o a).add (t.mul (at3 g.d a)))

/-- A clamped cell index (R128). -/
def cellIndex : XR → Nat
  | .ninf => 0
  | .pinf => 7
  | .fin q => (min 7 (max 0 q.floor)).toNat

/-- Density of a brick at a point (R68, R128), before the clamp of R90. -/
def brickDensity (b : Brick) (p : List XR) : XR :=
  let i := fun a =>
    match p.getD a XR.zero with
    | .fin q => cellIndex (rneX ((q.sub (at3 b.origin a)).div (at3 b.cell a)))
    | x => cellIndex x
  rneX ((Q.ofInt (byteAt b.values (i 0 + 8 * i 1 + 64 * i 2)).toNat).mul b.scale)

end Sys2Proof.Machine
end

