-- ==== Sys2Proof/Config.lean ====
section
/-! DEFINITION. The values the manual leaves open: free values, each an opaque constant nothing can evaluate. The step
applies the `free` ones to `State.free`, a counter it advances, so that each use is a fresh value, and the `open` ones to what
R20 lets them depend on; a claim about one holds for every value. -/

namespace Sys2Proof.Config

/-- The word an instruction or a REDUCE gives where the manual states none, from its operation and operands, so that R20 holds of
it (log 8). -/
opaque openWord : List Nat → Word
/-- A byte of local store never written since launch (R189, R193), from the deposit, the kernel's node and the address (log 8). -/
opaque openByte : List Nat → Byte
/-- A byte the manual leaves undefined: flash whose erase or program was cut (R389), log 8. -/
opaque freeByte : Nat → Byte
/-- A word the manual leaves undefined, log 8. -/
opaque freeWord : Nat → Word
/-- A choice the manual leaves undefined: whether a write cut by a reset or a time-out reached memory (R282, R287), log 8. -/
opaque freeBool : Nat → Bool
/-- The open part of RETRY_NS of REFUSE(BUSY) (R261), log 9. -/
opaque freeNat : Nat → Nat
/-- Where a NaN stands in the order of R91, log 14. -/
opaque nanKey : Word → Int
/-- What a mint ring's SIZE_LOG2 outside 4 to 12 acts as (Table 8.2), log 36. -/
opaque ringLog2 : Nat → Nat
/-- A bound of a sphere whose rounded value is an infinity (R226 with R111), from centre and radius, log 33. -/
opaque sphereBound : Int → Int → Bool → Int
/-- The power estimate of R349, in 0.125 W, from the unit activity of the interval (counts in the order of Table 13.7),
the ENERGY table and the hottest reading: the manual gives no formula, log 10. -/
opaque powerEstimate : List Nat → List Word → Nat → Nat

end Sys2Proof.Config
end

