-- ==== Sys2Proof/Machine/Ops.lean ====
section
/-! DEFINITION. The named operations over the state: accessors of the repeated units, free values, HEALTH and security
events, egress, address translation, memory accesses, writes through the home bank. -/

namespace Sys2Proof.Machine

open Sys2Proof

/-- The answer of a meaning. -/
abbrev Result := Host.Outcome State Fault Refusal

/-- A next state. What no command writes is that of `base`: the build (R3), the queue of commands, and memory, whose own
change a meaning puts into `base` beforehand. -/
def settle (base t : State) : Result := .next { t with build := base.build, pending := base.pending, mem := base.mem }

/-- The same for one of several effects of a command: all but these three is that of `t`. -/
def State.keep (base t : State) : State := { t with build := base.build, pending := base.pending, mem := base.mem }

/-! ## Units of the build (Table 0.2, R16) -/

def State.nclusters (s : State) : Nat := s.build.clusters
def State.nslices (s : State) : Nat := 16 * s.build.clusters
def State.nfports (s : State) : Nat := 4 * s.build.clusters
def State.nmports (s : State) : Nat := 2 * s.build.clusters

/-- Guard a meaning by the units its command names. -/
def onUnit (built : Bool) (r : Result) : Result := if built then r else .fault .noSuchUnit

/-- The engine is in OPEN (Table 13.2): clearing, traversal, tasks and the ledger's own steps run. -/
def State.isOpen (s : State) : Bool := s.boot.phase == .opened

/-- An engine event that is due; one that is not leaves the state as it stands (log 5). -/
def whenDue (s : State) (due : Bool) (r : Result) : Result := if due then r else .next s

/-! ## Accessors -/

def State.part (s : State) (p : Nat) : Part := NMap.get {} s.parts p
def State.setPart (s : State) (p : Nat) (v : Part) : State := { s with parts := NMap.put {} s.parts p v }
def State.modPart (s : State) (p : Nat) (f : Part → Part) : State := s.setPart p (f (s.part p))

def State.cluster (s : State) (m : Nat) : Cluster := NMap.get {} s.clusters m
def State.setCluster (s : State) (m : Nat) (v : Cluster) : State := { s with clusters := NMap.put {} s.clusters m v }
def State.modCluster (s : State) (m : Nat) (f : Cluster → Cluster) : State := s.setCluster m (f (s.cluster m))

def State.slice (s : State) (n : Nat) : Slice := NMap.get {} s.slices n
def State.setSlice (s : State) (n : Nat) (v : Slice) : State := { s with slices := NMap.put {} s.slices n v }
def State.modSlice (s : State) (n : Nat) (f : Slice → Slice) : State := s.setSlice n (f (s.slice n))

def State.lead (s : State) (n : Nat) : Lead := NMap.get {} s.leads n
def State.modLead (s : State) (n : Nat) (f : Lead → Lead) : State := { s with leads := NMap.put {} s.leads n (f (s.lead n)) }

def State.port (s : State) (n : Nat) : Port := NMap.get {} s.ports n
def State.modPort (s : State) (n : Nat) (f : Port → Port) : State := { s with ports := NMap.put {} s.ports n (f (s.port n)) }

def State.strm (s : State) (n : Nat) : Stream := NMap.get {} s.strms n
def State.modStrm (s : State) (n : Nat) (f : Stream → Stream) : State := { s with strms := NMap.put {} s.strms n (f (s.strm n)) }

def State.mport (s : State) (n : Nat) : MPort := NMap.get {} s.mports n
def State.modMport (s : State) (n : Nat) (f : MPort → MPort) : State :=
  { s with mports := NMap.put {} s.mports n (f (s.mport n)) }

def State.link (s : State) (n : Nat) : Link := NMap.get {} s.links n
def State.modLink (s : State) (n : Nat) (f : Link → Link) : State := { s with links := NMap.put {} s.links n (f (s.link n)) }

def State.dep? (s : State) (i : Nat) : Option Dep := s.deps.find? (·.id == i)
def State.modDep (s : State) (i : Nat) (f : Dep → Dep) : State := { s with deps := modFirst (·.id == i) f s.deps }
def State.dropDep (s : State) (i : Nat) : State := { s with deps := s.deps.filter (·.id != i) }

def State.query? (s : State) (u : Nat) : Option Query := s.queries.find? (·.uid == u)
def State.modQuery (s : State) (u : Nat) (f : Query → Query) : State := { s with queries := modFirst (·.uid == u) f s.queries }

def State.ctx? (s : State) (slice slot : Nat) : Option Ctx := s.ctxs.find? fun c => c.slice == slice && c.slot == slot
def State.modCtx (s : State) (slice slot : Nat) (f : Ctx → Ctx) : State :=
  { s with ctxs := modFirst (fun c => c.slice == slice && c.slot == slot) f s.ctxs }
/-- Contexts go; one that was not blocked has run in its partition up to now (R219). -/
def State.dropCtxs (s : State) (gone : Ctx → Bool) : State :=
  let ran := ((s.ctxs.filter fun c => gone c && c.blockedAt.isNone).map (·.part)).eraseDups
  let s := ran.foldl (fun s p => s.modPart p fun v => { v with ranAt := s.wclk }) s
  { s with ctxs := s.ctxs.filter fun c => !gone c }
def State.dropCtx (s : State) (slice slot : Nat) : State := s.dropCtxs fun c => c.slice == slice && c.slot == slot

/-- A pool of a partition and a buffer of a pool (R102, R103). -/
def Part.pool (p : Part) (n : Nat) : Pool := NMap.get {} p.pools n
def Part.modPool (p : Part) (n : Nat) (f : Pool → Pool) : Part := { p with pools := NMap.put {} p.pools n (f (p.pool n)) }
def Pool.buf (p : Pool) (i : Nat) : Buf := NMap.get {} p.bufs i
def Pool.modBuf (p : Pool) (i : Nat) (f : Buf → Buf) : Pool := { p with bufs := NMap.put {} p.bufs i (f (p.buf i)) }
def Part.win (p : Part) (w : Nat) : Win := NMap.get {} p.wins w
def Part.kernel (p : Part) (k : Nat) : KDesc := NMap.get {} p.kernels k
def Part.graph (p : Part) (g : Nat) : Graph := NMap.get {} p.graphs g

/-- Cluster of a slice (R16). -/
def clusterOf (slice : Nat) : Nat := slice / 16

/-- Admitted slices of a cluster in ascending index (R141). -/
def State.admittedSlices (s : State) (m : Nat) : List Nat :=
  ((List.range 16).map (16 * m + ·)).filter fun n => (s.slice n).st == .admitted

/-- The ladder position (R351, Table 12.2): steps 1 to 4 are stage 1, 5 to 19 lower the clock, 20 to 26 gate slices, 27 to
31 are stages 3 and 4. -/
def State.ladder (s : State) : Nat := max s.pwr.budgetPos s.pwr.thermPos

/-- Every admitted slice of the engine, ascending. -/
def State.admittedAll (s : State) : List Nat := (List.range s.nslices).filter fun n => (s.slice n).st == .admitted

/-- Slices gated at the present position: round_up(A / 8) more for each step from 2.16, down to round_up(A / 8) ungated
(R351). The manual does not say which: the highest first (log 26). -/
def State.gatedCount (s : State) : Nat :=
  let a := s.admittedAll.length
  min ((s.ladder - 19) * ceilDiv a 8) (a - ceilDiv a 8)

def State.gated (s : State) (n : Nat) : Bool :=
  decide (19 < s.ladder) && (let l := s.admittedAll; (l.drop (l.length - s.gatedCount)).contains n)

/-- The cluster that acts for cluster `m` after adoptions (R295); the fuel bounds a chain of adoptions. -/
def State.acting (s : State) : Nat → Nat → Nat
  | 0, m => m
  | k + 1, m =>
    match (s.cluster m).adopter with
    | some a => s.acting k a
    | none => m

/-- The home cluster of a stream (R26, R295). -/
def State.homeOf (s : State) (stream : Nat) : Nat := s.acting 16 (stream % s.nclusters)

/-! ## Activity of units since the last power estimate (R349), in the order of Table 13.7 -/

/-- Add to one entry of a list of counts. -/
def bump : List Nat → Nat → Nat → List Nat
  | [], 0, n => [n]
  | [], i + 1, n => 0 :: bump [] i n
  | a :: t, 0, n => (a + n) :: t
  | a :: t, i + 1, n => a :: bump t i n

def State.act (s : State) (i n : Nat) : State := { s with pwr := { s.pwr with activity := bump s.pwr.activity i n } }

/-! ## Free values (log 8) -/

def State.freshWord (s : State) : Word × State := (Config.freeWord s.free, { s with free := s.free + 1 })
def State.freshBool (s : State) : Bool × State := (Config.freeBool s.free, { s with free := s.free + 1 })
def State.freshNat (s : State) : Nat × State := (Config.freeNat s.free, { s with free := s.free + 1 })

/-- A word the manual states, or the open one of an operation and its operands where it states none (log 8, log 14). -/
def openOr (key : List Nat) (w : Option Word) : Word := w.getD (Config.openWord key)

/-! ## HEALTH and security events (R273, R312, R406) -/

/-- UNIT of a HEALTH body (R312). -/
def unitInst : Nat := 0
def unitSlice (n : Nat) : Nat := 0x1000 + n
def unitCluster (n : Nat) : Nat := 0x2000 + n
def unitLead (n : Nat) : Nat := 0x3000 + n
def unitMport (n : Nat) : Nat := 0x4000 + n
def unitFport (n : Nat) : Nat := 0x5000 + n
def unitLink (n : Nat) : Nat := 0x6000 + n
def unitPart (n : Nat) : Nat := 0x7000 + n

/-- No partition concerned (R312). -/
def noPart : Nat := 0xFF

/-- Queue a HEALTH event; a full queue counts it lost (R273). Severity is 0 INFO, 1 WARN, 2 ERROR, 3 FATAL. -/
def State.health (s : State) (code unit part sev : Nat) (detail : List Byte) : State :=
  let h : Health := { code := BitVec.ofNat 16 code, unit := BitVec.ofNat 16 unit, part := BitVec.ofNat 8 part,
                      severity := BitVec.ofNat 8 sev, tb := s.tbu.tb, detail := padTo 16 detail }
  if s.fab.hq.length < 64 then { s with fab := { s.fab with hq := s.fab.hq ++ [h] } }
  else { s with fab := { s.fab with hlost := satAdd 0xFFFF s.fab.hlost 1 } }

/-- A security event: counted and reported as HEALTH SECURITY (R406). -/
def State.security (s : State) (cause unit part value : Nat) : State :=
  { s with sec := { s.sec with events := satInc s.sec.events 1 } }.health 0x20 unit part 2
    ([BitVec.ofNat 8 cause, 0, 0, 0] ++ leBytes 4 value)

/-! ## Credits and egress (R243 to R251) -/

def Four.get (f : Four) (c : Nat) : Nat := match c with | 0 => f.ctrl | 1 => f.work | 2 => f.resp | _ => f.dlv

def Four.set (f : Four) (c v : Nat) : Four :=
  match c with
  | 0 => { f with ctrl := v }
  | 1 => { f with work := v }
  | 2 => { f with resp := v }
  | _ => { f with dlv := v }

/-- Flits of a message (R244). -/
def flitsOf (len : Nat) : Nat := ceilDiv (16 + len) 64

/-- Spend the credits of one port and class on the waiting flits, in order: what stays, what left, credits over (R243,
R248). What `held` names stays. -/
def drain (held : OutMsg × Nat → Bool) (port cls : Nat) : Nat → List (OutMsg × Nat) → List (OutMsg × Nat) × List OutMsg × Nat
  | cr, [] => ([], [], cr)
  | cr, (m, n) :: t =>
    if m.port = port ∧ m.cls = cls ∧ !held (m, n) then
      if cr = 0 then ((m, n) :: t, [], 0)
      else if n ≤ cr then
        let (q, out, c) := drain held port cls (cr - n) t
        (q, m :: out, c)
      else ((m, n - cr) :: t, [], 0)
    else
      let (q, out, c) := drain held port cls cr t
      ((m, n) :: q, out, c)

/-- The partition of a HIT, a RECEIPT or a MINT_DONE EVENT (Table 9.12), the messages that a partition's own work sends. -/
def State.borderPart (s : State) (m : OutMsg) : Option Nat :=
  if m.type == 0x04 || m.type == 0x06 then some (s.strm m.stream.toNat).part.toNat
  else if m.type == 0x07 then (m.payload[4]?).map fun b => b.toNat % 32
  else none

/-- The border of a partition holds (R396). -/
def State.bordered (s : State) (p : Nat) : Bool := (s.part p).st == .isolated || (s.part p).st == .loading

/-- Such a message of an isolated partition does not begin to leave (Table 14.3). -/
def State.borderHolds (s : State) (x : OutMsg × Nat) : Bool :=
  match s.borderPart x.1 with
  | some p => s.bordered p && x.2 == flitsOf x.1.payload.length
  | none => false

/-- Move waiting flits of one port and class out while credits last. After a thermal trip every VLD is 0 and nothing leaves
(R348). -/
def State.pump (s : State) (port cls : Nat) : State :=
  if s.boot.phase = .tripped then s
  else
    let cr := (s.port port).egress.get cls
    let (q, out, c) := drain s.borderHolds port cls cr s.fab.egressQ
    { s with fab := { s.fab with egressQ := q, sent := s.fab.sent ++ out, flitsOut := s.fab.flitsOut + (cr - c) } }.modPort port
      fun p => { p with egress := p.egress.set cls c }

/-- Put a message on its port's egress queue. -/
def State.send (s : State) (m : OutMsg) : State :=
  { s with fab := { s.fab with egressQ := s.fab.egressQ ++ [(m, flitsOf m.payload.length)] } }.pump m.port m.cls

/-! ## Addresses (R323, R324) -/

/-- The lowest enabled window that covers a whole access (R324). -/
def Part.window (p : Part) (addr len : Nat) : Option Win :=
  ((List.range 16).map p.win).find? fun v =>
    v.en && decide (v.base.toNat ≤ addr) && decide (addr + len ≤ v.limit.toNat + 4096)

/-- Translation by that window, when it permits the access; `none` is a window miss (R324). -/
def Part.translate (p : Part) (addr len : Nat) (wr : Bool) : Option Nat :=
  match p.window addr len with
  | none => none
  | some v => if (if wr then v.wr else v.rd) then some (addr - v.base.toNat + v.tgt.toNat) else none

def State.translate (s : State) (part addr len : Nat) (wr : Bool) : Option Nat := (s.part part).translate addr len wr

/-- The port of a system address (R323, R337). -/
def State.portOf (s : State) (a : Nat) : Nat :=
  let i := s.ilv.toNat
  a / 2 ^ (if 8 ≤ i ∧ i ≤ 16 then i else 12) % s.nmports

/-- The port of a system address issues requests (R337). -/
def State.portEn (s : State) (a : Nat) : Bool := (s.mport (s.portOf a)).en

/-- The partition addresses at which a partition sees a system line, through each window that translates it (R324). -/
def Part.seenAt (p : Part) (line : Nat) : List Nat :=
  (List.range 16).filterMap fun w =>
    let v := p.win w
    let a := 64 * line + v.base.toNat - v.tgt.toNat
    if v.tgt.toNat ≤ 64 * line && p.translate a 64 false == some (64 * line) then some a else none

/-- Line number of a system address. -/
def lineOf (a : Nat) : Nat := a / 64

/-- The acting home bank of a line (R327, R336). -/
def State.bankOf (s : State) (line : Nat) : Nat :=
  let b := line % s.nclusters
  match (s.cluster b).bank.takenBy with
  | some a => a
  | none => b

/-! ## Owned copies and reads -/

/-- The owned copy of a line in a cluster's L1 or its eviction buffer (R331, R332). -/
def Cluster.held? (c : Cluster) (line : Nat) : Option CLine :=
  match c.l1.lines.find? fun l => l.line == line && l.owned with
  | some l => some l
  | none => c.evbuf.find? fun l => l.line == line && l.owned

/-- The owned copy of a line that a cluster's L1 holds or is granted. -/
def Cluster.owned? (c : Cluster) (line : Nat) : Option CLine :=
  match c.held? line with
  | some l => some l
  | none => c.grants.find? (·.line == line)

/-- The cluster that owns a line, with its copy; a recall response on its way is still that copy. -/
def State.ownerOf (s : State) (line : Nat) : Option (Nat × CLine) :=
  match (List.range s.nclusters).findSome? fun m => ((s.cluster m).owned? line).map fun l => (m, l) with
  | some x => some x
  | none => (s.cluster (s.bankOf line)).bank.q.find? fun x => x.2.line == line

/-- One byte as the home bank serves it: an owned copy counts before memory (R331). -/
def State.readByte (s : State) (a : Nat) : Byte :=
  match s.ownerOf (lineOf a) with
  | some (_, l) => byteAt l.data (a % 64)
  | none => s.mem.read a

/-- Bytes as the home bank serves them. -/
def State.readSys (s : State) (a n : Nat) : List Byte := (List.range n).map fun i => s.readByte (a + i)

/-- One line of memory as the home bank serves it. -/
def State.readLine (s : State) (line : Nat) : List Byte :=
  match s.ownerOf line with
  | some (_, l) => l.data
  | none => s.mem.readN (64 * line) 64

/-! ## Writes through the home bank (R330) -/

/-- Overlay bytes that start at `a` on the copy of a line. -/
def overlay (line : Nat) (data : List Byte) (a : Nat) (bs : List Byte) : List Byte :=
  (List.range 64).map fun i =>
    let x := 64 * line + i
    if a ≤ x ∧ x < a + bs.length then byteAt bs (x - a) else byteAt data i

/-- Lines a range of bytes touches. -/
def linesOf (a n : Nat) : List Nat := (List.range (lineOf (a + n - 1) + 1 - lineOf a)).map (lineOf a + ·)

/-- Remove a line from a cache. -/
def Cache.drop (c : Cache) (line : Nat) : Cache := { c with lines := c.lines.filter (·.line != line) }

/-- Drop every L0 copy of a line in a cluster. -/
def State.dropL0 (s : State) (m line : Nat) : State :=
  s.slices.foldl (fun (acc : State) (n, v) =>
    if clusterOf n = m ∧ v.l0.lines.any (·.line == line) then acc.setSlice n { v with l0 := v.l0.drop line } else acc) s

/-- Drop a cluster's L1 copy of a line unless it is owned, and with it its L0 copies (R334). -/
def State.dropL1 (s : State) (m line : Nat) : State :=
  let c := s.cluster m
  let kept := c.l1.lines.filter fun l => l.line != line || l.owned
  let s := if c.l1.lines.any (·.line == line) then s.setCluster m { c with l1 := { c.l1 with lines := kept } } else s
  s.dropL0 m line

/-- Drop every L1 and L0 copy of a line (R330 step 3). -/
def State.dropShared (s : State) (line : Nat) : State :=
  (List.range s.nclusters).foldl (fun acc m => acc.dropL1 m line) s

/-- Drop every copy of a line, the L2 copy among them (R47, R49). -/
def State.dropAll (s : State) (line : Nat) : State :=
  (s.modCluster (s.bankOf line) fun c => { c with bank := { c.bank with l2 := c.bank.l2.drop line } }).dropShared line

/-- A grant of the line is on its way, or its L1 has not yet performed an atomic on it: no recall of it is honoured (R331). -/
def State.granted (s : State) (line : Nat) : Bool :=
  (List.range s.nclusters).any fun m => (s.cluster m).grants.any (·.line == line)

/-- An L1 honours a recall of a line it owns: its copy and the L0 copies under it go, and its data are on their way to the
home bank as a recall response, from the eviction buffer for a line held there (R331, R332, R334). A grant not yet used
stays. -/
def State.pullOwned (s : State) (line : Nat) : State :=
  match (List.range s.nclusters).findSome? fun m => ((s.cluster m).held? line).map fun l => (m, l) with
  | none => s
  | some (m, l) =>
    let s := s.modCluster m fun c =>
      { c with l1 := { c.l1 with lines := c.l1.lines.filter fun x => !(x.line == line && x.owned) }
               evbuf := modAll (·.line == line) (fun x => { x with owned := false }) c.evbuf
               recalls := c.recalls.filter (· != line), up := c.up ++ [(.response, line)]
               down := c.down.filter (· != (.recall, line)) }
    (s.modCluster (s.bankOf line) fun b => { b with bank := { b.bank with q := b.bank.q ++ [(m, l)] } }).dropL0 m line

/-- Drop every copy of a line, an owned one by a recall first; under a grant not yet used the L2 copy stays (R47, R331, R334). -/
def State.discardLine (s : State) (line : Nat) : State :=
  if s.granted line then s.dropShared line else (s.pullOwned line).dropAll line

/-- Take an owned copy back at once: its data go to memory, a clean L2 copy stays if one is held, the L1 copy goes (R331,
R332). -/
def State.recallNow (s : State) (line : Nat) : State :=
  match s.ownerOf line with
  | none => s
  | some (m, l) =>
    let s := { s with mem := s.mem.writeN (64 * line) (padTo 64 l.data) }
    let s := s.modCluster m fun c =>
      { c with l1 := c.l1.drop line, evbuf := modAll (·.line == line) (fun x => { x with owned := false }) c.evbuf
               grants := c.grants.filter (·.line != line), recalls := c.recalls.filter (· != line)
               up := c.up.filter (· != (.response, line)), down := c.down.filter fun x => !(x.2 == line && x.1 != .ack) }
    let s := s.modCluster (s.bankOf line) fun c =>
      { c with bank := { c.bank with
          l2 := { c.bank.l2 with
            lines := c.bank.l2.lines.map fun x => if x.line = line then { x with data := l.data, owner := none } else x }
          q := c.bank.q.filter (·.2.line != line)
          recalls := c.bank.recalls.filter (·.1 != line) } }
    s.dropL0 m line

/-- A write of the engine at the home bank: recall, update of the L2 copy, invalidation of L1 and L0, memory (R330). -/
def State.homeWrite (s : State) (a : Nat) (bs : List Byte) : State :=
  if bs.isEmpty then s
  else
    let ls := linesOf a bs.length
    let s := ls.foldl State.recallNow s
    let s := { s with mem := s.mem.writeN a bs }
    let s := ls.foldl (fun (s : State) line => s.modCluster (s.bankOf line) fun c =>
      if c.bank.l2.lines.any (·.line == line) then
        { c with bank := { c.bank with l2 := { c.bank.l2 with
            lines := modAll (·.line == line) (fun x => { x with data := overlay line x.data a bs, sharers := 0 }) c.bank.l2.lines } } }
      else c) s
    ls.foldl State.dropShared s

/-! ## Tries of an access that a command carries (R296, R322) -/

/-- Count failed tries of an access on its port. -/
def State.countFails (s : State) (port : Nat) (fs : List MemFail) : State :=
  s.modMport port fun p =>
    { p with errors := satInc p.errors (fs.count .error), poison := satInc p.poison (fs.count .poison)
             timeouts := satInc p.timeouts (fs.count .timeout) }

/-- The code of MEMPORT_FAULT for a failure (Table 10.8). -/
def failCause : MemFail → Nat
  | .error => 1
  | .poison => 2
  | .timeout => 3

/-- Four failures are a final one (R296); its cause is that of the last. -/
def finalFail (fs : List MemFail) : Option MemFail := if 4 ≤ fs.length then fs[3]? else none

/-- HEALTH MEMPORT_FAULT (R322). -/
def State.portEvent (s : State) (port part paddr cause : Nat) : State :=
  s.health 0x09 (unitMport port) part 2 (leBytes 8 paddr ++ [BitVec.ofNat 8 cause])

/-- The tries of one access at a system address: its failures are counted, and a final one is reported. -/
def State.tried (s : State) (sys part paddr : Nat) (fs : List MemFail) : State :=
  let s := s.countFails (s.portOf sys) (fs.take 4)
  match finalFail fs with
  | some f => s.portEvent (s.portOf sys) part paddr (failCause f)
  | none => s

/-- The failed tries a command carries under an index. -/
def triesOf (fs : Fails) (i : Nat) : List MemFail := ((fs.find? fun x => x.1 == i).map (·.2)).getD []

/-! ## Outstanding accesses (R317, R318) -/

/-- The smallest tag of a port that is neither outstanding nor held back by a time-out (R318, R322). -/
def State.freeTag (s : State) (port : Nat) (write : Bool) : Nat :=
  let used := (s.accs.filter fun a => a.port == port && a.write == write).map (·.tag) ++
    ((s.lateTags.filter fun t => t.port == port && t.write == write).map (·.tag))
  ((List.range (used.length + 1)).find? fun t => !used.contains t).getD 0

/-- How many tags a port has for reads and for writes (R318). -/
def tagLimit (write : Bool) : Nat := if write then 2048 else 8192

/-- Where an access of a partition with a tag stands on a port: on its way, or waiting for EN (R337), for a tag (R318) or for
the end of the partition's isolation (R396). -/
def State.accStart (s : State) (port tag : Nat) (write : Bool) (part : Nat) : AccSt :=
  if (s.mport port).en && decide (tag < tagLimit write) && !s.bordered part then .out else .queued

/-- Issue an access at a system address. No row of the table accepts a request: it is accepted as it is issued (log 72). -/
def State.issue (s : State) (write : Bool) (part sys paddr : Nat) (data : List Byte) (p : Purpose) : State :=
  let port := s.portOf sys
  let s := s.act 7 (if write then ceilDiv data.length 64 else 1)
  let tag := s.freeTag port write
  let persist := match (s.part part).window paddr (if write then data.length else 64) with | some v => v.persist | none => false
  { s with accs := s.accs ++ [{ port := port, tag := tag, write := write, part := part, addr := sys, paddr := paddr, data := data,
                                persist := persist, purpose := p, issued := s.elapsed, st := s.accStart port tag write part }] }

/-- The oldest access that waits on an enabled port goes out, when a tag is free for it; one of an isolated partition stays
(R318, R337, R396). -/
def State.feed (s : State) (port : Nat) (write : Bool) : State :=
  match s.accs.find? fun a => a.port == port && a.write == write && a.st == .queued && !s.bordered a.part with
  | none => s
  | some a =>
    let n := if a.tag < tagLimit write then a.tag else s.freeTag port write
    if s.accStart port n write a.part = .out then
      let mine := fun (x : Acc) => x.port == port && x.tag == a.tag && x.write == write
      { s with accs := modFirst mine (fun x => { x with tag := n, st := .out, issued := s.elapsed }) s.accs }
    else s

/-- The outstanding access a response names; a timed-out or waiting one answers to nothing. -/
def State.acc? (s : State) (port tag : Nat) (write : Bool) : Option Acc :=
  s.accs.find? fun a => a.port == port && a.tag == tag && a.write == write && a.st == .out

/-- An access has ended; its tag goes to the next that waits for one. -/
def State.dropAcc (s : State) (port tag : Nat) (write : Bool) : State :=
  let left := s.accs.filter fun a => !(a.port == port && a.tag == tag && a.write == write)
  { s with accs := left }.feed port write

/-- Every access that waits is offered a way out, in the order they were issued. -/
def State.feedAll (s : State) : State :=
  s.accs.foldl (fun (s : State) a => if a.st = .queued then s.feed a.port a.write else s) s

def State.modAcc (s : State) (port tag : Nat) (write : Bool) (f : Acc → Acc) : State :=
  { s with accs := modFirst (fun a => a.port == port && a.tag == tag && a.write == write) f s.accs }

/-- Give up accesses; the tags of those on their way stay unused until their response (R318). -/
def State.cancelAccs (s : State) (gone : Acc → Bool) : State :=
  let out := s.accs.filter fun a => gone a && a.st == .out
  let rest := s.accs.filter fun a => gone a && a.st != .out
  let late : List LateTag := out.map fun a => { port := a.port, tag := a.tag, write := a.write, timedOut := false }
  let s := { s with accs := s.accs.filter fun a => !gone a, lateTags := s.lateTags ++ late }
  rest.foldl (fun s a => s.feed a.port a.write) s

/-- A query gives up its context and spill slot (R132, R135): accesses to the slot serve nobody any more. -/
def State.dropQuery (s : State) (u : Nat) : State :=
  { s with queries := s.queries.filter (·.uid != u) }.cancelAccs fun a => a.purpose == Purpose.spillRd u || a.purpose == Purpose.spillWr u || a.purpose == Purpose.reread u

/-- The write takes effect in memory, once (R320, R330). -/
def State.applyWrite (s : State) (a : Acc) : State :=
  if a.write && !a.applied then s.homeWrite a.addr a.data else s

/-- The outstanding access an acknowledgement names; after a trip none is taken (R348), and one that answers nothing breaks
R319. -/
def onAcc (s : State) (port tag : Nat) (write : Bool) (f : Acc → Result) : Result :=
  if s.boot.phase = .tripped then .next s
  else match s.acc? port tag write with
    | some a => f a
    | none => .fault .unsolicited

/-- A write of an acknowledged access: in memory at the latest now, and no longer outstanding. -/
def State.landAcc (s : State) (a : Acc) : State := (s.applyWrite a).dropAcc a.port a.tag a.write

end Sys2Proof.Machine
end

