-- ==== Sys2Proof/Machine/Cache.lean ====
section
/-! DEFINITION. The node caches and the data caches: replacement, fills through L2, L1 and L0, reads of tree lines and of
scratch lines (R327 to R334). -/

namespace Sys2Proof.Machine

open Sys2Proof

/-- Geometry of a cache: ways, sets, and lines per index step (n for L2, R327). -/
structure Geom where
  ways : Nat
  sets : Nat
  step : Nat

def geomL0 : Geom := ⟨8, 128, 1⟩
def geomL1 : Geom := ⟨16, 2048, 1⟩
def geomL2 (n : Nat) : Geom := ⟨16, 2048, n⟩
/-- The data cache with its 4 ways; what LSPLIT leaves is the cache (R189). -/
def geomData (lsplit : Nat) : Geom := ⟨4, (131072 - 32768 * lsplit) / 256, 1⟩

/-- Set of a line. -/
def Geom.setOf (g : Geom) (line : Nat) : Nat := line / g.step % g.sets

/-- A lookup hits when address and partition match (R328). -/
def Cache.find (c : Cache) (line part : Nat) : Option CLine := c.lines.find? fun l => l.line == line && l.part == part

/-- The tree bits after way `w` is used: the bits on its path point away (R329). `node` counts from 1 at the root; `k`
levels remain. -/
def touchTree : Nat → Nat → Nat → Nat → Nat
  | 0, _, _, bits => bits
  | k + 1, node, w, bits =>
    let right := w / 2 ^ k % 2 = 1
    let b := 2 ^ node
    let cleared := bits - bits / b % 2 * b
    touchTree k (2 * node + bit right) w (if right then cleared else cleared + b)

/-- The way the tree bits point to. -/
def treeVictim : Nat → Nat → Nat → Nat → Nat
  | 0, _, _, w => w
  | k + 1, node, bits, w =>
    let d := bits / 2 ^ node % 2
    treeVictim k (2 * node + d) bits (2 * w + d)

/-- One step of the LFSR x^16 + x^14 + x^13 + x^11 + 1 (R329). -/
def lfsrStep (x : Half) : Half :=
  let b := (x ^^^ (x >>> 2) ^^^ (x >>> 3) ^^^ (x >>> 5)) &&& 1
  (x >>> 1) ||| (b <<< 15)

/-- Record a hit or fill of a way. -/
def Cache.touch (c : Cache) (g : Geom) (plru : Bool) (line way : Nat) : Cache :=
  if plru then
    let st := g.setOf line
    { c with tree := NMap.put 0 c.tree st (touchTree (Nat.log2 g.ways) 1 way (NMap.get 0 c.tree st)) }
  else c

/-- The way a fill takes (R329): the lowest invalid allowed way, else an unlocked victim; `none` where all are locked. -/
def Cache.pickWay (c : Cache) (g : Geom) (plru : Bool) (line : Nat) (unlocked : List Nat) : Option (Nat × Cache) :=
  let st := g.setOf line
  let used := (c.lines.filter fun l => g.setOf l.line == st).map (·.way)
  match unlocked.find? fun w => !used.contains w with
  | some w => some (w, c)
  | none =>
    if unlocked.isEmpty then none
    else if plru then
      let v := treeVictim (Nat.log2 g.ways) 1 (NMap.get 0 c.tree st) 0
      some (if unlocked.contains v then v else unlocked.headD 0, c)
    else some (unlocked.getD (c.lfsr.toNat % unlocked.length) 0, { c with lfsr := lfsrStep c.lfsr })

/-- The line in a way of the set a line belongs to. -/
def Cache.atWay (c : Cache) (g : Geom) (line way : Nat) : Option CLine :=
  c.lines.find? fun l => g.setOf l.line == g.setOf line && l.way == way

/-- Put a line into a way, in place of what stands there. -/
def Cache.place (c : Cache) (g : Geom) (plru : Bool) (l : CLine) : Cache :=
  ({ c with lines := l :: c.lines.filter fun x => !(g.setOf x.line == g.setOf l.line && x.way == l.way) &&
      !(x.line == l.line && x.part == l.part) }).touch g plru l.line l.way

def allWays (n : Nat) : List Nat := List.range n

/-- Ways of an L1 that are not locked (R335). -/
def Cluster.unlockedWays (c : Cluster) : List Nat := (allWays 16).filter fun w => !(c.locks.any fun e => e.1 == w)

/-- Fill the home bank's L2 with a line. The victim's copies in L1 and L0 go first, an owned one as a recall response on its
way to the bank (R334). A victim whose grant is not yet used cannot be recalled (R331): then the fill waits. `true` when the
line is held. -/
def State.fillL2 (s : State) (line part : Nat) (data : List Byte) : State × Bool :=
  let b := s.bankOf line
  let g := geomL2 s.nclusters
  let l2 := (s.cluster b).bank.l2
  match l2.find line part with
  | some l => (s.modCluster b fun c => { c with bank := { c.bank with l2 := l2.touch g s.build.plru line l.way } }, true)
  | none =>
    match l2.pickWay g s.build.plru line (allWays 16) with
    | none => (s, false)
    | some (w, l2') =>
      let put := fun (s : State) => s.modCluster b fun c => { c with bank := { c.bank with
        l2 := { l2' with lines := c.bank.l2.lines }.place g s.build.plru { way := w, line := line, part := part, data := data } } }
      match l2.atWay g line w with
      | none => (put s, true)
      | some v => if s.granted v.line then (s, false) else (put ((s.pullOwned v.line).dropShared v.line), true)

/-- Note a cluster as sharer of a line in the directory (R334). -/
def State.addSharer (s : State) (line m : Nat) : State :=
  s.modCluster (s.bankOf line) fun c => { c with bank := { c.bank with l2 := { c.bank.l2 with
    lines := modAll (·.line == line) (fun l => { l with sharers := l.sharers ||| BitVec.ofNat 16 (2 ^ m) }) c.bank.l2.lines } } }

/-- Fill a cluster's L1 into one of the given ways. The L0 copies of the victim go (R334). An owned victim goes to the eviction
buffer and its WRITEBACK leaves; with that buffer full the eviction waits, and with it the fill (R332). -/
def State.fillL1 (s : State) (m line part : Nat) (data : List Byte) (ways : List Nat) : State × Bool :=
  let c := s.cluster m
  match c.l1.find line part with
  | some l => (s.setCluster m { c with l1 := c.l1.touch geomL1 s.build.plru line l.way }, true)
  | none =>
    match c.l1.pickWay geomL1 s.build.plru line ways with
    | none => (s, false)
    | some (w, l1) =>
      let c' := { c with l1 := l1.place geomL1 s.build.plru { way := w, line := line, part := part, data := data } }
      match l1.atWay geomL1 line w with
      | none => ((s.setCluster m c').addSharer line m, true)
      | some v =>
        if !v.owned then (((s.dropL0 m v.line).setCluster m c').addSharer line m, true)
        else if 16 ≤ c.evbuf.length then (s, false)
        else (((s.dropL0 m v.line).setCluster m
          { c' with evbuf := c.evbuf ++ [v], up := c.up ++ [(.writeback, v.line)] }).addSharer line m, true)

/-- Ways a fill may take: its own way for a preloaded line of a locked way (R335), else those not locked. -/
def Cluster.waysFor (c : Cluster) (line part : Nat) : List Nat :=
  match c.preloaded.find? fun x => x.1 == line && x.2.2 == part with
  | some x => [x.2.1]
  | none => c.unlockedWays

/-- A line as its home bank answers a read: recalled data not yet merged, its own copy, or memory (R331, R333). -/
def State.bankLine (s : State) (line part : Nat) : List Byte :=
  match s.ownerOf line, (s.cluster (s.bankOf line)).bank.l2.find line part with
  | none, some l => l.data
  | _, _ => s.readLine line

/-- Bring a line into a cluster's L1 (ways not locked) through the home bank, which recalls an owned copy first (R331); L1
copies exist only under an L2 copy. The line's data come with it. A fill that waits leaves the line uncached (log 15). -/
def State.fetchL1 (s : State) (m part line : Nat) : List Byte × State :=
  match (s.cluster m).l1.find line part with
  | some l => (l.data, (s.fillL1 m line part l.data []).1)
  | none =>
    if s.granted line then (s.readLine line, s)
    else
      let s := s.pullOwned line
      let data := s.bankLine line part
      let (s, held) := s.fillL2 line part data
      if held then (data, (s.fillL1 m line part data ((s.cluster m).waysFor line part)).1) else (data, s)

/-- A fetch of a line into a cluster's L1 would have to wait: the line or the L2 victim is granted and not yet used (R331), or
the L1 victim is owned and the eviction buffer full (R332). -/
def State.fetchWaits (s : State) (m part line : Nat) : Bool :=
  let c := s.cluster m
  if (c.l1.find line part).isSome then false
  else s.granted line || !(s.fillL2 line part []).2 || !(s.fillL1 m line part [] (c.waysFor line part)).2

/-- Bring a line into a slice's L0 and read it (R327, R328). -/
def State.fetchL0 (s : State) (n part line : Nat) : List Byte × State :=
  let v := s.slice n
  match v.l0.find line part with
  | some l => (l.data, s.setSlice n { v with l0 := v.l0.touch geomL0 s.build.plru line l.way })
  | none =>
    let m := clusterOf n
    let (data, s) := s.fetchL1 m part line
    if ((s.cluster m).l1.find line part).isSome then
      let v := s.slice n
      match v.l0.pickWay geomL0 s.build.plru line (allWays 8) with
      | none => (data, s)
      | some (w, c) =>
        (data, s.setSlice n { v with l0 := c.place geomL0 s.build.plru { way := w, line := line, part := part, data := data } })
    else (data, s)

/-- Read a line of a kernel's data through the slice's data cache (R189). -/
def State.fetchData (s : State) (n part line : Nat) : List Byte × State :=
  let v := s.slice n
  let g := geomData v.lsplit
  match v.dcache.find line part with
  | some l => (l.data, s.setSlice n { v with dcache := v.dcache.touch g s.build.plru line l.way })
  | none =>
    let (data, s) := s.fetchL1 (clusterOf n) part line
    let v := s.slice n
    match v.dcache.pickWay g s.build.plru line (allWays 4) with
    | none => (data, s)
    | some (w, c) =>
      let l : CLine := { way := w, line := line, part := part, data := data }
      (data, s.setSlice n { v with dcache := c.place g s.build.plru l })

/-- A store of a hit core: the write goes to the home bank, and a data-cache copy of the issuing slice takes it too (R189,
R330). The memory part is `homeWrite`; this is the rest. -/
def State.storeCached (s : State) (n part a : Nat) (bs : List Byte) : State :=
  (linesOf a bs.length).foldl (fun (s : State) line => s.modSlice n fun v =>
    { v with dcache := { v.dcache with
        lines := modAll (fun l => l.line == line && l.part == part) (fun l => { l with data := overlay line l.data a bs })
          v.dcache.lines } }) s

end Sys2Proof.Machine
end

