-- ==== Sys2Proof/Machine/Query.lean ====
section
/-! DEFINITION. Queries and deposits in the course of Table 1.5: held sets, task-graph nodes, contexts, completion,
secondary queries, node queues and forward queues (03, 05 and 07). -/

namespace Sys2Proof.Machine

open Sys2Proof

/-! ## Status codes (Table 3.5) -/

def stFound : Byte := 0x00
def stNone : Byte := 0x01
def stCap : Byte := 0x02
def stBadQuery : Byte := 0x10
def stBadImage : Byte := 0x11
def stEpochMissing : Byte := 0x12
def stEpochRetired : Byte := 0x13
def stVisitLimit : Byte := 0x14
def stMemError : Byte := 0x15
def stEmitLimit : Byte := 0x16
def stKernelFault : Byte := 0x17

/-! ## The held set (R86 to R91) -/

/-- The value an X field has in the order of R91. A kernel can write any pattern: a NaN stands at an open place, and a subnormal
or −0 compares as +0, though R91 has the comparison bit for bit (DESIGN CHOICE, log 14). -/
def keyX (w : Word) : XR := (fpVal w).getD (.fin (Q.ofInt (Config.nanKey w)))

/-- The order of R91 for a kind; `nearest` is KNN and PROBE_ND KNN. -/
def heldOrd (kind : QKind) (nearest : Bool) (a b : Held) : Bool :=
  let prim := decide (a.prim < b.prim) || (a.prim == b.prim && (decide (a.leaf < b.leaf) ||
    (a.leaf == b.leaf && decide (a.ord < b.ord))))
  let lt := fun x y => XR.lt (keyX x) (keyX y)
  match kind with
  | .ray | .segment => lt a.x0 b.x0 || (!lt b.x0 a.x0 && prim)
  | _ =>
    if nearest then lt a.x0 b.x0 || (!lt b.x0 a.x0 && (lt a.x1 b.x1 || (!lt b.x1 a.x1 && prim)))
    else prim

/-- The order of R91 for a query. -/
def heldLt (g : Geo) (a b : Held) : Bool := heldOrd g.kind g.nearest a b

/-- How many results the held set keeps; `none` keeps all (R86, R88, R89). -/
def Geo.keep (g : Geo) : Option Nat :=
  match g.kind with
  | .ray | .segment => some (if g.mode = 2 then g.cap else 1)
  | .locate => some 1
  | _ => if g.nearest then some g.cap else none

/-- The current limit L (R86, R114). -/
def Query.limit (g : Geo) (q : Query) : XR :=
  let narrow := (g.kind == .ray || g.kind == .segment) &&
    ((g.mode == 0 && decide (1 ≤ q.held.length)) || (g.mode == 2 && decide (g.cap ≤ q.held.length)))
  match narrow, q.held.getLast? with
  | true, some h => keyX h.x0
  | _, _ => g.tmax

/-- The hi part of the k-th held distance, once k are held (R116). -/
def Query.bound (g : Geo) (q : Query) : Option XR :=
  if g.nearest && decide (g.cap ≤ q.held.length) then q.held.getLast?.map fun h => keyX h.x0 else none

/-- Whether a popped child is visited (R134, R116). -/
def Query.admits (g : Geo) (q : Query) (key : Word) : Bool :=
  let k := keyX key
  if g.rayLike then XR.le k (q.limit g) else if g.kind = .locate then true else g.keyOk (q.bound g) k

/-- Offer a hit that lies within the query's own interval: DEDUP, the narrowed limit, the order of R91, the cap. The flag
says that it was accepted. -/
def offerHit (g : Geo) (q : Query) (h : Held) : Query × Bool :=
  let isRay := g.kind == .ray || g.kind == .segment
  let old := if g.dedup then q.held.find? fun x => x.prim == h.prim else none
  let worse := match old with | some x => !heldLt g h x | none => false
  if worse then (q, false)
  else if isRay && XR.lt (q.limit g) (keyX h.x0) then ({ q with capped := q.capped || g.mode == 2 }, false)
  else
    let base := match old with | some x => q.held.erase x | none => q.held
    let all := insertBy (heldLt g) h base
    match g.keep with
    | none => ({ q with held := all }, true)
    | some n =>
      if all.length ≤ n then ({ q with held := all }, true)
      else ({ q with held := all.take n, capped := q.capped || (isRay && g.mode == 2) }, (all.take n).contains h)

/-- The walk's end: RANGE kinds count what matched and keep the first CAP (R88). -/
def endHeld (g : Geo) (q : Query) : Query :=
  if g.ranged then
    { q with total := q.held.length, capped := decide (g.cap < q.held.length), held := q.held.take g.cap }
  else q

/-- The status of a query that ends without error (R86, R88, Table 3.5). After a DROPRES the manual is silent: CAP_REACHED stands
though COUNT is then below CAP, and a MARCH query whose one record was dropped ends with NONE (DESIGN CHOICE, log 77). -/
def endStatus (g : Geo) (q : Query) : Byte :=
  if q.capped && (g.ranged || ((g.kind == .ray || g.kind == .segment) && g.mode == 2)) then stCap
  else if q.held.isEmpty then stNone else stFound

/-- The 32 bytes of a result record (Table 3.7). -/
def recordOf (qid : Word) (bounce rank : Nat) (h : Held) : List Byte :=
  leBytes 4 qid.toNat ++ [2, BitVec.ofNat 8 bounce] ++ leBytes 2 rank ++ leBytes 4 h.prim.toNat ++ leBytes 4 h.leaf.toNat ++
    leBytes 4 h.x0.toNat ++ leBytes 4 h.x1.toNat ++ leBytes 4 h.x2.toNat ++ [h.ord, h.flags, 0, 0]

/-! ## Task graphs (R209 to R212) -/

def opTraverse : Nat := 1
def opIntersect : Nat := 2
def opNeural : Nat := 3
def opKernel : Nat := 4
def opEmit : Nat := 5
def opReduce : Nat := 6
def opDeliver : Nat := 7

/-- Query-scoped operations (R210). -/
def queryScoped (op : Nat) : Bool := decide (1 ≤ op) && decide (op ≤ 5)

def Graph.find (g : Graph) (op : Nat) : Option Nat := (g.nodes.findIdx? fun n => n.op == op)
def Graph.node (g : Graph) (j : Nat) : GNode := g.nodes.getD j { op := 0, prio := 0, kernel := 0, mask := 0, addr := 0, arg := 0 }
def Graph.indices (g : Graph) (p : Nat → Bool) : List Nat := (List.range g.nodes.length).filter fun j => p (g.node j).op

/-- A set of node indices as completion bits. -/
def bitsOf (js : List Nat) : Half := js.foldl (fun b j => b ||| BitVec.ofNat 16 (2 ^ j)) 0

/-- The bits of TRAVERSE and what is attached to it (R210). -/
def Graph.walkBits (g : Graph) : Half := bitsOf (g.indices fun op => decide (op ≤ 3))
/-- The bits of every query-scoped node. -/
def Graph.queryBits (g : Graph) : Half := bitsOf (g.indices queryScoped)

/-- A leaf type is tested: by the kind (R78) and by the graph (R210). -/
def leafEnabled (gr : Graph) (g : Geo) (t : Nat) : Bool :=
  g.tests t && (t != 8 || (gr.find opNeural).isSome) &&
    (match gr.find opIntersect with
     | some j => !(decide (1 ≤ t) && decide (t ≤ 6)) || bitAt (gr.node j).arg.toNat t
     | none => true)

def State.graphOf (s : State) (q : Query) : Graph := (s.part q.part).graph q.graphId

/-- The gate word of a deposit (R208). -/
def State.gateOf (s : State) (dep : Nat) : Half := match s.dep? dep with | some d => d.gate | none => 0

/-- The flag word of a query (R212). -/
def flagWord (bits gate : Half) : Word := (gate ++ bits : BitVec 32)

/-- A node that has not run is ready for a query (R212). -/
def nodeReady (gr : Graph) (j : Nat) (bits gate : Half) : Bool :=
  !bits.getLsbD j && ((flagWord bits gate) &&& (gr.node j).mask) == (gr.node j).mask

/-- The query is served by a context at node j, from its launch until the context ends: a thread that has exited still serves
its query (R212, R214). -/
def State.taken (s : State) (u j : Nat) : Bool :=
  s.ctxs.any fun c => c.node == j && c.groups.any fun g => g.threads.any fun t => t.query == some u

/-! ## Contexts and slices (R132, R133, R394, R408) -/

/-- Slices a run of a locked pair may use: those of its set; any other partition uses every slice (R408). -/
def State.sliceAllowed (s : State) (part run n : Nat) : Bool :=
  !(s.part part).lockEn || n % 16 % 3 == run

/-- Contexts in use of a slice, and of a partition on the instance. -/
def State.sliceCtx (s : State) (n : Nat) : Nat := (s.queries.filter (·.slice == n)).length
def State.partCtx (s : State) (p : Nat) : Nat := (s.queries.filter (·.part == p)).length

/-- A slice can take one more query of a partition (R133). -/
def State.hasContext (s : State) (part run n : Nat) : Bool :=
  (s.slice n).st == .admitted && !s.gated n && s.sliceAllowed part run n && decide (s.sliceCtx n < 2048) &&
    decide (s.partCtx part < (s.part part).quotaCtx.toNat)

/-- The first admitted slice of a cluster with a free context (log 16). -/
def State.freeSlice (s : State) (m part run : Nat) : Option Nat :=
  ((List.range 16).map (16 * m + ·)).find? (s.hasContext part run)

/-- The smallest spill slot of a partition that no query holds (R135). -/
def State.freeSlot (s : State) (part : Nat) : Nat :=
  let used := (s.queries.filter (·.part == part)).map (·.slot)
  ((List.range (used.length + 1)).find? fun t => !used.contains t).getD 0

/-! ## Image lines of a query (R40, R74) -/

def State.die (s : State) : Nat := bitsAt s.boot.inst.toNat 6 0

/-- A line belongs to another die of a sharded image (R145 step 1). -/
def State.remoteLine (s : State) (h : ImgHdr) (line : Nat) : Option ShardEnt :=
  match h.entryOf line with
  | some e => if e.die = s.die then none else some e
  | none => none

/-- The partition address at which a query reads a line: the image's own, or the fallback copy of a line whose owner is
another die (R74). -/
def State.imgAddr (s : State) (q : Query) (line : Nat) : Nat :=
  match s.remoteLine q.hdr line with
  | some e => e.fallback.toNat + 64 * (line - e.lo)
  | none => q.handle.base.toNat + 64 * line

/-- Ask memory for an image line a query needs, unless its cluster's L1 or the home bank holds it; a window miss is judged
when the line is read (R139, R326). -/
def State.askLine (s : State) (q : Query) (line : Nat) : State :=
  let a := s.imgAddr q line
  match s.translate q.part a 64 false with
  | none => s
  | some sys =>
    let l := lineOf sys
    if ((s.cluster q.cluster).l1.find l q.part).isSome || ((s.cluster (s.bankOf l)).bank.l2.find l q.part).isSome ||
      (s.ownerOf l).isSome then s
    else s.issue false q.part sys a [] (.node q.uid)

/-- Ask for the line a query needs next. -/
def State.requestLine (s : State) (u : Nat) : State :=
  match s.query? u with
  | none => s
  | some q => s.askLine q q.next.line

/-! ## Node queues (R138) -/

/-- The test class of a child for a query kind (R138). -/
def classOf (g : Geo) (leaf : Bool) : TestClass :=
  if leaf then .leaf
  else match g.kind with
    | .ray | .segment | .march => .ray
    | .locate => .point
    | _ => .distance

def Query.geo (q : Query) : Option Geo := parseGeo q.hdr.dims q.bytes

def Query.nodeKey (q : Query) (g : Geo) : NodeKey :=
  { part := q.part, base := q.handle.base, epoch := q.handle.epoch, line := q.next.line, cls := classOf g q.next.leaf,
    run := q.run }

/-- Put a query into the node queue of the line it needs, or into the straggler queue (R138). A pinned copy shares no batch
(R300), so it always stands among the stragglers. -/
def State.joinQueue (s : State) (u : Nat) : State :=
  match s.query? u with
  | none => s
  | some q =>
    match q.geo with
    | none => s
    | some g =>
      let key := q.nodeKey g
      let mem : Member := ⟨u, s.wclk⟩
      let opens := q.pin.isSome || !((s.cluster q.cluster).nqs.any (·.key == key))
      let s := if opens then s.requestLine u else s
      s.modCluster q.cluster fun c =>
        let strag := { c with strag := c.strag ++ [{ id := c.nextQueue, key := key, member := mem }], nextQueue := c.nextQueue + 1 }
        if q.pin.isSome then strag
        else if c.nqs.any (·.key == key) then
          { c with nqs := modFirst (·.key == key) (fun n => { n with members := n.members ++ [mem] }) c.nqs }
        else if c.nqs.length < 4096 then
          { c with nqs := c.nqs ++ [{ id := c.nextQueue, key := key, members := [mem] }], nextQueue := c.nextQueue + 1 }
        else strag

/-! ## Dies (R145, R152) -/

/-- The link of a valid route to a die (Table 5.8). -/
def State.routeTo (s : State) (die : Nat) : Option Nat :=
  let r := NMap.get (0 : BitVec 4) s.dom.routes die
  if r.getLsbD 3 ∧ r.toNat % 8 < 4 then some (r.toNat % 8) else none

/-- A link that carries packets: both ends have sent HELLO and the checks of R157 passed; none does after a thermal trip (R348). -/
def State.linkOpen (s : State) (l : Nat) : Bool :=
  decide (l < s.build.dlinks) && s.boot.phase != .tripped && (s.link l).up && (s.link l).helloIn && (s.link l).helloOut && !(s.link l).peerBad

/-- The link on which packets to a die can leave now. -/
def State.liveRoute (s : State) (die : Nat) : Option Nat := (s.routeTo die).filter s.linkOpen

/-- Forwarding to a die is possible: enabled, a valid route, and not stopped under R154. -/
def State.canForward (s : State) (die : Nat) : Bool :=
  s.dom.fwdEn && !(s.dom.down.any (·.1 == die)) && (s.liveRoute die).isSome

/-- Put a query into the forward queue of a die (R145 step 4). -/
def State.joinForward (s : State) (u die : Nat) : State :=
  match s.query? u with
  | none => s
  | some q =>
    let s := s.modQuery u fun q => { q with st := .forwarding }
    s.modCluster q.cluster fun c =>
      let m : Member := ⟨u, s.wclk⟩
      if c.fqs.any fun f => f.die == die && f.part == q.part then
        { c with fqs := modFirst (fun f => f.die == die && f.part == q.part) (fun f => { f with members := f.members ++ [m] }) c.fqs }
      else { c with fqs := c.fqs ++ [{ die := die, part := q.part, members := [m] }] }

/-! ## Packets and member records (R150, R151) -/

/-- A packet towards a die, on the route to it; without a route over an open link nothing leaves (R152, R157). -/
def State.sendPkt (s : State) (die : Nat) (type : Byte) (nmemb part arg : Nat) (xfer : Word) (payload : List Byte) : State :=
  match s.liveRoute die with
  | some l =>
    { s.act 9 (ceilDiv (16 + payload.length) 64) with dom := { s.dom with sent := s.dom.sent ++
        [{ link := l, type := type, nmemb := BitVec.ofNat 8 nmemb, src := BitVec.ofNat 8 s.die, dst := BitVec.ofNat 8 die,
           part := BitVec.ofNat 8 part,
           arg := BitVec.ofNat 16 arg, xfer := xfer, payload := payload }] } }
  | none => s

/-- The limit of R86 has been narrowed. -/
def Query.narrowed (g : Geo) (q : Query) : Bool :=
  (g.kind == .ray || g.kind == .segment) &&
    ((g.mode == 0 && !q.held.isEmpty) || (g.mode == 2 && decide (g.cap ≤ q.held.length)))

/-- LIMIT of a member record: the limit of R114, or for KNN the bound of R116, the value next above the k-th held distance; +∞
while fewer than k are held (log 28). -/
def Query.limitWord (g : Geo) (q : Query) : Word :=
  if g.nearest then (match q.bound g with | some b => fpWord (nextAbove b) | none => 0x7F800000) else fpWord (q.limit g)

/-- The volumes a MARCH walk has collected, as the held results of its member record: R90 bounds them by the 1,024 that NHELD
counts (DEDUCED, log 29). -/
def volHeld (v : Vol) : Held :=
  { prim := v.prim, leaf := BitVec.ofNat 32 v.leaf, x0 := v.t0, x1 := v.t1, x2 := 0, ord := 0, flags := 0 }

/-- A member record (Table 5.7): head, stack bottom first, held results in the order of R91 with RANK 0. -/
def memberRecord (g : Geo) (q : Query) (new : Bool) : List Byte :=
  let stack := q.spilled ++ q.stack.reverse
  let held := (if g.kind == .march then q.vols.map volHeld else q.held).take 1024
  padTo 48 q.bytes ++ leBytes 4 q.qid.toNat ++ [BitVec.ofNat 8 q.bounce, BitVec.ofNat 8 (bit (q.narrowed g) + 2 * bit new)] ++
    leBytes 2 stack.length ++ leBytes 4 q.next.line ++ leBytes 4 q.next.key.toNat ++ leBytes 4 (q.limitWord g).toNat ++
    leBytes 4 q.visits ++ leBytes 4 q.rngWord ++ leBytes 2 held.length ++ [0, 0] ++ leBytes 8 q.depRef.toNat ++
    leBytes 8 q.handle.base.toNat ++ leBytes 4 q.handle.epoch.toNat ++ leBytes 2 q.handle.treeId.toNat ++ [0, 0] ++
    List.replicate 24 0 ++ (stack.map fun c => leBytes 4 c.line ++ leBytes 4 c.key.toNat).flatten ++
    (held.map (recordOf q.qid q.bounce 0)).flatten

/-- A member record can carry what a visit left of a query: no more than 1,024 held results or volumes, and no hit that an
ALL_SORTED query has dropped, which no field reports (log 29). -/
def Query.fits (g : Geo) (q : Query) : Bool :=
  decide (q.held.length ≤ 1024) && decide (q.vols.length ≤ 1024) &&
    !(q.capped && (g.kind == .ray || g.kind == .segment) && g.mode == 2)

/-- BRANCH, query ID of the c-th staged query (R83). -/
def childId (q : Query) (c : Nat) : Word :=
  let idx := bitsAt q.qid.toNat 11 0
  BitVec.ofNat 32 (idx + 2 ^ 12 * ((q.qid.toNat / 2 ^ 12 + c * 4 ^ q.bounce) % 2 ^ 20))

/-- The records of one returned member: its own, and one for each secondary it staged (R147). -/
def memberRecords (q : Query) : List (List Byte) :=
  match q.geo with
  | none => []
  | some g =>
    memberRecord g q false :: q.staged.mapIdx fun i b =>
      let bytes := padTo 48 b
      let key := match parseGeo q.hdr.dims bytes with | some g => fpWord g.rootKey | none => 0
      memberRecord g { q with bytes := bytes, qid := childId q (q.created + i), bounce := q.bounce + 1, stack := [], spilled := [],
                              held := [], visits := 0, rngWord := 0, next := { line := q.hdr.root, key := key } } true

/-- Send the RETURN of a transit once every member of it has been returned (R147). -/
def State.tryReturn (s : State) (home : Nat) (xfer : Word) : State :=
  let mine := s.queries.filter fun q => q.visitor == some (home, xfer)
  if mine.all fun q => q.st == .returned xfer then
    let recs := (mine.map memberRecords).flatten
    s.sendPkt home 4 recs.length ((mine.map (·.part)).headD 0) 0 xfer recs.flatten
  else s

/-- A visitor goes home as it stands (R145 step 2, R147). -/
def State.goHome (s : State) (u home : Nat) (xfer : Word) : State :=
  (s.modQuery u fun q => { q with st := .returned xfer }).tryReturn home xfer

/-- The line of a child is that of a NEURAL leaf, whose test needs the child's T_out (R128, R178). -/
def State.neuralChild (s : State) (q : Query) (c : Child) : Bool :=
  c.leaf && (match s.translate q.part (s.imgAddr q c.line) 64 false with
    | some a => s.readByte a == 0x10 && s.readByte (a + 1) == 8
    | none => false)

/-- Where a query goes that has popped a child (R145). A visitor also goes home with a NEURAL leaf whose T_out only its home
die knows (log 28). -/
def State.dispatchPop (s : State) (u : Nat) : State :=
  match s.query? u with
  | none => s
  | some q =>
    let stay := (s.modQuery u fun q => { q with st := .ready }).joinQueue u
    match q.visitor, s.remoteLine q.hdr q.next.line with
    | some (h, x), some _ => s.goHome u h x
    | some (h, x), none => if !q.next.known && s.neuralChild q q.next then s.goHome u h x else stay
    | none, none => stay
    | none, some e => if q.pin.isSome || !s.canForward e.die then stay else s.joinForward u e.die

/-! ## Leaving queues, discarding queries -/

/-- Note the waits of members that leave a queue in CLR_WAITMAX, each counted from the member's arrival, also where the queue
became ready later (DESIGN CHOICE, log 78). -/
def Cluster.noteWaits (c : Cluster) (mems : List Member) (now : Nat) : Cluster :=
  let wait := mems.foldl (fun w x => max w (now - x.arrived)) c.waitMax.toNat
  { c with waitMax := BitVec.ofNat 32 (min (2 ^ 32 - 1) wait) }

/-- Take queries out of a cluster's queues. -/
def Cluster.leaveQueues (c : Cluster) (gone : Nat → Bool) (now : Nat) : Cluster :=
  let left := fun (n : NQueue) => { n with members := n.members.filter fun x => !gone x.uid }
  let out := ((c.nqs.map (·.members)).flatten ++ c.strag.map (·.member)).filter fun x => gone x.uid
  { c.noteWaits out now with
    nqs := (c.nqs.map left).filter fun n => !n.members.isEmpty
    strag := c.strag.filter fun x => !gone x.member.uid }

/-- Remove queries from every queue and batch of every cluster and slice. -/
def State.unqueue (s : State) (gone : Nat → Bool) : State :=
  let s := (List.range s.nclusters).foldl (fun (s : State) m => s.modCluster m fun c =>
    { c.leaveQueues gone s.wclk with
      fqs := (c.fqs.map fun f => { f with members := f.members.filter fun x => !gone x.uid }).filter fun f => !f.members.isEmpty }) s
  s.slices.foldl (fun (s : State) (n, v) => s.setSlice n { v with
    inQ := (v.inQ.map fun b => { b with members := b.members.filter fun x => !gone x }).filter fun b => !b.members.isEmpty }) s

/-- Discard queries with all that serves them: queues, shadows' partners, accesses, and their threads in kernel contexts. -/
def State.discard (s : State) (gone : Nat → Bool) : State :=
  let s := (s.unqueue gone).cancelAccs fun a =>
    match a.purpose with
    | .node u => gone u
    | .reread u => gone u
    | .spillRd u => gone u
    | .spillWr u => gone u
    | _ => false
  { s with
    queries := s.queries.filter fun q => !gone q.uid && !(match q.shadowOf with | some o => gone o | none => false)
    snaps := s.snaps.filter fun x => !gone x.1.uid
    shadowsDue := s.shadowsDue.filter fun x => !gone x.orig.uid
    dom := { s.dom with transits := s.dom.transits.map fun t => { t with members := t.members.filter fun u => !gone u } } }

/-- A shadow of a query lives, or waits for a context. -/
def State.shadowed (s : State) (u : Nat) : Bool :=
  (s.queries.any fun c => c.shadowOf == some u) || s.shadowsDue.any fun x => x.orig.uid == u

/-- Drop a pinned copy without a comparison (R301). -/
def State.dropShadow (s : State) (q : Query) : State :=
  let s := s.discard (· == q.uid)
  match q.shadowOf with
  | some o => if s.shadowed o then s else { s with snaps := s.snaps.filter fun x => x.1.uid != o }
  | none => s

/-! ## Completion (R132, R212) -/

/-- The result record of MARCH's escape, used without a walk too (R433, R434): DELTA reports 1 in X1, RATIO its tr. -/
def marchEscape (tr : Word) (n : Nat) (clamped : Bool) : Held :=
  { prim := 0xFFFFFFFF, leaf := 0, x0 := 0x7F800000, x1 := tr, x2 := rneW (Q.ofInt n), ord := 0,
    flags := if clamped then 0x18 else 0x08 }

/-- The later of two times per slice. -/
def mergeRan (a b : NMap Nat) : NMap Nat := b.foldl (fun m e => NMap.put 0 m e.1 (max e.2 (NMap.get 0 m e.1))) a

/-- Keep an original that has a shadow as it ended traversal (R301). -/
def State.snap (s : State) (q : Query) (status : Byte) : State :=
  if s.shadowed q.uid && !(s.snaps.any fun x => x.1.uid == q.uid) then { s with snaps := s.snaps ++ [(q, status)] } else s

/-- Hand a completed query to the dispatcher of its home cluster and free its context (R132). A visitor's or a pinned
copy's end is its own caller's. TOTAL of a RANGE kind stays the count at the walk's end, whatever DROPRES removes later; the
manual is silent there (DESIGN CHOICE, log 77). -/
def State.completeQuery (s : State) (u : Nat) (status : Byte) : State :=
  match s.query? u with
  | none => s
  | some q =>
    let bad := decide (0x10 ≤ status.toNat)
    let ranged := match q.geo with | some g => g.ranged | none => false
    let held := if bad then [] else q.held
    let d : Done := { qid := q.qid, bounce := q.bounce, status := status,
                      total := if bad then 0 else if ranged then q.total else held.length, visits := q.visits, rv := q.rv,
                      held := held, kind := (byteAt q.bytes 0).toNat + 256 * (byteAt q.bytes 1).toNat, run := q.run,
                      ran := q.ran, trace := if (s.part q.part).lockEn then q.trace else [], memEvent := q.memEvent }
    ((s.snap { q with held := held } status).modDep q.dep fun x =>
      { x with done := x.done ++ [d], ran := mergeRan x.ran d.ran }).dropQuery u

/-- A staged query may be created as the c-th of its parent (R83). -/
def emitOk (q : Query) (c : Nat) : Bool :=
  decide (c ≤ 3) && (c == 0 || decide (q.bounce < 10)) && decide (q.bounce + 1 ≤ 15)

/-- A new query in a slice, not started yet. -/
def State.addQuery (s : State) (q : Query) : State := { s with queries := s.queries ++ [q], nextUid := s.nextUid + 1 }

/-- Start a query that R44 lets run: R80, then the root for a graph that traverses once TRAVERSE is ready, or no walk
(R434). `none` in the status means it goes on. -/
def Query.startStatus (q : Query) : Option Byte := if q.geo.isNone then some stBadQuery else none

/-- Put a query whose TRAVERSE is ready at the root (R212, R214); `key` of the root is R114's. -/
def State.startWalk (s : State) (u : Nat) : State :=
  match s.query? u with
  | none => s
  | some q =>
    match q.geo with
    | none => s
    | some g =>
      let s := s.modQuery u fun q => { q with next := { line := q.hdr.root, key := fpWord g.rootKey, tout := 0x7F800000 } }
      s.dispatchPop u

/-- A query's walk has not begun. -/
def Query.idle (q : Query) (gr : Graph) : Bool :=
  q.st == .tasks && (match gr.find opTraverse with | some j => !q.bits.getLsbD j | none => false)

/-- Note when the query became ready for each node (R214); stored plus 1, 0 is not ready. -/
def noteReady (gr : Graph) (gate : Half) (now : Nat) (q : Query) : Query :=
  let note := fun (m : NMap Nat) (j : Nat) =>
    if queryScoped (gr.node j).op && nodeReady gr j q.bits gate && NMap.get 0 m j == 0 then NMap.put 0 m j (now + 1) else m
  { q with readyAt := (List.range gr.nodes.length).foldl note q.readyAt }

/-- Create the staged queries of a parent in the given list of bytes: the new queries, or the parent's EMIT_LIMIT, or
nothing yet for want of contexts (R83, R210). -/
inductive EmitOutcome where
  | created (s : State)
  | limit
  | wait

/-- Place secondaries one by one in free contexts of the parent's cluster. -/
def State.placeSecondaries (s : State) (q : Query) : Nat → List (List Byte) → Option State
  | _, [] => some s
  | c, b :: rest =>
    match s.freeSlice q.cluster q.part q.run with
    | none => none
    | some n =>
      let child : Query := { uid := s.nextUid, dep := q.dep, part := q.part, qid := childId q c, bounce := q.bounce + 1,
                             bytes := padTo 48 b, handle := q.handle, hdr := q.hdr, graphId := q.graphId,
                             cluster := q.cluster, slice := n, slot := s.freeSlot q.part, st := .tasks, run := q.run,
                             depRef := q.depRef, spillFails := q.spillFails, rerun := q.rerun }
      (s.addQuery child).placeSecondaries q (c + 1) rest

/-- EMIT for a query (R210). -/
def State.emitStaged (s : State) (u : Nat) : EmitOutcome :=
  match s.query? u with
  | none => .created s
  | some q =>
    if q.pin.isSome then .created s
    else if !((List.range q.staged.length).all fun i => emitOk q (q.created + i)) then .limit
    else
      match s.placeSecondaries q q.created q.staged with
      | none => .wait
      | some s' => .created (s'.modQuery u fun q => { q with created := q.created + q.staged.length, staged := [] })

/-- A visitor as it stood before the leaf kernel that serves it (log 29). -/
def Query.undone (q : Query) : Query :=
  match q.undo with
  | some w => { q with held := w.held, capped := w.capped, rv := w.rv, rngWord := w.rngWord, staged := w.staged, undo := none }
  | none => q

/-- An error status ends a query: what it found is discarded (R93). A visitor goes home as it stood instead (log 17), and a
pinned copy keeps its status for the comparison (R301). -/
def State.failQuery (s : State) (u : Nat) (status : Byte) : State :=
  match s.query? u with
  | none => s
  | some q =>
    match q.visitor with
    | some (h, x) => (s.modQuery u Query.undone).goHome u h x
    | none =>
      let s := s.snap { q with held := [] } status
      if q.pin.isSome then s.modQuery u fun q => { q with st := .ended, held := [], status := some status }
      else s.completeQuery u status

/-- Let a query go on after a change of its bits or gate: finish when every query-scoped node has completed, else start its
walk when TRAVERSE is ready. A pinned copy walks only: at a KERNEL node it stops, and without a TRAVERSE it has ended (R301). -/
def State.advance (s : State) (u : Nat) : State :=
  match s.query? u with
  | none => s
  | some q =>
    let gr := s.graphOf q
    let gate := s.gateOf q.dep
    if q.visitor.isSome || q.st == .ended then s
    else if q.pin.isSome then
      match gr.find opTraverse with
      | some j =>
        if (q.idle gr && (gr.indices (· == opKernel)).any fun k => nodeReady gr k q.bits gate) then s.dropShadow q
        else if q.idle gr && nodeReady gr j (q.bits ||| bitsOf (gr.indices (· == opEmit))) gate then s.startWalk u else s
      | none => s.modQuery u fun q =>
          { q with st := .ended, status := some (match q.geo with | some g => endStatus g q | none => stBadQuery) }
    else if q.bits &&& gr.queryBits == gr.queryBits then
      match s.emitStaged u with
      | .limit => s.failQuery u stEmitLimit
      | .wait => s
      | .created s' =>
        match s'.query? u with
        | some q' => s'.completeQuery u (match q'.geo with | some g => endStatus g q' | none => stBadQuery)
        | none => s'
    else
      let s := s.modQuery u (noteReady gr gate s.wclk)
      match gr.find opTraverse with
      | some j => if q.idle gr && nodeReady gr j q.bits gate then s.startWalk u else s
      | none => s

/-- Complete nodes for a query. -/
def State.completeNodes (s : State) (u : Nat) (bits : Half) : State :=
  (s.modQuery u fun q => { q with bits := q.bits ||| bits }).advance u

/-- Begin a query just placed: R80, R434, or its first ready nodes. -/
def State.beginQuery (s : State) (u : Nat) : State :=
  match s.query? u with
  | none => s
  | some q =>
    match q.startStatus, q.geo with
    | some st, _ => s.failQuery u st
    | none, some g =>
      let gr := s.graphOf q
      if (gr.find opTraverse).isNone && g.kind == .march then
        (s.modQuery u fun q => { q with st := .tasks, held := [marchEscape 0x3F800000 0 false] }).advance u
      else s.advance u
    | none, none => s

/-- The walk of a query has ended: MARCH tracks next; a visitor waits for its RETURN; a shadow or its original leaves a
snapshot for the comparison; otherwise TRAVERSE and its attached nodes complete (R90, R147, R210, R301). -/
def State.endWalk (s : State) (u : Nat) : State :=
  match s.query? u with
  | none => s
  | some q =>
    match q.geo with
    | none => s
    | some g =>
      match q.visitor with
      | some (h, x) => (s.modQuery u fun q => { q with next := { line := 0, key := 0 } }).goHome u h x
      | none =>
        let q' := endHeld g q
        let s := s.modQuery u fun _ => { q' with st := .tasks }
        if q.pin.isSome then s.modQuery u fun q => { q with st := .ended, status := some (endStatus g q') }
        else
          let s := s.snap q' (endStatus g q')
          s.completeNodes u (s.graphOf q).walkBits

/-- Address of a line of a query's spill slot (R135). -/
def State.spillAddr (s : State) (q : Query) (j : Nat) : Nat := (s.part q.part).spill.toNat + 4096 * q.slot + 64 * j

/-- The outstanding read of a query's highest spilled line. -/
def State.fillAcc (s : State) (u : Nat) : Option Acc := s.accs.find? fun a => a.purpose == .spillRd u

/-- Ask for the highest spilled line when 2 or fewer children remain on chip (R135). -/
def State.wantFill (s : State) (u : Nat) : State :=
  match s.query? u with
  | none => s
  | some q =>
    if 2 < q.stack.length || q.spilled.isEmpty || (s.fillAcc u).isSome then s
    else
      let a := s.spillAddr q (q.spilled.length / 8 - 1)
      match s.translate q.part a 64 false with
      | some sys => s.issue false q.part sys a [] (.spillRd u)
      | none => s

/-- Pop until a child is admitted, or the stack is empty (R134, R135). -/
def State.popNext (s : State) (u : Nat) : State :=
  match s.query? u with
  | none => s
  | some q =>
    match q.geo with
    | none => s
    | some g =>
      match q.stack.dropWhile fun c => !q.admits g c.key with
      | c :: rest => ((s.modQuery u fun q => { q with next := c, stack := rest }).wantFill u).dispatchPop u
      | [] =>
        let s := s.modQuery u fun q => { q with stack := [] }
        if q.spilled.isEmpty then
          (if g.kind == .march && q.visitor.isNone then s.modQuery u fun q => { q with st := .march } else s.endWalk u)
        else
          let s := (s.modQuery u fun q => { q with st := .spill }).wantFill u
          if (s.fillAcc u).isSome then s else s.failQuery u stMemError

/-! ## Runs and kills (R217, R309) -/

/-- Whether a query belongs to a deposit. -/
def State.ofDep (s : State) (dep u : Nat) : Bool := match s.query? u with | some q => q.dep == dep | none => false

/-- The runs a deposit's queries are read for: both of a locked pair's, or its third (R309, R310). -/
def State.runsFor (s : State) (d : Dep) : List Nat := if d.third then [2] else if (s.part d.part).lockEn then [0, 1] else [0]

/-- The DSTATUS of a kernel kill that ended a run of a deposit (R217). -/
def Dep.killedIn (d : Dep) (run : Nat) : Option Byte := (d.killed.find? (·.1 == run)).map (·.2)

/-- The runs that no kernel kill has ended. -/
def State.liveRuns (s : State) (d : Dep) : List Nat := (s.runsFor d).filter fun r => (d.killedIn r).isNone

/-- The family whose primary's record an access reads again (R292). -/
def Purpose.fam? : Purpose → Option Fam
  | .rerun dep idx run _ => some (dep, idx, run)
  | _ => none

/-- A completed query with no results. -/
def doneAs (status : Byte) (qid : Word) (bounce visits run : Nat) (memEvent : Bool) : Done :=
  { qid := qid, bounce := bounce, status := status, total := 0, visits := visits, rv := 0, held := [], kind := 0, run := run
    memEvent := memEvent }

/-- End a run of a deposit that a kernel kill ends: every query not delivered completes with KERNEL_FAULT, its contexts go, and the
records not read yet complete unread (R217). -/
def State.killDeposit (s : State) (dep run : Nat) (dstatus : Byte) : State :=
  match s.dep? dep with
  | none => s
  | some d =>
    if (d.killedIn run).isSome then s
    else
      let live := s.queries.filter fun q => q.dep == dep && q.run == run && q.pin.isNone
      let unread := (List.range (d.qcount - d.nextIdx)).map (d.nextIdx + ·) ++
        s.accs.filterMap fun a => match a.purpose.fam? with | some (i, k, r) => if i = dep ∧ r = run then some k else none | none => none
      let kill := fun (x : Done) => if x.run = run then { x with status := stKernelFault, held := [], total := 0 } else x
      let done := d.done.map kill ++ (live.map fun q => doneAs stKernelFault q.qid q.bounce q.visits run q.memEvent) ++
        unread.map fun k => doneAs stKernelFault (BitVec.ofNat 32 k) 0 0 run false
      let all := (s.liveRuns d).all (· == run)
      let gone := fun u => match s.query? u with | some q => q.dep == dep && q.run == run | none => false
      let s := ((s.discard gone).dropCtxs fun c => c.dep == dep && c.run == run).cancelAccs fun a =>
        match a.purpose with
        | .queryRec i _ => all && i == dep
        | .rerun i _ r _ => i == dep && r == run
        | _ => false
      s.modDep dep fun d =>
        { d with done := done, killed := d.killed ++ [(run, dstatus)], nextIdx := if all then d.qcount else d.nextIdx
                 step := if all && d.step == .reading then .running else d.step }

end Sys2Proof.Machine
end

