-- ==== Sys2Proof/Machine/Work.lean ====
section
/-! DEFINITION. What the task dispatcher of a cluster holds: its tasks in the order of R214, the back-pressure stages of R216,
and the queries that begin. -/

namespace Sys2Proof.Machine

open Sys2Proof

/-- Queries of a deposit in the order of R92. -/
def byR92 (qs : List Query) : List Query :=
  let key := fun (q : Query) => (bitsAt q.qid.toNat 11 0, q.bounce, q.qid.toNat / 4096)
  sortBy (fun a b =>
    let (x, y, z) := key a
    let (u, v, w) := key b
    decide (x < u) || (x == u && (decide (y < v) || (y == v && decide (z < w))))) qs

/-- Queries of a deposit's run ready at a node and served by no context, in the order of R92 (R214). -/
def State.readyAtNode (s : State) (dep run j : Nat) : List Query :=
  byR92 (s.queries.filter fun q => q.dep == dep && q.run == run && q.pin.isNone && q.visitor.isNone && q.st == .tasks &&
    nodeReady (s.graphOf q) j q.bits (s.gateOf dep) && !s.taken q.uid j && q.geo.isSome)

/-- The runs a partition's deposits get (R309). -/
def State.runsOf (s : State) (part : Nat) : List Nat := if (s.part part).lockEn then [0, 1] else [0]

/-- The partition a run bears the tag of (R309). -/
def State.runPart (s : State) (part run : Nat) : Nat := if run = 1 then (s.part part).lockPeer.toNat else part

/-- Every query-scoped node has completed for every query (R212). -/
def State.allQueriesDone (s : State) (d : Dep) : Bool :=
  d.step == .running && decide (d.qcount ≤ d.nextIdx) && !(s.queries.any fun q => q.dep == d.id && q.pin.isNone) &&
    !(s.accs.any fun a => match a.purpose.fam? with | some f => f.1 == d.id | none => false)

/-- A deposit-scoped node may run (R212). -/
def State.depNodeReady (s : State) (d : Dep) (j : Nat) : Bool :=
  let gr := (s.part d.part).graph d.graphId
  s.allQueriesDone d && nodeReady gr j (d.depBits ||| gr.queryBits) d.gate

/-- Thread slots a context takes (R190). -/
def KDesc.threads (k : KDesc) : Nat := k.width * k.ngroups

/-! ## Tasks (R33, R195, R210, R214) -/

/-- What a task of the dispatcher is. -/
inductive TaskKind where
  | traverse
  | leaf (slice : Nat)
  | kernel
  | emit
  | reduce
  | deliver
  deriving DecidableEq, Repr

/-- A task: one node for a set of queries (R214), with the wclk from which it is ready. `rank` orders the tasks of one node by
their first query. -/
structure Task where
  kind : TaskKind
  dep : Nat
  run : Nat
  node : Nat
  part : Nat
  kernel : Nat
  prio : Nat
  since : Nat
  stream : Nat
  seq : Nat
  rank : Nat
  deriving DecidableEq, Repr

/-- Of two tasks the one that became ready first; in one wclk by stream, sequence number, node, query order (R214). -/
def Task.earlier (a b : Task) : Bool :=
  let key := fun (t : Task) => [t.since, t.stream, t.seq, t.node, t.rank]
  decide (key a < key b)

/-- The order in which a GETWORK of a core receives tasks (R33, R214). -/
def Task.before (a b : Task) : Bool := decide (b.prio < a.prio) || (a.prio == b.prio && a.earlier b)

/-- The wclk at which a query became ready for a node. -/
def Query.since (q : Query) (j : Nat) : Nat := NMap.get 0 q.readyAt j - 1

/-- A task of a deposit's node. -/
def taskOf (d : Dep) (gr : Graph) (kind : TaskKind) (run node part since rank : Nat) : Task :=
  { kind := kind, dep := d.id, run := run, node := node, part := part, kernel := (gr.node node).kernel, prio := (gr.node node).prio,
    since := since, stream := d.stream.toNat, seq := d.seq.toNat, rank := rank }

/-- The tasks of a KERNEL node: full ones are ready with their last query, the rest when its oldest has waited GATHER (R214). -/
def State.kernelTasks (s : State) (d : Dep) (gr : Graph) (run j : Nat) : List Task :=
  let part := s.runPart d.part run
  let k := (s.part part).kernel (gr.node j).kernel
  let qs := s.readyAtNode d.id run j
  (chunks (max 1 k.threads) qs.length qs).mapIdx fun i c =>
    let last := c.foldl (fun m q => max m (q.since j)) 0
    let first := c.foldl (fun m q => min m (q.since j)) last
    taskOf d gr .kernel run j part (if k.threads ≤ c.length then min last (first + gr.gather) else first + gr.gather) i

/-- The tasks of one run of a deposit: TRAVERSE for queries whose walk has not been taken, KERNEL nodes, and EMIT for queries
whose staged ones wait for contexts. -/
def State.runTasks (s : State) (d : Dep) (gr : Graph) (run : Nat) : List Task :=
  let mine := s.queries.filter fun q => q.dep == d.id && q.run == run && q.pin.isNone && q.visitor.isNone
  let walk := match gr.find opTraverse with
    | some j => if mine.any fun q => q.idle gr && nodeReady gr j q.bits d.gate then [taskOf d gr .traverse run j d.part 0 0] else []
    | none => []
  let emit := (gr.indices (· == opEmit)).filter fun j => mine.any fun q => q.st == .tasks && nodeReady gr j q.bits d.gate
  let rest := mine.any fun q => q.st == .tasks && !q.staged.isEmpty && q.bits &&& gr.queryBits == gr.queryBits
  walk ++ ((gr.indices (· == opKernel)).map (s.kernelTasks d gr run)).flatten ++
    (emit.map fun j => taskOf d gr .emit run j d.part 0 0) ++
    (if rest then [taskOf d gr .emit run gr.nodes.length d.part 0 0] else [])

/-- The tasks of a deposit (R210). -/
def State.depTasks (s : State) (d : Dep) : List Task :=
  let gr := (s.part d.part).graph d.graphId
  let once := (gr.indices fun op => (op == opReduce && (d.killedIn 0).isNone) || op == opDeliver).filter fun j => !d.depBits.getLsbD j && s.depNodeReady d j
  ((s.runsFor d).map (s.runTasks d gr)).flatten ++
    once.map fun j => taskOf d gr (if (gr.node j).op = opReduce then .reduce else .deliver) 0 j d.part 0 0

/-- The KERNEL leaf a query stands at. -/
def State.kernelLeaf (s : State) (q : Query) : Option Leaf :=
  match s.translate q.part (s.imgAddr q q.next.line) 64 false with
  | some a => (parseLeaf q.hdr q.next.line (s.readSys a 64)).filter (·.type == 9)
  | none => none

/-- The task of the leaf batch that stands first at a slice, for the queries at a KERNEL leaf; it inherits the priority of
TRAVERSE, and is ready from the batch's release (R195; log 76). -/
def State.leafTaskAt (s : State) (n : Nat) : Option Task :=
  match (s.slice n).inQ.head? with
  | none => none
  | some b =>
    if b.key.cls != .leaf then none
    else b.members.findSome? fun u => (s.query? u).bind fun q => (s.kernelLeaf q).map fun f =>
      let gr := s.graphOf q
      let j := (gr.find opTraverse).getD 0
      { kind := .leaf n, dep := q.dep, run := q.run, node := j, part := q.part, kernel := f.kernel, prio := (gr.node j).prio,
        since := b.released, stream := match s.dep? q.dep with | some d => d.stream.toNat | none => 0,
        seq := match s.dep? q.dep with | some d => d.seq.toNat | none => 0, rank := bitsAt q.qid.toNat 11 0 }

/-- Tasks a dispatcher has entries for. -/
def maxTasks : Nat := 8192

/-- The tasks the dispatcher of a cluster holds: the 8,192 that became ready first. A query whose task finds no entry waits in
its context (R216; log 76). -/
def State.taskList (s : State) (m : Nat) : List Task :=
  let all := ((s.deps.filter (·.home == m)).map s.depTasks).flatten ++ ((List.range 16).map (16 * m + ·)).filterMap s.leafTaskAt
  (sortBy Task.earlier all).take maxTasks

def State.tasks (s : State) (m : Nat) : Nat := (s.taskList m).length

/-! ## Back-pressure (R32, R216) -/

/-- A back-pressure stage: it begins at its threshold and ends 1,024 below it (R216). -/
def stageNext (on : Bool) (threshold count : Nat) : Bool :=
  decide (threshold ≤ count) || (on && decide (threshold < count + 1024))

/-- Bring the stages of a cluster up to date. STOP_PULL above HOLD_CRED acts as HOLD_CRED (Table 7.10). -/
def State.updateBp (s : State) (m : Nat) : State :=
  let n := s.tasks m
  s.modCluster m fun c =>
    { c with bpHold := stageNext c.bpHold c.holdCred.toNat n, bpPull := stageNext c.bpPull (min c.stopPull.toNat c.holdCred.toNat) n
             bpBusy := stageNext c.bpBusy maxTasks n }

/-- The same for every cluster. -/
def State.refreshBp (s : State) : State := (List.range s.nclusters).foldl State.updateBp s

/-- The clearing unit reads no query record now; new deposits are refused now (R216). -/
def State.pullStops (s : State) (m : Nat) : Bool := ((s.updateBp m).cluster m).bpPull
def State.taskFull (s : State) (m : Nat) : Bool := ((s.updateBp m).cluster m).bpBusy

/-! ## Queries that begin -/

/-- Queries placed since a uid. -/
def State.newSince (s : State) (u : Nat) : List Nat := (s.queries.filter fun q => decide (u ≤ q.uid)).map (·.uid)

/-- A pinned copy of a query, not yet begun (R300, R302). -/
def State.addPinned (s : State) (q : Query) (pin : Nat) : State :=
  s.addQuery { q with
    uid := s.nextUid, cluster := clusterOf pin, slice := pin, slot := s.freeSlot q.part, shadowOf := some q.uid
    pin := some pin, st := .tasks, status := none, next := { line := 0, key := 0 }, stack := [], spilled := [], held := []
    capped := false, total := 0, visits := 0, rngWord := 0, rv := 0, staged := [], created := 0, bits := 0, readyAt := []
    vols := [], track := none, trace := [], ran := [], visitor := none, undo := none, memEvent := false }

/-- Place the shadows that waited for a context of their slice or for quota; one whose original is gone is not needed (R300). -/
def State.placeShadows (s : State) : State :=
  s.shadowsDue.foldl (fun (s : State) x =>
    let gone := { s with shadowsDue := s.shadowsDue.erase x }
    if (s.dep? x.orig.dep).isNone || !((s.query? x.orig.uid).isSome || s.snaps.any fun y => y.1.uid == x.orig.uid) then gone
    else if decide (s.sliceCtx x.pin < 2048) && decide (s.partCtx x.orig.part < (s.part x.orig.part).quotaCtx.toNat) then
      (gone.addPinned x.orig x.pin).beginQuery gone.nextUid
    else s) s

/-- Begin every query that waits unstarted, in the order placed (secondaries of an EMIT), then shadows that waited; the stages of
R216 follow. -/
def State.beginNew (s : State) (us : List Nat) : State := (us.foldl State.beginQuery s).placeShadows.refreshBp

end Sys2Proof.Machine
end

