-- ==== Sys2Proof/Machine/Traverse.lean ====
section
/-! DEFINITION. The course of a deposit from its release to the end of its walks: header and query-record reads, the epoch
rule, node queues, batches, cluster forwarding, box visits, spill and fill (02, 03, 04, 05). -/

namespace Sys2Proof.Machine

open Sys2Proof

/-! ## Deposits that start (R44, R133, R307) -/

/-- Every query of a deposit completes unread with one status (R44, R307); `failed` tells that a final memory failure did it. -/
def State.decideAll (s : State) (dep : Nat) (status : Byte) (failed : Bool := false) : State :=
  s.modDep dep fun d =>
    { d with
      step := .running, hdrRead := true, hdrStatus := some status, hdrOlder := none, nextIdx := d.qcount
      done := d.done ++ ((s.runsFor d).map fun r => (List.range d.qcount).map fun i =>
        doneAs status (BitVec.ofNat 32 i) 0 0 r failed).flatten }

/-- The line of the header or of its sharding run that a deposit reads next (R44, R73). -/
def Dep.hdrNext (d : Dep) : Nat :=
  match d.hdrLines with
  | [] => 0
  | l :: t => fieldAt l 20 4 + t.length

/-- Ask for that line; a window miss ends the queries with MEM_ERROR (R326). -/
def State.askHeader (s : State) (dep : Nat) : State :=
  match s.dep? dep with
  | none => s
  | some d =>
    let a := d.handle.base.toNat + 64 * d.hdrNext
    match s.translate d.part a 64 false with
    | none => s.decideAll dep stMemError
    | some sys => s.issue false d.part sys a [] (.header dep)

/-- Begin step 4 of Table 1.5: ask for the image header. An empty graph slot stands for DELIVER alone (R307). -/
def State.startReading (s : State) (dep : Nat) : State :=
  match s.dep? dep with
  | none => s
  | some d =>
    if ((s.part d.part).graph d.graphId).nodes.isEmpty then s.decideAll dep stBadQuery
    else (s.modDep dep fun d => { d with step := .reading }).askHeader dep

/-- An accepted deposit starts once its stamp has come and the mint does not hold it (R133, R238). -/
def State.depGo (s : State) (dep : Nat) : State :=
  match s.dep? dep with
  | none => s
  | some d => if d.step == .held && d.stampReached && !d.mintHeld then s.startReading dep else s

/-- RELEASE_STAMP_REACHED (R133). -/
def execReleaseStampReached (dep : Nat) (s : State) : Result :=
  match s.dep? dep with
  | none => .next s
  | some d =>
    whenDue s (s.isOpen && d.step == .held && !d.stampReached && decide (d.release.toNat ≤ s.tbu.tb.toNat))
      (settle s ((s.modDep dep fun d => { d with stampReached := true }).depGo dep))

/-- What reading a whole header finds (R44, R47, R75). -/
inductive HdrJudge where
  | miss
  | older (line : Nat)
  | newer (line : Nat) (tag : Word)
  | bad
  | ok (h : ImgHdr)
  deriving DecidableEq, Repr

/-- Read the lines of a run at their image addresses, each under the epoch rule; the first that is not current decides. -/
def State.headerRun (s : State) (part : Nat) (hd : Handle) : List Nat → Except HdrJudge (List (List Byte))
  | [] => .ok []
  | k :: rest =>
    match s.translate part (hd.base.toNat + 64 * k) 64 false with
    | none => .error .miss
    | some a =>
      let l := s.readSys a 64
      match epochAge (lineTag l) hd.epoch with
      | .older => .error (.older k)
      | .newer => .error (.newer k (lineTag l))
      | .current =>
        match s.headerRun part hd rest with
        | .error e => .error e
        | .ok ls => .ok (l :: ls)

/-- Package number of the instance (R21). -/
def State.pkg (s : State) : Nat := s.boot.inst.toNat / 128

def State.judgeImage (s : State) (part : Nat) (hd : Handle) : HdrJudge :=
  match s.headerRun part hd [0] with
  | .error e => e
  | .ok ls =>
    match parseHeader hd.treeId (ls.headD []) with
    | none => .bad
    | some (h, sr, sl) =>
      if sl = 0 then .ok h
      else
        match s.headerRun part hd ((List.range sl).map (sr + ·)) with
        | .error e => e
        | .ok rs => match parseShard s.pkg h sr sl rs with | some h => .ok h | none => .bad

/-- HEALTH EPOCH_MISSING or EPOCH_RETIRED (Table 10.8). -/
def State.epochEvent (s : State) (m part line : Nat) (epoch : Word) (newer : Option Word) : State :=
  s.health (if newer.isSome then 0x11 else 0x10) (unitCluster m) part 1
    (leBytes 4 line ++ leBytes 4 epoch.toNat ++ leBytes 4 (newer.getD 0).toNat)

/-- A slice of the home cluster has a context for each run of the next record, and the dispatcher still pulls (R133, R216). -/
def State.canPlace (s : State) (d : Dep) : Bool :=
  !s.pullStops d.home && (s.liveRuns d).all fun r => (s.freeSlice d.home (s.runPart d.part r) r).isSome

/-- Ask for the next query record of a deposit once there is room for it (R133); a window miss is judged at its read. -/
def State.askRecord (s : State) (dep : Nat) : State :=
  match s.dep? dep with
  | none => s
  | some d =>
    if d.step != .reading || decide (d.qcount ≤ d.nextIdx) || !s.canPlace d ||
      (s.accs.any fun a => a.purpose == .queryRec dep d.nextIdx) then s
    else
      let a := d.qbase.toNat + 64 * d.nextIdx
      match s.translate d.part a 64 false with
      | none => s
      | some sys => s.issue false d.part sys a [] (.queryRec dep d.nextIdx)

/-- A line of the header or its sharding run has been read: the epoch rule first, then the next line, then the checks of R44
and R75 on the whole. An older line is dropped from every cache and waited for (R47). -/
def State.headerLine (s : State) (d : Dep) (sys : Nat) : State :=
  let l := s.readSys sys 64
  let k := d.hdrNext
  match epochAge (lineTag l) d.handle.epoch with
  | .newer => (s.epochEvent d.home d.part k d.handle.epoch (some (lineTag l))).decideAll d.id stEpochRetired
  | .older =>
    let first := match d.hdrOlder with | some (j, f, _) => if j = k then f else s.elapsed | none => s.elapsed
    (s.discardLine (lineOf sys)).modDep d.id fun d => { d with hdrOlder := some (k, first, s.elapsed) }
  | .current =>
    let ls := d.hdrLines ++ [l]
    let s := s.modDep d.id fun d => { d with hdrLines := ls, hdrOlder := none }
    match parseHeader d.handle.treeId (ls.headD []) with
    | none => s.decideAll d.id stBadImage
    | some (h, sr, sl) =>
      let go := fun (h : ImgHdr) => (s.modDep d.id fun d => { d with hdr := some h, hdrRead := true }).askRecord d.id
      if ls.length ≤ sl then s.askHeader d.id
      else if sl = 0 then go h
      else match parseShard s.pkg h sr sl (ls.drop 1) with
        | some h => go h
        | none => s.decideAll d.id stBadImage

/-- The outstanding read that serves a purpose and can answer. -/
def State.accFor (s : State) (p : Purpose) : Option Acc := s.accs.find? fun a => a.purpose == p && a.st == .out

/-- IMAGE_HEADER_READ (R44): the read of a line of a deposit's header returns. -/
def execImageHeaderRead (dep : Nat) (s : State) : Result :=
  match s.dep? dep, s.accFor (.header dep) with
  | some d, some a =>
    whenDue s (s.isOpen && d.step == .reading) (settle s ((s.dropAcc a.port a.tag false).headerLine d a.addr))
  | _, _ => .next s

/-! ## Query records (R77, R132, R133, R300) -/

/-- Slices for the live runs of a record: the one named, and the follower's in its own set (R309). -/
def State.placesFor (s : State) (d : Dep) (n : Nat) : Option (List (Nat × Nat × Nat)) :=
  match s.liveRuns d with
  | [] => none
  | r :: rest =>
    if !s.hasContext (s.runPart d.part r) r n || clusterOf n != d.home then none
    else (rest.mapM fun r => (s.freeSlice d.home (s.runPart d.part r) r).map fun n => (r, s.runPart d.part r, n)).map
      ((r, s.runPart d.part r, n) :: ·)

/-- The slice a shadow is pinned to (R300). -/
def State.shadowSlice (s : State) (n : Nat) : Nat :=
  let m := clusterOf n
  if s.nclusters = 1 then (n + 8) % 16
  else
    let next := (List.range s.nclusters).map fun i => (m + 1 + i) % s.nclusters
    16 * ((next.find? fun c => !(s.cluster c).retired).getD m) + n % 16

/-- A shadow reaches a KERNEL node before its walk ends (R301). -/
def State.shadowStops (s : State) (q : Query) : Bool :=
  let gr := s.graphOf q
  (gr.indices (· == opKernel)).any fun j => nodeReady gr j 0 (s.gateOf q.dep)

/-- LDG_AUDIT.RATE in force (Table 10.12): 1 to 7 act as 8, 21 to 31 as 20. -/
def Cluster.rate (c : Cluster) : Nat := if c.auditRate = 0 then 0 else max 8 (min 20 c.auditRate.toNat)

/-- The slices that get a shadow of the record just read: the audit's (R300), and slices on probation, 1 in 16 (R304). -/
def State.shadowSlices (s : State) (d : Dep) (n : Nat) : List Nat :=
  let m := d.home
  let reads := (s.cluster m).auditReads
  let rate := (s.cluster m).rate
  let audit := if rate != 0 && reads % 2 ^ rate == 0 then [s.shadowSlice n] else []
  let prob := ((List.range 16).map (16 * m + ·)).filter fun p => (s.slice p).st == .probation && (reads + p) % 16 == 0
  (audit.filter fun p => (s.slice p).st == .admitted) ++ prob

/-- Give a query its shadows, each once its slice and its partition have a context for it. A locked pair's shadow stays in the slice
set of its run (R309; log 84). -/
def State.addShadows (s : State) (q : Query) (pins : List Nat) : State :=
  if s.shadowStops q then s
  else { s with shadowsDue := s.shadowsDue ++ (pins.filter (s.sliceAllowed q.part q.run)).map fun p => ⟨q, p⟩ }

/-- Place the queries of record `idx` and begin them. A record read counts for the audit, also one read again (R300). -/
def State.placeQueries (s : State) (d : Dep) (h : ImgHdr) (idx : Nat) (bytes : List Byte) (places : List (Nat × Nat × Nat))
    (again : Option Nat) : State :=
  let s := s.modCluster d.home fun c => { c with auditReads := c.auditReads + 1 }
  let u0 := s.nextUid
  let s := places.foldl (fun (s : State) (run, part, n) => s.addQuery
    { uid := s.nextUid, dep := d.id, part := part, qid := BitVec.ofNat 32 idx, bytes := bytes, handle := d.handle,
      hdr := h, graphId := d.graphId, cluster := clusterOf n, slice := n, slot := s.freeSlot part, st := .tasks, run := run,
      depRef := BitVec.ofNat 64 (d.graphId % 256 + 256 * d.id), spillFails := again.getD 0, rerun := again.isSome }) s
  let s := match s.query? u0, places with
    | some q, (_, _, n) :: _ => s.addShadows q (s.shadowSlices d n)
    | _, _ => s
  s.beginNew (s.newSince u0)

/-- One more record of a deposit has been taken. -/
def Dep.tookRecord (d : Dep) : Dep :=
  { d with nextIdx := d.nextIdx + 1, step := if d.qcount ≤ d.nextIdx + 1 then .running else d.step }

/-- Place the queries of a deposit's next record. -/
def State.placeRecord (s : State) (d : Dep) (h : ImgHdr) (bytes : List Byte) (places : List (Nat × Nat × Nat)) : State :=
  (s.placeQueries d h d.nextIdx bytes places none).modDep d.id Dep.tookRecord

/-- A record whose read is a window miss, or has failed finally, completes with MEM_ERROR (R296, R326). A read that failed counts
among those of the audit (R300). -/
def State.missRecord (s : State) (d : Dep) (failed : Bool) : State :=
  (s.modCluster d.home fun c => { c with auditReads := c.auditReads + bit failed }).modDep d.id fun x =>
    { x.tookRecord with done := x.done ++ (s.liveRuns x).map fun r => doneAs stMemError (BitVec.ofNat 32 x.nextIdx) 0 0 r failed }

/-- The primary's record of a family that runs again has come and slice `n` has room for it (R292): its access, index, run, and the
spill failures the family keeps. -/
def State.rerunHere (s : State) (d : Dep) (n : Nat) : Option (Acc × Nat × Nat × Nat) :=
  s.accs.findSome? fun a =>
    match a.purpose with
    | .rerun i idx run fails =>
      if i == d.id && a.st == .out && clusterOf n == d.home && s.hasContext (s.runPart d.part run) run n then some (a, idx, run, fails)
      else none
    | _ => none

/-- QUERY_RECORD_READ (R132, R133, R292): a record of a deposit arrives and takes a free context of the slice; one read again for a
family goes first. Where the read of the next record has not been issued, because reading paused for want of a context, of quota
or of room for tasks (R216), it is issued (log 75). -/
def execQueryRecordRead (dep n : Nat) (s : State) : Result :=
  onUnit (decide (n < s.nslices))
    (match s.dep? dep with
     | none => .next s
     | some d =>
       match d.hdr with
       | none => .next s
       | some h =>
         whenDue s (s.isOpen && (d.step == .reading || d.step == .running))
           (match s.rerunHere d n with
            | some (a, idx, run, fails) =>
              settle s ((s.dropAcc a.port a.tag false).placeQueries d h idx (s.readSys a.addr 64) [(run, s.runPart d.part run, n)]
                (some fails))
            | none =>
              whenDue s (d.step == .reading && decide (d.nextIdx < d.qcount))
                (match s.accs.find? fun a => a.purpose == .queryRec dep d.nextIdx with
                 | some acc =>
                   match acc.st, s.placesFor d n with
                   | .out, some places =>
                     settle s (((s.dropAcc acc.port acc.tag false).placeRecord d h (s.readSys acc.addr 64) places).askRecord dep)
                   | _, _ => .next s
                 | none =>
                   if (s.translate d.part (d.qbase.toNat + 64 * d.nextIdx) 64 false).isNone then
                     settle s ((s.missRecord d false).askRecord dep)
                   else settle s (s.askRecord dep))))

/-! ## Image lines of a walk under the epoch rule (R41, R47, R57) -/

/-- What reading a list of lines gives. -/
inductive LineJudge where
  | ok (lines : List (List Byte))
  | miss
  | older (line : Nat)
  | newer (line : Nat) (tag : Word)
  deriving DecidableEq, Repr

/-- One image line as slice `n` reads it for a query. -/
def State.readImg (s : State) (q : Query) (n line : Nat) : LineJudge × State :=
  match s.translate q.part (s.imgAddr q line) 64 false with
  | none => (.miss, s)
  | some a =>
    let miss := ((s.cluster (clusterOf n)).l1.find (lineOf a) q.part).isNone
    let (data, s) := s.fetchL0 n q.part (lineOf a)
    let s := (s.act 5 1).act 6 (bit miss)
    match epochAge (lineTag data) q.handle.epoch with
    | .current => (.ok [data], s)
    | .older => (.older line, s.discardLine (lineOf a))
    | .newer => (.newer line (lineTag data), s)

/-- A run of lines; the first that is not current decides. -/
def State.readRun (s : State) (q : Query) (n : Nat) : List Nat → LineJudge × State
  | [] => (.ok [], s)
  | k :: rest =>
    match s.readImg q n k with
    | (.ok l, s) =>
      match s.readRun q n rest with
      | (.ok ls, s) => (.ok (l ++ ls), s)
      | r => r
    | r => r

/-- `n` consecutive lines. -/
def lineRun (a n : Nat) : List Nat := (List.range n).map (a + ·)

/-- A query leaves a read that gave no lines: MEM_ERROR, the wait of R47, or EPOCH_RETIRED with its HEALTH event. -/
def State.leaveRead (s : State) (q : Query) (j : LineJudge) : State :=
  match j with
  | .ok _ => s
  | .miss => s.failQuery q.uid stMemError
  | .older l => s.modQuery q.uid fun q => { q with st := .older l s.elapsed s.elapsed }
  | .newer l t => (s.epochEvent q.cluster q.part l q.handle.epoch (some t)).failQuery q.uid stEpochRetired

/-! ### Threads that wait for an older line (R196) -/

/-- Change every thread that serves a query. -/
def State.modThreadsOf (s : State) (u : Nat) (f : Thread → Thread) : State :=
  let one := fun (t : Thread) => if t.query == some u then f t else t
  { s with ctxs := s.ctxs.map fun c => { c with groups := c.groups.map fun g => { g with threads := g.threads.map one } } }

/-- The wait of a thread of a query for an older line: line, first and last read. -/
def State.threadLine (s : State) (u : Nat) : Option (Nat × Nat × Nat) :=
  s.ctxs.findSome? fun c => c.groups.findSome? fun g => g.threads.findSome? fun t =>
    match t.wait with
    | .line l _ _ a b => if t.query == some u && !t.exited then some (l, a, b) else none
    | _ => none

/-- What a query waits for under R47: line, elapsed time of the first and of the last read. -/
def State.olderOf (s : State) (q : Query) : Option (Nat × Nat × Nat) :=
  match q.st with
  | .older l a b => some (l, a, b)
  | _ => s.threadLine q.uid

/-- The 4 bytes at byte `b` of a line; bytes beyond the line are open (log 20). -/
def lineWord (data : List Byte) (b : Nat) : Word :=
  openOr (b :: data.map (·.toNat)) (if b ≤ 60 then some (BitVec.ofNat 32 (fieldAt data b 4)) else none)

/-- The wait ends with the line at hand: a walk queues again; a thread takes its 4 bytes and its pc moves on. -/
def State.lineCame (s : State) (q : Query) (data : List Byte) : State :=
  match q.st with
  | .older _ _ _ => (s.modQuery q.uid fun q => { q with st := .ready }).joinQueue q.uid
  | _ =>
    s.modThreadsOf q.uid fun t =>
      match t.wait with
      | .line _ d b _ _ =>
        let v := lineWord data b
        { t with regs := if d = 255 then t.regs else NMap.put 0 t.regs d v, wait := .run, pc := t.pc + 1 }
      | _ => t

/-- The read still finds the line older. -/
def State.olderAgain (s : State) (q : Query) : State :=
  match q.st with
  | .older l a _ => s.modQuery q.uid fun q => { q with st := .older l a s.elapsed }
  | _ => s.modThreadsOf q.uid fun t => match t.wait with | .line l d b f _ => { t with wait := .line l d b f s.elapsed } | _ => t

/-! ## Node queues and batches (R139 to R142) -/

/-- The lines a visit reads after its head line: extension lines, or the record run of a leaf (R139). -/
def moreLines (h : ImgHdr) (leaf : Bool) (line : Nat) (head : List Byte) : List Nat :=
  if leaf then
    match parseLeaf h line head with
    | some f => if f.runOk h then lineRun f.recBase f.recLines else []
    | none => []
  else
    match nodeLines head with
    | some k => if line + k ≤ h.lineCount then lineRun (line + 1) (k - 1) else []
    | none => []

/-- The system address of an image line: that of the access made for it, which stays as it was translated (R325), else a
translation now. -/
def State.lineSys (s : State) (q : Query) (got : List Acc) (k : Nat) : Option Nat :=
  let a := s.imgAddr q k
  match got.find? (·.paddr == a) with
  | some x => some x.addr
  | none => s.translate q.part a 64 false

/-- Bring lines into the cluster's L1; `none` where a fill must wait (R331, R332). A window miss is judged at the visit. -/
def State.fetchLines (s : State) (q : Query) (got : List Acc) : List Nat → Option State
  | [] => some s
  | k :: rest =>
    match s.lineSys q got k with
    | none => s.fetchLines q got rest
    | some a =>
      if s.fetchWaits q.cluster q.part (lineOf a) then none
      else (s.fetchL1 q.cluster q.part (lineOf a)).2.fetchLines q got rest

/-- A queue or straggler: its key, its members, whether its head line is in, when it became ready. -/
structure QueueView where
  key : NodeKey
  members : List Member
  headIn : Bool
  readyAt : Option Nat

/-- The queue or straggler with an id. -/
def Cluster.queue? (c : Cluster) (i : Nat) : Option QueueView :=
  match c.nqs.find? (·.id == i) with
  | some n => some ⟨n.key, n.members, n.headIn, n.readyAt⟩
  | none => (c.strag.find? (·.id == i)).map fun x => ⟨x.key, [x.member], x.headIn, x.readyAt⟩

/-- Note that the head line of a queue has come, and, with `now`, that all of its lines have. -/
def Cluster.markQueue (c : Cluster) (i : Nat) (now : Option Nat) : Cluster :=
  { c with nqs := modFirst (·.id == i) (fun n => { n with headIn := true, readyAt := now }) c.nqs
           strag := modFirst (·.id == i) (fun x => { x with headIn := true, readyAt := now }) c.strag }

/-- NODE_QUEUE_READY (R139): the head line of a queue has come, and the lines after it are asked for; once all are there the
queue is ready. -/
def execNodeQueueReady (m i : Nat) (s : State) : Result :=
  onUnit (decide (m < s.nclusters))
    (match (s.cluster m).queue? i with
     | none => .next s
     | some v =>
       let us := v.members.map (·.uid)
       let mine := fun (a : Acc) => us.any fun u => a.purpose == .node u
       whenDue s (s.isOpen && v.readyAt.isNone && !(s.accs.any fun a => mine a && a.st != .out))
         (match us.findSome? s.query? with
          | none => .next s
          | some q =>
            let got := s.accs.filter mine
            let s1 := got.foldl (fun (s : State) a => s.dropAcc a.port a.tag false) s
            match s1.lineSys q got v.key.line with
            | none => settle s (us.foldl (fun s u => s.failQuery u stMemError) (s1.modCluster m fun c => c.leaveQueues us.contains s.wclk))
            | some a =>
              let head := s1.bankLine (lineOf a) q.part
              let more := moreLines q.hdr (v.key.cls == .leaf) v.key.line head
              match s1.fetchLines q got [v.key.line] with
              | none => .next s
              | some s2 =>
                let s3 := if v.headIn then s2 else more.foldl (fun (s : State) k => s.askLine q k) s2
                if s3.accs.any mine then settle s (s3.modCluster m fun c => c.markQueue i none)
                else match s3.fetchLines q got more with
                  | none => .next s
                  | some s4 => settle s (s4.modCluster m fun c => c.markQueue i (some s.wclk))))

/-- AGE_LIMIT (Table 5.2): a value below 16 acts as 16. -/
def Cluster.ageLimit (c : Cluster) : Nat := max 16 c.age.toNat

/-- QUEUE_RIPE (R140): the oldest member of a ready queue has waited AGE_LIMIT wclk. -/
def execQueueRipe (m i : Nat) (s : State) : Result :=
  onUnit (decide (m < s.nclusters))
    (let c := s.cluster m
     match c.nqs.find? (·.id == i) with
     | none => .next s
     | some n =>
       match n.readyAt, n.members.head? with
       | some r, some x =>
         whenDue s (s.isOpen && !n.ripe && decide (max r x.arrived + c.ageLimit ≤ s.wclk))
           (settle s (s.setCluster m { c with nqs := modFirst (·.id == i) (fun n => { n with ripe := true }) c.nqs }))
       | _, _ => .next s)

/-- A batch that may leave: class of R140 (0 ripe, 1 full, 2 idle fill), arrival of the oldest, queue, size. -/
structure Cand where
  cls : Nat
  oldest : Nat
  id : Nat
  key : NodeKey
  size : Nat
  deriving DecidableEq, Repr

/-- Ready queues and stragglers that may release, best first; the last class only where it is asked for. -/
def Cluster.cands (c : Cluster) (idle : Bool) : List Cand :=
  let nq := c.nqs.filterMap fun n =>
    if n.readyAt.isNone then none
    else
      let cls := if n.ripe then 0 else if 16 ≤ n.members.length then 1 else 2
      if cls = 2 ∧ !idle then none
      else some { cls := cls, oldest := (n.members.head?.map (·.arrived)).getD 0, id := n.id, key := n.key, size := n.members.length }
  let st := c.strag.filterMap fun x =>
    if x.readyAt.isNone then none else some { cls := 0, oldest := x.member.arrived, id := x.id, key := x.key, size := 1 }
  sortBy (fun a b => decide (a.cls < b.cls) || (a.cls == b.cls &&
    (if a.cls = 2 then decide (b.size < a.size) || (a.size == b.size && decide (a.oldest < b.oldest)) else decide (a.oldest < b.oldest))))
    (nq ++ st)

/-- Take up to 16 of a queue's oldest members out of it; an empty queue closes. -/
def Cluster.takeBatch (c : Cluster) (i now : Nat) : Cluster × List Member :=
  match c.nqs.find? (·.id == i) with
  | some n =>
    let rest := n.members.drop 16
    ({ c.noteWaits (n.members.take 16) now with
        nqs := if rest.isEmpty then c.nqs.filter (·.id != i)
               else modFirst (·.id == i) (fun n => { n with members := rest, ripe := false }) c.nqs }, n.members.take 16)
  | none =>
    match c.strag.find? (·.id == i) with
    | some x => ({ c.noteWaits [x.member] now with strag := c.strag.filter (·.id != i) }, [x.member])
    | none => (c, [])

/-- Slices the batch of a key may go to, the preferred one first (R141, R408). -/
def State.keySlices (s : State) (m : Nat) (key : NodeKey) : List Nat :=
  let ns := (s.admittedSlices m).filter (s.sliceAllowed key.part key.run)
  let k := if ns.isEmpty then 0 else key.line % ns.length
  ns.drop k ++ ns.take k

/-- The same for a queue's batch; a shadow goes to its own slice (R300). -/
def State.batchSlices (s : State) (m i : Nat) (key : NodeKey) : List Nat :=
  let pin := ((s.cluster m).strag.find? (·.id == i)).bind fun x => (s.query? x.member.uid).bind (·.pin)
  match pin with
  | some p => if (s.slice p).st == .admitted || (s.slice p).st == .probation then [p] else []
  | none => s.keySlices m key

/-- Release one queue's batch to a slice. -/
def State.releaseTo (s : State) (m i n : Nat) (key : NodeKey) : State :=
  let (c, mems) := (s.cluster m).takeBatch i s.wclk
  (s.setCluster m c).modSlice n fun v =>
    { v with inQ := v.inQ ++ [{ key := key, members := mems.map (·.uid), released := s.wclk }], busy := true }

/-- The first candidate that a slice can take now, with the slice: not gated, room in its input queue, no batch yet in this
wclk. A slice that has taken its batch of the wclk is passed over like a full one, and an idle-fill batch goes to a slice whose
input queue is empty (DESIGN CHOICE, log 79). -/
def State.pickBatch (s : State) (m : Nat) (idle : Bool) (used : List Nat) : Option (Cand × Nat) :=
  let room := fun n => !used.contains n && !s.gated n && decide ((s.slice n).inQ.length < 4) && (!idle || (s.slice n).inQ.isEmpty)
  ((s.cluster m).cands idle).findSome? fun k => ((s.batchSlices m k.id k.key).find? room).map fun n => (k, n)

/-- The releases of one wclk: ripe and full batches as long as a slice takes one, then, when none is full or ripe, idle fill.
The fuel bounds the batches by the slices. -/
def State.releaseAll (s : State) (m : Nat) : Nat → List Nat → State
  | 0, _ => s
  | k + 1, used =>
    match s.pickBatch m (((s.cluster m).cands false).isEmpty) used with
    | some (c, n) => (s.releaseTo m c.id n c.key).releaseAll m k (n :: used)
    | none => s

/-- BATCH_RELEASE (R140, R141): one wclk of the clearing unit, at most once in a wclk. -/
def execBatchRelease (m : Nat) (s : State) : Result :=
  onUnit (decide (m < s.nclusters))
    (whenDue s (s.isOpen && (s.cluster m).relAt != s.wclk + 1)
      (settle s ((s.modCluster m fun c => { c with relAt := s.wclk + 1 }).releaseAll m 16 [])))

/-! ## Forwarding between clusters (R144) -/

/-- CLR_OCC.WAITING (Table 5.3). -/
def Cluster.waiting (c : Cluster) : Nat := (c.nqs.map fun n => n.members.length).sum + c.strag.length

/-- Contexts of a cluster: 2,048 for each admitted slice (R16, R293). -/
def State.contexts (s : State) (m : Nat) : Nat := 2048 * (s.admittedSlices m).length

/-- Contexts of a cluster held by visitors from other clusters or dies. -/
def State.visitors (s : State) (m : Nat) : Nat :=
  (s.queries.filter fun q => q.cluster == m && q.pin.isNone &&
    (q.visitor.isSome || (match s.dep? q.dep with | some d => d.home != m | none => false))).length

def State.crowded (s : State) (m : Nat) : Bool :=
  let c := s.cluster m
  decide (min 100 c.fwdHigh.toNat * s.contexts m ≤ 100 * c.waiting)

def State.light (s : State) (m : Nat) : Bool :=
  let c := s.cluster m
  decide (100 * c.waiting ≤ c.fwdLow.toNat * s.contexts m)

/-- The light cluster of lowest WAITING with room for `k` more visitors. -/
def State.receiver (s : State) (m k : Nat) : Option Nat :=
  let ok := (List.range s.nclusters).filter fun r => r != m && !(s.cluster r).retired && decide (0 < s.contexts r) && s.light r &&
    decide (100 * (s.visitors r + k) ≤ (s.cluster r).visitMax.toNat * s.contexts r)
  (sortBy (fun a b => decide ((s.cluster a).waiting < (s.cluster b).waiting)) ok).head?

/-- Move queries into free contexts of a cluster and queue them there; `none` when a context is wanting. -/
def State.moveTo (s : State) (r : Nat) : List Nat → Option State
  | [] => some s
  | u :: rest =>
    match s.query? u with
    | none => s.moveTo r rest
    | some q =>
      let run := q.run
      let slice := ((List.range 16).map (16 * r + ·)).find? fun n =>
        (s.slice n).st == .admitted && !s.gated n && s.sliceAllowed q.part run n && decide (s.sliceCtx n < 2048)
      match slice with
      | none => none
      | some n => ((s.modQuery u fun q => { q with cluster := r, slice := n }).joinQueue u).moveTo r rest

/-- The batch a crowded cluster sends in this wclk and its receiver: one that R140 would release, or, with a slice idle, the
idle fill (R140, R144). -/
def State.forwards (s : State) (m : Nat) : Option (Cand × Nat) :=
  let c := s.cluster m
  let pinned := fun (k : Cand) => c.strag.any fun x => x.id == k.id && ((s.query? x.member.uid).bind (·.pin)).isSome
  let idle := (c.cands false).isEmpty && (s.admittedSlices m).any fun n => (s.slice n).inQ.isEmpty
  if c.xcluster && c.fwdAt != s.wclk + 1 && s.crowded m then
    match (c.cands idle).find? fun k => !pinned k with
    | none => none
    | some k => (s.receiver m (min 16 k.size)).map fun r => (k, r)
  else none

/-- CLUSTER_FORWARD (R144): a crowded cluster sends one ready batch to the lightest light one, at most one in a wclk; a lower
cluster that sends to the same receiver goes first. -/
def execClusterForward (m : Nat) (s : State) : Result :=
  onUnit (decide (m < s.nclusters))
    (match s.forwards m with
     | none => .next s
     | some (k, r) =>
       whenDue s (s.isOpen && !((List.range m).any fun j => (s.forwards j).map Prod.snd == some r))
         (let (c, mems) := (s.cluster m).takeBatch k.id s.wclk
          match (s.setCluster m { c with fwdout := satInc c.fwdout 1, fwdAt := s.wclk + 1 }).moveTo r (mems.map (·.uid)) with
          | some s' => settle s s'
          | none => .next s))

/-! ## The visit of a node (R112 to R118, R134 to R137) -/

/-- Put children on the chip's stack, the first given deepest; a ninth sends the full line of 8 to the spill slot first (R135).
`none` where the spill slot misses the windows. -/
def State.pushChildren (s : State) (u : Nat) : List Child → Option State
  | [] => some s
  | ch :: rest =>
    match s.query? u with
    | none => some s
    | some q =>
      if q.stack.length < 8 then (s.modQuery u fun q => { q with stack := ch :: q.stack }).pushChildren u rest
      else
        let line := q.stack.reverse
        let a := s.spillAddr q (q.spilled.length / 8)
        let data := (line.map fun c => leBytes 4 c.line ++ leBytes 4 c.key.toNat).flatten
        match s.translate q.part a 64 true with
        | none => none
        | some sys =>
          let s := s.cancelAccs fun x => x.purpose == Purpose.spillRd u
          ((s.modQuery u fun q => { q with stack := [ch], spilled := q.spilled ++ line }).issue true q.part sys a data (.spillWr u)).pushChildren u rest

/-- A visitor goes home as it stood before a visit, which its home repeats (R145, R147, log 17). -/
def State.takeBack (s : State) (q : Query) : State :=
  match q.visitor with
  | some (h, x) => (s.modQuery q.uid fun _ => q).goHome q.uid h x
  | none => s

/-- A visit ends a query with an error. -/
def State.failVisit (s : State) (q : Query) (status : Byte) : State :=
  if q.visitor.isSome then s.takeBack q else s.failQuery q.uid status

/-- Add a visit to the trace, which keeps the first 4,096 (R301, R310), and note its slice (R302). -/
def Query.addVisit (q : Query) (now : Nat) (v : Visit) : Query :=
  let q := { q with ran := NMap.put 0 q.ran v.slice (now + 1) }
  if q.trace.length < 4096 then { q with trace := q.trace ++ [v] } else q

/-- 64-bit register counters (R14). -/
def addD (v : Dword) (n : Nat) : Dword := v + BitVec.ofNat 64 n

/-- Read the lines of the node a query visits. -/
def State.readNode (s : State) (q : Query) (n : Nat) : LineJudge × State :=
  match s.readImg q n q.next.line with
  | (.ok l, s) =>
    match nodeLines (l.headD []) with
    | some k =>
      if q.next.line + k ≤ q.hdr.lineCount then
        match s.readRun q n (lineRun (q.next.line + 1) (k - 1)) with
        | (.ok ls, s) => (.ok (l ++ ls), s)
        | r => r
      else (.ok l, s)
    | none => (.ok l, s)
  | r => r

/-- One query of a batch visits a node (R113 to R118, R134, R137). -/
def State.visitNode (s : State) (n u : Nat) : State :=
  match s.query? u with
  | none => s
  | some q =>
    match q.geo with
    | none => s
    | some g =>
      if 1048576 ≤ q.visits then s.failQuery u stVisitLimit
      else
        match s.readNode q n with
        | (.ok ls, s) =>
          let counted := (nodeLines (ls.headD [])).isSome
          let s := s.modQuery u fun q => { q with visits := q.visits + bit counted }
          match parseNode q.hdr q.next.line ls with
          | none => s.failVisit q stBadImage
          | some node =>
            let (hits, tests) := boxVisit node g (keyX q.next.key) (q.limit g) (q.bound g)
            let mask := hits.foldl (fun m h => m + 2 ^ h.slot) 0
            let s := s.modCluster (clusterOf n) fun c => { c with boxtests := addD c.boxtests tests }
            let s := (s.act 0 tests).modQuery u fun q => q.addVisit s.wclk ⟨q.next.line, mask, n⟩
            if 512 < q.stack.length + q.spilled.length + hits.length then s.failVisit q stBadImage
            else
              let child := fun (h : Hit) =>
                ({ line := h.line, key := fpWord h.key, tout := fpWord h.tout, leaf := decide (node.nint ≤ h.slot) } : Child)
              match s.pushChildren u (hits.reverse.map child) with
              | some s => s.popNext u
              | none => s.failVisit q stMemError
        | (j, s) => s.leaveRead q j

/-- The batch at the head of a slice's input queue. -/
def State.headBatch (s : State) (n : Nat) : Option Batch := (s.slice n).inQ.head?

/-- A slice that runs batches: admitted, or on probation with its shadows (R293, R304). -/
def State.works (s : State) (n : Nat) : Bool :=
  s.isOpen && ((s.slice n).st == .admitted || (s.slice n).st == .probation)

/-- BOX_TEST_VISIT (R113): the node batch at the head of a slice's input queue is visited; each query pops its next child. -/
def execBoxTestVisit (n : Nat) (s : State) : Result :=
  onUnit (decide (n < s.nslices))
    (match s.headBatch n with
     | none => .next s
     | some b =>
       whenDue s (s.works n && b.key.cls != .leaf)
         (let s1 := s.modSlice n fun v => { v with inQ := v.inQ.drop 1 }
          let u0 := s.nextUid
          let s2 := b.members.foldl (fun s u => s.visitNode n u) s1
          settle s (s2.beginNew (s2.newSince u0))))

/-- SPILL_FILL (R135): the highest spilled line comes back once its 8 children have room on chip. -/
def execSpillFill (u : Nat) (s : State) : Result :=
  match s.query? u, s.accFor (.spillRd u) with
  | some q, some a =>
    whenDue s (s.isOpen && q.st == .spill)
      (let s1 := (s.accs.filter fun x => x.purpose == Purpose.spillWr u).foldl (fun (s : State) x =>
          (s.applyWrite x).modAcc x.port x.tag true fun y => { y with applied := true }) s
       let bytes := s1.readSys a.addr 64
       let top := q.spilled.drop (q.spilled.length - 8)
       let child := fun (i : Nat) (c : Child) =>
         { c with line := fieldAt bytes (8 * i) 4, key := BitVec.ofNat 32 (fieldAt bytes (8 * i + 4) 4) }
       let s2 := (s1.dropAcc a.port a.tag false).modQuery u fun q =>
         { q with st := .ready, stack := (top.mapIdx child).reverse, spilled := q.spilled.take (q.spilled.length - 8) }
       let s3 := s2.popNext u
       settle s1 (s3.beginNew (s3.newSince s.nextUid)))
  | _, _ => .next s

end Sys2Proof.Machine
end

