-- ==== Sys2Proof/Machine/Leaves.lean ====
section
/-! DEFINITION. Leaf visits: primitives, neural surface leaves, the collection of volume leaves, MARCH tracking, and the
random stream it draws from (R84, R90, R115, R120 to R128, R172 to R181). -/

namespace Sys2Proof.Machine

open Sys2Proof

/-! ## The random stream (R84) -/

/-- The four counter or output words of a block. -/
structure Ctr where
  c0 : Nat
  c1 : Nat
  c2 : Nat
  c3 : Nat
  deriving DecidableEq, Repr

/-- One round of Philox 4×32. -/
def philoxRound (k0 k1 : Nat) (c : Ctr) : Ctr :=
  let a := 0xD2511F53 * c.c0
  let b := 0xCD9E8D57 * c.c2
  ⟨((b / 2 ^ 32) ^^^ c.c1) ^^^ k0, b % 2 ^ 32, ((a / 2 ^ 32) ^^^ c.c3) ^^^ k1, a % 2 ^ 32⟩

/-- Rounds with the key raised between them. -/
def philoxRounds : Nat → Nat → Nat → Ctr → Ctr
  | 0, _, _, c => c
  | r + 1, k0, k1, c => philoxRounds r ((k0 + 0x9E3779B9) % 2 ^ 32) ((k1 + 0xBB67AE85) % 2 ^ 32) (philoxRound k0 k1 c)

/-- Word `w` of the stream of a query (R84). -/
def rngAt (seed : Dword) (qid : Word) (bounce : Nat) (salt : Word) (w : Nat) : Word :=
  let o := philoxRounds 10 (seed.toNat % 2 ^ 32) (seed.toNat / 2 ^ 32) ⟨w / 4 % 2 ^ 32, qid.toNat, bounce, salt.toNat⟩
  BitVec.ofNat 32 (match w % 4 with | 0 => o.c0 | 1 => o.c1 | 2 => o.c2 | _ => o.c3)

/-- The uniform of a word, in units of 2^-24 (R84). -/
def uniform24 (w : Word) : Nat := w.toNat / 256

/-- The query's word number `i` from here on. -/
def State.rngWord (s : State) (q : Query) (i : Nat) : Word :=
  rngAt (s.part q.part).seed q.qid q.bounce (BitVec.ofNat 32 (fieldAt q.bytes 44 4)) (q.rngWord + i)

/-! ## Reading a leaf -/

/-- The leaf line a query reached, once its lines are current. -/
inductive LeafLook where
  | leaf (f : Leaf)
  | bad
  | leave (j : LineJudge)
  deriving DecidableEq, Repr

def State.lookLeaf (s : State) (q : Query) (n : Nat) : LeafLook × State :=
  match s.readImg q n q.next.line with
  | (.ok l, s) => (match parseLeaf q.hdr q.next.line (l.headD []) with | some f => .leaf f | none => .bad, s)
  | (j, s) => (.leave j, s)

/-- Which unit of the slice a leaf goes to (R141): 0 the intersector, 1 the neural unit, 2 the hit core. Leaves passed
without effect, malformed or not current end at the intersector. -/
def leafUnit (gr : Graph) (g : Geo) (k : LeafLook) : Nat :=
  match k with
  | .leaf f => if !leafEnabled gr g f.type then 0 else if f.type = 8 then 1 else if f.type = 9 then 2 else 0
  | _ => 0

/-- The unit a member of a leaf batch needs. -/
def State.unitOf (s : State) (n u : Nat) : Nat :=
  match s.query? u with
  | none => 0
  | some q => match q.geo with | some g => leafUnit (s.graphOf q) g (s.lookLeaf q n).1 | none => 0

/-- Take the members a unit serves out of a slice's head batch, which goes once empty. -/
def State.takeMembers (s : State) (n : Nat) (us : List Nat) : State :=
  s.modSlice n fun v =>
    match v.inQ with
    | b :: rest =>
      let left := b.members.filter fun u => !us.contains u
      { v with inQ := if left.isEmpty then rest else { b with members := left } :: rest }
    | [] => v

/-- A leaf visit ends: the walk goes on, or an ANY query that has its hit ends (R86). -/
def State.afterLeaf (s : State) (u : Nat) (ended : Bool) (v : Visit) : State :=
  let s := s.modQuery u fun q => q.addVisit s.wclk v
  if ended then (s.modQuery u fun q => { q with stack := [], spilled := [] }).endWalk u else s.popNext u

/-- The first accepted hit ends the query (R86). -/
def Geo.anyMode (g : Geo) : Bool := (g.kind == .ray || g.kind == .segment) && g.mode == 1

/-! ## Primitive leaves (R115, R120 to R127) -/

/-- Offer the primitives of a leaf in ascending ordinal: the query, the ordinals accepted, the weight tested, the voids. The
counting of voids ends with the hit that ends an ANY query, though later ones stand in lines already read (DESIGN CHOICE, log 80). -/
def testPrims (g : Geo) (f : Leaf) (key : XR) : List (Option Prim) → Nat → Query → Nat → Nat → Nat → Query × Nat × Nat × Nat
  | [], _, q, acc, w, v => (q, acc, w, v)
  | none :: rest, j, q, acc, w, v => testPrims g f key rest (j + 1) q acc w (v + 1)
  | some p :: rest, j, q, acc, w, v =>
    let id := f.prims.getD j 0
    if g.excludes id then testPrims g f key rest (j + 1) q acc w v
    else
      match primTest g key p with
      | none => testPrims g f key rest (j + 1) q acc (w + primWeight f.type) v
      | some (x0, x1, x2, fl) =>
        let (q', ok) := offerHit g q
          { prim := id, leaf := BitVec.ofNat 32 f.addr, x0 := x0, x1 := x1, x2 := x2, ord := BitVec.ofNat 8 j, flags := fl }
        if ok && g.anyMode then (q', acc + 2 ^ j, w + primWeight f.type, v)
        else testPrims g f key rest (j + 1) q' (acc + bit ok * 2 ^ j) (w + primWeight f.type) v

/-- A brick or blob leaf joins the volume leaves of a MARCH walk (R90); the 1,025th leaf ends the query. A leaf reached again
counts once, and a brick the ray misses counts with an empty segment (log 71). -/
def State.collect (s : State) (n u : Nat) (v : Vol) : State :=
  match s.query? u with
  | none => s
  | some q =>
    if !(q.vols.any fun x => x.leaf == v.leaf) && decide (1024 ≤ (q.vols.map (·.leaf)).eraseDups.length) then
      s.failVisit q stVisitLimit
    else
      let vols := if q.vols.contains v then q.vols else q.vols ++ [v]
      if q.visitor.isSome && decide (1024 < vols.length) then s.takeBack q
      else (s.modQuery u fun q => { q with vols := vols }).afterLeaf u false ⟨v.leaf, 1, n⟩

/-- The payload of a leaf's run, read under the epoch rule; a run beyond the image is BAD_IMAGE (R57). -/
def State.readRecords (s : State) (q : Query) (n : Nat) (f : Leaf) : Option (LineJudge × State) :=
  if f.runOk q.hdr then some (s.readRun q n (lineRun f.recBase f.recLines)) else none

/-- One query tests a leaf of primitives, collects a brick, or passes a leaf without effect (R78, R210). A void primitive counts
once for each query that visits its leaf, also where one batch reads the lines for several (DESIGN CHOICE, log 80). -/
def State.visitLeaf (s : State) (n u : Nat) : State :=
  match s.query? u with
  | none => s
  | some q =>
    match q.geo with
    | none => s
    | some g =>
      match s.lookLeaf q n with
      | (.leave j, s) => s.leaveRead q j
      | (.bad, s) => s.failVisit q stBadImage
      | (.leaf f, s) =>
        if !leafEnabled (s.graphOf q) g f.type then s.afterLeaf u false ⟨f.addr, 0, n⟩
        else
          match s.readRecords q n f with
          | none => s.failVisit q stBadImage
          | some (.ok ls, s) =>
            if f.type = 7 then
              match parseBrick f ls with
              | none => s.failVisit q stBadImage
              | some b =>
                let (t0, t1) := (brickSpan g b).getD (XR.zero, XR.zero)
                s.collect n u ⟨f.addr, fpWord t0, fpWord t1, f.prims.headD 0, false, payloadOf ls⟩
            else
              match parseRecords q.hdr f ls with
              | none => s.failVisit q stBadImage
              | some ps =>
                let (q', acc, w, void) := testPrims g f (keyX q.next.key) ps 0 q 0 0 0
                let s := s.modCluster (clusterOf n) fun c =>
                  { c with primtests := addD c.primtests w, voidrec := satInc c.voidrec void }
                let s := s.act 1 w
                if q.visitor.isSome && !q'.fits g then s.takeBack q
                else
                  let s := s.modQuery u fun x => { x with held := q'.held, capped := q'.capped }
                  s.afterLeaf u (g.anyMode && acc != 0) ⟨f.addr, acc, n⟩
          | some (j, s) => s.leaveRead q j

/-- Let one unit of a slice serve its members of the head batch. -/
def State.serveLeaf (s : State) (n unit : Nat) (b : Batch) (visit : State → Nat → State) : State :=
  let mine := b.members.filter fun u => s.unitOf n u == unit
  let u0 := s.nextUid
  let s := mine.foldl visit (s.takeMembers n mine)
  s.beginNew (s.newSince u0)

/-- PRIMITIVE_LEAF_TEST (R120): the intersector serves the leaf batch at the head of the slice's input queue. -/
def execPrimitiveLeafTest (n : Nat) (s : State) : Result :=
  onUnit (decide (n < s.nslices))
    (match s.headBatch n with
     | none => .next s
     | some b => whenDue s (s.works n && b.key.cls == .leaf) (settle s (s.serveLeaf n 0 b fun s u => s.visitLeaf n u)))

/-! ## Neural surface leaves (R178 to R180) -/

/-- The tracer of a surface leaf: position, steps, side (none, or negative), the query with its held set, what it counted. -/
structure Trace where
  t : XR
  n : Nat := 0
  side : Option Bool := none
  q : Query
  first : Nat := 0
  halo8 : Nat := 0
  pairs : Nat := 0
  unres : Nat := 0
  accepted : Bool := false
  stop : Bool := false
  bad : Bool := false
  deriving DecidableEq, Repr

/-- Constants of one visit: the query's record, the leaf, its blob, T_out, band, nd, skip. -/
structure Surf where
  g : Geo
  f : Leaf
  b : Blob
  key : XR
  tout : XR
  band : XR
  nd : XR
  skip : XR
  deriving DecidableEq, Repr

/-- A quotient of an FP32 value by nd; nd may have rounded up to an infinity. -/
def overNd (x nd : XR) : Q :=
  match x, nd with
  | .fin a, .fin d => if d.isZero then Q.zero else a.div d
  | _, _ => Q.zero

/-- A sum of two FP32 values rounded in one direction. -/
def sumDir (up : Bool) (a b : XR) : XR :=
  match a, b with
  | .fin x, .fin y => gridFp32.dir up (x.add y)
  | .fin _, y => y
  | x, _ => x

/-- R178's constants. -/
def surfOf (g : Geo) (f : Leaf) (b : Blob) (key tout : XR) : Surf :=
  let band := upFp (b.err.add b.halo)
  let len := gridFp32.dir true (sqrtSticky 30 (dot3 g.d g.d))
  let nd := match len with | .fin l => upFp (b.lip.mul l) | x => x
  let skip := match band with | .fin w => gridFp32.dirX true (.fin (overNd (.fin ((Q.ofInt 2).mul w)) nd)) | x => x
  { g := g, f := f, b := b, key := key, tout := tout, band := band, nd := nd, skip := skip }

/-- The step of R178: by the certified distance m, or to the next FP32 value. -/
def Surf.step (c : Surf) (k : Trace) (v m : Q) : Trace :=
  let t1 := sumDir false k.t (downFp (overNd (downFp m) c.nd))
  { k with side := some v.isNeg, t := if XR.lt k.t t1 then t1 else nextAbove k.t }

/-- A hit at t, judged under R86 and R115; then after_hit, or the end of the visit (R179). -/
def Surf.hit (c : Surf) (k : Trace) (hi lo : Q) (d1 : Q) (unres : Bool) : Trace :=
  let back := k.side.getD d1.isNeg
  let rep := XR.max k.t c.key
  let h : Held := { prim := c.f.prims.headD 0, leaf := BitVec.ofNat 32 c.f.addr, x0 := fpWord rep, x1 := rneW hi, x2 := rneW lo,
                    ord := 0, flags := (if back then 1 else 0) ||| (if unres then 2 else 0) }
  let ok := rep.isFin && XR.le c.g.tmin rep && XR.le rep c.g.tmax && !c.g.excludes h.prim
  let (q', acc) := if ok then offerHit c.g k.q h else (k.q, false)
  let k := { k with q := q', unres := k.unres + bit unres, accepted := k.accepted || acc }
  if acc && decide (c.g.mode ≤ 1) then { k with stop := true }
  else { k with side := none, t := sumDir true k.t c.skip }

/-- One pass of the loop of R178. At an infinite t every sample point has an axis that is infinite or NaN; its group converts to a
NaN block, so the evaluation ends under R177. -/
def Surf.pass (c : Surf) (k : Trace) : Trace :=
  match k.t with
  | .fin t =>
    let p := pointAt c.g t
    let k := { k with n := k.n + 1, first := k.first + 1 }
    match firstEval c.b p with
    | none => { k with bad := true, stop := true }
    | some d1 =>
      let k := { k with side := some (k.side.getD d1.isNeg) }
      if XR.lt c.band (.fin d1.abs) then c.step k d1 (d1.abs.sub c.b.err)
      else
        let same := sameEval c.b
        let k := { k with halo8 := k.halo8 + bit !same }
        match (if same then some d1 else mxfp8Eval c.b p) with
        | none => { k with bad := true, stop := true }
        | some d2 =>
          if XR.lt c.band (.fin d2.abs) then c.step k d2 (d2.abs.sub c.b.err)
          else
            let k := { k with pairs := k.pairs + 1 }
            match pairEval c.b p with
            | none => { k with bad := true, stop := true }
            | some (hi, lo, tau) =>
              let r := (hi.add lo).abs
              if (r.add tau).le c.b.halo then c.hit k hi lo d1 false
              else if c.b.halo.lt (r.sub tau) then c.step k hi (r.sub tau)
              else c.hit k hi lo d1 true
  | _ => { k with n := k.n + 1, first := k.first + 1, bad := true, stop := true }

/-- The loop of R178, at most 4,096 passes (R180). -/
def Surf.loop (c : Surf) : Nat → Trace → Trace
  | 0, k => k
  | i + 1, k =>
    if k.stop || !XR.le k.t (XR.min c.tout (k.q.limit c.g)) then k else c.loop i (c.pass k)

/-- One query traces a surface leaf, or collects a neural volume leaf (R90, R178). -/
def State.visitNeural (s : State) (n u : Nat) : State :=
  match s.query? u with
  | none => s
  | some q =>
    match q.geo with
    | none => s
    | some g =>
      match s.lookLeaf q n with
      | (.leaf f, s) =>
        match s.readRecords q n f with
        | none => s.failVisit q stBadImage
        | some (.ok ls, s) =>
          match parseBlob f ls with
          | none => s.failVisit q stBadImage
          | some b =>
            if g.kind == .march then
              if b.output = 1 then
                s.collect n u ⟨f.addr, q.next.key, q.next.tout, f.prims.headD 0, true, payloadOf ls⟩
              else s.afterLeaf u false ⟨f.addr, 0, n⟩
            else if b.output = 1 then s.afterLeaf u false ⟨f.addr, 0, n⟩
            else
              let c := surfOf g f b (keyX q.next.key) (keyX q.next.tout)
              let k := c.loop 4096 { t := c.key, q := q }
              let macs := (k.first + k.halo8) * firstMacs b + k.pairs * pairMacs b
              let four := k.first * fourMacs b
              let s := ((s.act 2 four).act 3 (macs - four)).modCluster (clusterOf n) fun x =>
                { x with macs := addD x.macs macs, halo8 := satInc x.halo8 k.halo8, halopair := satInc x.halopair k.pairs
                         unres := satInc x.unres k.unres, steplim := satInc x.steplim (bit (k.n == 4096))
                         nonfin := satInc x.nonfin (bit k.bad) }
              if k.bad then s.failVisit q stBadImage
              else if q.visitor.isSome && !k.q.fits g then s.takeBack q
              else
                let s := s.modQuery u fun x => { x with held := k.q.held, capped := k.q.capped }
                s.afterLeaf u (g.anyMode && k.accepted) ⟨f.addr, bit k.accepted, n⟩
        | some (j, s) => s.leaveRead q j
      | (.bad, s) => s.failVisit q stBadImage
      | (.leave j, s) => s.leaveRead q j

/-- NEURAL_LEAF_VISIT (R178): the neural unit serves its members of the leaf batch at the head of the slice's input queue. -/
def execNeuralLeafVisit (n : Nat) (s : State) : Result :=
  onUnit (decide (n < s.nslices))
    (match s.headBatch n with
     | none => .next s
     | some b => whenDue s (s.works n && b.key.cls == .leaf) (settle s (s.serveLeaf n 1 b fun s u => s.visitNeural n u)))

/-! ## MARCH tracking (R90, R128, R433) -/

/-- A segment that covers part of [t, t_max]. -/
def volAhead (t tmax : XR) (v : Vol) : Bool :=
  XR.le t tmax && XR.lt (keyX v.t0) (keyX v.t1) && XR.lt t (keyX v.t1) && XR.le (keyX v.t0) tmax

/-- Extend the end of a leaf's coverage over its further segments that meet it. -/
def coverEnd (vs : List Vol) (leaf : Nat) : Nat → XR → XR
  | 0, e => e
  | k + 1, e =>
    match vs.find? fun v => v.leaf == leaf && XR.le (keyX v.t0) e && XR.lt e (keyX v.t1) with
    | some v => coverEnd vs leaf k (keyX v.t1)
    | none => e

/-- The first volume segment at or after t: start, end and the counting leaf (R90). -/
def firstSegment (vs : List Vol) (t tmax : XR) : Option (XR × XR × Vol) :=
  let ahead := vs.filter (volAhead t tmax)
  match ahead with
  | [] => none
  | v :: rest =>
    let start := XR.max t (rest.foldl (fun m x => XR.min m (keyX x.t0)) (keyX v.t0))
    let here := ahead.filter fun x => XR.le (keyX x.t0) start && XR.lt start (keyX x.t1)
    match here with
    | [] => none
    | a :: more =>
      let c := more.foldl (fun b x => if x.leaf < b.leaf then x else b) a
      let e := coverEnd ahead c.leaf ahead.length (keyX c.t1)
      let cut := ahead.foldl (fun m x => if decide (x.leaf < c.leaf) && XR.lt start (keyX x.t0) then XR.min m (keyX x.t0) else m) e
      some (start, cut, c)

/-- The majorant of a volume leaf. -/
def volMajorant (g : Geo) (v : Vol) : Q :=
  if v.neural then g.maj else fpQ (BitVec.ofNat 32 (fieldAt v.payload 28 4))

/-- A payload as record lines, for the parsers. -/
def asLines (type : Nat) (bs : List Byte) : List (List Byte) :=
  (chunks 56 (bs.length + 1) bs).map fun c => padTo 64 ([0x20, BitVec.ofNat 8 type, 0, 0, 0, 0, 0, 0] ++ c)

/-- Density at a point, and the multiply-accumulates spent, with those on 4-bit operands; `none` is BAD_IMAGE under R177. -/
def volDensity (v : Vol) (p : List XR) : Option XR × Nat × Nat :=
  let ls := asLines (if v.neural then 8 else 7) v.payload
  let f : Leaf := { addr := v.leaf, type := if v.neural then 8 else 7, count := 1, recBase := 0, recLines := ls.length,
                    prims := [v.prim], kernel := 0, user := 0 }
  if v.neural then
    match parseBlob f ls with
    | some b => ((firstEval b p).map .fin, firstMacs b, fourMacs b)
    | none => (none, 0, 0)
  else
    match parseBrick f ls with
    | some b => (some (brickDensity b p), 0, 0)
    | none => (none, 0, 0)

/-- Tracking in progress: R90's variables, words drawn, work counted, and the record or BAD_IMAGE at its end. -/
structure March where
  t : XR
  tr : Word
  n : Nat
  clamped : Bool
  drawn : Nat
  macs : Nat := 0
  four : Nat := 0
  bricks : Nat := 0
  ended : Option (Option Held) := none
  deriving DecidableEq, Repr

/-- One pass of the loop of R90 with the arithmetic of R128. A free path drawn in a brick is one step of Table 4.4 (log 71). -/
def marchPass (g : Geo) (vs : List Vol) (word : Nat → Word) (k : March) : March :=
  match firstSegment vs k.t g.tmax with
  | none => { k with ended := some (some (marchEscape (if g.mode = 1 then k.tr else 0x3F800000) k.n k.clamped)) }
  | some (t0, t1, v) =>
    let m := volMajorant g v
    if m.isZero then { k with t := t1 }
    else
      let s := rneX (negLn (2 ^ 24 - uniform24 (word k.drawn)))
      let dt := match s with | .fin x => rneX (x.div m) | x => x
      let t := match t0, dt with | .fin a, .fin b => rneX (a.add b) | .fin _, y => y | x, _ => x
      let k := { k with drawn := k.drawn + 1, bricks := k.bricks + bit !v.neural }
      if !XR.lt t t1 then { k with t := t1 }
      else if XR.lt g.tmax t then
        { k with ended := some (some (marchEscape (if g.mode = 1 then k.tr else 0x3F800000) k.n k.clamped)) }
      else
        match t with
        | .fin x =>
          let (d, macs, four) := volDensity v (pointAt g x)
          let k := { k with macs := k.macs + macs, four := k.four + four, t := t }
          match d with
          | none => { k with ended := some none }
          | some raw =>
            let mu := XR.min (XR.max raw XR.zero) (.fin m)
            let k := { k with n := k.n + 1, clamped := k.clamped || mu != raw }
            let r := match mu with | .fin y => rneX (y.div m) | y => y
            if g.mode = 0 then
              let u := word k.drawn
              let k := { k with drawn := k.drawn + 1 }
              if XR.lt (.fin ⟨uniform24 u, 2 ^ 24⟩) r then
                { k with ended := some (some { prim := v.prim, leaf := BitVec.ofNat 32 v.leaf, x0 := fpWord t, x1 := 0,
                                               x2 := rneW (Q.ofInt k.n), ord := 0, flags := if k.clamped then 0x10 else 0 }) }
              else k
            else
              let one := match r with | .fin y => rneX (Q.one.sub y) | _ => XR.zero
              { k with tr := match one with | .fin y => rneW ((fpQ k.tr).mul y) | _ => k.tr }
        | _ => { k with t := t1 }

/-- Passes until the end, or until the fuel of one command is spent. -/
def marchLoop (g : Geo) (vs : List Vol) (word : Nat → Word) : Nat → March → March
  | 0, k => k
  | i + 1, k => if k.ended.isSome then k else marchLoop g vs word i (marchPass g vs word k)

/-- Passes one MARCH_TRACKING command makes at most; a longer tracking goes on with the next (log 18). -/
def marchFuel : Nat := 1048576

/-- MARCH_TRACKING (R90). -/
def execMarchTracking (u : Nat) (s : State) : Result :=
  match s.query? u with
  | none => .next s
  | some q =>
    match q.geo with
    | none => .next s
    | some g =>
      whenDue s (s.isOpen && q.st == .march)
        (let tk := q.track.getD { t := fpWord g.tmin }
         let k := marchLoop g q.vols (s.rngWord q) marchFuel
           { t := keyX tk.t, tr := tk.tr, n := tk.n, clamped := tk.clamped, drawn := 0 }
         let s1 := (((s.act 1 (8 * k.bricks)).act 2 k.four).act 3 (k.macs - k.four)).modCluster q.cluster fun c =>
           { c with macs := addD c.macs k.macs, primtests := addD c.primtests (8 * k.bricks)
                    nonfin := satInc c.nonfin (bit (k.ended == some none)) }
         let s2 := s1.modQuery u fun q =>
           { q with rngWord := q.rngWord + k.drawn, track := some { t := fpWord k.t, tr := k.tr, n := k.n, clamped := k.clamped } }
         match k.ended with
         | none => settle s s2
         | some none => settle s (s2.failQuery u stBadImage)
         | some (some h) =>
           let s3 := (s2.modQuery u fun q => { q with held := [h] }).endWalk u
           settle s (s3.beginNew (s3.newSince s.nextUid)))

end Sys2Proof.Machine
end

