-- ==== Sys2Proof/Machine/Operands.lean ====
section
/-! DEFINITION. Instruction fields, register operands and their legality, threads and groups of a context, the convergence
scheduler, faults that kill a context, and how an instruction issues to the lanes of a group (R186 to R198, R217, R218). -/

namespace Sys2Proof.Machine

open Sys2Proof

/-! ## Instruction fields (Table 7.3) -/

structure Ins where
  cls : Nat
  op : Nat
  pg : Nat
  pn : Bool
  dst : Nat
  sa : Nat
  sb : Nat
  sc : Nat
  imm : Nat
  deriving DecidableEq, Repr

/-- The fields of a 64-bit instruction. -/
def insOf (d : Dword) : Ins :=
  let v := d.toNat
  { cls := bitsAt v 63 60, op := bitsAt v 59 54, pg := bitsAt v 53 51, pn := bitAt v 50, dst := bitsAt v 49 42,
    sa := bitsAt v 41 34, sb := bitsAt v 33 26, sc := bitsAt v 25 18, imm := bitsAt v 17 0 }

/-- The instruction is one of Table 7.4. -/
def Ins.listed (i : Ins) : Bool :=
  match i.cls with
  | 0 => decide (i.op ≤ 0x13)
  | 1 => decide (i.op ≤ 0x0B)
  | 2 => decide (i.op ≤ 9)
  | 3 => decide (i.op ≤ 4)
  | 4 => decide (i.op ≤ 3)
  | 5 => decide (i.op ≤ 4)
  | 6 => decide (i.op ≤ 8)
  | 7 => decide (i.op ≤ 3)
  | _ => false

/-- Collective instructions (R198). -/
def Ins.collective (i : Ins) : Bool :=
  i.cls == 4 || (i.cls == 5 && decide (1 ≤ i.op) && decide (i.op ≤ 3)) || (i.cls == 7 && decide (2 ≤ i.op))

/-- The immediate, sign-extended to 32 bits (R191). -/
def Ins.imm32 (i : Ins) : Word := BitVec.ofInt 32 (signedAt 18 i.imm)

/-- How many registers an operation takes in each field (0: the field is no register), and whether B may be IMM. -/
structure Uses where
  d : Nat := 0
  a : Nat := 0
  b : Nat := 0
  c : Nat := 0
  bImm : Bool := true
  deriving DecidableEq, Repr

/-- A field names registers below NREG (R191). -/
def regOk (nreg r n : Nat) : Bool := n == 0 || (r != 255 && decide (r + n ≤ nreg))

/-- Every register field the operation uses is legal (R191). -/
def Uses.legal (u : Uses) (nreg : Nat) (i : Ins) : Bool :=
  (i.dst == 255 || regOk nreg i.dst u.d) && regOk nreg i.sa u.a && regOk nreg i.sc u.c &&
    (if i.sb = 255 then u.b == 0 || (u.bImm && u.b == 1) else regOk nreg i.sb u.b)

/-! ## Threads -/

def Thread.reg (t : Thread) (r : Nat) : Word := NMap.get 0 t.regs r
/-- Write a register; 0xFF discards (Table 7.3). -/
def Thread.put (t : Thread) (r : Nat) (v : Word) : Thread := if r = 255 then t else { t with regs := NMap.put 0 t.regs r v }
/-- Write a pair into r and r + 1. -/
def Thread.put2 (t : Thread) (r : Nat) (v w : Word) : Thread := if r = 255 then t else (t.put r v).put (r + 1) w
def Thread.a (t : Thread) (i : Ins) : Word := t.reg i.sa
/-- Operand B: a register or the immediate (R191). -/
def Thread.b (t : Thread) (i : Ins) : Word := if i.sb = 255 then i.imm32 else t.reg i.sb
def Thread.c (t : Thread) (i : Ins) : Word := t.reg i.sc
def Thread.pred (t : Thread) (p : Nat) : Bool := t.preds.getLsbD p
def Thread.setPred (t : Thread) (p : Nat) (v : Bool) : Thread :=
  let m := BitVec.ofNat 8 (2 ^ p)
  { t with preds := if v then t.preds ||| m else t.preds &&& ~~~m }
def Thread.step (t : Thread) : Thread := { t with pc := t.pc + 1 }
/-- The guard of R191. -/
def Thread.guard (t : Thread) (i : Ins) : Bool := if i.pn then i.pg == 0 || !t.pred i.pg else t.pred i.pg
def Thread.ready (t : Thread) : Bool := !t.exited && t.wait == .run

/-- The 64-bit global address in the pair A, A + 1, plus the immediate (Table 7.4). -/
def Thread.gaddr (t : Thread) (i : Ins) (imm : Bool) : Nat :=
  let base : Int := ((t.reg (i.sa + 1)).toNat * 2 ^ 32 + (t.reg i.sa).toNat : Nat)
  ((base + if imm then signedAt 18 i.imm else 0) % 2 ^ 64).toNat

/-! ## Groups and contexts -/

def Group.liveLanes (g : Group) : List Nat :=
  (List.range g.threads.length).filter fun l => match g.threads[l]? with | some t => !t.exited | none => false

def State.group? (s : State) (pl : Place) : Option Group := (s.ctx? pl.slice pl.slot).bind fun c => c.groups[pl.group]?

def State.thread? (s : State) (pl : Place) (lane : Nat) : Option Thread := (s.group? pl).bind fun g => g.threads[lane]?

def State.modGroup (s : State) (pl : Place) (f : Group → Group) : State :=
  s.modCtx pl.slice pl.slot fun c => { c with groups := c.groups.modify pl.group f }

def State.modThread (s : State) (pl : Place) (lane : Nat) (f : Thread → Thread) : State :=
  s.modGroup pl fun g => { g with threads := g.threads.modify lane f }

/-- Change the threads of some lanes. -/
def State.modLanes (s : State) (pl : Place) (lanes : List Nat) (f : Thread → Thread) : State :=
  lanes.foldl (fun s l => s.modThread pl l f) s

/-- The instruction at a pc of a context's kernel (R185); `none` beyond CODE_LEN. -/
def State.code (s : State) (c : Ctx) (pc : BitVec 15) : Option Ins :=
  let p := s.part c.part
  let k := p.kernel c.kernel
  if pc.toNat < k.codeLen then some (insOf (p.code.getD (k.codeOfs + pc.toNat) 0)) else none

/-- The pc the convergence scheduler issues at (R197, R198): the lowest one a ready thread holds, past any collective that
some live thread does not hold yet. -/
def State.nextPc (s : State) (c : Ctx) (g : Group) : Option (BitVec 15) :=
  let live := g.threads.filter fun t => !t.exited
  let pcs := sortBy (fun a b => decide (a < b)) ((live.filter Thread.ready).map (·.pc)).eraseDups
  pcs.find? fun pc =>
    match s.code c pc with
    | some i => !(i.listed && i.collective) || live.all fun t => t.ready && t.pc == pc
    | none => true

/-! ## Faults (R217, R218) -/

def fIllegal : Nat := 1
def fOperand : Nat := 2
def fWindow : Nat := 3
def fAlign : Nat := 4
def fLocal : Nat := 5
def fPoison : Nat := 6
def fPc : Nat := 7
def fCall : Nat := 8
def fCollective : Nat := 9
def fBudget : Nat := 10

/-- Record a kill in HIT_FLOG, the first since VALID was cleared (Table 7.15); of several threads that fault in one wclk the one of
lowest slice, group and lane (R218). A deadlock has no thread and gives way to a fault. -/
def Cluster.logKill (c : Cluster) (now kind : Nat) (x : Ctx) (group lane : Nat) (pc : BitVec 15) : Cluster :=
  let first := c.flogAt = now ∧ kind ≠ 0x20 ∧
    (c.flogKind = 0x20 ∨ [x.slice, group, lane] < [c.flogSlice.toNat, c.flogGroup, c.flogLane])
  if c.flogValid ∧ ¬first then c
  else { c with flogValid := true, flogKind := BitVec.ofNat 8 kind, flogPart := BitVec.ofNat 5 x.part
                flogSlice := BitVec.ofNat 8 x.slice, flogKernel := BitVec.ofNat 16 x.kernel, flogPc := pc
                flogAt := now, flogGroup := group, flogLane := lane }

/-- A context is killed: its deposit's undelivered queries end with KERNEL_FAULT, its contexts go. A context that serves
visitors frees itself and sends them home as they stood (R147, R217; log 17). -/
def State.killCtx (s : State) (x : Ctx) (dstatus : Byte) : State :=
  if (s.dep? x.dep).isSome then s.killDeposit x.dep x.run dstatus
  else x.batch.foldl (fun s u => s.failQuery u stKernelFault) (s.dropCtx x.slice x.slot)

/-- A fault of Table 7.9 in a thread at a pc. -/
def State.fault (s : State) (pl : Place) (lane kind : Nat) (pc : BitVec 15) : State :=
  match s.ctx? pl.slice pl.slot with
  | none => s
  | some x =>
    (s.modCluster (clusterOf pl.slice) fun c =>
      { c.logKill s.wclk kind x pl.group lane pc with faults := satInc c.faults 1 }).killCtx x 0x10

/-! ## The end of a context (R195, R212) -/

/-- A leaf kernel has ended for a query: its walk goes on. A visitor of which the kernel changed what no member record carries
goes home as it stood before, and its home runs the leaf (log 29). -/
def State.leafDone (s : State) (u : Nat) : State :=
  match s.query? u with
  | none => s
  | some q =>
    if q.st != .leafKernel then s
    else
      let fits := match q.geo with | some g => q.fits g | none => true
      match q.visitor, q.undo with
      | some (h, x), some w =>
        if q.rv != w.rv || q.staged != w.staged || !fits then (s.modQuery u Query.undone).goHome u h x
        else (s.modQuery u fun q => { q with st := .ready, undo := none }).popNext u
      | _, _ => (s.modQuery u fun q => { q with st := .ready }).popNext u

/-- Every thread of a context has exited: its queries' node completes, or their walks go on. -/
def State.endCtx (s : State) (x : Ctx) : State :=
  let s := s.dropCtx x.slice x.slot
  if x.node = 255 then x.batch.foldl State.leafDone s
  else
    let us := (x.groups.map fun g => g.threads.filterMap (·.query)).flatten
    us.foldl (fun s u => s.completeNodes u (BitVec.ofNat 16 (2 ^ x.node))) s

/-- Every thread of a group waits at a barrier, or has exited. -/
def Group.atBar (g : Group) : Bool := g.threads.all fun t => t.exited || t.wait == .barrier
def Group.dead (g : Group) : Bool := g.threads.all (·.exited)

/-- Release a barrier that every live group has reached (R199). -/
def Ctx.releaseBar (x : Ctx) : Ctx :=
  let go := fun (t : Thread) => if t.wait == .barrier then { t with wait := .run, pc := t.pc + 1 } else t
  if x.groups.all Group.atBar && !(x.groups.all Group.dead) then
    { x with groups := x.groups.map fun g => { g with threads := g.threads.map go } }
  else x

/-- A live group blocked in WAITEV or BAR (R219). -/
def Group.blocked (g : Group) : Bool :=
  g.threads.any (fun t => !t.exited) && g.threads.all fun t => t.exited || (match t.wait with | .event _ => true | .barrier => true | _ => false)

/-- Note since when all live groups of a context are blocked (R219). -/
def Ctx.noteBlocked (x : Ctx) (now : Nat) : Ctx :=
  if x.groups.all fun g => g.dead || g.blocked then (if x.blockedAt.isSome then x else { x with blockedAt := some now })
  else { x with blockedAt := none }

/-- After threads moved: barriers release, blocking is noted, an ended context goes. -/
def State.settleCtx (s : State) (slice slot : Nat) : State :=
  match s.ctx? slice slot with
  | none => s
  | some x =>
    if x.groups.all Group.dead then s.endCtx x
    else s.modCtx slice slot fun x => x.releaseBar.noteBlocked s.wclk

/-! ## Issue -/

/-- An instruction that issues: where, the lanes that hold its pc, its fields, its kernel. -/
structure Iss where
  pl : Place
  pc : BitVec 15
  lanes : List Nat
  ins : Ins
  k : KDesc
  deriving DecidableEq, Repr

/-- Lanes whose guard holds. -/
def Iss.active (x : Iss) (s : State) : List Nat :=
  x.lanes.filter fun l => match s.thread? x.pl l with | some t => t.guard x.ins | none => false

/-- The hit core of a slice runs: the slice works and a change of split has passed (R189). -/
def State.coreRuns (s : State) (n : Nat) : Bool := s.works n && decide ((s.slice n).splitReady ≤ s.wclk)

/-! ### Memory accesses that wait -/

/-- Translation of a kernel's global address; addresses beyond 56 bits lie in no window. -/
def State.kaddr (s : State) (pl : Place) (a n : Nat) (wr : Bool) : Option Nat :=
  (s.ctx? pl.slice pl.slot).bind fun x => s.translate x.part a n wr

/-- A line that neither the data cache nor the cluster's L1 holds is read at the home bank. -/
def State.missesL1 (s : State) (n part line : Nat) : Bool :=
  !(((s.slice n).dcache.find line part).isSome || ((s.cluster (clusterOf n)).l1.find line part).isSome)

/-- A read at the home bank goes to memory: L2 holds no copy, and no L1 owns the line. -/
def State.missesL2 (s : State) (part line : Nat) : Bool :=
  ((s.cluster (s.bankOf line)).bank.l2.find line part).isNone && (s.ownerOf line).isNone

/-- The system address of an access of a lane, with the thread's partition. -/
def State.laneAddr (s : State) (x : Iss) (n : Nat) (wr : Bool) (l : Nat) : Option (Nat × Nat) :=
  match s.thread? x.pl l, s.ctx? x.pl.slice x.pl.slot with
  | some t, some c => (s.translate c.part (t.gaddr x.ins true) n wr).map fun a => (a, c.part)
  | _, _ => none

/-- A load that must wait: for an atomic on a granted line (R331), a fill (R332), or a disabled port (R337). -/
def loadStalls (n : Nat) (x : Iss) (s : State) : Bool :=
  (x.active s).any fun l =>
    match s.laneAddr x n false l with
    | none => false
    | some (a, p) => s.missesL1 x.pl.slice p (lineOf a) &&
        (s.fetchWaits (clusterOf x.pl.slice) p (lineOf a) || (s.missesL2 p (lineOf a) && !s.portEn a))

/-- A store that must wait: for an atomic on a granted line (R331), or for a disabled port (R337). -/
def storeStalls (n : Nat) (x : Iss) (s : State) : Bool :=
  (x.active s).any fun l =>
    match s.laneAddr x n true l with
    | none => false
    | some (a, _) => s.granted (lineOf a) || !s.portEn a

/-- The instruction must wait for memory: LD, LD64, ST, ST64. -/
def Iss.stalls (x : Iss) (s : State) : Bool :=
  x.ins.cls == 2 &&
    (match x.ins.op with
     | 0 => loadStalls 4 x s
     | 1 => loadStalls 8 x s
     | 2 => storeStalls 4 x s
     | 3 => storeStalls 8 x s
     | _ => false)

/-! ### Issue slots (R197, R205) -/

/-- What a group issues next: the pc, the lanes, and the instruction; a pc out of range has none. -/
def State.nextIssue (s : State) (c : Ctx) (group : Nat) : Option (Iss × Bool) :=
  match c.groups[group]? with
  | none => none
  | some g =>
    (s.nextPc c g).map fun pc =>
      let holds := fun l => match g.threads[l]? with | some t => t.ready && t.pc == pc | none => false
      ({ pl := ⟨c.slice, c.slot, group⟩, pc := pc, lanes := (List.range g.threads.length).filter holds,
         ins := (s.code c pc).getD (insOf 0), k := (s.part c.part).kernel c.kernel }, (s.code c pc).isSome)

/-- The context's kernel is of bulk class. -/
def State.bulk (s : State) (c : Ctx) : Bool := bitAt ((s.part c.part).kernel c.kernel).flags.toNat 0

/-- The groups of a core that are ready, oldest first: by launch, then group index. -/
def State.readyGroups (s : State) (n : Nat) : List (Ctx × Nat) :=
  let cs := sortBy (fun (a b : Ctx) => decide (a.launch < b.launch)) (s.ctxs.filter (·.slice == n))
  ((cs.map fun c => (List.range c.groups.length).map fun g => (c, g)).flatten).filter fun x =>
    match s.nextIssue x.1 x.2 with | some (i, _) => !i.stalls s | none => false

/-- Slot B's classes. -/
def Ins.slotB (i : Ins) : Bool := i.cls == 0 || i.cls == 1 || (i.cls == 4 && decide (i.op ≤ 1))

/-- Slot A may issue a bulk-class instruction in this wclk: from step 1b of the throttle ladder in 1 wclk of 2, from 1c in 1 of 4,
from 1d in none (R351). Which wclk of the 2 or 4 is the model's choice (DESIGN CHOICE, log 87). -/
def State.bulkTurn (s : State) : Bool :=
  if 4 ≤ s.ladder then false
  else if s.ladder = 3 then s.wclk % 4 == 0
  else if s.ladder = 2 then s.wclk % 2 == 0
  else true

/-- Slot B issues no bulk-class instruction from step 1a (R351). -/
def State.slotBTurn (s : State) : Bool := s.ladder == 0

/-- The issue slot an instruction takes in this wclk: true for A, false for B, none when it must wait (R205, R351). Slot B follows
slot A in the same group without a test of independence (log 83). -/
def State.issueSlot (s : State) (pl : Place) (i : Ins) : Option Bool :=
  let v := s.slice pl.slice
  let ready := s.readyGroups pl.slice
  let led := ready.filter fun x => !s.bulk x.1
  let blk := if s.bulkTurn then ready.filter fun x => s.bulk x.1 else []
  let key := fun (x : Ctx × Nat) => (x.1.slot, x.2)
  let me := (pl.slot, pl.group)
  let aFree := v.slotA != s.wclk + 1
  let next := if aFree then (if led.isEmpty then blk.drop 1 else blk) else blk.filter fun x => v.aGroup != some (key x)
  if aFree && ((led ++ blk).head?.map key) == some me then some true
  else if s.slotBTurn && i.slotB && v.slotB != s.wclk + 1 && (blk.map key).contains me &&
      ((!aFree && v.aGroup == some me) || (next.head?.map key) == some me) then some false
  else none

/-- Take an issue slot. -/
def State.takeSlot (s : State) (pl : Place) (c : Ctx) (a : Bool) : State :=
  s.modSlice pl.slice fun v =>
    if a then { v with slotA := s.wclk + 1, aGroup := if s.bulk c then some (pl.slot, pl.group) else none }
    else { v with slotB := s.wclk + 1 }

/-! ### Outcomes -/

/-- The answer of an instruction: what changed after its memory effects, with its context settled. Queries that ended or were
created, or a context that ended, change the dispatcher's tasks; then queries begin and the stages of R216 follow. -/
def finish (base : State) (pl : Place) (t : State) : Result :=
  let t := t.settleCtx pl.slice pl.slot
  let same := (t.ctx? pl.slice pl.slot).isSome && t.nextUid == base.nextUid && t.queries.length == base.queries.length
  settle base (if same then t else t.beginNew (t.newSince base.nextUid))

/-- A fault at issue or execution, of the thread of a lane. -/
def faultOf (base : State) (x : Iss) (lane kind : Nat) : Result :=
  let t := base.fault x.pl lane kind x.pc
  settle base (t.beginNew (t.newSince base.nextUid))

/-- A fault that every lane raises. -/
def faultAt (base : State) (x : Iss) (kind : Nat) : Result := faultOf base x (x.lanes.headD 0) kind

/-- Issue the next instruction of a group when it is operation `op` of class `cls` and an issue slot takes it (R197, R205, R217):
counts, the budget and the register fields are judged first; a reserved word or a pc out of range faults whatever the command
names. An isolated partition runs no context (R396). -/
def issue (cls op : Nat) (u : Uses) (pl : Place) (s : State) (body : Iss → State → Result) : Result :=
  onUnit (decide (pl.slice < s.nslices))
    (match s.ctx? pl.slice pl.slot with
     | none => .next s
     | some c =>
       whenDue s (s.coreRuns pl.slice && !s.bordered c.part)
         (match s.nextIssue c pl.group with
          | none => .next s
          | some (x, here) =>
            match s.issueSlot pl x.ins with
            | none => .next s
            | some a =>
              let s1 := s.takeSlot pl c a
              if !here then faultAt s1 x fPc
              else if !x.ins.listed then faultAt s1 x fIllegal
              else if x.ins.cls ≠ cls ∨ x.ins.op ≠ op then .next s
              else
                let limit := (s.cluster (clusterOf pl.slice)).ibudget.toNat
                let s2 := (s1.modLanes pl x.lanes fun t => { t with issued := min (2 ^ 32 - 1) (t.issued + 1) }).act 4 x.lanes.length
                let beyond := x.lanes.find? fun l =>
                  match s.thread? pl l with | some t => decide (limit < t.issued + 1) | none => false
                match (if limit = 0 then none else beyond) with
                | some l => faultOf s2 x l fBudget
                | none => if !u.legal x.k.nreg x.ins then faultAt s2 x fIllegal else body x s2))

/-- Lanes whose guard fails move past the instruction. -/
def Iss.skipIdle (x : Iss) (s : State) : State :=
  s.modLanes x.pl (x.lanes.filter fun l => !(x.active s).contains l) Thread.step

/-- The first fault a lane raises, the lowest lane first (R218), with that lane. -/
def Iss.firstFault (x : Iss) (s : State) (f : Thread → Option Nat) : Option (Nat × Nat) :=
  (x.active s).findSome? fun l => ((s.thread? x.pl l).bind f).map fun k => (l, k)

/-- Run an instruction lane by lane: faults are judged for every lane first, then each lane takes its effect. `base` holds
the memory effects. -/
def runLanes (x : Iss) (s base : State) (fault : Thread → Option Nat) (eff : State → Nat → Thread → State) : Result :=
  match x.firstFault s fault with
  | some (l, k) => faultOf s x l k
  | none =>
    let act := x.active s
    let one := fun (t : State) (l : Nat) => match t.thread? x.pl l with | some th => eff t l th | none => t
    finish base x.pl (act.foldl one (x.skipIdle base))

/-- A register operation: each lane writes one word to DST. -/
def aluOp (cls op : Nat) (u : Uses) (f : Ins → Thread → Word) (pl : Place) (s : State) : Result :=
  issue cls op u pl s fun x s => runLanes x s s (fun _ => none) fun s l t =>
    s.modThread x.pl l fun _ => (t.put x.ins.dst (f x.ins t)).step

/-- An instruction's operation, immediate and every register its fields can name. -/
def Thread.operands (t : Thread) (i : Ins) : List Nat :=
  [i.cls, i.op, i.imm] ++ [i.sa, i.sa + 1, i.sb, i.sb + 1, i.sc, i.sc + 1].map fun r => (t.reg r).toNat

/-- A register operation whose word the manual may leave open. -/
def aluFree (cls op : Nat) (u : Uses) (f : Ins → Thread → Option Word) (pl : Place) (s : State) : Result :=
  issue cls op u pl s fun x s => runLanes x s s (fun _ => none) fun s l t =>
    s.modThread x.pl l fun _ => (t.put x.ins.dst (openOr (t.operands x.ins) (f x.ins t))).step

/-- A register operation that writes a pair, whose low word may be open. -/
def aluPair (cls op : Nat) (u : Uses) (f : Ins → Thread → Word × Option Word) (pl : Place) (s : State) : Result :=
  issue cls op u pl s fun x s => runLanes x s s (fun _ => none) fun s l t =>
    s.modThread x.pl l fun _ => (t.put2 x.ins.dst (f x.ins t).1 (openOr (t.operands x.ins) (f x.ins t).2)).step

/-- A compare: each lane writes predicate DST[2:0]. -/
def cmpOp (cls op : Nat) (u : Uses) (bad : Ins → Bool) (f : Ins → Thread → Bool) (pl : Place) (s : State) : Result :=
  issue cls op u pl s fun x s => runLanes x s s (fun _ => if bad x.ins then some fIllegal else none) fun s l t =>
    s.modThread x.pl l fun _ => (t.setPred (x.ins.dst % 8) (f x.ins t)).step

/-! ## Collectives (R198) -/

/-- The lowest live lane. -/
def State.lowLane (s : State) (pl : Place) : Option Thread :=
  (s.group? pl).bind fun g => g.threads.find? fun t => !t.exited

/-- Run a collective once for the group. It takes place when the guard of some live lane holds; lanes whose guard fails only
move on. Matrix operations need every thread of the group live. -/
def runGroup (x : Iss) (s : State) (matrix : Bool) (eff : List Nat → State → Result) : Result :=
  let exited := match s.group? x.pl with | some g => g.threads.any (·.exited) | none => false
  let act := x.active s
  if matrix && exited then faultAt s x fCollective
  else if act.isEmpty then finish s x.pl (s.modLanes x.pl x.lanes Thread.step)
  else eff act s

/-! ## Older lines that a query waits for (R47, R196, R199) -/

/-- R47 ends a query: threads that wait for it exit, it takes the status, and their contexts follow. -/
def State.epochEnd (s : State) (u : Nat) (status : Byte) : State :=
  let waits := fun (t : Thread) => t.query == some u && !t.exited && (match t.wait with | .line .. => true | _ => false)
  let mine := (s.ctxs.filter fun c => c.groups.any fun g => g.threads.any waits).map fun c => (c.slice, c.slot)
  let exit := fun (t : Thread) => if waits t then { t with exited := true } else t
  let s := (s.modThreadsOf u exit).failQuery u status
  mine.foldl (fun s p => s.settleCtx p.1 p.2) s

/-- The re-read of a query's line has come back from memory (R47). -/
def State.lineRead (s : State) (q : Query) (line sys : Nat) : State :=
  let data := s.readSys sys 64
  match epochAge (lineTag data) q.handle.epoch with
  | .current => s.lineCame q data
  | .older => (s.discardLine (lineOf sys)).olderAgain q
  | .newer => (s.epochEvent q.cluster q.part line q.handle.epoch (some (lineTag data))).epochEnd q.uid stEpochRetired

/-- EPOCH_REREAD (R47): 1 µs after the last read of an older line it is read again; the same command takes the answer once that read
is on its way (log 75). -/
def execEpochReread (w : EpochWaiter) (s : State) : Result :=
  let reading := fun (p : Purpose) => s.accs.any fun a => a.purpose == p
  let begin := fun (t : State) => settle s (t.beginNew (t.newSince s.nextUid))
  match w with
  | .header dep =>
    match (s.dep? dep).bind (·.hdrOlder) with
    | some (_, _, last) =>
      whenDue s (s.isOpen && !reading (.header dep) && decide (last + 1000 ≤ s.elapsed)) (settle s (s.askHeader dep))
    | none => .next s
  | .query u =>
    match s.query? u with
    | none => .next s
    | some q =>
      match s.olderOf q, s.accFor (.reread u) with
      | some (line, _, _), some a => whenDue s s.isOpen (begin ((s.dropAcc a.port a.tag false).lineRead q line a.addr))
      | some (line, _, last), none =>
        whenDue s (s.isOpen && !reading (.reread u) && decide (last + 1000 ≤ s.elapsed))
          (match s.translate q.part (s.imgAddr q line) 64 false with
           | some sys => settle s (s.issue false q.part sys (s.imgAddr q line) [] (.reread u))
           | none => begin (s.epochEnd u stMemError))
      | none, _ => .next s

/-- EPOCH_MISSING_TIMEOUT (R47): 1 ms after the first read that found the line older. -/
def execEpochMissingTimeout (w : EpochWaiter) (s : State) : Result :=
  match w with
  | .header dep =>
    match s.dep? dep with
    | none => .next s
    | some d =>
      match d.hdrOlder with
      | some (line, first, _) =>
        whenDue s (s.isOpen && decide (first + 1000000 ≤ s.elapsed))
          (settle s (((s.cancelAccs fun a => a.purpose == Purpose.header dep).epochEvent d.home d.part line d.handle.epoch none).decideAll
            dep stEpochMissing))
      | none => .next s
  | .query u =>
    match s.query? u with
    | none => .next s
    | some q =>
      match s.olderOf q with
      | some (line, first, _) =>
        whenDue s (s.isOpen && decide (first + 1000000 ≤ s.elapsed))
          (let t := ((s.cancelAccs fun a => a.purpose == Purpose.reread u).epochEvent q.cluster q.part line q.handle.epoch none).epochEnd
             u stEpochMissing
           settle s (t.beginNew (t.newSince s.nextUid)))
      | none => .next s

/-! ## Local store (R190, R193) -/

def localBytes (x : Ctx) : Nat := x.localBytes

/-- One byte of local store; a byte nothing has written since launch is open (log 8). -/
def State.localByte (s : State) (x : Ctx) (a : Nat) : Byte :=
  let (stream, seq) := match s.dep? x.dep with | some d => (d.stream.toNat, d.seq.toNat) | none => (0, 0)
  (NMap.get none x.ls a).getD (Config.openByte [stream, seq, x.node, x.kernel, a])

/-- `n` bytes of a context's local store. -/
def State.localRead (s : State) (pl : Place) (a n : Nat) : List Byte :=
  match s.ctx? pl.slice pl.slot with
  | none => List.replicate n 0
  | some x => (List.range n).map fun i => s.localByte x (a + i)

def putLocal (ls : NMap (Option Byte)) : Nat → List Byte → NMap (Option Byte)
  | _, [] => ls
  | a, b :: bs => putLocal (NMap.put none ls a (some b)) (a + 1) bs

def State.localWrite (s : State) (pl : Place) (a : Nat) (bs : List Byte) : State :=
  s.modCtx pl.slice pl.slot fun x => { x with ls := putLocal x.ls a bs }

/-- A local access of `n` bytes: aligned to 4 and inside the allocation (Table 7.9). -/
def State.localFault (s : State) (pl : Place) (a n : Nat) : Option Nat :=
  if a % 4 ≠ 0 then some fAlign
  else
    match s.ctx? pl.slice pl.slot with
    | some x => if x.localBytes < a + n then some fLocal else none
    | none => none

def wordOf (bs : List Byte) : Word := BitVec.ofNat 32 (leNat bs)

end Sys2Proof.Machine
end

