-- ==== Sys2Proof/Machine/Flags.lean ====
section
/-! DEFINITION. The integer operations of a hit core and the predicates its compares write (R192). -/

namespace Sys2Proof.Machine

open Sys2Proof

/-- Clamp an exact sum to a signed word. -/
def satWord (v : Int) : Word := BitVec.ofInt 32 (max (-(2 ^ 31)) (min (2 ^ 31 - 1) v))

/-- IADD and ISUB: wrap, or saturate when IMM[0] is 1. -/
def iaddW (sat : Bool) (a b : Word) : Word := if sat then satWord (a.toInt + b.toInt) else a + b
def isubW (sat : Bool) (a b : Word) : Word := if sat then satWord (a.toInt - b.toInt) else a - b
def imulhiW (a b : Word) : Word := BitVec.ofInt 32 ((a.toInt * b.toInt) / 2 ^ 32)
def umulhiW (a b : Word) : Word := BitVec.ofNat 32 (a.toNat * b.toNat / 2 ^ 32)
def iminW (a b : Word) : Word := if a.toInt ≤ b.toInt then a else b
def imaxW (a b : Word) : Word := if a.toInt ≤ b.toInt then b else a
def uminW (a b : Word) : Word := if a.toNat ≤ b.toNat then a else b
def umaxW (a b : Word) : Word := if a.toNat ≤ b.toNat then b else a
def shlW (a b : Word) : Word := a <<< (b.toNat % 32)
def shrW (a b : Word) : Word := a >>> (b.toNat % 32)
def sarW (a b : Word) : Word := a.sshiftRight (b.toNat % 32)
/-- Ones of a word. -/
def popcW (a : Word) : Word := BitVec.ofNat 32 ((List.range 32).filter a.getLsbD).length
/-- Zeros above the highest one; 32 for 0. -/
def clzW (a : Word) : Word := BitVec.ofNat 32 (32 - if a = 0 then 0 else Nat.log2 a.toNat + 1)

/-- ISETP by SC[2:0]: EQ, NE, LT, LE, GT, GE, ULT, ULE. -/
def icmp (c : Nat) (a b : Word) : Bool :=
  match c with
  | 0 => a == b
  | 1 => a != b
  | 2 => decide (a.toInt < b.toInt)
  | 3 => decide (a.toInt ≤ b.toInt)
  | 4 => decide (b.toInt < a.toInt)
  | 5 => decide (b.toInt ≤ a.toInt)
  | 6 => decide (a.toNat < b.toNat)
  | _ => decide (a.toNat ≤ b.toNat)

/-- The atomic operations by IMM[3:0]: ADD, MIN, MAX, UMIN, UMAX, AND, OR, XOR, EXCH, CAS (compare with B, store C). -/
def atomW (op : Nat) (old b c : Word) : Word :=
  match op with
  | 0 => old + b
  | 1 => iminW old b
  | 2 => imaxW old b
  | 3 => uminW old b
  | 4 => umaxW old b
  | 5 => old &&& b
  | 6 => old ||| b
  | 7 => old ^^^ b
  | 8 => b
  | _ => if old = b then c else old

end Sys2Proof.Machine
end

