-- ==== Sys2Proof/Machine/IsaMem.lean ====
section
/-! DEFINITION. The MEM class of Table 7.4: global and local accesses, atomics, FENCE and LDLINE (R189, R193, R196, R326,
R330, R331). An access is judged for alignment before its window (log 21). -/

namespace Sys2Proof.Machine

open Sys2Proof

/-- ALIGN, then WINDOW (Table 7.9). -/
def State.globalFault (s : State) (pl : Place) (a n : Nat) (wr : Bool) : Option Nat :=
  if a % n ≠ 0 then some fAlign else if (s.kaddr pl a n wr).isNone then some fWindow else none

/-! ## Loads -/

/-- The home bank recalls an owned copy before it answers a load (R331). -/
def State.loadRecall (s : State) (pl : Place) (part line : Nat) : State :=
  if s.missesL1 pl.slice part line then s.recallNow line else s

/-- The memory side of a load by every active lane. -/
def loadBase (x : Iss) (n : Nat) (s : State) : State :=
  (x.active s).foldl (fun s l =>
    match s.laneAddr x n false l with
    | some (a, p) => s.loadRecall x.pl p (lineOf a)
    | none => s) s

/-- `n` bytes at a lane's address, through the slice's data cache (R189). -/
def State.loadBytes (s : State) (pl : Place) (a n : Nat) : List Byte × State :=
  match s.ctx? pl.slice pl.slot, s.kaddr pl a n false with
  | some c, some sys =>
    let l1 := s.missesL1 pl.slice c.part (lineOf sys)
    let l2 := l1 && s.missesL2 c.part (lineOf sys)
    let (d, s) := s.fetchData pl.slice c.part (lineOf sys)
    ((d.drop (sys % 64)).take n, ((s.act 5 1).act 6 (bit l1)).act 7 (bit l2))
  | _, _ => ([], s)

/-- The failed tries of a load by each active lane that reads memory; port, address and cause of a final failure. -/
def loadTries (x : Iss) (n : Nat) (fails : Fails) (s : State) : State × Option (Nat × Nat × Nat) :=
  (x.active s).foldl (fun (t : State × Option (Nat × Nat × Nat)) l =>
    match s.thread? x.pl l, s.laneAddr x n false l with
    | some th, some (a, p) =>
      if s.missesL1 x.pl.slice p (lineOf a) && s.missesL2 p (lineOf a) then
        let fs := triesOf fails l
        let pa := th.gaddr x.ins true
        (t.1.tried a p pa fs, ((finalFail fs).map fun f => (s.portOf a, pa, failCause f)).orElse fun _ => t.2)
      else t
    | _, _ => t) (s, none)

/-- The deposit and the queries that a context serves have met a final failure (R297). -/
def State.memEventAt (s : State) (pl : Place) (f : Nat × Nat × Nat) : State :=
  match s.ctx? pl.slice pl.slot with
  | none => s
  | some c =>
    { s.modDep c.dep fun d => { d with memFault := some f } with
      queries := modAll (fun q => q.dep == c.dep && q.run == c.run) (fun q => { q with memEvent := true }) s.queries }

/-- LD and LD64. `fails` are the failed tries of a lane's read of memory; a final failure is MEM_POISON (R296, R297). -/
def loadOp (op n : Nat) (fails : Fails) (pl : Place) (s : State) : Result :=
  issue 2 op { d := n / 4, a := 2 } pl s fun x s =>
    let fault := fun (t : Thread) => s.globalFault pl (t.gaddr x.ins true) n false
    match x.firstFault s fault with
    | some (l, k) => faultOf s x l k
    | none =>
      let (s1, bad) := loadTries x n fails s
      match bad with
      | some f => faultAt (s1.memEventAt pl f) x fPoison
      | none =>
        let base := loadBase x n s1
        runLanes x s1 base (fun _ => none) fun s l t =>
          let (bs, s) := s.loadBytes pl (t.gaddr x.ins true) n
          s.modThread pl l fun _ =>
            (if n = 4 then t.put x.ins.dst (wordOf bs) else t.put2 x.ins.dst (wordOf (bs.take 4)) (wordOf (bs.drop 4))).step

/-- LD: 4 B at the global address. -/
def execLd (pl : Place) (fails : Fails) (s : State) : Result := loadOp 0 4 fails pl s

/-- LD64: 8 B into DST and DST + 1. -/
def execLd64 (pl : Place) (fails : Fails) (s : State) : Result := loadOp 1 8 fails pl s

/-! ## Stores -/

/-- Bytes a lane stores. -/
def storeData (i : Ins) (n : Nat) (t : Thread) : List Byte :=
  if n = 4 then leBytes 4 (t.b i).toNat else leBytes 4 (t.reg i.sb).toNat ++ leBytes 4 (t.reg (i.sb + 1)).toNat

/-- One lane's store through the home bank, with its failed tries. Whether memory has taken a store that failed finally is
open (log 73). -/
def storeLane (x : Iss) (n : Nat) (fails : Fails) (s : State) (l : Nat) : State :=
  match s.thread? x.pl l, s.laneAddr x n true l with
  | some t, some (a, p) =>
    let old := s.readSys a n
    let s := (s.tried a p (t.gaddr x.ins true) (triesOf fails l)).homeWrite a (storeData x.ins n t)
    if (finalFail (triesOf fails l)).isNone then s
    else
      let (lands, s) := s.freshBool
      if lands then s else { s with mem := s.mem.writeN a old }
  | _, _ => s

/-- The stores of every active lane, in ascending lane, through the home bank (R330). -/
def storeBase (x : Iss) (n : Nat) (fails : Fails) (s : State) : State := (x.active s).foldl (storeLane x n fails) s

/-- ST and ST64. `fails` are the failed tries of a lane's write. -/
def storeOp (op n : Nat) (u : Uses) (fails : Fails) (pl : Place) (s : State) : Result :=
  issue 2 op u pl s fun x s =>
    match x.firstFault s fun t => s.globalFault pl (t.gaddr x.ins true) n true with
    | some (l, k) => faultOf s x l k
    | none =>
      runLanes x s (storeBase x n fails s) (fun _ => none) fun s l t =>
        let s := match s.laneAddr x n true l with
          | some (a, p) => (s.storeCached pl.slice p a (storeData x.ins n t)).act 7 1
          | none => s
        s.modThread pl l Thread.step

/-- ST: 4 B of B at the global address. -/
def execSt (x : Tried Place Fails) (s : State) : Result := storeOp 2 4 { a := 2, b := 1 } x.fails x.it s

/-- ST64: 8 B of the pair B, B + 1. -/
def execSt64 (x : Tried Place Fails) (s : State) : Result := storeOp 3 8 { a := 2, b := 2 } x.fails x.it s

/-! ## Local store -/

/-- A local address: A plus the immediate. -/
def Thread.laddr (t : Thread) (i : Ins) : Nat := (t.a i + i.imm32).toNat

/-- LDS: 4 B of local store. -/
def execLds (pl : Place) (s : State) : Result :=
  issue 2 4 { d := 1, a := 1 } pl s fun x s =>
    runLanes x s s (fun t => s.localFault pl (t.laddr x.ins) 4) fun s l t =>
      let bs := s.localRead pl (t.laddr x.ins) 4
      s.modThread pl l fun _ => (t.put x.ins.dst (wordOf bs)).step

/-- STS: 4 B of B. -/
def execSts (pl : Place) (s : State) : Result :=
  issue 2 5 { a := 1, b := 1 } pl s fun x s =>
    runLanes x s s (fun t => s.localFault pl (t.laddr x.ins) 4) fun s l t =>
      (s.localWrite pl (t.laddr x.ins) (leBytes 4 (t.b x.ins).toNat)).modThread pl l Thread.step

/-! ## Atomics (R192, R331) -/

/-- Registers of an atomic: CAS takes C too. -/
def atomBad (k : KDesc) (i : Ins) : Bool := decide (9 < i.imm % 16) || (i.imm % 16 == 9 && !regOk k.nreg i.sc 1)

/-- Perform an atomic on a line a cluster's L1 owns for the request's partition (R328): the old word and the line changed; the
hit moves the tree bits (R329). -/
def State.atomAt (s : State) (m : Nat) (r : AtomReq) : Option (Word × State) :=
  let c := s.cluster m
  match c.l1.lines.find? fun l => l.line == lineOf r.addr && l.part == r.part && l.owned with
  | none => none
  | some l =>
    let old := wordOf ((l.data.drop (r.addr % 64)).take 4)
    let new := atomW r.op old r.b r.c
    let data := overlay l.line l.data r.addr (leBytes 4 new.toNat)
    let mine := fun (x : CLine) => x.line == l.line && x.part == l.part && x.owned
    some (old, s.setCluster m { c with l1 := { c.l1 with
      lines := modFirst mine (fun x => { x with data := data }) c.l1.lines }.touch geomL1 s.build.plru l.line l.way })

/-- ATOM: at the cluster's L1 when it owns the line; else the lane waits for the grant. -/
def execAtom (pl : Place) (s : State) : Result :=
  issue 2 6 { d := 1, a := 2, b := 1, bImm := false } pl s fun x s =>
    if atomBad x.k x.ins then faultAt s x fIllegal
    else runLanes x s s (fun t => s.globalFault pl (t.gaddr x.ins false) 4 true) fun s l t =>
      match s.kaddr pl (t.gaddr x.ins false) 4 true, s.ctx? pl.slice pl.slot with
      | some a, some c =>
        let r : AtomReq := { addr := a, paddr := t.gaddr x.ins false, part := c.part, op := x.ins.imm % 16, b := t.reg x.ins.sb, c := t.c x.ins, dst := x.ins.dst }
        match s.atomAt (clusterOf pl.slice) r with
        | some (old, s) => s.modThread pl l fun _ => (t.put x.ins.dst old).step
        | none => s.modThread pl l fun t => { t with wait := .atomic r }
      | _, _ => s

/-- ATOMS: on local store; lanes in ascending order. -/
def execAtoms (pl : Place) (s : State) : Result :=
  issue 2 7 { d := 1, a := 1, b := 1, bImm := false } pl s fun x s =>
    if atomBad x.k x.ins then faultAt s x fIllegal
    else runLanes x s s (fun t => s.localFault pl (t.a x.ins).toNat 4) fun s l t =>
      let a := (t.a x.ins).toNat
      let bs := s.localRead pl a 4
      let old := wordOf bs
      let new := atomW (x.ins.imm % 16) old (t.reg x.ins.sb) (t.c x.ins)
      (s.localWrite pl a (leBytes 4 new.toNat)).modThread pl l fun _ => (t.put x.ins.dst old).step

/-- FENCE: accesses stand in order already; the data-cache view of the core is dropped. -/
def execFence (pl : Place) (s : State) : Result :=
  issue 2 8 {} pl s fun x s => runLanes x s s (fun _ => none) fun s l _ =>
    (s.modSlice pl.slice fun v => { v with dcache := { v.dcache with lines := [] } }).modThread pl l Thread.step

/-! ## LDLINE (R196) -/

/-- What the image line of a lane's query gives: the word, a wait, an epoch's end, or a window miss. A line at or beyond LINE_COUNT is
read like another; R40 calls its index invalid and the manual does not say what follows (DESIGN CHOICE, log 20). -/
def State.lineFor (s : State) (pl : Place) (t : Thread) (line : Nat) : Option (Query × LineJudge × State) :=
  (t.query.bind s.query?).map fun q => let (j, s) := s.readImg q pl.slice line; (q, j, s)

/-- LDLINE: 4 B at byte IMM[5:0] of image line A; bytes beyond the line are open (log 20); a lane without a query reads 0. -/
def execLdline (pl : Place) (s : State) : Result :=
  issue 2 9 { d := 1, a := 1 } pl s fun x s =>
    let miss := fun (t : Thread) =>
      match s.lineFor pl t (t.a x.ins).toNat with
      | some (_, .miss, _) => some fWindow
      | _ => none
    runLanes x s s miss fun s l t =>
      let line := (t.a x.ins).toNat
      let b := x.ins.imm % 64
      match s.lineFor pl t line with
      | none => s.modThread pl l fun _ => (t.put x.ins.dst 0).step
      | some (_, .ok ls, s) =>
        s.modThread pl l fun _ => (t.put x.ins.dst (lineWord (ls.headD []) b)).step
      | some (_, .older k, s) => s.modThread pl l fun t => { t with wait := .line k x.ins.dst b s.elapsed s.elapsed }
      | some (q, .newer k tag, s) =>
        ((s.modThread pl l fun t => { t with exited := true }).epochEvent q.cluster q.part k q.handle.epoch (some tag)).failQuery
          q.uid stEpochRetired
      | some (_, .miss, s) => s

end Sys2Proof.Machine
end

