-- ==== Sys2Proof/Machine/Crypto.lean ====
section
/-! DEFINITION. The published algorithms the manual names: CRC-16 and CRC-32 (R279, R384), SHA-384 and ECDSA P-384 (R383),
HMAC and the counter-mode KDF (R401), AES-256-GCM (R400). Their constants and steps are those of FIPS 180-4, FIPS 186-5,
FIPS 197, FIPS 198-1, SP 800-38D and SP 800-108 (PRESUMED, log 25). -/

namespace Sys2Proof.Machine

open Sys2Proof

/-! ## Checksums -/

/-- One byte of CRC-16 with polynomial 0x1021, most significant bit first. -/
def crc16Byte (c : Nat) (b : Byte) : Nat :=
  (List.range 8).foldl (fun c _ => if bitAt c 15 then (c * 2 % 65536) ^^^ 0x1021 else c * 2 % 65536) (c ^^^ (b.toNat * 256))

/-- CRC-16 of R279. -/
def crc16 (bs : List Byte) : Nat := bs.foldl crc16Byte 0xFFFF

/-- One byte of CRC-32, reflected. -/
def crc32Byte (c : Nat) (b : Byte) : Nat :=
  (List.range 8).foldl (fun c _ => if bitAt c 0 then (c / 2) ^^^ 0xEDB88320 else c / 2) (c ^^^ b.toNat)

/-- CRC-32 of R384. -/
def crc32 (bs : List Byte) : Nat := (bs.foldl crc32Byte 0xFFFFFFFF) ^^^ 0xFFFFFFFF

/-! ## SHA-384 -/

def shaKA : List Nat :=
  [0x428A2F98D728AE22, 0x7137449123EF65CD, 0xB5C0FBCFEC4D3B2F, 0xE9B5DBA58189DBBC,
   0x3956C25BF348B538, 0x59F111F1B605D019, 0x923F82A4AF194F9B, 0xAB1C5ED5DA6D8118,
   0xD807AA98A3030242, 0x12835B0145706FBE, 0x243185BE4EE4B28C, 0x550C7DC3D5FFB4E2,
   0x72BE5D74F27B896F, 0x80DEB1FE3B1696B1, 0x9BDC06A725C71235, 0xC19BF174CF692694]

def shaKB : List Nat :=
  [0xE49B69C19EF14AD2, 0xEFBE4786384F25E3, 0x0FC19DC68B8CD5B5, 0x240CA1CC77AC9C65,
   0x2DE92C6F592B0275, 0x4A7484AA6EA6E483, 0x5CB0A9DCBD41FBD4, 0x76F988DA831153B5,
   0x983E5152EE66DFAB, 0xA831C66D2DB43210, 0xB00327C898FB213F, 0xBF597FC7BEEF0EE4,
   0xC6E00BF33DA88FC2, 0xD5A79147930AA725, 0x06CA6351E003826F, 0x142929670A0E6E70]

def shaKC : List Nat :=
  [0x27B70A8546D22FFC, 0x2E1B21385C26C926, 0x4D2C6DFC5AC42AED, 0x53380D139D95B3DF,
   0x650A73548BAF63DE, 0x766A0ABB3C77B2A8, 0x81C2C92E47EDAEE6, 0x92722C851482353B,
   0xA2BFE8A14CF10364, 0xA81A664BBC423001, 0xC24B8B70D0F89791, 0xC76C51A30654BE30,
   0xD192E819D6EF5218, 0xD69906245565A910, 0xF40E35855771202A, 0x106AA07032BBD1B8]

def shaKD : List Nat :=
  [0x19A4C116B8D2D0C8, 0x1E376C085141AB53, 0x2748774CDF8EEB99, 0x34B0BCB5E19B48A8,
   0x391C0CB3C5C95A63, 0x4ED8AA4AE3418ACB, 0x5B9CCA4F7763E373, 0x682E6FF3D6B2B8A3,
   0x748F82EE5DEFB2FC, 0x78A5636F43172F60, 0x84C87814A1F0AB72, 0x8CC702081A6439EC,
   0x90BEFFFA23631E28, 0xA4506CEBDE82BDE9, 0xBEF9A3F7B2C67915, 0xC67178F2E372532B]

def shaKE : List Nat :=
  [0xCA273ECEEA26619C, 0xD186B8C721C0C207, 0xEADA7DD6CDE0EB1E, 0xF57D4F7FEE6ED178,
   0x06F067AA72176FBA, 0x0A637DC5A2C898A6, 0x113F9804BEF90DAE, 0x1B710B35131C471B,
   0x28DB77F523047D84, 0x32CAAB7B40C72493, 0x3C9EBE0A15C9BEBC, 0x431D67C49C100D4C,
   0x4CC5D4BECB3E42B6, 0x597F299CFC657E2A, 0x5FCB6FAB3AD6FAEC, 0x6C44198C4A475817]

/-- The round constants. -/
def shaK : List Nat := shaKA ++ shaKB ++ shaKC ++ shaKD ++ shaKE

/-- The initial hash value of SHA-384. -/
def shaInit : List (BitVec 64) :=
  [0xCBBB9D5DC1059ED8, 0x629A292A367CD507, 0x9159015A3070DD17, 0x152FECD8F70E5939,
   0x67332667FFC00B31, 0x8EB44A8768581511, 0xDB0C2E0D64F98FA7, 0x47B5481DBEFA4FA4]

/-- The message schedule, newest word first. -/
def shaSchedule : Nat → List (BitVec 64) → List (BitVec 64)
  | 0, w => w
  | n + 1, w =>
    let x := w.getD 14 0
    let y := w.getD 1 0
    let s0 := x.rotateRight 1 ^^^ x.rotateRight 8 ^^^ (x >>> 7)
    let s1 := y.rotateRight 19 ^^^ y.rotateRight 61 ^^^ (y >>> 6)
    shaSchedule n ((w.getD 15 0 + s0 + w.getD 6 0 + s1) :: w)

/-- The eight working variables. -/
structure ShaVars where
  a : BitVec 64
  b : BitVec 64
  c : BitVec 64
  d : BitVec 64
  e : BitVec 64
  f : BitVec 64
  g : BitVec 64
  h : BitVec 64

def shaRound (v : ShaVars) (k w : BitVec 64) : ShaVars :=
  let t1 := v.h + (v.e.rotateRight 14 ^^^ v.e.rotateRight 18 ^^^ v.e.rotateRight 41) + ((v.e &&& v.f) ^^^ (~~~v.e &&& v.g)) + k + w
  let t2 := (v.a.rotateRight 28 ^^^ v.a.rotateRight 34 ^^^ v.a.rotateRight 39) +
    ((v.a &&& v.b) ^^^ (v.a &&& v.c) ^^^ (v.b &&& v.c))
  ⟨t1 + t2, v.a, v.b, v.c, v.d + t1, v.e, v.f, v.g⟩

/-- One block of 128 bytes. -/
def shaBlock (h : List (BitVec 64)) (block : List Byte) : List (BitVec 64) :=
  let w0 := (chunks 8 16 block).map fun c => BitVec.ofNat 64 (beNat c)
  let w := (shaSchedule 64 w0.reverse).reverse
  let v0 : ShaVars := ⟨h.getD 0 0, h.getD 1 0, h.getD 2 0, h.getD 3 0, h.getD 4 0, h.getD 5 0, h.getD 6 0, h.getD 7 0⟩
  let v := (List.zip shaK w).foldl (fun v x => shaRound v (BitVec.ofNat 64 x.1) x.2) v0
  List.zipWith (· + ·) h [v.a, v.b, v.c, v.d, v.e, v.f, v.g, v.h]

/-- A message with its padding. -/
def shaPad (m : List Byte) : List Byte :=
  m ++ [0x80] ++ List.replicate ((239 - m.length % 128) % 128) 0 ++ beBytes 16 (8 * m.length)

/-- SHA-384, 48 bytes. -/
def sha384 (m : List Byte) : List Byte :=
  let p := shaPad m
  (((chunks 128 (p.length / 128) p).foldl shaBlock shaInit).take 6).flatMap fun x => beBytes 8 x.toNat

/-! ## HMAC and the key derivation of R401 -/

/-- HMAC-SHA-384. -/
def hmac384 (key m : List Byte) : List Byte :=
  let k := padTo 128 (if 128 < key.length then sha384 key else key)
  let x := fun (v : Byte) => k.map fun b => b ^^^ v
  sha384 (x 0x5C ++ sha384 (x 0x36 ++ m))

/-- ASCII bytes of a label. -/
def ascii (t : String) : List Byte := t.toList.map fun c => BitVec.ofNat 8 c.toNat

/-- KDF of R401: 32 bytes. -/
def kdf (key : List Byte) (label : String) (context : List Byte) : List Byte :=
  (hmac384 key (beBytes 4 1 ++ ascii label ++ [0] ++ context ++ beBytes 4 256)).take 32

/-! ## AES-256 -/

/-- Product in GF(2^8). -/
def gf8Mul (a b : Nat) : Nat :=
  ((List.range 8).foldl (fun (acc : Nat × Nat) i =>
    (if bitAt b i then acc.1 ^^^ acc.2 else acc.1, if bitAt acc.2 7 then (acc.2 * 2 % 256) ^^^ 0x1B else acc.2 * 2))
    (0, a)).1

/-- The S-box: inverse, as the 254th power, then the affine map. -/
def aesSub (x : Nat) : Nat :=
  let x2 := gf8Mul x x
  let x4 := gf8Mul x2 x2
  let x8 := gf8Mul x4 x4
  let x16 := gf8Mul x8 x8
  let x32 := gf8Mul x16 x16
  let x64 := gf8Mul x32 x32
  let x128 := gf8Mul x64 x64
  let i := gf8Mul (gf8Mul (gf8Mul x2 x4) (gf8Mul x8 x16)) (gf8Mul (gf8Mul x32 x64) x128)
  let rot := fun (n : Nat) => (i * 2 ^ n) % 256 + i / 2 ^ (8 - n)
  i ^^^ rot 1 ^^^ rot 2 ^^^ rot 3 ^^^ rot 4 ^^^ 0x63

/-- The S-box as a table, computed once a key schedule. -/
def aesTable : List Nat := (List.range 256).map aesSub

/-- The expanded key: words of four bytes, newest first. -/
def aesExpand (sb : List Nat) : Nat → Nat → List (List Nat) → List (List Nat)
  | 0, _, w => w
  | n + 1, i, w =>
    let t := w.headD []
    let sub := fun (l : List Nat) => l.map fun b => sb.getD b 0
    let rcon := (List.range (i / 8 - 1)).foldl (fun r _ => gf8Mul r 2) 1
    let t := if i % 8 = 0 then
        (match sub (t.drop 1 ++ t.take 1) with | b :: rest => (b ^^^ rcon) :: rest | [] => [])
      else if i % 8 = 4 then sub t else t
    aesExpand sb n (i + 1) (List.zipWith (· ^^^ ·) (w.getD 7 []) t :: w)

/-- The round keys, 15 of 16 bytes. -/
def aesKeys (sb : List Nat) (key : List Byte) : List (List Nat) :=
  let w0 := chunks 4 8 (key.map (·.toNat))
  let w := (aesExpand sb 52 8 w0.reverse).reverse
  (chunks 4 15 w).map List.flatten

/-- ShiftRows of a state in column order. -/
def aesShift (s : List Nat) : List Nat :=
  (List.range 16).map fun i => s.getD ((i + 4 * (i % 4)) % 16) 0

/-- MixColumns of one column. -/
def aesMix : List Nat → List Nat
  | [a, b, c, d] =>
    [gf8Mul 2 a ^^^ gf8Mul 3 b ^^^ c ^^^ d, a ^^^ gf8Mul 2 b ^^^ gf8Mul 3 c ^^^ d,
     a ^^^ b ^^^ gf8Mul 2 c ^^^ gf8Mul 3 d, gf8Mul 3 a ^^^ b ^^^ c ^^^ gf8Mul 2 d]
  | l => l

/-- One block under expanded keys. -/
def aesBlock (sb : List Nat) (keys : List (List Nat)) (b : List Byte) : List Byte :=
  let add := fun (s k : List Nat) => List.zipWith (· ^^^ ·) s k
  let sub := fun (s : List Nat) => aesShift (s.map fun x => sb.getD x 0)
  let s := add (b.map (·.toNat)) (keys.getD 0 [])
  let s := (List.range 13).foldl (fun s r => add ((chunks 4 4 (sub s)).map aesMix).flatten (keys.getD (r + 1) [])) s
  (add (sub s) (keys.getD 14 [])).map (BitVec.ofNat 8)

/-! ## GCM with a zero IV (R400) -/

/-- Product in GF(2^128), GCM's bit order. -/
def ghashMul (x y : Nat) : Nat :=
  ((List.range 128).foldl (fun (acc : Nat × Nat) i =>
    (if bitAt x (127 - i) then acc.1 ^^^ acc.2 else acc.1,
     if bitAt acc.2 0 then (acc.2 / 2) ^^^ (0xE1 * 2 ^ 120) else acc.2 / 2)) (0, y)).1

/-- GHASH over data in blocks, each part padded with zeros. -/
def ghash (h : Nat) (aad ct : List Byte) : Nat :=
  let blocks := fun (l : List Byte) => (chunks 16 (l.length / 16 + 1) l).map fun c => beNat (padTo 16 c)
  (blocks aad ++ blocks ct ++ [8 * aad.length * 2 ^ 64 + 8 * ct.length]).foldl (fun y b => ghashMul (y ^^^ b) h) 0

/-- Decrypt a segment; `none` where the tag does not verify. -/
def gcmOpen (key aad ct tag : List Byte) : Option (List Byte) :=
  let sb := aesTable
  let keys := aesKeys sb key
  let e := fun (n : Nat) => aesBlock sb keys (beBytes 16 n)
  let h := beNat (e 0)
  let t := List.zipWith (· ^^^ ·) (beBytes 16 (ghash h aad ct)) (e 1)
  if t = tag then
    some (((chunks 16 (ct.length / 16 + 1) ct).mapIdx fun i c => List.zipWith (· ^^^ ·) c (e (i + 2))).flatten)
  else none

/-! ## ECDSA P-384 -/

def p384P : Nat := 2 ^ 384 - 2 ^ 128 - 2 ^ 96 + 2 ^ 32 - 1
def p384N : Nat := 0xFFFFFFFFFFFFFFFFFFFFFFFFFFFFFFFFFFFFFFFFFFFFFFFFC7634D81F4372DDF581A0DB248B0A77AECEC196ACCC52973
def p384B : Nat := 0xB3312FA7E23EE7E4988E056BE3F82D19181D9C6EFE8141120314088F5013875AC656398D8A2ED19D2A85C8EDD3EC2AEF
def p384Gx : Nat := 0xAA87CA22BE8B05378EB1C71EF320AD746E1D3B628BA79B9859F741E082542A385502F25DBF55296C3A545E3872760AB7
def p384Gy : Nat := 0x3617DE4A96262C6F5D9E98BF9292DC29F8F41DBD289A147CE9DA3113B5F0B8C00A60B1CE1D7E819D7A431D7C90EA0E5F

/-- x to the power e modulo m, by squaring over the bits of e. -/
def powMod (m : Nat) : Nat → Nat → Nat → Nat
  | 0, _, _ => 1
  | f + 1, x, e =>
    if e = 0 then 1
    else
      let r := powMod m f (x * x % m) (e / 2)
      if e % 2 = 1 then r * x % m else r

/-- The inverse modulo a prime of 384 bits. -/
def invMod (m x : Nat) : Nat := powMod m 385 (x % m) (m - 2)

/-- A point of the curve in Jacobian coordinates: x is X / Z², y is Y / Z³; Z of 0 is the point at infinity. -/
abbrev Pt := Nat × Nat × Nat

/-- Difference modulo p. -/
def subP (a b : Nat) : Nat := (a + p384P - b % p384P) % p384P

/-- Twice a point, the curve's a being -3. -/
def ptDouble (p : Pt) : Pt :=
  let (x, y, z) := p
  let d := z * z % p384P
  let g := y * y % p384P
  let b := x * g % p384P
  let l := 3 * subP x d * (x + d) % p384P
  let x3 := subP (l * l) (8 * b)
  (x3, subP (l * subP (4 * b) x3) (8 * g * g), 2 * y * z % p384P)

/-- The sum of two points. -/
def ptAdd (p q : Pt) : Pt :=
  let (x1, y1, z1) := p
  let (x2, y2, z2) := q
  if z1 = 0 then q
  else if z2 = 0 then p
  else
    let u1 := x1 * z2 * z2 % p384P
    let s1 := y1 * z2 * z2 * z2 % p384P
    let h := subP (x2 * z1 * z1) u1
    let r := subP (y2 * z1 * z1 * z1) s1
    if h = 0 then (if r = 0 then ptDouble p else (1, 1, 0))
    else
      let v := u1 * h * h % p384P
      let x3 := subP (subP (r * r) (h * h * h)) (2 * v)
      (x3, subP (r * subP v x3) (s1 * h * h * h), h * z1 * z2 % p384P)

/-- A multiple of a point. -/
def ptMul : Nat → Nat → Pt → Pt
  | 0, _, _ => (1, 1, 0)
  | f + 1, k, p =>
    if k = 0 then (1, 1, 0)
    else
      let r := ptMul f (k / 2) (ptDouble p)
      if k % 2 = 1 then ptAdd r p else r

/-- The coordinates lie on the curve. -/
def onCurve (x y : Nat) : Bool :=
  decide (x < p384P) && decide (y < p384P) && decide (y * y % p384P = (x * x * x + (p384P - 3) * x + p384B) % p384P)

/-- ECDSA P-384 with SHA-384 over a message: key x and y, signature r and s, 48 bytes big-endian each (R379, R383). -/
def ecdsaOk (pub sig m : List Byte) : Bool :=
  let x := beNat (pub.take 48)
  let y := beNat ((pub.drop 48).take 48)
  let r := beNat (sig.take 48)
  let v := beNat ((sig.drop 48).take 48)
  if onCurve x y && decide (0 < r) && decide (r < p384N) && decide (0 < v) && decide (v < p384N) then
    let w := invMod p384N v
    let e := beNat (sha384 m)
    let (a, _, z) := ptAdd (ptMul 385 (e * w % p384N) (p384Gx, p384Gy, 1)) (ptMul 385 (r * w % p384N) (x, y, 1))
    z != 0 && a * invMod p384P (z * z) % p384P % p384N == r
  else false

end Sys2Proof.Machine
end

