-- ==== Sys2Proof/Machine/IsaEvt.lean ====
section
/-! DEFINITION. The EVT and QRY classes of Table 7.4: signals, events, barriers, GETWORK, gates, and the queries a kernel
serves (R194, R198, R199, R206 to R208, R215). -/

namespace Sys2Proof.Machine

open Sys2Proof

/-! ## Signals and events -/

/-- SIGNAL: bits B on their way to signal address A (R207). -/
def execSignal (pl : Place) (s : State) : Result :=
  issue 5 0 { a := 1, b := 1 } pl s fun x s => runLanes x s s (fun _ => none) fun s l t =>
    let part := match s.ctx? pl.slice pl.slot with | some c => c.part | none => 0
    let sig : Sig := { fromPart := part, fromCluster := clusterOf pl.slice, addr := t.a x.ins, bits := t.b x.ins }
    { s with signals := s.signals ++ [sig] }.modThread pl l Thread.step

/-- Release the groups of a context whose masks its event word satisfies, lowest group first (R208). -/
def releaseEvents : Nat → List Group → Word → List Group × Word
  | _, [], ev => ([], ev)
  | k, g :: rest, ev =>
    let mask := g.threads.findSome? fun t => match t.wait with | .event m => if t.exited then none else some m | _ => none
    match mask with
    | some m =>
      if ev &&& m = m then
        let go := fun (t : Thread) => match t.wait with | .event _ => { t with wait := .run, pc := t.pc + 1 } | _ => t
        let (rest, ev) := releaseEvents (k + 1) rest (ev &&& ~~~m)
        ({ g with threads := g.threads.map go } :: rest, ev)
      else
        let (rest, ev) := releaseEvents (k + 1) rest ev
        (g :: rest, ev)
    | none =>
      let (rest, ev) := releaseEvents (k + 1) rest ev
      (g :: rest, ev)

/-- Test the waiting groups of a context against its event word. -/
def Ctx.testEvents (c : Ctx) : Ctx :=
  let (gs, ev) := releaseEvents 0 c.groups c.ev
  { c with groups := gs, ev := ev }

/-- WAITEV: the group blocks until the event word holds every bit of mask B of the lowest live lane (R208). -/
def execWaitev (pl : Place) (s : State) : Result :=
  issue 5 1 { b := 1 } pl s fun x s => runGroup x s false fun _ s =>
    let mask := match s.lowLane pl with | some t => t.b x.ins | none => 0
    let s1 := s.modLanes pl x.lanes fun t => { t with wait := .event mask }
    finish s pl (s1.modCtx pl.slice pl.slot Ctx.testEvents)

/-- BAR: waits for every live group of the context (R199). -/
def execBar (pl : Place) (s : State) : Result :=
  issue 5 2 {} pl s fun x s => runGroup x s false fun _ s =>
    finish s pl (s.modLanes pl x.lanes fun t => { t with wait := .barrier })

/-- Let every query of a deposit look at its gate word again (R208, R212). -/
def State.gateChanged (s : State) (dep : Nat) : State :=
  ((s.queries.filter (·.dep == dep)).map (·.uid)).foldl State.advance s

/-- GATE: bits A[15:0] of the deposit's gate word (R208). -/
def execGate (pl : Place) (s : State) : Result :=
  issue 5 4 { a := 1 } pl s fun x s => runLanes x s s (fun _ => none) fun s l t =>
    let dep := match s.ctx? pl.slice pl.slot with | some c => c.dep | none => 0
    let s := s.modThread pl l Thread.step
    ((s.modDep dep fun d => { d with gate := d.gate ||| (t.a x.ins).setWidth 16 }).gateChanged dep).refreshBp

/-! ## GETWORK (R215) -/

/-- A query of the deposit may still come to the node, or be created (R215). -/
def State.moreWork (s : State) (dep run j : Nat) : Bool :=
  (match s.dep? dep with | some d => d.step == .reading && decide (d.nextIdx < d.qcount) | none => false) ||
    s.queries.any fun q =>
      let gr := s.graphOf q
      let emits := fun k => bitAt ((s.part q.part).kernel (gr.node k).kernel).flags.toNat 2 && !q.bits.getLsbD k
      q.dep == dep && q.run == run && q.pin.isNone &&
        ((!q.bits.getLsbD j && !s.taken q.uid j) || !q.staged.isEmpty || (gr.indices (· == opKernel)).any emits)

/-- A thread gives its query back: the node completes for it, or its walk goes on. -/
def State.leaveQuery (s : State) (x : Ctx) (u : Nat) : State :=
  if x.node = 255 then s.leafDone u else s.completeNodes u (BitVec.ofNat 16 (2 ^ x.node))

/-- One thread's GETWORK: it takes a query, ends empty-handed, or blocks. -/
def State.getWork (s : State) (pl : Place) (l pred : Nat) : State :=
  match s.ctx? pl.slice pl.slot with
  | none => s
  | some x =>
    match (if x.node = 255 then [] else s.readyAtNode x.dep x.run x.node).head? with
    | some q =>
      s.modThread pl l fun t =>
        ({ t with query := some q.uid, qid := q.qid, bounce := q.bounce, wait := .run }.setPred pred true).step
    | none =>
      if x.node != 255 && s.moreWork x.dep x.run x.node then
        s.modThread pl l fun t => { t with query := none, wait := .work pred }
      else s.modThread pl l fun t => ({ t with query := none, wait := .run }.setPred pred false).step

/-- The waiting threads of a group try again. -/
def State.retryWork (s : State) (pl : Place) : State :=
  match s.group? pl with
  | none => s
  | some g =>
    (List.range g.threads.length).foldl (fun s l =>
      match s.thread? pl l with
      | some t => match t.wait with | .work p => if t.exited then s else s.getWork pl l p | _ => s
      | none => s) s

/-- The group has threads blocked in GETWORK. -/
def State.worksWait (s : State) (pl : Place) : Bool :=
  match s.group? pl with
  | some g => g.threads.any fun t => !t.exited && (match t.wait with | .work _ => true | _ => false)
  | none => false

/-- GETWORK: legal with KFLAGS.PERSIST. Blocked threads of the group are answered when the command comes again (log 22). -/
def execGetwork (pl : Place) (s : State) : Result :=
  if s.worksWait pl then
    onUnit (decide (pl.slice < s.nslices))
      (whenDue s (s.coreRuns pl.slice && !(s.ctx? pl.slice pl.slot).any fun c => s.bordered c.part) (finish s pl (s.retryWork pl).refreshBp))
  else
    issue 5 3 {} pl s fun x s =>
      if !bitAt x.k.flags.toNat 1 then faultAt s x fIllegal
      else runGroup x s false fun act s =>
        match s.ctx? pl.slice pl.slot with
        | none => .next s
        | some c =>
          let pred := x.ins.dst % 8
          let s1 := s.modLanes pl (x.lanes.filter fun l => !act.contains l) Thread.step
          let left := act.filterMap fun l => (s.thread? pl l).bind (·.query)
          let s2 := s1.modLanes pl act fun t => { t with query := none }
          let s3 := left.foldl (fun s u => s.leaveQuery c u) s2
          finish s pl (act.foldl (fun s l => s.getWork pl l pred) s3).refreshBp

/-! ## Queries from kernels (R194) -/

/-- The query a thread serves. -/
def State.served (s : State) (t : Thread) : Option Query := t.query.bind s.query?

/-- A query instruction that returns a word; without a query it returns 0. The word may be open. -/
def qryRead (op : Nat) (u : Uses) (f : Ins → Thread → Query → Option Word) (pl : Place) (s : State) : Result :=
  issue 6 op u pl s fun x s => runLanes x s s (fun _ => none) fun s l t =>
    let w := openOr (t.operands x.ins) (match s.served t with | some q => f x.ins t q | none => some 0)
    s.modThread pl l fun _ => (t.put x.ins.dst w).step

/-- A query instruction that changes the query; without a query it has no effect. -/
def qryWrite (op : Nat) (u : Uses) (f : Ins → Thread → Query → Query) (pl : Place) (s : State) : Result :=
  issue 6 op u pl s fun x s => runLanes x s s (fun _ => none) fun s l t =>
    let s := match s.served t with | some q => s.modQuery q.uid fun _ => f x.ins t q | none => s
    s.modThread pl l Thread.step

/-- LDQ: 4 B at offset IMM of bytes 0 to 47 of the query context; beyond them the value is open (log 20). -/
def execLdq (pl : Place) (s : State) : Result :=
  qryRead 0 { d := 1 } (fun i _ q => if i.imm + 4 ≤ 48 then some (BitVec.ofNat 32 (fieldAt q.bytes i.imm 4)) else none) pl s

/-- RNG: the next word of the random stream (R84). -/
def execRng (pl : Place) (s : State) : Result :=
  issue 6 1 { d := 1 } pl s fun x s => runLanes x s s (fun _ => none) fun s l t =>
    match s.served t with
    | some q =>
      (s.modQuery q.uid fun q => { q with rngWord := q.rngWord + 1 }).modThread pl l fun _ => (t.put x.ins.dst (s.rngWord q 0)).step
    | none => s.modThread pl l fun _ => (t.put x.ins.dst 0).step

/-- A candidate of a leaf kernel under R86, R87 and R115: the query after it, and whether it was accepted. -/
def candidate (g : Geo) (q : Query) (leaf : LeafInfo) (key x0 x1 x2 : Word) (ord : Nat) : Query × Bool :=
  let isRay := g.kind == .ray || g.kind == .segment
  let prim := leaf.prims.getD ord 0
  let rep : Option Word :=
    if isRay then
      match fpVal x0 with
      | some t =>
        let r := XR.max t (keyX key)
        if r != .pinf && XR.le g.tmin r && XR.le r g.tmax then some (fpWord r) else none
      | none => none
    else some x0
  match rep with
  | none => (q, false)
  | some x =>
    if g.excludes prim || (g.anyMode && !q.held.isEmpty) then (q, false)
    else
      let h : Held := { prim := prim, leaf := BitVec.ofNat 32 leaf.line, x0 := x, x1 := x1, x2 := x2, ord := BitVec.ofNat 8 ord, flags := 0 }
      let (q', ok) := offerHit g q h
      if ok && g.anyMode then ({ q' with stack := [], spilled := [] }, true) else (q', ok)

/-- HITACC: offers X0 in A, X1 and X2 in SC and SC + 1 for ordinal IMM[2:0]; p(DST[2:0]) tells whether it was accepted.
Outside a leaf kernel it offers nothing (log 20). -/
def execHitacc (pl : Place) (s : State) : Result :=
  issue 6 2 { a := 1, c := 2 } pl s fun x s => runLanes x s s (fun _ => none) fun s l t =>
    let leaf := (s.ctx? pl.slice pl.slot).bind (·.leaf)
    match s.served t, leaf with
    | some q, some f =>
      match q.geo with
      | some g =>
        let (q', ok) := candidate g q f t.key (t.a x.ins) (t.reg x.ins.sc) (t.reg (x.ins.sc + 1)) (x.ins.imm % 8)
        (s.modQuery q.uid fun _ => q').modThread pl l fun _ => (t.setPred (x.ins.dst % 8) ok).step
      | none => s.modThread pl l Thread.step
    | some _, none => s.modThread pl l fun _ => (t.setPred (x.ins.dst % 8) false).step
    | none, _ => s.modThread pl l Thread.step

/-- NRES: the number of held results. -/
def execNres (pl : Place) (s : State) : Result :=
  qryRead 3 { d := 1 } (fun _ _ q => some (BitVec.ofNat 32 q.held.length)) pl s

/-- LDRES: word IMM[2:0] of held result A in the layout of Table 3.7; no such result leaves the word open (log 20). -/
def execLdres (pl : Place) (s : State) : Result :=
  qryRead 4 { d := 1, a := 1 } (fun i t q =>
    let n := (t.a i).toNat
    (q.held[n]?).map fun h => BitVec.ofNat 32 (fieldAt (recordOf q.qid q.bounce n h) (4 * (i.imm % 8)) 4)) pl s

/-- Rewrite X field k of a held result. -/
def Held.setX (h : Held) (k : Nat) (v : Word) : Held :=
  match k with | 0 => { h with x0 := v } | 1 => { h with x1 := v } | _ => { h with x2 := v }

/-- WRX: X field IMM[1:0] of held result A takes B (R96); IMM[1:0] of 3 is reserved (log 20). -/
def execWrx (pl : Place) (s : State) : Result :=
  issue 6 5 { a := 1, b := 1 } pl s fun x s =>
    runLanes x s s (fun _ => if x.ins.imm % 4 = 3 then some fIllegal else none) fun s l t =>
      let s := match s.served t with
        | some q => s.modQuery q.uid fun q =>
            { q with held := q.held.modify (t.a x.ins).toNat fun h => h.setX (x.ins.imm % 4) (t.b x.ins) }
        | none => s
      s.modThread pl l Thread.step

/-- DROPRES: held result A goes; later indices fall by one. -/
def execDropres (pl : Place) (s : State) : Result :=
  qryWrite 6 { a := 1 } (fun i t q => { q with held := q.held.eraseIdx (t.a i).toNat }) pl s

/-- EMITQ: stages 48 B of local store at A; legal with KFLAGS.EMITS. A thread that serves no query reads nothing (R194). -/
def execEmitq (pl : Place) (s : State) : Result :=
  issue 6 7 { a := 1 } pl s fun x s =>
    if !bitAt x.k.flags.toNat 2 then faultAt s x fIllegal
    else runLanes x s s (fun t => if (s.served t).isSome then s.localFault pl (t.a x.ins).toNat 48 else none) fun s l t =>
      let bs := s.localRead pl (t.a x.ins).toNat 48
      let s := match s.served t with
        | some q => s.modQuery q.uid fun q => { q with staged := q.staged ++ [bs] }
        | none => s
      s.modThread pl l Thread.step

/-- SETRV: the reduce value takes A. -/
def execSetrv (pl : Place) (s : State) : Result :=
  qryWrite 8 { a := 1 } (fun i t q => { q with rv := t.a i }) pl s

end Sys2Proof.Machine
end

