-- ==== Sys2Proof/Machine/Tasks.lean ====
section
/-! DEFINITION. The task dispatcher: kernel launches, EMIT, REDUCE, DELIVER with its records and receipt, signals on their
way, deadlock kills (R92 to R101, R189, R190, R195, R206, R207, R210 to R219). -/

namespace Sys2Proof.Machine

open Sys2Proof

/-! ## Launching a context (R187, R189, R190, R214) -/

/-- Registers and bytes of local store a context takes (R190). -/
def KDesc.registers (k : KDesc) : Nat := ceilDiv k.nreg 8 * 8 * k.width * k.ngroups
def KDesc.localBytes (k : KDesc) : Nat := 256 * k.lsGroup * k.ngroups

/-- The kernel of a context. -/
def State.kernelOf (s : State) (c : Ctx) : KDesc := (s.part c.part).kernel c.kernel

/-- A core takes a context of a kernel into a slot (R189). -/
def State.coreTakes (s : State) (n slot : Nat) (k : KDesc) : Bool :=
  let cs := s.ctxs.filter (·.slice == n)
  let used := fun (f : KDesc → Nat) => (cs.map fun c => f (s.kernelOf c)).sum
  (s.slice n).st == .admitted && !s.gated n && decide ((s.slice n).splitReady ≤ s.wclk) && decide (slot < 16) && !(cs.any (·.slot == slot)) &&
    (cs.isEmpty || (s.slice n).lsplit == k.lsplit) &&
    decide (used KDesc.threads + k.threads ≤ 1024) && decide (used KDesc.registers + k.registers ≤ 32768) &&
    decide (used KDesc.localBytes + k.localBytes ≤ 32768 * k.lsplit)

/-- A core slot can take a task now: a KERNEL task, or a leaf batch's, of its slice set; an isolated partition's waits (R189, R195,
R309, R396, R408). -/
def State.mayTake (s : State) (core slot : Nat) (t : Task) : Bool :=
  (match t.kind with | .kernel => true | .leaf _ => true | _ => false) && decide (t.since ≤ s.wclk) &&
    !s.bordered t.part && s.sliceAllowed t.part t.run core && s.coreTakes core slot ((s.part t.part).kernel t.kernel)

/-- The ready tasks a core slot can take, in the order in which the dispatcher gives them (R33, R214). -/
def State.offered (s : State) (core slot : Nat) : List Task :=
  sortBy Task.before ((s.taskList (clusterOf core)).filter (s.mayTake core slot))

/-- A task about to be launched. -/
structure Launch where
  part : Nat
  dep : Nat
  run : Nat
  kernel : Nat
  node : Nat
  leaf : Option LeafInfo
  qs : List Query
  deriving DecidableEq, Repr

/-- Launch a context: everything reads 0, query i goes to thread i mod WIDTH of group i div WIDTH, the slot's generation
rises (R187, R206). A core that takes a new split drops its data cache and is away for 64 wclk (R189). -/
def State.launch (s : State) (core slot : Nat) (l : Launch) : State :=
  let k := (s.part l.part).kernel l.kernel
  let sl := s.slice core
  let gen : Byte := NMap.get 0 sl.gens slot + 1
  let sl := { sl with gens := NMap.put 0 sl.gens slot gen, busy := true }
  let sl := if sl.lsplit = k.lsplit then sl else { sl with lsplit := k.lsplit, splitReady := s.wclk + 64, dcache := {} }
  let thread := fun (i : Nat) =>
    match l.qs[i]? with
    | some q => ({ query := some q.uid, qid := q.qid, bounce := q.bounce, key := if l.leaf.isSome then q.next.key else 0 } : Thread)
    | none => {}
  let groups := (List.range k.ngroups).map fun g => ({ threads := (List.range k.width).map fun i => thread (g * k.width + i) } : Group)
  let c : Ctx := { slice := core, slot := slot, gen := gen, part := l.part, dep := l.dep, kernel := l.kernel, node := l.node,
                   leaf := l.leaf, batch := if l.leaf.isSome then l.qs.map (·.uid) else [], launch := s.nextLaunch,
                   nq := l.qs.length, groups := groups, localBytes := k.localBytes, run := l.run }
  { (s.setSlice core sl) with ctxs := s.ctxs ++ [c], nextLaunch := s.nextLaunch + 1 }

/-- A record run a kernel may read: every line KIND 0x20, LEAF_TYPE 9 (R72). -/
def kernelRun (ls : List (List Byte)) : Bool := ls.all fun l => byteAt l 0 == 0x20 && byteAt l 1 == 9

/-- Judge a query that reached a KERNEL leaf (R185, R72): what becomes of it, and its leaf where the kernel runs. -/
def State.judgeKernel (s : State) (n u : Nat) : State × Option Leaf :=
  match s.query? u with
  | none => (s, none)
  | some q =>
    if q.pin.isSome then (s.dropShadow q, none)
    else
      match s.lookLeaf q n with
      | (.leave j, s) => (s.leaveRead q j, none)
      | (.bad, s) => (s.failQuery u stBadImage, none)
      | (.leaf f, s) =>
        let k := (s.part q.part).kernel f.kernel
        if k.codeLen = 0 ∨ bitAt k.flags.toNat 2 then (s.failQuery u stBadImage, none)
        else
          match s.readRecords q n f with
          | none => (s.failQuery u stBadImage, none)
          | some (.ok ls, s) => if kernelRun ls then (s, some f) else (s.failQuery u stBadImage, none)
          | some (j, s) => (s.leaveRead q j, none)

/-- The members of a batch whose kernel runs, judged one by one. -/
def State.judgeAll (s : State) (n : Nat) : List Nat → State × List (Nat × Leaf)
  | [] => (s, [])
  | u :: rest =>
    let (s, f) := s.judgeKernel n u
    let (s, fs) := s.judgeAll n rest
    (s, match f with | some f => (u, f) :: fs | none => fs)

/-- The queries of one deposit and run among those judged, in the order of R92, up to a context's threads. -/
def State.leafTask (s : State) (good : List (Nat × Leaf)) (k : KDesc) : List Query :=
  let qs := good.filterMap fun x => s.query? x.1
  match qs with
  | [] => []
  | q :: _ => (byR92 (qs.filter fun x => x.dep == q.dep && x.run == q.run)).take k.threads

/-- A slice of a cluster a run may launch on. -/
def State.coreFor (s : State) (part run n core : Nat) : Bool := clusterOf core == clusterOf n && s.sliceAllowed part run core

/-- Launch a leaf kernel over what was judged good, when the core takes it. -/
def State.launchLeaf (s : State) (n core slot : Nat) (good : List (Nat × Leaf)) : Option State :=
  match good with
  | [] => none
  | (_, f) :: _ =>
    match good.findSome? fun x => s.query? x.1 with
    | none => none
    | some q0 =>
      let k := (s.part q0.part).kernel f.kernel
      let qs := s.leafTask good k
      let better := fun (t : Task) => match s.leafTaskAt n with | some mine => t.before mine | none => false
      if !s.bordered q0.part && s.coreFor q0.part q0.run n core && s.coreTakes core slot k && !((s.offered core slot).any better) then
        let info : LeafInfo := { line := f.addr, count := f.count, prims := f.prims, user := f.user, recBase := f.recBase,
                                 recLines := f.recLines }
        let us := qs.map (·.uid)
        let serve := fun (q : Query) =>
          { q with st := .leafKernel, undo := if q.visitor.isSome then some ⟨q.held, q.capped, q.rv, q.rngWord, q.staged⟩ else none }
        let s := us.foldl (fun (s : State) u => s.modQuery u fun q => (serve q).addVisit s.wclk ⟨f.addr, 0, core⟩) (s.takeMembers n us)
        some (s.launch core slot { part := q0.part, dep := q0.dep, run := q0.run, kernel := f.kernel, node := 255,
                                   leaf := some info, qs := qs })
      else none

/-- KERNEL_LEAF_LAUNCH (R195): the leaf batch at the head of a slice's queue gets a context for its KERNEL leaf. Members
that the leaf ends leave the batch. -/
def execKernelLeafLaunch (n core slot : Nat) (s : State) : Result :=
  onUnit (decide (n < s.nslices) && decide (core < s.nslices))
    (match s.headBatch n with
     | none => .next s
     | some b =>
       whenDue s (s.works n && b.key.cls == .leaf)
         (let (s1, good) := s.judgeAll n (b.members.filter fun u => s.unitOf n u == 2)
          let gone := b.members.filter fun u => s.unitOf n u == 2 && !good.any fun x => x.1 == u
          let s2 := s1.takeMembers n gone
          match s2.launchLeaf n core slot good with
          | some s3 => settle s (s3.beginNew (s3.newSince s.nextUid))
          | none => if gone.isEmpty then .next s else settle s (s2.beginNew (s2.newSince s.nextUid))))

/-- A KERNEL node of a deposit launches on a core of its home cluster when its task is the one the dispatcher gives that core slot
(R33, R214) and `due` holds of the queries the task covers. -/
def kernelTask (dep node core slot : Nat) (due : List Query → KDesc → Graph → Bool) (s : State) : Result :=
  onUnit (decide (core < s.nslices))
    (match s.dep? dep, (s.offered core slot).head? with
     | some d, some t =>
       let gr := (s.part d.part).graph d.graphId
       let k := (s.part t.part).kernel t.kernel
       let qs := s.readyAtNode dep t.run node
       let mine := (chunks (max 1 k.threads) qs.length qs).getD t.rank []
       whenDue s (s.isOpen && t.kind == .kernel && t.dep == dep && t.node == node && !mine.isEmpty && due mine k gr)
         (settle s (s.launch core slot { part := t.part, dep := dep, run := t.run, kernel := t.kernel, node := node, leaf := none,
                                         qs := mine }).refreshBp)
     | _, _ => .next s)

/-- KERNEL_TASK_LAUNCH (R214): the task is full. -/
def execKernelTaskLaunch (dep node core slot : Nat) (s : State) : Result :=
  kernelTask dep node core slot (fun qs k _ => decide (k.threads ≤ qs.length)) s

/-- GATHER_EXPIRY (R214): the task's oldest query has been ready for GATHER wclk. -/
def execGatherExpiry (dep node core slot : Nat) (s : State) : Result :=
  kernelTask dep node core slot (fun qs _ gr => qs.any fun q => decide (q.since node + gr.gather ≤ s.wclk)) s

/-! ## EMIT (R210) -/

/-- EMIT_TASK: the first ready EMIT node of a query creates what it has staged; a query whose nodes are all complete and
that waited for contexts tries again. -/
def execEmitTask (dep u : Nat) (s : State) : Result :=
  match s.query? u with
  | none => .next s
  | some q =>
    let gr := s.graphOf q
    let begin := fun (t : State) => settle s (t.beginNew (t.newSince s.nextUid))
    whenDue s (s.isOpen && q.dep == dep && q.pin.isNone && q.visitor.isNone)
      (if q.bits &&& gr.queryBits == gr.queryBits then begin (s.advance u)
       else
         match (gr.indices (· == opEmit)).find? fun j => nodeReady gr j q.bits (s.gateOf dep) with
         | none => .next s
         | some j =>
           if q.st != .tasks then .next s
           else
             match s.emitStaged u with
             | .wait => .next s
             | .limit => begin (s.failQuery u stEmitLimit)
             | .created t => begin (t.completeNodes u (BitVec.ofNat 16 (2 ^ j))))

/-! ## REDUCE (R213) -/

/-- Completed queries of a run in the order of R92. -/
def Dep.ordered (d : Dep) (run : Nat) : List Done :=
  let key := fun (x : Done) => (bitsAt x.qid.toNat 11 0, x.bounce, x.qid.toNat / 4096)
  sortBy (fun a b =>
    let (x, y, z) := key a
    let (u, v, w) := key b
    decide (x < u) || (x == u && (decide (y < v) || (y == v && decide (z < w))))) (d.done.filter (·.run == run))

/-- One step of Table 7.8 on the two accumulator words; the low word of a NaN pair is open. -/
def reduceStep (op : Nat) (v : Word) (acc : Word × Option Word) : Word × Option Word :=
  let (a, l) := acc
  match op with
  | 0 => (faddW a v, l)
  | 1 => ((fminW a v).getD fpNaN, l)
  | 2 => ((fmaxW a v).getD fpNaN, l)
  | 3 => (BitVec.ofInt 32 (max (-(2 ^ 31)) (min (2 ^ 31 - 1) (a.toInt + v.toInt))), l)
  | 4 => (a + v, l)
  | 5 => fvPair (fvAdd (fvAdd (fpVal a) (l.bind fpVal)) (fpVal v))
  | _ => (a + (if v = 0 then 0 else 1), l)

/-- The start of Table 7.8. -/
def reduceStart (op : Nat) : Word × Option Word :=
  (match op with | 1 => 0x7F800000 | 2 => 0xFF800000 | _ => 0, some 0)

def reduceFold (op : Nat) (vs : List Word) : Word × Option Word := vs.foldl (fun a v => reduceStep op v a) (reduceStart op)

/-- Every query of a deposit takes MEM_ERROR (R213); a write that failed finally is the event of R297. -/
def Dep.allMemError (d : Dep) (failed : Bool) : Dep :=
  { d with done := d.done.map fun x =>
    { x with status := stMemError, held := [], total := 0, memEvent := x.memEvent || failed } }

/-- The next REDUCE node of a deposit that is ready and has no write outstanding. -/
def State.nextReduce (s : State) (d : Dep) : Option Nat :=
  let gr := (s.part d.part).graph d.graphId
  (gr.indices (· == opReduce)).find? fun j =>
    !d.depBits.getLsbD j && s.depNodeReady d j && !(s.accs.any fun a => a.purpose == .reduce d.id j)

/-- REDUCE_TASK (R213): folds the reduce values and issues the write of 8 bytes; the node completes with it. -/
def execReduceTask (dep : Nat) (s : State) : Result :=
  match s.dep? dep with
  | none => .next s
  | some d =>
    whenDue s (s.isOpen && (d.killedIn 0).isNone)
      (match s.nextReduce d with
       | none => .next s
       | some j =>
         let gn := ((s.part d.part).graph d.graphId).node j
         let rvs := (d.ordered 0).map (·.rv)
         let (hi, lo) := reduceFold (gn.arg.toNat % 16) rvs
         let bytes := leBytes 4 hi.toNat ++ leBytes 4 (openOr (gn.arg.toNat :: rvs.map (·.toNat)) lo).toNat
         match s.translate d.part gn.addr.toNat 8 true with
         | some a => settle s (s.issue true d.part a gn.addr.toNat bytes (.reduce dep j))
         | none => settle s (s.modDep dep fun d => { d.allMemError false with depBits := d.depBits ||| BitVec.ofNat 16 (2 ^ j) }))

/-! ## DELIVER: the record stream and the receipt (R92 to R101) -/

/-- The order of R91 for a completed query's records. -/
def Done.less (x : Done) (a b : Held) : Bool :=
  match kindOf (BitVec.ofNat 8 x.kind) with
  | some k => heldOrd k (k == .knn || (k == .probe && x.kind / 256 % 256 == 1)) a b
  | none => false

/-- A summary record (Table 3.6). -/
def summaryOf (x : Done) : List Byte :=
  leBytes 4 x.qid.toNat ++ [1, BitVec.ofNat 8 x.bounce, x.status, 0] ++ leBytes 2 x.held.length ++ [0, 0] ++
    leBytes 4 x.total ++ leBytes 4 x.visits ++ List.replicate 12 0

/-- The records of one query: its summary unless TERSE omits it, then its results in order with their ranks. -/
def recordsOf (terse : Bool) (x : Done) : List (List Byte) :=
  (if terse && x.status == stFound then [] else [summaryOf x]) ++
    (sortBy x.less x.held).mapIdx fun i h => recordOf x.qid x.bounce i h

/-- The record stream of a run (R92, R98). -/
def Dep.stream? (d : Dep) (run : Nat) : List (List Byte) :=
  ((d.ordered run).map (recordsOf (d.terse && d.dmode == 0))).flatten

/-- Pool and index of a buffer handle (R102). -/
def poolOf (h : Word) : Nat := bitsAt h.toNat 23 20
def indexOf (h : Word) : Nat := bitsAt h.toNat 15 0

/-- Partition address of a deposit's buffer, and the records it holds (R99, R102). -/
def State.bufAddr (s : State) (d : Dep) : Nat :=
  let p := (s.part d.part).pool (poolOf d.buffer)
  p.base.toNat + indexOf d.buffer * 2 ^ p.sizeLog2.toNat

def State.bufRoom (s : State) (d : Dep) : Nat :=
  (2 ^ ((s.part d.part).pool (poolOf d.buffer)).sizeLog2.toNat - 64) / 32

/-- DSTATUS (Table 3.12). -/
def dstatusOf (killed : Option Byte) (bufFault truncated errors : Bool) : Byte :=
  match killed with
  | some k => k
  | none => if bufFault then 0x12 else if truncated then 2 else if errors then 1 else 0

/-- The receipt body of a run (Table 3.11). -/
def State.receiptOf (s : State) (d : Dep) (run : Nat) : List Byte :=
  let qs := d.ordered run
  let needed := (d.stream? run).length
  let records := if d.bufFault then 0 else if d.dmode = 1 then min needed (s.bufRoom d) else needed
  let errors := (qs.filter fun x => decide (0x10 ≤ x.status.toNat)).length
  let st := dstatusOf (d.killedIn run) d.bufFault (d.dmode == 1 && decide (records < needed)) (decide (0 < errors))
  leBytes 4 d.seq.toNat ++ leBytes 2 d.stream.toNat ++ [st, 0] ++ leBytes 4 (if d.dmode = 1 then d.buffer.toNat else 0) ++
    leBytes 2 d.qcount ++ [0, 0] ++ leBytes 4 (qs.filter fun x => decide (0 < x.bounce)).length ++ leBytes 4 records ++
    leBytes 4 needed ++ leBytes 4 errors

/-- What a run of a deposit would deliver. -/
def State.runOut (s : State) (d : Dep) (run : Nat) : RunOut :=
  let qs := d.done.filter (·.run == run)
  { run := run, records := d.stream? run, receipt := s.receiptOf d run, memEvent := qs.any (·.memEvent),
    traces := (d.ordered run).map fun x => (x.qid, x.bounce, x.trace) }

/-- The receipt's form after a buffer write has failed finally: a kernel kill's DSTATUS stays (R432). -/
def faultReceipt (r : List Byte) : List Byte :=
  r.take 6 ++ [if byteAt r 6 = 0x10 ∨ byteAt r 6 = 0x11 then byteAt r 6 else 0x12] ++ (r.drop 7).take 13 ++ [0, 0, 0, 0] ++ r.drop 24

/-- The buffer header (Table 3.10), from the deposit and its receipt. -/
def bufHeader (d : Dep) : List Byte :=
  let r := d.receipt
  padTo 64 (leBytes 4 d.buffer.toNat ++ leBytes 2 d.stream.toNat ++ [byteAt r 6, 0] ++ leBytes 4 d.seq.toNat ++
    leBytes 4 (fieldAt r 12 2 + fieldAt r 16 4) ++ (r.drop 20).take 8 ++ leBytes 4 d.handle.epoch.toNat ++
    leBytes 2 d.handle.treeId.toNat)

/-- The buffer's writing has failed: BUFFER_FAULT, RECORDS 0 (R432). -/
def Dep.faultBuffer (d : Dep) : Dep :=
  { d with bufFault := true, receipt := faultReceipt d.receipt }

/-- Write the header once no record write is outstanding (R99, R432); a window miss ends the writing (log 24). -/
def State.headerNow (s : State) (dep : Nat) : State :=
  match s.dep? dep with
  | none => s
  | some d =>
    if d.step != .writing || (s.accs.any fun a => a.purpose == .resultRec dep || a.purpose == .resultHdr dep) then s
    else
      match s.translate d.part (s.bufAddr d) 64 true with
      | some a => s.issue true d.part a (s.bufAddr d) (bufHeader d) (.resultHdr dep)
      | none => s.modDep dep fun d => { d.faultBuffer with step := .delivered }

/-- The lines of records a buffer takes: at most two records each, from offset 64. -/
def bufLines (recs : List (List Byte)) : List (Nat × List Byte) :=
  (chunks 2 recs.length recs).mapIdx fun i c => (64 + 64 * i, c.flatten)

/-- Issue the record writes up to the first window miss; the flag says that there was one. -/
def State.writeRecords (s : State) (d : Dep) : List (Nat × List Byte) → State × Bool
  | [] => (s, false)
  | (o, bs) :: rest =>
    match s.translate d.part (s.bufAddr d + o) bs.length true with
    | some a => (s.issue true d.part a (s.bufAddr d + o) bs (.resultRec d.id)).writeRecords d rest
    | none => (s, true)

/-- The HIT messages of a record stream: up to 128 records each, the first with FIRST, the last with LAST (R98, R263). -/
def hitMessages (d : Dep) (recs : List (List Byte)) : List OutMsg :=
  let parts := chunks 128 recs.length recs
  parts.mapIdx fun i c =>
    { port := d.port, cls := 3, type := 0x06,
      flags := (if i = 0 then 0x10 else 0) ||| (if i + 1 = parts.length then 0x08 else 0), stream := d.stream, sgen := d.sgen,
      seq := d.seq, peer := d.endpoint, payload := c.flatten }

/-- Deliver a record stream with its receipt: HIT messages, or the buffer. -/
def State.sendOut (s : State) (dep : Nat) (o : RunOut) : State :=
  match s.dep? dep with
  | none => s
  | some d =>
    if d.dmode = 1 then
      let s := s.modDep dep fun d => { d with receipt := o.receipt, step := .writing }
      match s.dep? dep with
      | none => s
      | some d =>
        let (s, miss) := s.writeRecords d (bufLines (o.records.take (s.bufRoom d)))
        let s := if miss then s.modDep dep Dep.faultBuffer else s
        s.headerNow dep
    else
      let s := if d.stopDelivery then s else (hitMessages d o.records).foldl State.send s
      s.modDep dep fun d => { d with receipt := o.receipt, step := .delivered }

/-- Count what a deposit did in the open till interval of its partition, once; the follower's run counts for the follower
(R416). -/
def State.tillDeliver (s : State) (d : Dep) : State :=
  if d.charged then s
  else
    let charge := fun (s : State) (run : Nat) =>
      let qs := d.done.filter (·.run == run)
      s.modPart (s.runPart d.part run) fun p => { p with till := p.till.map fun t =>
        { t with queries := t.queries + BitVec.ofNat 64 qs.length
                 visits := t.visits + BitVec.ofNat 64 (qs.map (·.visits)).sum } }
    ((s.runsOf d.part).foldl charge s).modDep d.id fun d => { d with charged := true }

/-- The DELIVER node of a deposit may run: all its queries and REDUCE nodes have ended and the mask holds; a deposit whose every run
a kernel kill has ended goes at once (R212, R217; log 23). -/
def State.deliverDue (s : State) (d : Dep) : Bool :=
  let gr := (s.part d.part).graph d.graphId
  s.isOpen && d.runs.isEmpty && d.step == .running &&
    ((s.liveRuns d).isEmpty ||
     (s.allQueriesDone d && ((d.killedIn 0).isSome || (gr.indices (· == opReduce)).all fun j => d.depBits.getLsbD j) &&
       (match gr.find opDeliver with | some j => s.depNodeReady d j | none => true)))

/-- DELIVER_TASK (R92, R98, R99): the record stream leaves; a locked pair keeps both runs for their comparison. -/
def execDeliverTask (dep : Nat) (s : State) : Result :=
  match s.dep? dep with
  | none => .next s
  | some d =>
    whenDue s (s.deliverDue d)
      (let s1 := s.tillDeliver d
       if (s.part d.part).lockEn then settle s (s1.modDep dep fun d => { d with runs := [s.runOut d 0, s.runOut d 1] })
       else settle s (s1.sendOut dep (s.runOut d 0)))

/-- BUFFER_HEADER_ACK (R99): the header write is acknowledged. -/
def execBufferHeaderAck (port tag : Nat) (s : State) : Result :=
  onAcc s port tag true fun a =>
    match a.purpose with
    | .resultHdr dep =>
      let base := s.landAcc a
      settle base (base.modDep dep fun d => { d with step := .delivered })
    | _ => .fault .unsolicited

/-! ## Signals (R206 to R208) -/

/-- A signal address taken apart (R206). -/
def sigUnit (a : Word) : Nat := bitsAt a.toNat 7 0
def sigLead (a : Word) : Bool := bitAt a.toNat 8
def sigSlot (a : Word) : Nat := bitsAt a.toNat 12 9
def sigGen (a : Word) : Byte := BitVec.ofNat 8 (bitsAt a.toNat 20 13)

/-- The bits reach a context: its waiting groups are tested (R208). -/
def State.signalCtx (s : State) (slice slot : Nat) (bits : Word) : State :=
  (s.modCtx slice slot fun c => { { c with ev := c.ev ||| bits }.testEvents with blockedAt := none }).settleCtx slice slot

/-- A signal for a context of another partition has no effect; from when on the deadlock rule counts again, it no longer is in
flight to it (R219). -/
def State.signalGone (s : State) (slice slot : Nat) : State :=
  s.modCtx slice slot fun c => { c with blockedAt := c.blockedAt.map fun b => max b s.wclk }

/-- A signal arrives (R34, R207). A lead core belongs to no one partition: the signal of any may set its event word, and raises no
event (DESIGN CHOICE, log 85). -/
def State.deliverSignal (s : State) (g : Sig) : State :=
  if sigLead g.addr then
    (if sigUnit g.addr < 2 * s.nclusters then s.modLead (sigUnit g.addr) fun l => { l with ev := l.ev ||| g.bits } else s)
  else if s.nslices ≤ sigUnit g.addr then s
  else
    let c := s.ctx? (sigUnit g.addr) (sigSlot g.addr)
    if c.any fun x => x.part != g.fromPart then
      (if c.any fun x => x.gen == sigGen g.addr then s.signalGone (sigUnit g.addr) (sigSlot g.addr) else s).security 2
        (unitSlice (sigUnit g.addr)) g.fromPart g.addr.toNat
    else if NMap.get 0 (s.slice (sigUnit g.addr)).gens (sigSlot g.addr) != sigGen g.addr then
      s.modCluster g.fromCluster fun x => { x with stalesig := satInc x.stalesig 1 }
    else if c.isNone then s
    else s.signalCtx (sigUnit g.addr) (sigSlot g.addr) g.bits

/-- SIGNAL_DELIVERY (R34, R207): a signal on its way arrives, or one that a running lead core sends. -/
def execSignalDelivery (g : SigSource) (s : State) : Result :=
  let arrive := fun (t : State) (g : Sig) => whenDue s s.isOpen (settle s (t.deliverSignal g))
  match g with
  | .hit i =>
    match s.signals[i]? with
    | none => .next s
    | some g => arrive { s with signals := s.signals.eraseIdx i } g
  | .lead n p addr bits =>
    onUnit (decide (n < 2 * s.nclusters))
      (whenDue s (!(s.lead n).faulted && !(s.cluster (n / 2)).retired) (arrive s ⟨p, n / 2, addr, bits⟩))

/-! ## Deadlock (R219) -/

/-- No signal on its way addresses a context. -/
def State.unsignalled (s : State) (c : Ctx) : Bool :=
  !(s.signals.any fun g => !sigLead g.addr && sigUnit g.addr == c.slice && sigSlot g.addr == c.slot && sigGen g.addr == c.gen)

/-- One context of a deadlock goes. -/
def State.deadlock (s : State) (x : Ctx) : State :=
  let s := s.modCluster (clusterOf x.slice) fun c => { c.logKill s.wclk 0x20 x 0 0 0 with deadlocks := satInc c.deadlocks 1 }
  if (s.ctx? x.slice x.slot) == some x then s.killCtx x 0x11 else s

/-- DEADLOCK_KILL (R219): every live context of a partition has been blocked for 4,096 wclk, and for as long none has run. -/
def execDeadlockKill (p : Nat) (s : State) : Result :=
  let cs := s.ctxs.filter (·.part == p)
  let due := cs.all fun c => match c.blockedAt with | some b => decide (b + 4096 ≤ s.wclk) | none => false
  whenDue s (s.isOpen && !cs.isEmpty && due && decide ((s.part p).ranAt + 4096 ≤ s.wclk))
    (let t := (cs.filter s.unsignalled).foldl State.deadlock s
     settle s (t.beginNew (t.newSince s.nextUid)))

/-! ## Receipts (R30, R263) -/

/-- The receipt of a deposit has been sent. -/
def Dep.receiptOut (d : Dep) : Bool := d.step == .receipt || d.step == .retiring

/-- The receipts of a stream go in sequence order (R30). -/
def State.receiptTurn (s : State) (d : Dep) : Bool :=
  !(s.deps.any fun e => e.stream == d.stream && e.sgen == d.sgen && decide (e.seq < d.seq) && !e.receiptOut)

/-- The RECEIPT of a deposit: to ENDPOINT in DIRECT mode, to the source of the DEPOSIT otherwise or when redirected. -/
def receiptMsg (d : Dep) : OutMsg :=
  { port := d.port, cls := 3, type := 0x04, flags := if d.redirected then 4 else 0, stream := d.stream, sgen := d.sgen,
    seq := d.seq, peer := if d.dmode = 1 ∨ d.redirected then d.peer else d.endpoint, payload := d.receipt }

/-- Send the RECEIPT of a deposit. -/
def State.sendReceipt (s : State) (dep : Nat) : State :=
  match s.dep? dep with
  | none => s
  | some d => (s.send (receiptMsg d)).modDep dep fun d => { d with step := .receipt, receiptAt := s.elapsed }

/-- RECEIPT_SEND (R30, R263): a delivered deposit whose turn has come. -/
def execReceiptSend (dep : Nat) (s : State) : Result :=
  match s.dep? dep with
  | none => .next s
  | some d => whenDue s (s.isOpen && d.step == .delivered && s.receiptTurn d) (settle s (s.sendReceipt dep))

end Sys2Proof.Machine
end

