-- ==== Sys2Proof/Machine/Messages.lean ====
section
/-! DEFINITION. Ingress messages: their flits, the checks of Table 9.8, arbitration, answers, and what capture keeps of them
(R243 to R256, R275, R393, R408 to R410, R430). -/

namespace Sys2Proof.Machine

open Sys2Proof

/-! ## Answers (R256, R261) -/

def rBusy : Nat := 1
def rNotReady : Nat := 2
def rStale : Nat := 3
def rNoRights : Nat := 4
def rMalformed : Nat := 5
def rReloading : Nat := 6
def rQuota : Nat := 7

/-- ACCEPT, or REFUSE with its reason, its check, and RETRY_NS where the manual gives it. -/
inductive Ans where
  | accept (dup : Bool)
  | refuse (reason check : Nat) (retry : Option Nat)
  deriving DecidableEq, Repr

/-- ANSWER of a capture record (Table 14.7). -/
def Ans.code : Ans → Byte
  | .accept dup => if dup then 1 else 0
  | .refuse r _ _ => BitVec.ofNat 8 (0x80 + r)

/-- The bytes of a message: header and payload (Table 9.2). -/
def msgBytes (type : Byte) (m : Msg) : List Byte :=
  [type, m.flags] ++ leBytes 2 m.payload.length ++ leBytes 2 m.stream.toNat ++ [m.sgen, m.cls] ++ leBytes 4 m.seq.toNat ++
    leBytes 4 m.peer.toNat ++ m.payload

/-- A capture record that waits for the answer to this message. -/
def CapRec.waitsFor (c : CapRec) (type : Byte) (m : Msg) : Bool :=
  c.answer.isNone && c.port == m.port && byteAt c.msg 0 == type && fieldAt c.msg 4 2 == m.stream.toNat &&
    byteAt c.msg 6 == m.sgen && fieldAt c.msg 8 4 == m.seq.toNat

/-- The stream's partition. -/
def State.partOf (s : State) (m : Msg) : Nat := (s.strm m.stream.toNat).part.toNat

/-- Give the capture record of a message its answer (R410). -/
def State.decideCapture (s : State) (type : Byte) (m : Msg) (a : Byte) : State :=
  if (s.part (s.partOf m)).cap.queue.any fun c => c.waitsFor type m then
    s.modPart (s.partOf m) fun p => { p with cap := { p.cap with
      queue := modFirst (fun c => c.waitsFor type m) (fun c => { c with answer := some a }) p.cap.queue } }
  else s

/-- RETRY_NS of a REFUSE: open between 1,000 and 65,535 for BUSY unless a chapter gives it, 0 otherwise (R261; log 9). -/
def State.retryNs (s : State) (reason : Nat) (retry : Option Nat) : Nat × State :=
  match retry with
  | some n => (n, s)
  | none =>
    if reason = rBusy then
      let (n, s) := s.freshNat
      (1000 + n % 64536, s)
    else (0, s)

/-- Answer a message on RESP through its port of arrival (R256). An injected message gets no answer (R413). -/
def State.reply (s : State) (type : Byte) (m : Msg) (inj : Bool) (a : Ans) : State :=
  if inj then s
  else
    let s := s.decideCapture type m a.code
    let out : OutMsg := { port := m.port, cls := 2, type := 2, flags := 0, stream := m.stream, sgen := m.sgen, seq := m.seq,
                          peer := m.peer, payload := [] }
    match a with
    | .accept dup => s.send { out with flags := if dup then 2 else 0 }
    | .refuse r c retry =>
      let (n, s) := s.retryNs r retry
      let s := { s with fab := { s.fab with refuses := NMap.put 0 s.fab.refuses r (satInc (NMap.get 0 s.fab.refuses r) 1) } }
      s.send { out with type := 3, payload := [BitVec.ofNat 8 r, type] ++ leBytes 2 c ++ leBytes 4 n }

def State.refuse (s : State) (type : Byte) (m : Msg) (inj : Bool) (reason check : Nat) : State :=
  s.reply type m inj (.refuse reason check none)

/-! ## Flits (R243, R244, R248) -/

/-- The ordering class of a type (Table 9.3); DLV carries egress only. -/
def classOfType (type : Byte) : Nat :=
  match type.toNat with
  | 0x01 => 1
  | 0x0B => 1
  | 0x0F => 1
  | 0x02 => 2
  | 0x03 => 2
  | 0x04 => 3
  | 0x06 => 3
  | _ => 0

/-- The flits of a message use ingress credits of the class they come on, which CLASS repeats, and stand in the input buffer. -/
def State.arrive (s : State) (cls : Nat) (m : Msg) : State :=
  let n := flitsOf m.payload.length
  let home := s.homeOf m.stream.toNat
  (s.modPort m.port fun p =>
    { p with ingress := p.ingress.set cls (p.ingress.get cls - n), buf := p.buf ++ List.replicate n (cls, home) }).act 8 n

/-! ## Checks 1 and 2 -/

/-- The table gives the type an ingress direction. -/
def ingressType (type : Byte) : Bool :=
  [0x01, 0x03, 0x05, 0x07, 0x08, 0x09, 0x0B, 0x0C, 0x0D, 0x0F, 0x10, 0x11].contains type.toNat

/-- LEN is in the range of Table 9.3; for a RECEIPT_ACK it is 4 + 4 × NFREE (R266), for an IMAGE_WRITE 16 + DLEN. -/
def lenOk (type : Byte) (bs : List Byte) : Bool :=
  match type.toNat with
  | 0x01 => bs.length == 64
  | 0x03 => bs.length == 8
  | 0x05 => decide (4 ≤ bs.length) && bs.length == 4 + 4 * (byteAt bs 0).toNat
  | 0x07 => bs.length == 8
  | 0x08 => bs.length == 16
  | 0x09 => bs.length == 16
  | 0x0B => bs.length == 16
  | 0x0C => bs.length == 0
  | 0x0D => bs.length == 0
  | 0x0F => decide (16 ≤ bs.length) && bs.length == 16 + fieldAt bs 2 2
  | 0x10 => bs.length == 16
  | 0x11 => bs.length == 24
  | _ => false

/-- CLASS names the class of the type (R245). -/
def classRight (type : Byte) (m : Msg) : Bool := m.cls.toNat % 4 == classOfType type

/-- Check 2. -/
def wellSized (type : Byte) (m : Msg) : Bool :=
  ingressType type && classRight type m && lenOk type m.payload && decide (m.flags.toNat < 32) && decide (m.cls.toNat < 4) &&
    decide (m.peer.toNat < 2 ^ 28)

/-- STATUS and IDENT pass checks 1 and 3 to 8. -/
def anyState (type : Byte) : Bool := type == 0x0C || type == 0x0D

/-- Messages that answer a delivery (R255). -/
def isAckType (type : Byte) : Bool := type == 0x03 || type == 0x05

/-- Reason and check of the first failing check of 1 and 2. -/
def State.earlyFault (s : State) (type : Byte) (m : Msg) : Option (Nat × Nat) :=
  if s.boot.phase != .opened && !anyState type then some (rNotReady, 1)
  else if !wellSized type m then some (rMalformed, 2)
  else none

/-! ## Checks 3 to 6 -/

/-- Check 3 (R252, R260). -/
def State.streamFault (s : State) (type : Byte) (m : Msg) : Bool :=
  let t := s.strm m.stream.toNat
  !(t.en || t.closing) || m.sgen != t.gen || (type == 0x01 && (t.closing || (t.lastAcc == 0xFFFFFFFF && m.seq != 0xFFFFFFFF)))

/-- The deposit a message names. -/
def State.depNamed (s : State) (m : Msg) : Option Dep :=
  s.deps.find? fun d => d.stream == m.stream && d.sgen == m.sgen && d.seq == m.seq

/-- HIT messages of the deposit go out: it delivers in DIRECT mode, has records, and its endpoint has refused none (R98, R265). -/
def Dep.hitsOut (d : Dep) : Bool := d.step == .delivered && d.dmode == 0 && !d.stopDelivery && fieldAt d.receipt 20 4 != 0

/-- A HIT or the RECEIPT of the deposit has been sent and not acknowledged. -/
def Dep.outstanding (d : Dep) : Bool := d.step == .receipt || d.hitsOut

/-- The endpoint that got the deposit's HIT or RECEIPT (R255). -/
def Dep.dest (d : Dep) : Word := if d.dmode = 1 ∨ d.redirected then d.peer else d.endpoint

/-- Checks 4 and 5. A follower's streams take no DEPOSIT (R408). -/
def State.rightsFault (s : State) (type : Byte) (right : Nat) (m : Msg) : Option (Nat × Nat) :=
  let t := s.strm m.stream.toNat
  if isAckType type then
    match s.depNamed m with
    | some d => if d.outstanding && d.dest.toNat % 2 ^ 20 != m.peer.toNat % 2 ^ 20 then some (rNoRights, 5) else none
    | none => none
  else if t.port.toNat ≠ m.port then some (rMalformed, 4)
  else if (!t.anysrc && t.owner.toNat != m.peer.toNat % 2 ^ 20) || !t.rights.getLsbD right ||
      (type == 0x01 && (s.part t.part.toNat).lockEn && (s.part t.part.toNat).lockRole) then some (rNoRights, 5)
  else none

/-- The partition is being reloaded for a type (R393). -/
def State.reloading (s : State) (p : Nat) (type : Byte) : Bool :=
  let v := s.part p
  if isAckType type then v.st == .empty || v.st == .isolated || v.st == .loading
  else !anyState type && type != 0x10 && (v.st != .loaded || v.replay.isSome)

/-! ## Arbitration (R275) -/

/-- A message still waiting in the queue, with its type. -/
def msgOf : Instr → Option (Byte × Msg)
  | .deposit m => some (0x01, m)
  | .eventGate m => some (0x07, m)
  | .eventMintTail m => some (0x07, m)
  | .budget m => some (0x09, m)
  | .imageWriteErase m => some (0x0F, m)
  | .imageWriteWrite m => some (0x0F, m)
  | .imageWriteCommit m => some (0x0F, m)
  | .partReloadBegin m => some (0x10, m)
  | .partReloadEnd m => some (0x10, m)
  | .captureStart m => some (0x11, m)
  | .captureStop m => some (0x11, m)
  | .replayStart m => some (0x11, m)
  | .replayStop m => some (0x11, m)
  | _ => none

abbrev Typed := Byte × Msg

def pl0 (x : Typed) : Nat := (byteAt x.2.payload 0).toNat
def pl1 (x : Typed) : Nat := (byteAt x.2.payload 1).toNat

/-- Rule 1 of Table 9.15: BEGIN beats END, DEPOSIT and EVENT of its partition. -/
def State.rule1 (s : State) (a b : Typed) : Bool :=
  a.1 == 0x10 && pl1 a == 1 &&
    ((b.1 == 0x10 && pl1 b == 2 && pl0 b == pl0 a) || ((b.1 == 0x01 || b.1 == 0x07) && s.partOf b.2 == pl0 a))

/-- Rule 2: a stop beats its start. -/
def rule2 (a b : Typed) : Bool :=
  a.1 == 0x11 && b.1 == 0x11 && pl0 a == pl0 b && ((pl1 a == 2 && pl1 b == 1) || (pl1 a == 4 && pl1 b == 3))

/-- Rule 4: an ERASE or WRITE beats the COMMIT of its slot. -/
def rule4 (a b : Typed) : Bool := a.1 == 0x0F && b.1 == 0x0F && (pl0 a == 1 || pl0 a == 2) && pl0 b == 4 && pl1 a == pl1 b

/-- An ERASE against a WRITE of one slot, and a capture's start against a replay's start on one partition. -/
def opposed (a b : Typed) : Bool :=
  (a.1 == 0x0F && b.1 == 0x0F && pl0 a == 1 && pl0 b == 2 && pl1 a == pl1 b) ||
    (a.1 == 0x11 && b.1 == 0x11 && pl0 a == pl0 b && pl1 a == 1 && pl1 b == 3)

/-- Contradictions that rule 5 decides: two COMMITs for one slot, two MINT_TAILs of one partition with different TAILs, and those of
`opposed`. -/
def State.plain (s : State) (a b : Typed) : Bool :=
  (a.1 == 0x0F && b.1 == 0x0F && pl0 a == 4 && pl0 b == 4 && pl1 a == pl1 b) ||
    (a.1 == 0x07 && b.1 == 0x07 && pl0 a == 2 && pl0 b == 2 && s.partOf a.2 == s.partOf b.2 &&
      fieldAt a.2.payload 2 2 != fieldAt b.2.payload 2 2) ||
    opposed a b || opposed b a

/-- Rule 5: the higher SEQ, then the lower port. -/
def rule5 (a b : Typed) : Bool := decide (b.2.seq < a.2.seq) || (a.2.seq == b.2.seq && decide (a.2.port < b.2.port))

/-- How `a` fares against `b`: `none` where they do not contradict, else whether `a` wins. -/
def State.fares (s : State) (a b : Typed) : Option Bool :=
  if a.2.port = b.2.port then none
  else if s.rule1 a b || rule2 a b || rule4 a b then some true
  else if s.rule1 b a || rule2 b a || rule4 b a then some false
  else if a.1 == 0x09 && b.1 == 0x09 then
    let x := fieldAt a.2.payload 0 4
    let y := fieldAt b.2.payload 0 4
    some (decide (x < y) || (x == y && rule5 a b))
  else if s.plain a b then some (rule5 a b)
  else none

/-- The messages of the same pclk: those taken and those that wait. -/
def State.rivals (s : State) (m : Msg) : List Typed :=
  (if s.fab.arbPclk = m.pclk then s.fab.arbTaken else []) ++ (s.pending.filterMap msgOf).filter fun x => x.2.pclk == m.pclk

/-- The message loses an arbitration: the reason of its REFUSE (Table 9.15). A DEPOSIT or EVENT loses to BEGIN with
RELOADING. -/
def State.arbLoss (s : State) (type : Byte) (m : Msg) : Option Nat :=
  match (s.rivals m).find? fun b => s.fares (type, m) b == some false with
  | some b => some (if b.1 == 0x10 && (type == 0x01 || type == 0x07) then rReloading else rBusy)
  | none => none

/-- Remember a message among those of its pclk. -/
def State.noteTaken (s : State) (type : Byte) (m : Msg) : State :=
  { s with fab := { s.fab with arbPclk := m.pclk, arbTaken := (if s.fab.arbPclk = m.pclk then s.fab.arbTaken else []) ++ [(type, m)] } }

/-! ## The course of a message -/

/-- Capture keeps a message that passed check 3, but for STATUS, IDENT and CAPTURE_CTL (R409); one with no answer due has
answer 0. -/
def State.capture (s : State) (type : Byte) (m : Msg) : State :=
  let p := s.part (s.partOf m)
  if p.cap.active && !(p.cap.queue.any (·.last)) && !anyState type && type != 0x11 then
    s.setPart (s.partOf m) { p with cap := { p.cap with queue := p.cap.queue ++
      [{ tb := s.tbu.tb, port := m.port, answer := if isAckType type then some 0 else none, msg := msgBytes type m }] } }
  else s

/-- A message that fails check 5 may be a security event: a PART_RELOAD or CAPTURE_CTL for another partition (R430), or a
RECEIPT_ACK (R255). -/
def State.rightsEvent (s : State) (type : Byte) (m : Msg) : State :=
  if type == 0x05 || ((type == 0x10 || type == 0x11) && (byteAt m.payload 0).toNat != s.partOf m) then
    s.security 5 (unitFport m.port) (s.partOf m) 0
  else s

/-- Checks 1 to 7 and the arbitration: what the message is refused with, and the state after capture and events. `right`
is the bit of RIGHTS, `body` the body check. A message that passes checks 1 to 5 is arbitrated before the state of its
partition is judged, so that its answer does not depend on the order of the messages of a pclk (R275, log 57). -/
def State.judgeMsg (s : State) (type : Byte) (right : Nat) (body : State → Bool) (m : Msg) : Option (Nat × Nat) × State :=
  match s.earlyFault type m with
  | some f => (some f, if !classRight type m then s.modPort m.port fun p => { p with badmsg := satAdd 0xFFFF p.badmsg 1 } else s)
  | none =>
    if anyState type then (none, s)
    else if s.streamFault type m then (some (rStale, 3), s)
    else
      let s := s.capture type m
      match s.rightsFault type right m with
      | some f => (some f, if f.2 = 5 then s.rightsEvent type m else s)
      | none =>
        match s.arbLoss type m with
        | some r => (some (r, 0), s)
        | none =>
          if s.reloading (s.partOf m) type then (some (rReloading, 6), s)
          else if !body s then (some (rMalformed, 7), s)
          else (none, s)

/-- A port that takes messages: built, enabled, and not silent after a trip (R272, R348). -/
def State.portTakes (s : State) (n : Nat) : Bool := (s.port n).en && s.boot.phase != .tripped

/-- Take one message from a fabric port: its flits, its checks, its REFUSE, or its effect. An endpoint REFUSE that fails a
check is discarded (R255). -/
def ingress (type : Byte) (right : Nat) (body : State → Bool) (act : State → Result) (m : Msg) (s : State) : Result :=
  onUnit (decide (m.port < s.nfports))
    (whenDue s (s.portTakes m.port)
      (let s1 := s.arrive (m.cls.toNat % 4) m
       match s1.judgeMsg type right body m with
       | (some (r, c), s2) =>
         let s3 := s2.noteTaken type m
         settle s (if type == 0x03 then s3 else s3.refuse type m false r c)
       | (none, s2) => act (s2.noteTaken type m)))

end Sys2Proof.Machine
end

