-- ==== Sys2Proof/Machine/Ledger.lean ====
section
/-! DEFINITION. The ledger agent: journal records, DEPOSIT, gate events, receipts and their acknowledgement, retirement and
the free list (R102 to R105, R257 to R268, R277 to R287). -/

namespace Sys2Proof.Machine

open Sys2Proof

/-! ## Journal records (R279 to R281) -/

/-- A record: header, body from offset 8, CHECK. -/
def journalRecord (kind : Byte) (lap : Nat) (d : Dep) (body : List Byte) : List Byte :=
  let bs := padTo 62 ([kind, BitVec.ofNat 8 lap] ++ leBytes 2 d.stream.toNat ++ leBytes 4 d.seq.toNat ++ body)
  bs ++ leBytes 2 (crc16 bs)

/-- Body of a DEPOSIT record (Table 10.3). -/
def depositBody (d : Dep) : List Byte :=
  leBytes 8 d.qbase.toNat ++ leBytes 2 d.qcount ++
    [BitVec.ofNat 8 d.graphId, BitVec.ofNat 8 (bit d.timed + 2 * d.dmode + 4 * bit d.terse), d.sgen, BitVec.ofNat 8 d.port] ++
    leBytes 2 d.handle.treeId.toNat ++ leBytes 8 d.handle.base.toNat ++ leBytes 4 d.handle.epoch.toNat ++
    leBytes 4 (if d.dmode = 1 then 0 else d.endpoint.toNat) ++ leBytes 4 (if d.dmode = 1 then d.buffer.toNat else 0) ++
    leBytes 4 d.peer.toNat ++ leBytes 8 (if d.timed then d.release.toNat else 0) ++ leBytes 2 d.gate.toNat

/-- Body of a GATE record (Table 10.4). -/
def gateBody (d : Dep) (bits : Half) : List Byte := leBytes 2 bits.toNat ++ [d.sgen]

/-- Body of a FREE or RETIRE record (Table 10.4). -/
def freeBody (d : Dep) (reason : Byte) (hs : List Word) : List Byte :=
  [BitVec.ofNat 8 hs.length, reason, d.sgen, 0] ++ (hs.map fun h => leBytes 4 h.toNat).flatten

/-- Slots of a ring, records written into it, and the partition address of a record's slot (R277, R281). -/
def Jrnl.slots (j : Jrnl) : Nat := 2 ^ j.jlog2.toNat
def Jrnl.written (j : Jrnl) (ring : Nat) : Nat := NMap.get 0 j.rings ring
def Jrnl.slotAddr (j : Jrnl) (ring n : Nat) : Nat := j.base.toNat + ring * 64 * j.slots + 64 * (n % j.slots)

/-- Issue the write of the next record of a ring; a window miss issues nothing. -/
def State.writeJournal (s : State) (d : Dep) (kind : Byte) (body : List Byte) (p : Purpose) : Option State :=
  let j := (s.part d.part).jrnl
  let n := j.written d.ring
  let a := j.slotAddr d.ring n
  match s.translate d.part a 64 true with
  | none => none
  | some sys =>
    let s := s.modPart d.part fun v => { v with jrnl := { v.jrnl with rings := NMap.put 0 v.jrnl.rings d.ring (n + 1) } }
    some (s.issue true d.part sys a (journalRecord kind (n / j.slots) d body) p)

/-- Live deposits of a partition and of one of its rings (R281). -/
def State.liveOf (s : State) (p : Nat) : List Dep := s.deps.filter fun d => d.part == p
def State.ringLive (s : State) (p ring : Nat) : List Dep := (s.liveOf p).filter fun d => d.ring == ring

/-- After one more record, `extra` of them a new deposit, at least 24 more slots than live deposits stay free (R281). -/
def State.ringRoom (s : State) (p ring extra : Nat) : Bool :=
  let j := (s.part p).jrnl
  let live := s.ringLive p ring
  let n := j.written ring
  let oldest := live.foldl (fun m d => min m d.pos) n
  decide (n + 1 - oldest + (live.length + extra) + 24 ≤ j.slots)

/-! ## DEPOSIT (R257 to R262) -/

/-- The body of Table 9.9. -/
structure DepBody where
  qbase : Dword
  qcount : Nat
  graphId : Nat
  timed : Bool
  handle : Handle
  dmode : Nat
  terse : Bool
  endpoint : Word
  buffer : Word
  release : Dword
  deriving DecidableEq, Repr

def parseDeposit (bs : List Byte) : DepBody :=
  let w := fun (o : Nat) => BitVec.ofNat 32 (fieldAt bs o 4)
  let d := fun (o : Nat) => BitVec.ofNat 64 (fieldAt bs o 8)
  { qbase := d 0, qcount := fieldAt bs 8 2, graphId := (byteAt bs 10).toNat, timed := bitAt (byteAt bs 11).toNat 0,
    handle := { base := d 16, epoch := w 24, treeId := BitVec.ofNat 16 (fieldAt bs 28 2) }, dmode := (byteAt bs 32).toNat,
    terse := bitAt (byteAt bs 33).toNat 0, endpoint := w 36, buffer := w 40, release := d 48 }

/-- What identifies a deposit's body against a resend: everything Table 10.3 keeps of it (R259). -/
def Dep.sameBody (d : Dep) (b : DepBody) : Bool :=
  d.qbase == b.qbase && d.qcount == b.qcount && d.graphId == b.graphId && d.timed == b.timed && d.handle == b.handle &&
    d.dmode == b.dmode && (d.dmode == 1 || (d.terse == b.terse && d.endpoint == b.endpoint)) &&
    (d.dmode == 0 || (poolOf d.buffer == poolOf b.buffer && indexOf d.buffer == indexOf b.buffer)) &&
    (!d.timed || d.release == b.release)

/-- The end of the run of addresses from `a` on that windows satisfying `ok` translate; the fuel bounds the steps from one edge of a
window to the next (R324). -/
def Part.coverEnd (p : Part) (ok : Win → Bool) : Nat → Nat → Nat
  | 0, a => a
  | k + 1, a =>
    match p.window a 1 with
    | some v =>
      let edge := (List.range 16).foldl (fun e w =>
        let b := (p.win w).base.toNat
        if (p.win w).en ∧ a < b ∧ b < e then b else e) (v.limit.toNat + 4096)
      if ok v then p.coverEnd ok k edge else a
    | none => a

/-- Windows that satisfy `ok` translate a whole region. -/
def Part.covers (p : Part) (ok : Win → Bool) (a n : Nat) : Bool := n == 0 || decide (a + n ≤ p.coverEnd ok 33 a)

/-- The whole spill region lies in readable and writable windows (R135, R136). -/
def Part.spillOk (p : Part) : Bool := p.covers (fun v => v.rd && v.wr) p.spill.toNat (4096 * p.quotaCtx.toNat)

/-- The pool conditions of check 7 (R104), and that windows let the engine write the buffer (R326). -/
def Part.poolOk (p : Part) (b : DepBody) : Bool :=
  let v := p.pool (poolOf b.buffer)
  let size := 2 ^ v.sizeLog2.toNat
  v.en && !v.draining && decide (indexOf b.buffer < v.count.toNat) && decide (64 + 32 * b.qcount ≤ size) &&
    p.covers (·.wr) (v.base.toNat + indexOf b.buffer * size) size

/-- The body checks of R258 but for SEQ. -/
def State.newBodyOk (s : State) (p : Nat) (b : DepBody) : Bool :=
  let v := s.part p
  decide (1 ≤ b.qcount) && decide (b.qcount ≤ 4096) && decide (b.qbase.toNat % 64 = 0) &&
    decide (b.handle.base.toNat % 64 = 0) && decide (b.handle.base.toNat < 2 ^ 56) && b.handle.epoch != 0 &&
    !(v.graph b.graphId).nodes.isEmpty && decide (b.dmode ≤ 1) && (b.dmode == 0 || v.poolOk b) && v.spillOk &&
    (!b.timed || decide (b.release.toNat ≤ s.tbu.tb.toNat + 16000000000))

/-- The record write of the deposit a message repeats is pending (R287). -/
def State.pendingTwin (s : State) (m : Msg) : Option Dep := (s.depNamed m).filter fun d => d.step == .journal

/-- Check 7 of a DEPOSIT (R258, R259). An injected one is not held to LAST_ACC (log 27). With a deposit split every DEPOSIT gets BUSY
(R311). -/
def State.depositOk (s : State) (p : Nat) (inj : Bool) (m : Msg) : Bool :=
  let b := parseDeposit m.payload
  let last := (s.strm m.stream.toNat).lastAcc.toNat
  (s.part p).split || m.seq != 0 && (inj || decide (m.seq.toNat ≤ last + 1)) &&
    (if !inj && decide (m.seq.toNat ≤ last) then (match s.depNamed m with | some d => d.sameBody b | none => true)
     else if (s.pendingTwin m).isSome then true
     else s.newBodyOk p b)

/-- The epoch the mint's command writes at the target that a tree handle of a partition names (R238); a command that a warm
reset ended counts until it starts again (R239). -/
def State.mintTarget (s : State) (p : Nat) (base : Dword) : Option Word :=
  match s.mint.cur with
  | some c => if c.part = p ∧ c.target = base then some c.epoch else none
  | none => match s.mint.redo with
    | some (q, t, e) => if q = p ∧ t = base then some e else none
    | none => none

/-- The mint writes this deposit's epoch, so its reads wait (R238). -/
def State.mintHolds (s : State) (p : Nat) (h : Handle) : Bool :=
  s.mintTarget p h.base == some h.epoch

/-- A further timed deposit finds 256 stamps not yet reached on its cluster (R262). -/
def State.stampsFull (s : State) (home : Nat) (b : DepBody) : Bool :=
  b.timed && decide (256 ≤ (s.deps.filter fun d => d.home == home && !d.stampReached).length)

/-- Check 9 (R216, R238, R262, R278, R281, R311). -/
def State.depositBusy (s : State) (p ring home : Nat) (b : DepBody) : Bool :=
  let j := (s.part p).jrnl
  j.formatting || j.replaying || !s.ringRoom p ring 1 || s.taskFull home ||
    s.stampsFull home b || (s.cluster home).retired ||
    (match s.mintTarget p b.handle.base with | some e => e != b.handle.epoch | none => false)

/-- Claim a buffer: the handle it issues (R102, R104). -/
def State.claim (s : State) (p dep : Nat) (stream : Half) (buffer : Word) : State × Word × Option (Nat × Nat) :=
  let n := poolOf buffer
  let i := indexOf buffer
  let old := ((s.part p).pool n).buf i
  let gen := old.gen + 1
  (s.modPart p fun v => v.modPool n fun x => x.modBuf i fun _ => { gen := gen, claim := some dep, owner := some (p, stream.toNat) },
    BitVec.ofNat 32 (gen.toNat * 2 ^ 24 + n * 2 ^ 20 + i), old.owner)

/-- A pool whose disable waits goes off once no buffer is claimed (Table 3.15). -/
def Pool.settleOff (p : Pool) : Pool :=
  if p.draining && p.bufs.all fun b => b.2.claim.isNone then { p with en := false, draining := false } else p

def Part.settlePools (p : Part) : Part :=
  (List.range 16).foldl (fun p n => if (p.pool n).draining then p.modPool n Pool.settleOff else p) p

/-- Undo a claim: GEN stays, the owner tag returns (R104). -/
def State.unclaim (s : State) (d : Dep) : State :=
  if d.dmode = 1 then
    (s.modPart d.part fun v => v.modPool (poolOf d.buffer) fun x => x.modBuf (indexOf d.buffer) fun b =>
      { b with claim := none, owner := d.prevOwner }).modPart d.part Part.settlePools
  else s

/-- The gate bits held for a deposit and the EVENTs that wait with them (R268). -/
def HeldGate.names (h : HeldGate) (stream : Half) (sgen : Byte) (seq : Word) : Bool :=
  h.stream == stream && h.sgen == sgen && h.seq == seq

def State.heldFor (s : State) (stream : Half) (sgen : Byte) (seq : Word) : Option HeldGate :=
  s.fab.heldGates.find? (·.names stream sgen seq)

def State.dropHeld (s : State) (stream : Half) (sgen : Byte) (seq : Word) : State :=
  { s with fab := { s.fab with heldGates := s.fab.heldGates.filter fun h => !h.names stream sgen seq } }

/-- The deposit a DEPOSIT makes. -/
def State.newDep (s : State) (p : Nat) (inj : Bool) (m : Msg) (b : DepBody) : Dep :=
  let g := s.heldFor m.stream m.sgen m.seq
  let ring := m.stream.toNat % s.nclusters
  { id := s.nextDep, part := p, stream := m.stream, sgen := m.sgen, seq := m.seq, port := m.port, peer := m.peer,
    qbase := b.qbase, qcount := b.qcount, graphId := b.graphId, timed := b.timed, handle := b.handle, dmode := b.dmode,
    terse := b.terse, endpoint := b.endpoint, buffer := b.buffer, release := b.release,
    gate := match g with | some h => h.bits | none => 0, home := s.homeOf m.stream.toNat, ring := ring,
    pos := (s.part p).jrnl.written ring, step := .journal, arrived := s.elapsed, injected := inj,
    stampReached := !b.timed || decide (b.release.toNat ≤ s.tbu.tb.toNat),
    gateWaiters := match g with | some h => h.waiters | none => [] }

/-- Journal a new deposit: claim, check 9, record write. What check 9 refuses is unclaimed again. -/
def State.journalDeposit (s : State) (p : Nat) (inj : Bool) (m : Msg) (b : DepBody) : State × Bool :=
  let d := s.newDep p inj m b
  let (s1, d) :=
    if b.dmode = 1 then
      let (t, h, old) := s.claim p d.id m.stream b.buffer
      (t, { d with buffer := h, prevOwner := old })
    else (s, d)
  if s1.depositBusy p d.ring d.home b then (s1.unclaim d, false)
  else
    match { s1 with deps := s1.deps ++ [d], nextDep := s1.nextDep + 1 }.writeJournal d 1 (depositBody d) (.depositRec d.id) with
    | some t => (t.dropHeld m.stream m.sgen m.seq, true)
    | none => (s1.unclaim d, false)

/-- Judge one handle of a free list (Table 3.18, R431). -/
def State.freeOne (s : State) (d : Dep) (h : Word) : State :=
  let n := poolOf h
  let i := indexOf h
  let b := ((s.part d.part).pool n).buf i
  let foreign := match b.owner with | some o => o != (d.part, d.stream.toNat) | none => false
  let stale := b.claim.isNone || b.gen.toNat != bitsAt h.toNat 31 24
  let early := match b.claim.bind s.dep? with | some e => !e.receiptOut | none => false
  if foreign then
    (s.modPart d.part fun v => { v with ffree := satInc v.ffree 1 }).security 1 (unitCluster d.home) d.part h.toNat
  else if stale then
    (s.modPart d.part fun v => { v with dfree := satInc v.dfree 1 }).health 0x12 (unitCluster d.home) d.part 1 (leBytes 4 h.toNat)
  else if early then s.health 0x13 (unitCluster d.home) d.part 1 (leBytes 4 h.toNat)
  else s.modPart d.part fun v => v.modPool n fun x => x.modBuf i fun b => { b with claim := none }

/-- A handle names a buffer. -/
def sameBuf (a b : Word) : Bool := poolOf a == poolOf b && indexOf a == indexOf b

/-- The pool unit takes the frees of a wclk before its claims: RETIRE records acknowledged in this wclk free the buffer a DEPOSIT
names first (R104). -/
def State.freesFirst (s : State) (p : Nat) (buffer : Word) : State :=
  s.pending.foldl (fun (s : State) i =>
    match i with
    | .retireRecordAck port tag =>
      match s.acc? port tag true with
      | some a =>
        match a.purpose with
        | .retireRec dep =>
          match s.dep? dep with
          | some d =>
            let now := d.freeList.filter (sameBuf buffer)
            if d.part = p ∧ !now.isEmpty then
              (now.foldl (fun s h => s.freeOne d h) s).modDep dep fun x => { x with freeList := x.freeList.filter fun h => !sameBuf buffer h }
            else s
          | none => s
        | _ => s
      | none => s
    | _ => s) s

/-- The quotas of check 8: the journal off, LIVE_MAX, the named buffer claimed. -/
def State.quotaFault (s : State) (p : Nat) (b : DepBody) : Bool :=
  let v := s.part p
  decide (v.liveMax.toNat < (s.liveOf p).length + 1) ||
    (b.dmode == 1 && ((v.pool (poolOf b.buffer)).buf (indexOf b.buffer)).claim.isSome)

/-- A DEPOSIT of a lower stream that completes in this wclk claims the buffer first (R104). -/
def State.claimedFirst (s : State) (p : Nat) (m : Msg) (b : DepBody) : Bool :=
  b.dmode == 1 && s.pending.any fun i =>
    match i with
    | .deposit x =>
      let c := parseDeposit x.payload
      decide (x.stream < m.stream) && s.partOf x == p && c.dmode == 1 && sameBuf c.buffer b.buffer && s.portTakes x.port &&
        (s.judgeMsg 1 0 (fun t => t.depositOk p false x) x).1.isNone && decide ((s.strm x.stream.toNat).lastAcc < x.seq) &&
        (s.pendingTwin x).isNone && !s.quotaFault p c
    | _ => false

/-! ### MPORT writes of the same aclk cycle (R15, R275) -/

/-- What an MPORT write of a register orders against messages: MNT_Pp_TAIL, the EN 1 of MNT_Pp_CFG that clears TAIL, the close of
the selected stream, a journal or a pool turned off. -/
def State.orderOf (s : State) (o v : Nat) : Option MpOrder :=
  if 0x300000 ≤ o ∧ o < 0x300400 then
    let p := (o - 0x300000) / 0x20
    if o % 0x20 = 0x0C then some (.tail p (v % 4096))
    else if o % 0x20 = 0x08 ∧ bitAt v 0 then some (.tail p 0)
    else none
  else if o = 0x204004 then (if (s.strm s.fab.idx.toNat).en && !bitAt v 31 then some (.close s.fab.idx.toNat) else none)
  else if 0x040000 ≤ o ∧ o < 0x060000 then
    let p := (o - 0x040000) / 0x1000
    let r := o % 0x1000
    if r = 0x708 then (if (s.part p).jrnl.en && !bitAt v 0 && (s.liveOf p).isEmpty then some (.noJournal p) else none)
    else if 0x400 ≤ r ∧ r < 0x500 ∧ r % 0x10 = 8 then
      (if ((s.part p).pool ((r - 0x400) / 0x10)).en && !bitAt v 0 then some (.noPool p ((r - 0x400) / 0x10)) else none)
    else none
  else none

/-- The MPORT write that a command is: its aclk cycle, its register and its value. -/
def mportWriteOf : Instr → Option (Nat × Nat × Nat)
  | .mportRegisterWrite aclk off d => some (aclk, off.toNat / 4 * 4, d.toNat)
  | .mintTailWrite p aclk d => some (aclk, 0x30000C + 0x20 * p, d.toNat)
  | .mintRingEnable p w => some (w.aclk, 0x300008 + 0x20 * p, w.data.toNat)
  | .mintRingDisable p w => some (w.aclk, 0x300008 + 0x20 * p, w.data.toNat)
  | .streamClose w => some (w.aclk, 0x204004, w.data.toNat)
  | .journalDisable p w => some (w.aclk, 0x040708 + 0x1000 * p, w.data.toNat)
  | .poolDisable p n w => some (w.aclk, 0x040408 + 0x1000 * p + 0x10 * n, w.data.toNat)
  | _ => none

/-- Note what a write of an aclk cycle orders; what earlier cycles ordered is forgotten then. -/
def State.noteOrder (s : State) (aclk o v : Nat) : State :=
  match s.orderOf o v with
  | none => s
  | some x => { s with fab := { s.fab with mportOrders := (s.fab.mportOrders.filter fun y => y.1 == aclk) ++ [(aclk, x)] } }

/-- The orders of the aclk cycle, 20 pclk long, in which a message completes: taken, and of writes that wait. -/
def State.ordersAt (s : State) (pclk : Nat) : List MpOrder :=
  let queued := s.pending.filterMap fun c => (mportWriteOf c).bind fun w => (s.orderOf w.2.1 w.2.2).map fun x => (w.1, x)
  ((s.fab.mportOrders ++ queued).filter fun x => x.1 == pclk / 20).map (·.2)

/-- An MPORT write of the message's aclk cycle orders the opposite of a DEPOSIT: it takes precedence. -/
def State.depositOverruled (s : State) (p : Nat) (m : Msg) (b : DepBody) : Bool :=
  (s.ordersAt m.pclk).any fun
    | .close i => i == m.stream.toNat
    | .noJournal q => q == p
    | .noPool q n => q == p && b.dmode == 1 && n == poolOf b.buffer
    | .tail .. => false

/-- One that sets this ring's TAIL to another value overrules a MINT_TAIL. -/
def State.tailOverruled (s : State) (p v pclk : Nat) : Bool :=
  (s.ordersAt pclk).any fun
    | .tail q w => q == p && w != v % 4096
    | _ => false

/-- What a DEPOSIT that passed checks 1 to 7 does; the flag tells whether it got room (R413 injects it again otherwise). -/
def State.takeDeposit (s : State) (p : Nat) (inj : Bool) (m : Msg) : State × Bool :=
  let b := parseDeposit m.payload
  let j := (s.part p).jrnl
  if !inj && s.depositOverruled p m b then (s.refuse 1 m inj rBusy 0, false)
  else if (s.part p).split then (s.refuse 1 m inj rBusy 9, false)
  else if !j.en then (s.refuse 1 m inj rQuota 8, true)
  else if !inj && decide (m.seq.toNat ≤ (s.strm m.stream.toNat).lastAcc.toNat) then
    if j.formatting || j.replaying then (s.refuse 1 m inj rBusy 9, false) else (s.reply 1 m inj (.accept true), true)
  else
    match s.pendingTwin m with
    | some d => (s.modDep d.id fun x => { x with dupHeld := x.dupHeld ++ [(s.elapsed, m)] }, true)
    | none =>
      let s := if b.dmode = 1 then s.freesFirst p b.buffer else s
      if s.quotaFault p b || s.claimedFirst p m b then (s.refuse 1 m inj rQuota 8, true)
      else
        let (t, ok) := s.journalDeposit p inj m b
        if ok then (t, true) else (t.refuse 1 m inj rBusy 9, false)

/-- DEPOSIT (R254, R257 to R262). -/
def execDeposit (m : Msg) (s : State) : Result :=
  ingress 1 0 (fun t => t.depositOk (t.partOf m) false m) (fun t => settle s (t.takeDeposit (t.partOf m) false m).1) m s

/-! ## The record is acknowledged (R28, R259, R268, R287) -/

/-- The DEPOSIT message of a deposit, for its answer. -/
def Dep.asMsg (d : Dep) : Msg :=
  { port := d.port, pclk := 0, flags := 0, stream := d.stream, sgen := d.sgen, cls := 1, seq := d.seq, peer := d.peer, payload := [] }

/-- Write a GATE record for EVENTs that wait (R268); without room they receive BUSY. -/
def State.writeGate (s : State) (d : Dep) (bits : Half) (ms : List (Nat × Msg)) : State :=
  let s' := if s.ringRoom d.part d.ring 0 then s.writeJournal d 2 (gateBody d bits) (.gateRec d.id bits ms) else none
  match s' with
  | some t => t
  | none => ms.foldl (fun t x => t.refuse 7 x.2 false rBusy 9) s

/-- Answer a DEPOSIT held under R287, under R259. -/
def State.answerHeld (s : State) (d : Dep) (m : Msg) : State :=
  if d.sameBody (parseDeposit m.payload) then s.reply 1 m false (.accept true) else s.refuse 1 m false rMalformed 7

/-- A deposit is accepted: LAST_ACC, ACCEPT, what was held for it, and its start unless its stamp or the mint holds it. -/
def State.acceptDep (s : State) (dep : Nat) : State :=
  match s.dep? dep with
  | none => s
  | some d =>
    let s := s.modStrm d.stream.toNat fun t => { t with lastAcc := d.seq }
    let s := if d.answered then s else s.reply 1 d.asMsg d.injected (.accept false)
    let s := d.dupHeld.foldl (fun s (x : Nat × Msg) => s.answerHeld d x.2) s
    let s := d.gateWaiters.foldl (fun s (x : Nat × Msg) => s.reply 7 x.2 false (.accept false)) s
    let s := s.modDep dep fun x =>
      { x with step := .held, answered := true, dupHeld := [], gateWaiters := [], mintHeld := s.mintHolds x.part x.handle
               stampReached := !x.timed || decide (x.release.toNat ≤ s.tbu.tb.toNat) }
    let s := match s.heldFor d.stream d.sgen d.seq with
      | some h => (s.dropHeld d.stream d.sgen d.seq).writeGate d h.bits h.waiters
      | none => s
    s.depGo dep

/-- JOURNAL_WRITE_ACK (R28, R259): the memory port acknowledges a DEPOSIT record. -/
def execJournalWriteAck (port tag : Nat) (s : State) : Result :=
  onAcc s port tag true fun a =>
    match a.purpose with
    | .depositRec dep =>
      let base := s.landAcc a
      settle base (base.acceptDep dep)
    | _ => .fault .unsolicited

/-- The GATE EVENTs of a deposit that wait for a record: held with their bits, with the deposit being journaled, or for a GATE record
being written. -/
inductive GateWait where
  | held (h : HeldGate)
  | dep (d : Dep)
  | acc (a : Acc)

/-- The arrival of the oldest of them. -/
def GateWait.since : GateWait → Option Nat
  | .held h => h.waiters.head?.map (·.1)
  | .dep d => d.gateWaiters.head?.map (·.1)
  | .acc a => match a.purpose with | .gateRec _ _ ms => ms.head?.map (·.1) | _ => none

/-- The oldest EVENT of a list of waiting ones receives BUSY once its bound has come (R29, R256). -/
def gateLate (s : State) (ws : List (Nat × Msg)) (put : State → List (Nat × Msg) → State) : Result :=
  match ws with
  | (t, m) :: rest => whenDue s (decide (t + 1500 ≤ s.elapsed)) (settle s (put (s.refuse 7 m false rBusy 9) rest))
  | [] => .next s

/-- The EVENTs that wait for a deposit's bits to be journaled, each list with its time and where it stands. -/
def State.gateWaits (s : State) (stream : Half) (seq : Word) : List GateWait :=
  ((s.fab.heldGates.filter fun h => h.stream == stream && h.seq == seq && !h.waiters.isEmpty).map .held) ++
    ((s.deps.filter fun d => d.stream == stream && d.seq == seq && !d.gateWaiters.isEmpty).map .dep) ++
    ((s.accs.filter fun a =>
      match a.purpose with
      | .gateRec i _ ms => !ms.isEmpty && (match s.dep? i with | some d => d.stream == stream && d.seq == seq | none => false)
      | _ => false).map .acc)

/-- ACCEPT_BOUND_EXPIRY (R29, R256, R268, R287): 1.5 µs have passed since the message arrived. -/
def execAcceptBoundExpiry (kind : BoundKind) (stream : Half) (seq : Word) (s : State) : Result :=
  let late := fun (t : Nat) => decide (t + 1500 ≤ s.elapsed)
  let pending := s.deps.find? fun d => d.stream == stream && d.seq == seq && d.step == .journal
  match kind with
  | .journal =>
    match pending with
    | some d =>
      whenDue s (!d.answered && late d.arrived)
        (settle s ((s.refuse 1 d.asMsg d.injected rBusy 9).modDep d.id fun x => { x with answered := true }))
    | none => .next s
  | .held =>
    match pending with
    | some d =>
      match d.dupHeld with
      | (t, m) :: rest =>
        whenDue s (late t) (settle s ((s.refuse 1 m false rBusy 9).modDep d.id fun x => { x with dupHeld := rest }))
      | [] => .next s
    | none => .next s
  | .gate =>
    match (s.gateWaits stream seq).find? fun w => w.since.any late with
    | some (.held h) =>
      gateLate s h.waiters fun t rest => { t with fab := { t.fab with
        heldGates := modFirst (·.names h.stream h.sgen h.seq) (fun x => { x with waiters := rest }) t.fab.heldGates } }
    | some (.dep d) => gateLate s d.gateWaiters fun t rest => t.modDep d.id fun x => { x with gateWaiters := rest }
    | some (.acc a) =>
      match a.purpose with
      | .gateRec i bits ms =>
        gateLate s ms fun t rest => t.modAcc a.port a.tag true fun x => { x with purpose := .gateRec i bits rest }
      | _ => .next s
    | none => .next s

/-! ## GATE EVENT (R268) -/

/-- Hold gate bits for a deposit that has not come. -/
def State.holdGate (s : State) (m : Msg) (bits : Half) : State :=
  let old := (s.heldFor m.stream m.sgen m.seq).getD { stream := m.stream, sgen := m.sgen, seq := m.seq, bits := 0, waiters := [] }
  let new := { old with bits := old.bits ||| bits, waiters := old.waiters ++ [(s.elapsed, m)] }
  let t := s.dropHeld m.stream m.sgen m.seq
  { t with fab := { t.fab with heldGates := t.fab.heldGates ++ [new] } }

/-- What a GATE EVENT that passed checks 1 to 7 does. -/
def State.takeGate (s : State) (p : Nat) (inj : Bool) (m : Msg) : State × Bool :=
  let bits : Half := BitVec.ofNat 16 (fieldAt m.payload 2 2)
  let last := (s.strm m.stream.toNat).lastAcc.toNat
  let j := (s.part p).jrnl
  if j.formatting || j.replaying then (s.refuse 7 m inj rBusy 9, false)
  else
    match (s.depNamed m).filter fun d => d.step != .journal with
    | some d =>
      if d.receiptOut then (s.reply 7 m inj (.accept false), true)
      else (s.writeGate d bits (if inj then [] else [(s.elapsed, m)]), true)
    | none =>
      if m.seq.toNat ≤ last then (s.reply 7 m inj (.accept false), true)
      else if m.seq.toNat ≤ last + 8 then (s.holdGate m bits, true)
      else (s.refuse 7 m inj rBusy 9, false)

/-- EVENT_GATE (R267, R268). -/
def execEventGate (m : Msg) (s : State) : Result :=
  ingress 7 0 (fun _ => byteAt m.payload 0 == 1) (fun t => settle s (t.takeGate (t.partOf m) false m).1) m s

/-- GATE_RECORD_ACK (R268): the bits are journaled; they enter the gate word and the EVENTs get their ACCEPT. -/
def execGateRecordAck (port tag : Nat) (s : State) : Result :=
  onAcc s port tag true fun a =>
    match a.purpose with
    | .gateRec dep bits ms =>
      let base := s.landAcc a
      let t := (base.modDep dep fun d => { d with gate := d.gate ||| bits }).gateChanged dep
      let t := ms.foldl (fun t x => t.reply 7 x.2 false (.accept false)) t
      settle base (t.beginNew (t.newSince base.nextUid))
    | _ => .fault .unsolicited

/-! ## Retirement (R105, R252, R265, R266, R280 to R284) -/

/-- HEALTH events that name a deposit by stream and SEQ (Table 10.8). -/
def State.depEvent (s : State) (code sev : Nat) (d : Dep) : State :=
  s.health code (unitCluster d.home) d.part sev ([0, 0, 0, 0] ++ leBytes 2 d.stream.toNat ++ [0, 0] ++ leBytes 4 d.seq.toNat)

/-- Write the RETIRE record of a deposit with the last handles of its list. -/
def State.writeRetire (s : State) (d : Dep) : Option State :=
  let rest := d.freeList.drop (12 * ((d.freeList.length - 1) / 12))
  s.writeJournal d 4 (freeBody d d.rreason rest) (.retireRec d.id)

/-- Write the FREE records, 12 handles each, or the RETIRE record at once. -/
def State.writeFrees (s : State) (d : Dep) : Option State :=
  let n := (d.freeList.length - 1) / 12
  if n = 0 then s.writeRetire d
  else (List.range n).foldl (fun t i =>
    t.bind fun t => t.writeJournal d 3 (freeBody d 0 ((d.freeList.drop (12 * i)).take 12)) (.freeRec d.id)) (some s)

/-- Begin the next retirement of a home cluster's agent, one at a time (R281). -/
def State.retireNext (s : State) (home : Nat) : State :=
  if s.deps.any fun d => d.home == home && d.retireOn then s
  else
    match s.deps.find? fun d => d.home == home && d.step == .retiring with
    | none => s
    | some d =>
      match s.writeFrees d with
      | some t => t.modDep d.id fun x => { x with retireOn := true }
      | none => s

/-- A deposit's receipt is acknowledged, or given up: its records are written next. -/
def State.retire (s : State) (d : Dep) (reason : Byte) (frees : List Word) : State :=
  (s.modDep d.id fun x => { x with step := .retiring, rreason := reason, freeList := frees }).retireNext d.home

/-- The handles of a RECEIPT_ACK (R266). -/
def handlesOf (bs : List Byte) : List Word :=
  (List.range (byteAt bs 0).toNat).map fun j => BitVec.ofNat 32 (fieldAt bs (4 + 4 * j) 4)

/-- What a RECEIPT_ACK that passed its checks does. -/
def State.takeReceiptAck (s : State) (m : Msg) : State :=
  match (s.depNamed m).filter fun d => d.step == .receipt with
  | some d => s.retire d 0 (handlesOf m.payload)
  | none => s

/-- RECEIPT_ACK (R255, R266). A live one on a stream of a replaying partition is discarded (R413). -/
def execReceiptAck (m : Msg) (s : State) : Result :=
  ingress 5 0 (fun _ => true)
    (fun t => settle s (if (t.part (t.partOf m)).replay.isSome then t else t.takeReceiptAck m)) m s

/-- A closing stream closes once every deposit it accepted is retired (R252). -/
def State.settleStream (s : State) (stream : Half) : State :=
  if (s.strm stream.toNat).closing && !(s.deps.any fun d => d.stream == stream) then
    s.modStrm stream.toNat fun t => { t with closing := false }
  else s

/-- A draining partition without live deposit and mint command enters ISOLATED (R395). -/
def State.settleDrain (s : State) (p : Nat) : State :=
  if (s.part p).st == .draining && (s.liveOf p).isEmpty && (match s.mint.cur with | some c => c.part != p | none => true) then
    s.modPart p fun v => { v with st := .isolated }
  else s

/-- A replayed deposit is retired: the last one of a partition raises REPLAY_DONE (R307). -/
def State.settleReplay (s : State) (d : Dep) : State :=
  let j := (s.part d.part).jrnl
  if d.replayed && j.replayLeft.contains d.id then
    let left := j.replayLeft.filter (· != d.id)
    let s := s.modPart d.part fun v => { v with jrnl := { v.jrnl with replayLeft := left } }
    if left.isEmpty then s.health 0x0C (unitPart d.part) d.part 0 (leBytes 4 j.replayed) else s
  else s

/-- A deposit is retired: frees, slots, stream, partition, the agent's next retirement. -/
def State.retired (s : State) (d : Dep) : State :=
  let s := d.freeList.foldl (fun s h => s.freeOne d h) s
  let s := (s.modPart d.part Part.settlePools).dropDep d.id
  let note : Sent := { dep := d.id, part := d.part, home := d.home, stream := d.stream, sgen := d.sgen, seq := d.seq, ran := d.ran }
  let s := if d.ran.isEmpty then s else { s with delivered := s.delivered ++ [note] }
  (((s.settleReplay d).settleStream d.stream).settleDrain d.part).retireNext d.home

/-- RETIRE_RECORD_ACK (R283). -/
def execRetireRecordAck (port tag : Nat) (s : State) : Result :=
  onAcc s port tag true fun a =>
    match a.purpose with
    | .retireRec dep =>
      let base := s.landAcc a
      match base.dep? dep with
      | some d => settle base (base.retired d)
      | none => .next base
    | _ => .fault .unsolicited

/-! ## Refused and unanswered receipts (R265, R284) -/

/-- Take back the HIT messages of a deposit that have not begun to leave. -/
def State.stopHits (s : State) (d : Dep) : State :=
  { s with fab := { s.fab with egressQ := s.fab.egressQ.filter fun x =>
      !((x.1.type == 0x06 || x.1.type == 0x04) && x.1.stream == d.stream && x.1.sgen == d.sgen && x.1.seq == d.seq &&
        x.2 == flitsOf x.1.payload.length) } }

/-- The message that an endpoint's REFUSE names is outstanding: a RECEIPT sent, or a HIT of a deposit whose delivery goes on. -/
def Dep.refusable (d : Dep) (rtype : Byte) : Bool :=
  (rtype == 4 && d.step == .receipt) || (rtype == 6 && d.dmode == 0 && !d.redirected)

/-- A HIT or RECEIPT was refused: the RECEIPT goes to the source of the DEPOSIT, or, refused there too, the deposit is
retired without acknowledgement (R265). -/
def State.receiptRefused (s : State) (d : Dep) : State :=
  if d.redirected then (s.depEvent 0x15 2 d).retire d 1 []
  else
    let s := ((s.stopHits d).depEvent 0x14 1 d).modDep d.id fun x => { x with redirected := true, stopDelivery := true, resends := 0 }
    if d.step == .receipt then s.sendReceipt d.id else s

/-- ENDPOINT_REFUSE (R255, R261, R265): only STALE for a HIT or RECEIPT says something. -/
def execEndpointRefuse (m : Msg) (s : State) : Result :=
  ingress 3 0 (fun _ => true)
    (fun t =>
      match (t.depNamed m).filter Dep.outstanding with
      | some d =>
        if byteAt m.payload 0 == 3 && d.refusable (byteAt m.payload 1) then settle s (t.receiptRefused d)
        else settle s t
      | none => settle s t) m s

/-- RECEIPT_TIMEOUT (R284): 1 ms without RECEIPT_ACK. -/
def execReceiptTimeout (dep : Nat) (s : State) : Result :=
  match s.dep? dep with
  | none => .next s
  | some d =>
    whenDue s (s.isOpen && d.step == .receipt && decide (d.receiptAt + 1000000 ≤ s.elapsed))
      (settle s (if d.resends < 3 then (s.modDep dep fun x => { x with resends := x.resends + 1 }).sendReceipt dep
                 else s.receiptRefused d))

end Sys2Proof.Machine
end

