-- ==== Sys2Proof/Machine/Links.lean ====
section
/-! DEFINITION. Die links: forward batches, visitors and returns, routes, fences, and what a link that breaks costs
(R49, R145 to R157, R271). -/

namespace Sys2Proof.Machine

open Sys2Proof

/-! ## What the engine reports of itself (R5 to R8) -/

/-- GEN_ID, GEN_REV, GEN_CFG and GEN_INST (Tables 0.6 to 0.9). -/
def genId : Nat := 0x4C570401
def genRev : Nat := 0x02010203

def State.genCfg (s : State) : Nat := bit s.build.plru * 2 ^ 12 + s.build.dlinks % 8 * 2 ^ 8 + s.build.clusters % 256
def State.genInst (s : State) : Nat := s.boot.inst.toNat

/-! ## Dropping a range from the node caches (R49, R271) -/

/-- Lines of a partition in the node caches of the instance. -/
def State.cachedLines (s : State) (part : Nat) : List Nat :=
  let of := fun (c : Cache) => (c.lines.filter (·.part == part)).map (·.line)
  ((s.clusters.map fun e => of e.2.bank.l2 ++ of e.2.l1).flatten ++ (s.slices.map fun e => of e.2.l0).flatten).eraseDups

/-- Drop every copy of the lines of a range from L0, L1 and L2, by whichever window the range reaches them; owned data go to
memory first (R331). -/
def State.fenceRange (s : State) (part base lines : Nat) : State :=
  let inside := fun (l : Nat) => ((s.part part).seenAt l).any fun a => decide (base ≤ a) && decide (a < base + 64 * lines)
  ((s.cachedLines part).filter inside).foldl (fun s l => (s.recallNow l).dropAll l) s

/-- The other dies that the sharding record of the image at a base names (R49, R73); no check of R44 or R75 is asked of it, and
lines outside the windows name none. -/
def State.fenceDies (s : State) (part base : Nat) : List Nat :=
  let at_ := fun (k : Nat) => (s.translate part (base + 64 * k) 64 false).map fun a => s.readSys a 64
  match at_ 0 with
  | none => []
  | some l =>
    if byteAt l 0 != 0x40 then []
    else
      let run := (List.range (fieldAt l 18 2)).map fun i => at_ (fieldAt l 20 4 + i)
      let bs := payloadOf ((run.takeWhile Option.isSome).filterMap id)
      let n := min (fieldAt bs 0 2) ((bs.length - 16) / 16)
      (((shardEntries bs n).map (·.die)).eraseDups).filter (· != s.die)

/-- The body check of a TREE_FENCE: LINES is not 0; its reserved bytes are ignored (R11, R271). -/
def fenceOk (b : List Byte) : Bool := fieldAt b 8 4 != 0

/-- Tell the other member dies of a fence, and answer it. -/
def State.fenceOut (s : State) (p : Nat) (inj : Bool) (m : Msg) (dies : List Nat) : State :=
  (dies.foldl (fun s d => s.sendPkt d 7 0 p 0 0 m.payload) s).reply 0x0B m inj (.accept false)

/-- TREE_FENCE (R49, R271). -/
def execTreeFence (m : Msg) (s : State) : Result :=
  let at0 := fieldAt m.payload 0 8
  ingress 0x0B 0 (fun _ => fenceOk m.payload)
    (fun s =>
      let p := s.partOf m
      let base := s.fenceRange p at0 (fieldAt m.payload 8 4)
      settle base (base.fenceOut p false m (s.fenceDies p at0))) m s

/-! ## Receiving packets (R150, R157) -/

/-- Guard for a packet addressed to this die. -/
def State.takesPkt (s : State) (p : Packet) : Bool := s.isOpen && s.linkOpen p.link && p.dst.toNat % 128 == s.die

def onLink (s : State) (l : Nat) (r : Result) : Result := onUnit (decide (l < s.build.dlinks)) r

/-- FENCE_PACKET (R49). -/
def execFencePacket (p : Packet) (s : State) : Result :=
  onLink s p.link (whenDue s (s.takesPkt p)
    (let base := s.fenceRange (p.part.toNat % 32) (fieldAt p.payload 0 8) (fieldAt p.payload 8 4)
     settle base base))

/-! ## Member records (R151) -/

/-- A member record read from a packet. -/
structure MemRec where
  bytes : List Byte
  qid : Word
  bounce : Nat
  isNew : Bool
  stack : List (Nat × Word)
  line : Nat
  key : Word
  visits : Nat
  rngWord : Nat
  held : List Held
  depRef : Dword
  handle : Handle
  deriving DecidableEq, Repr

/-- A held result from its 32 bytes (Table 3.7). -/
def heldOf (bs : List Byte) : Held :=
  { prim := BitVec.ofNat 32 (fieldAt bs 8 4), leaf := BitVec.ofNat 32 (fieldAt bs 12 4), x0 := BitVec.ofNat 32 (fieldAt bs 16 4)
    x1 := BitVec.ofNat 32 (fieldAt bs 20 4), x2 := BitVec.ofNat 32 (fieldAt bs 24 4), ord := byteAt bs 28, flags := byteAt bs 29 }

/-- The member records of a payload, up to `n` of them. -/
def memberRecs : Nat → List Byte → List MemRec
  | 0, _ => []
  | n + 1, bs =>
    let ns := fieldAt bs 54 2
    let nh := fieldAt bs 76 2
    let st := bs.drop 128
    let hs := st.drop (8 * ns)
    { bytes := bs.take 48, qid := BitVec.ofNat 32 (fieldAt bs 48 4), bounce := (byteAt bs 52).toNat
      isNew := bitAt (byteAt bs 53).toNat 1
      stack := (List.range ns).map fun i => (fieldAt st (8 * i) 4, BitVec.ofNat 32 (fieldAt st (8 * i + 4) 4))
      line := fieldAt bs 56 4, key := BitVec.ofNat 32 (fieldAt bs 60 4), visits := fieldAt bs 68 4, rngWord := fieldAt bs 72 4
      held := (List.range nh).map fun i => heldOf ((hs.drop (32 * i)).take 32)
      depRef := BitVec.ofNat 64 (fieldAt bs 80 8)
      handle := { base := BitVec.ofNat 64 (fieldAt bs 88 8), epoch := BitVec.ofNat 32 (fieldAt bs 96 4)
                  treeId := BitVec.ofNat 16 (fieldAt bs 100 2) } } :: memberRecs n (hs.drop (32 * nh))

/-- Whether the line a query would read next is a leaf line, by its KIND (Table 2.12): a record does not say. -/
def State.peekLeaf (s : State) (q : Query) (line : Nat) : Bool :=
  match s.translate q.part (s.imgAddr q line) 64 false with
  | some a => s.readByte a == 0x10
  | none => false

/-- A child from its line and key: what the home die knew of it, else its T_out stays unknown (log 28). -/
def State.childOf (s : State) (q : Query) (known : List Child) (x : Nat × Word) : Child :=
  (known.find? fun c => c.line == x.1 && c.key == x.2).getD
    { line := x.1, key := x.2, leaf := s.peekLeaf q x.1, known := false }

/-- Split a stack, bottom first, into the lines of the spill slot and the children on chip, top first (R135). -/
def splitStack (cs : List Child) : List Child × List Child :=
  let k := if cs.isEmpty then 0 else (cs.length - 1) / 8 * 8
  (cs.take k, (cs.drop k).reverse)

/-- Write children into a query's spill slot from line `j` (R135, R146); `none` is a window miss. -/
def State.writeSpill (s : State) (q : Query) : Nat → List (List Child) → Option State
  | _, [] => some s
  | j, cs :: rest =>
    let a := s.spillAddr q j
    let data := (cs.map fun c => leBytes 4 c.line ++ leBytes 4 c.key.toNat).flatten
    match s.translate q.part a data.length true with
    | none => none
    | some sys => (s.issue true q.part sys a data (.spillWr q.uid)).writeSpill q (j + 1) rest

/-- Give a query a stack from a record; what it had asked of its spill slot before serves nobody any more (R135). -/
def State.loadStack (s : State) (u : Nat) (cs : List Child) : State :=
  match s.query? u with
  | none => s
  | some q =>
    let (sp, st) := splitStack cs
    let s := (s.cancelAccs fun a => a.purpose == Purpose.spillRd u || a.purpose == Purpose.spillWr u).modQuery u fun q =>
      { q with stack := st, spilled := sp }
    match s.writeSpill q 0 (chunks 8 sp.length sp) with
    | some s => s
    | none => s.failQuery u stMemError

/-! ## Leaving (R145, R146) -/

/-- Run queries locally, the line they popped included (R154). -/
def State.runLocal (s : State) (us : List Nat) : State :=
  us.foldl (fun s u => (s.modQuery u fun q => { q with st := .ready }).joinQueue u) s

/-- A batch runs locally: CLR_FALLBACK counts it (Table 5.11). -/
def State.fallBack (s : State) (m : Nat) (us : List Nat) : State :=
  (s.modCluster m fun c => { c with fallback := satInc c.fallback 1 }).runLocal us

/-- Send a FORWARD of the members as they are frozen. -/
def State.sendForward (s : State) (t : Transit) : State :=
  let qs := t.members.filterMap s.query?
  let recs := qs.filterMap fun q => q.geo.map fun g => memberRecord g q false
  s.sendPkt t.die 1 recs.length t.part 0 t.xfer recs.flatten

/-- Write a member's on-chip children to its spill slot (R146). -/
def State.freeze (s : State) (xfer : Word) (u : Nat) : State :=
  match s.query? u with
  | none => s
  | some q =>
    match s.writeSpill q (q.spilled.length / 8) (if q.stack.isEmpty then [] else [q.stack.reverse]) with
    | some s => s.modQuery u fun q => { q with st := .transit xfer }
    | none => s.failQuery u stMemError

/-- The transits still waiting for a member set. -/
def State.frozen (s : State) (xfer : Word) : List Nat :=
  (s.queries.filter fun q => q.st == .transit xfer && q.visitor.isNone).map (·.uid)

/-- FORWARD_RELEASE (R145, R146): a forward queue of 16, or one whose oldest has waited AGE_LIMIT, sends a batch; with no
way to the die its queries run locally (R154). -/
def execForwardRelease (m die part : Nat) (s : State) : Result :=
  onUnit (decide (m < s.nclusters))
    (match (s.cluster m).fqs.find? fun f => f.die == die && f.part == part with
     | none => .next s
     | some f =>
       let batch := (f.members.take 16).map (·.uid)
       let rest := f.members.drop 16
       let mine := fun (f : FwdQueue) => f.die == die && f.part == part
       let s1 := s.modCluster m fun c =>
         let left := modFirst mine (fun f => { f with members := rest }) c.fqs
         { c with fqs := left.filter fun f => !f.members.isEmpty }
       let aged := match f.members.head? with
         | some x => decide (x.arrived + (s.cluster m).ageLimit ≤ s.wclk)
         | none => false
       if !s.canForward die then whenDue s s.isOpen (settle s (s1.fallBack m batch))
       else whenDue s (s.isOpen && (decide (16 ≤ f.members.length) || aged))
         (let x := s.dom.nextXfer
          let s2 := batch.foldl (fun s u => s.freeze x u) { s1 with dom := { s1.dom with nextXfer := x + 1 } }
          let t : Transit := { xfer := x, die := die, link := (s.liveRoute die).getD 0, part := part, cluster := m
                               members := s2.frozen x, sentAt := s.elapsed }
          let s3 := { s2 with dom := { s2.dom with transits := s2.dom.transits ++ [t] } }
          settle s ((s3.modCluster m fun c => { c with fwdout := satInc c.fwdout 1 }).sendForward t)))

/-! ## On the home die (R147, R148, R153) -/

def State.transit? (s : State) (x : Word) : Option Transit := s.dom.transits.find? (·.xfer == x)
def State.modTransit (s : State) (x : Word) (f : Transit → Transit) : State :=
  { s with dom := { s.dom with transits := modFirst (·.xfer == x) f s.dom.transits } }
def State.dropTransit (s : State) (x : Word) : State :=
  { s with dom := { s.dom with transits := s.dom.transits.filter (·.xfer != x) } }

/-- A packet of the visitor die concerns a batch: the die and the partition are the batch's. -/
def Transit.names (t : Transit) (p : Packet) : Bool := t.die == p.src.toNat % 128 && t.part == p.part.toNat % 32

/-- Declare a batch lost: BATCH_LOST, and its members run from their transit state (R153, R154). -/
def State.loseBatch (s : State) (t : Transit) : State :=
  ((s.dropTransit t.xfer).health 0x0B (unitLink t.link) t.part 1 (leBytes 4 t.xfer.toNat ++ [BitVec.ofNat 8 t.die])).fallBack
    t.cluster t.members

def State.loseBatches (s : State) (lost : Transit → Bool) : State := (s.dom.transits.filter lost).foldl State.loseBatch s

/-- FWD_ACK (R147). -/
def execFwdAck (p : Packet) (s : State) : Result :=
  onLink s p.link (whenDue s (s.takesPkt p) (settle s (s.modTransit p.xfer fun t =>
    if t.names p then { t with acked := true } else t)))

/-- FWD_NACK (R147): again 2 µs of TB later, or locally after the fourth. -/
def execFwdNack (p : Packet) (s : State) : Result :=
  onLink s p.link
    (match s.transit? p.xfer with
     | none => .next s
     | some t =>
       whenDue s (s.takesPkt p && t.names p)
         (if 3 ≤ t.nacks then settle s ((s.dropTransit t.xfer).fallBack t.cluster t.members)
          else settle s (s.modTransit t.xfer fun t => { t with nacks := t.nacks + 1, resendAt := some (s.elapsed + 2000) })))

/-- FORWARD_RESEND (R147): the batch leaves again, on the link of the present route. -/
def execForwardResend (x : Word) (s : State) : Result :=
  match s.transit? x with
  | none => .next s
  | some t =>
    match t.resendAt with
    | none => .next s
    | some at_ =>
      whenDue s (s.isOpen && decide (at_ ≤ s.elapsed))
        (let t' := { t with resendAt := none, sentAt := s.elapsed, link := (s.liveRoute t.die).getD t.link }
         settle s ((s.modTransit x fun _ => t').sendForward t'))

/-- FWD_ACK_TIMEOUT (R153): 10 µs after the FORWARD left. -/
def execFwdAckTimeout (x : Word) (s : State) : Result :=
  match s.transit? x with
  | none => .next s
  | some t =>
    whenDue s (s.isOpen && !t.acked && t.resendAt.isNone && decide (t.sentAt + 10000 ≤ s.elapsed)) (settle s (s.loseBatch t))

/-- The secondaries of a RETURN that a member staged on the visitor. -/
def stagedFor (q : Query) (recs : List MemRec) : List (List Byte) :=
  (recs.filter fun r => r.isNew && r.depRef == q.depRef && r.bounce == q.bounce + 1 &&
    ((List.range 16).any fun c => childId q c == r.qid)).map (·.bytes)

/-- The volume that a held result of a MARCH member stands for, with its payload read at the home die; none where a line of it is not
current (log 29). -/
def State.volOf (s : State) (q : Query) (h : Held) : Option Vol :=
  let line := fun (k : Nat) => (s.translate q.part (s.imgAddr q k) 64 false).bind fun a =>
    let l := s.readSys a 64
    match epochAge (lineTag l) q.handle.epoch with | .current => some l | _ => none
  match (line h.leaf.toNat).bind (parseLeaf q.hdr h.leaf.toNat) with
  | some f =>
    if f.runOk q.hdr then
      ((lineRun f.recBase f.recLines).mapM line).map fun ls => ⟨f.addr, h.x0, h.x1, h.prim, f.type == 8, payloadOf ls⟩
    else none
  | none => none

/-- The held results and volumes a returned member carries, with those beyond the 1,024 of its record that stayed at home. -/
def State.heldBack (s : State) (g : Geo) (q : Query) (r : MemRec) : Option (List Held × List Vol) :=
  if g.kind == .march then (r.held.mapM (s.volOf q)).map fun vs => (q.held, vs)
  else some (r.held ++ q.held.drop 1024, q.vols)

/-- The record of a RETURN that is a member's own. -/
def MemRec.of (r : MemRec) (q : Query) : Bool := !r.isNew && r.depRef == q.depRef && r.qid == q.qid && r.bounce == q.bounce

/-- One member comes home (R148). Where it needs the T_out of a NEURAL child that only the visitor knew, or a volume that cannot be
read, its walk goes on from its transit state instead, as R143 lets it (log 28, log 29). A line of the die it comes from is read
here, since the member would come back again. -/
def State.comeHome (s : State) (src : Nat) (recs : List MemRec) (u : Nat) : State :=
  match s.query? u with
  | none => s
  | some q =>
    match q.geo, recs.find? (·.of q) with
    | some g, some r =>
      let child := s.childOf q (q.next :: (q.stack ++ q.spilled))
      let cs := r.stack.map child
      let next := if r.line = 0 then { line := 0, key := 0 } else child (r.line, r.key)
      let blind := (next :: cs).any fun c => !c.known && s.neuralChild q c
      match blind, s.heldBack g q r with
      | false, some (held, vols) =>
        let s := s.modQuery u fun q =>
          { q with st := .ready, next := next, held := held, vols := vols, visits := r.visits, rngWord := r.rngWord
                   staged := q.staged ++ stagedFor q recs }
        let s := s.loadStack u cs
        if (s.query? u).isNone then s
        else if r.line = 0 then (if g.kind == .march then s.modQuery u fun q => { q with st := .march } else s.endWalk u)
        else if (s.remoteLine q.hdr r.line).any fun e => e.die == src then s.runLocal [u]
        else s.dispatchPop u
      | _, _ => s.runLocal [u]
    | _, _ => s.runLocal [u]

/-- RETURN (R148): the first RETURN of a live transit replaces the members' transit state; another is ignored. -/
def execFwdReturn (p : Packet) (s : State) : Result :=
  onLink s p.link
    (match s.transit? p.xfer with
     | none => .next s
     | some t =>
       whenDue s (s.takesPkt p && t.names p)
         (let recs := memberRecs p.nmemb.toNat p.payload
          let s1 := (s.dropTransit t.xfer).sendPkt t.die 5 0 t.part 0 t.xfer []
          let s2 := t.members.foldl (fun s u => s.comeHome t.die recs u) s1
          settle s (s2.beginNew (s2.newSince s.nextUid))))

/-! ## On the visitor die (R147, R148, R155) -/

/-- Free the contexts of visitors, chosen by home die, transit ID and partition (R148, R155). -/
def State.dropVisitors (s : State) (gone : Nat → Word → Nat → Bool) : State :=
  let us := (s.queries.filter fun q => match q.visitor with | some (h, x) => gone h x q.part | none => false)
  let deps := us.map (·.dep)
  let s := s.discard fun u => us.any (·.uid == u)
  s.dropCtxs fun c => deps.contains c.dep

/-- Discard the visitors whose home die cannot be reached (R155). -/
def State.dropStranded (s : State) : State := s.dropVisitors fun h _ _ => (s.liveRoute h).isNone

/-- RET_ACK (R148). -/
def execRetAck (p : Packet) (s : State) : Result :=
  onLink s p.link (whenDue s (s.takesPkt p)
    (settle s (s.dropVisitors fun h x part => h == p.src.toNat % 128 && x == p.xfer && part == p.part.toNat % 32)))

/-- The cluster that takes `k` visitors: lowest WAITING with room within VISIT_MAX (R147). -/
def State.visitCluster (s : State) (k : Nat) : Option Nat :=
  let ok := (List.range s.nclusters).filter fun r => !(s.cluster r).retired && decide (0 < s.contexts r) &&
    decide (100 * (s.visitors r + k) ≤ (s.cluster r).visitMax.toNat * s.contexts r)
  (sortBy (fun a b => decide ((s.cluster a).waiting < (s.cluster b).waiting)) ok).head?

/-- Place members one by one, each with the header of its image; `none` when a context is wanting. The task graph is the one DEP_REF
names (log 28). -/
def State.placeVisitors (s : State) (r part run home : Nat) (xfer : Word) : List (MemRec × ImgHdr) → Option State
  | [] => some s
  | (v, h) :: rest =>
    match s.freeSlice r part run with
    | none => none
    | some n =>
      let q : Query := { uid := s.nextUid, dep := s.nextDep, part := part, qid := v.qid, bounce := v.bounce, bytes := v.bytes
                         handle := v.handle, hdr := h, graphId := v.depRef.toNat % 256, cluster := r, slice := n
                         slot := s.freeSlot part, visits := v.visits, rngWord := v.rngWord, run := run
                         depRef := v.depRef, visitor := some (home, xfer) }
      let march : Bool := match q.geo with | some g => g.kind == .march | none => false
      match (if march then v.held.mapM (s.volOf q) else some []) with
      | none => none
      | some vols =>
        let q := { q with held := if march then [] else v.held, vols := vols, next := s.childOf q [] (v.line, v.key) }
        ((s.addQuery q).loadStack q.uid (v.stack.map (s.childOf q []))).placeVisitors r part run home xfer rest

/-- The answer to a FORWARD: the state with every member placed, or the ARG of FWD_NACK. A member whose image header or volumes do
not serve counts as one without a context (log 28). -/
def State.takeVisitors (s : State) (p : Packet) : Except Nat State :=
  let part := p.part.toNat % 32
  let recs := memberRecs p.nmemb.toNat p.payload
  let judged := recs.mapM fun v => match s.judgeImage part v.handle with | .ok h => some (v, h) | _ => none
  if (s.part part).st != .loaded then .error 2
  else
    match s.visitCluster recs.length, judged with
    | some r, some vs =>
      let run := bit ((s.part part).lockEn && (s.part part).lockRole)
      match s.placeVisitors r part run (p.src.toNat % 128) p.xfer vs with
      | some s => .ok { s with nextDep := s.nextDep + 1 }
      | none => .error 1
    | _, _ => .error 1

/-- FORWARD (R147). -/
def execForward (p : Packet) (s : State) : Result :=
  let home := p.src.toNat % 128
  onLink s p.link (whenDue s (s.takesPkt p)
    (match s.takeVisitors p with
     | .error e => settle s (s.sendPkt home 3 0 (p.part.toNat % 32) e p.xfer [])
     | .ok s1 =>
       let s2 := s1.sendPkt home 2 0 (p.part.toNat % 32) 0 p.xfer []
       settle s ((s2.newSince s.nextUid).foldl State.dispatchPop s2)))

/-! ## Routes and links (R152 to R157) -/

/-- Stop forwarding to dies (R154). -/
def State.markDown (s : State) (dies : List Nat) : State :=
  let keep := s.dom.down.filter fun d => !dies.contains d.1
  { s with dom := { s.dom with down := keep ++ dies.map fun d => (d, s.tbu.tb) } }

/-- ROUTE_DOWN (R153, R155): the die it names cannot be reached. -/
def execRouteDown (p : Packet) (s : State) : Result :=
  let die := p.arg.toNat % 128
  onLink s p.link (whenDue s (s.takesPkt p)
    (settle s (((s.markDown [die]).loseBatches fun t => t.die == die).dropVisitors fun h _ _ => h == die)))

/-- A TYPE that Table 5.6 does not list. -/
def reservedPkt (type : Byte) : Bool := type == 0 || decide (8 < type.toNat)

/-- A packet of a reserved TYPE is discarded and counted (R150). -/
def State.badPkt (s : State) (l : Nat) : State := s.modLink l fun k => { k with badpkt := satAdd 255 k.badpkt 1 }

/-- PACKET_RELAY (R150, R152): a packet for another die leaves on its route unchanged, or ROUTE_DOWN goes to every die with a
valid route; a reserved TYPE goes nowhere. A route over a link that carries no packets counts as none (log 30). HELLO concerns one
link and is not relayed. -/
def execPacketRelay (type : Byte) (p : Packet) (s : State) : Result :=
  let dst := p.dst.toNat % 128
  onLink s p.link (whenDue s (s.linkOpen p.link && dst != s.die && type != 8)
    (if reservedPkt type then settle s (s.badPkt p.link)
     else
       match s.liveRoute dst with
       | some l =>
         let out : OutPkt := { link := l, type := type, nmemb := p.nmemb, src := p.src, dst := p.dst, part := p.part, arg := p.arg
                               xfer := p.xfer, payload := p.payload }
         settle s { s.act 9 (ceilDiv (16 + p.payload.length) 64) with dom := { s.dom with sent := s.dom.sent ++ [out] } }
       | none =>
         settle s (((List.range 128).filter fun d => (s.routeTo d).isSome && d != s.die).foldl
           (fun s d => s.sendPkt d 6 0 0 dst 0 []) s)))

/-- RESERVED_PACKET (R150). -/
def execReservedPacket (type : Byte) (p : Packet) (s : State) : Result :=
  onLink s p.link (whenDue s ((s.link p.link).up && reservedPkt type) (settle s (s.badPkt p.link)))

/-- Dies whose route leaves on a link. -/
def State.diesOn (s : State) (l : Nat) : List Nat := (List.range 128).filter fun d => s.routeTo d == some l

/-- A link leaves the active state (R153 to R155). -/
def State.linkLeaves (s : State) (l : Nat) : State :=
  if (s.link l).up then
    let s := s.modLink l fun k => { k with up := false, helloIn := false, helloOut := false, downEvt := true, downs := satAdd 255 k.downs 1 }
    let dies := s.diesOn l
    ((s.markDown dies).loseBatches fun t => t.link == l).dropStranded
  else s

/-- LINK_DOWN (R153). -/
def execLinkDown (l : Nat) (s : State) : Result := onLink s l (whenDue s (s.link l).up (settle s (s.linkLeaves l)))

/-- Send HELLO on a link; DST_DIE is open before the peer has told its die (log 28). -/
def State.sendHello (s : State) (l : Nat) : State :=
  let (w, s) := s.freshWord
  let body := leBytes 4 genId ++ leBytes 4 genRev ++ leBytes 4 s.genInst ++ [0, 0, 0, 0]
  { s with dom := { s.dom with sent := s.dom.sent ++
      [{ link := l, type := 8, nmemb := 0, src := BitVec.ofNat 8 s.die, dst := BitVec.ofNat 8 (w.toNat % 128), part := 0, arg := 0
         xfer := 0, payload := body }] } }

/-- LINK_TRAINED (R157). -/
def execLinkTrained (l : Nat) (repaired : Bool) (s : State) : Result :=
  onLink s l (whenDue s ((s.link l).en && !(s.link l).up)
    (settle s ((s.modLink l fun k =>
      { k with up := true, repaired := repaired, helloIn := false, helloOut := true, peerBad := false }).sendHello l)))

/-- HELLO (R153, R155, R157): the peer's package and protocol revision are checked; the peer has reset, so batches forwarded
to it are lost and its own visitors have no home. -/
def execHello (p : Packet) (s : State) : Result :=
  let inst := fieldAt p.payload 8 4
  let die := inst % 128
  let bad := inst / 128 % 2 ^ 16 != s.pkg || byteAt p.payload 6 != 0x01
  onLink s p.link (whenDue s (s.link p.link).up
    (let s1 := s.modLink p.link fun k =>
       { k with helloIn := true, peerDie := BitVec.ofNat 7 die, peerBad := bad, helloTb := s.tbu.tb }
     settle s (((s1.loseBatches fun t => t.die == die).dropVisitors fun h _ _ => h == die).dropStranded)))

/-- FORWARDING_RESUME (R154): the first 1 ms boundary of TB after training and HELLO. -/
def execForwardingResume (die : Nat) (s : State) : Result :=
  match s.dom.down.find? (·.1 == die), s.routeTo die with
  | some (_, since), some l =>
    let from_ := max since.toNat (s.link l).helloTb.toNat
    whenDue s (s.linkOpen l && decide (from_ / 1000000 < s.tbu.tb.toNat / 1000000))
      (settle s { s with dom := { s.dom with down := s.dom.down.filter (·.1 != die) } })
  | _, _ => .next s

end Sys2Proof.Machine
end

