-- ==== Sys2Proof/Machine/Fabric.lean ====
section
/-! DEFINITION. Fabric-port events beside the messages of the ledger: credits, discarded and reserved messages, the STATUS
and IDENT replies, HEALTH (R243 to R249, R254, R272, R273). -/

namespace Sys2Proof.Machine

open Sys2Proof

/-! ## Credits (R243, R249) -/

/-- EGRESS_CREDIT_RETURN (R243): the surroundings return a credit; waiting flits of the class go out. The fabric ports answer
nothing after a thermal trip (R348). -/
def execEgressCreditReturn (port cls : Nat) (s : State) : Result :=
  onUnit (decide (port < s.nfports))
    (whenDue s ((s.port port).en && s.boot.phase != .tripped)
      (settle s ((s.modPort port fun p => { p with egress := p.egress.set cls (p.egress.get cls + 1) }).pump port cls)))

/-- Remove the first occurrence of a flit of a class from an input buffer: its home cluster and what stays. -/
def takeFlit (cls : Nat) : List (Nat × Nat) → Option (Nat × List (Nat × Nat))
  | [] => none
  | (c, m) :: t =>
    if c = cls then some (m, t)
    else (takeFlit cls t).map fun (x, r) => (x, (c, m) :: r)

/-- INGRESS_CREDIT_RETURN (R216, R243): the oldest flit of a class leaves the input buffer and its credit returns. A WORK
credit of a cluster under back-pressure is deferred; one whose back-pressure has ended returns before another flit's. -/
def execIngressCreditReturn (port cls : Nat) (s : State) : Result :=
  onUnit (decide (port < s.nfports))
    (let p := s.port port
     let s1 := ((p.buf.map (·.2)) ++ p.deferred).eraseDups.foldl State.updateBp s
     let free := p.deferred.find? fun m => !(s1.cluster m).bpHold
     match (if cls = 1 then free else none) with
     | some m =>
       whenDue s p.en (settle s (s1.modPort port fun p =>
         { p with deferred := p.deferred.erase m, ingress := p.ingress.set 1 (p.ingress.get 1 + 1) }))
     | none =>
       match takeFlit cls p.buf with
       | none => .next s
       | some (m, rest) =>
         whenDue s p.en
           (if cls = 1 ∧ (s1.cluster m).bpHold then
              settle s (s1.modPort port fun p => { p with buf := rest, deferred := p.deferred ++ [m] })
            else settle s (s1.modPort port fun p =>
              { p with buf := rest, ingress := p.ingress.set cls (p.ingress.get cls + 1) })))

/-! ## Messages that are discarded or of reserved type (R245, R247) -/

/-- MALFORMED_FLIT_SEQUENCE (R245): counted, and refused under check 2 when its header came whole; check 1 comes first.
An endpoint's REFUSE that fails a check is never answered (R255). -/
def execMalformedFlitSequence (type : Byte) (m : Msg) (headerWhole : Bool) (s : State) : Result :=
  onUnit (decide (m.port < s.nfports))
    (whenDue s (s.portTakes m.port)
      (let s1 := (s.arrive (m.cls.toNat % 4) m).modPort m.port fun p => { p with badmsg := satAdd 0xFFFF p.badmsg 1 }
       settle s (if !headerWhole || type == 0x03 then s1
                 else if !s.isOpen && !anyState type then s1.refuse type m false rNotReady 1
                 else s1.refuse type m false rMalformed 2)))

/-- Table 9.3 gives the type a class of its own but no ingress direction: ACCEPT, HIT, RECEIPT and HEALTH. -/
def egressOnly (type : Byte) : Bool := [0x02, 0x04, 0x06, 0x0E].contains type.toNat

/-- RESERVED_MESSAGE (R247): a reserved TYPE or one with no ingress direction. One of the latter that comes on another class
than Table 9.3's is discarded and counted as well (R245). -/
def execReservedMessage (type : Byte) (m : Msg) (s : State) : Result :=
  onUnit (decide (m.port < s.nfports))
    (whenDue s (s.portTakes m.port && !ingressType type)
      (let wrong := egressOnly type && m.cls.toNat % 4 != classOfType type
       let s1 := (s.arrive (m.cls.toNat % 4) m).modPort m.port fun p =>
         { p with badmsg := satAdd 0xFFFF p.badmsg (bit wrong) }
       settle s (if !s.isOpen then s1.refuse type m false rNotReady 1 else s1.refuse type m false rMalformed 2)))

/-! ## STATUS and IDENT (R272) -/

/-- The codes of Table 13.2. -/
def EngState.code : EngState → Nat
  | .fuse => 0x01
  | .load => 0x02
  | .auth => 0x03
  | .apply => 0x04
  | .bist => 0x05
  | .admitting => 0x06
  | .sync => 0x07
  | .replay => 0x08
  | .opened => 0x10
  | .failed => 0x20
  | .tripped => 0x21

/-- Active throttle reasons, bit k for reason k (R355). -/
def State.reasonBits (s : State) : Nat := ((List.range 8).map fun k => if s.pwr.active.any (·.1 == k) then 2 ^ k else 0).sum

/-- Loaded partitions, bit p for partition Pp; a draining one is still loaded for its deposits, but not for STATUS. -/
def State.loadedBits (s : State) : Nat := ((List.range 32).map fun p => if (s.part p).st == .loaded then 2 ^ p else 0).sum

/-- The STATUS reply body (Table 9.13). -/
def State.statusBody (s : State) : List Byte :=
  [BitVec.ofNat 8 s.boot.phase.code, BitVec.ofNat 8 s.boot.slot] ++ leBytes 2 s.admittedAll.length ++ leBytes 4 s.loadedBits ++
    leBytes 8 s.tbu.tb.toNat ++ leBytes 4 s.reasonBits ++ leBytes 4 s.fab.hseq.toNat ++ List.replicate 8 0

/-- The IDENT reply body. -/
def State.identBody (s : State) : List Byte := leBytes 4 genId ++ leBytes 4 genRev ++ leBytes 4 s.genCfg ++ leBytes 4 s.genInst

/-- A reply on CTRL to the requester, RESP set, STREAM, SGEN and SEQ echoed. -/
def State.respond (s : State) (type : Byte) (m : Msg) (body : List Byte) : State :=
  s.send { port := m.port, cls := 0, type := type, flags := 1, stream := m.stream, sgen := m.sgen, seq := m.seq, peer := m.peer,
           payload := body }

/-- STATUS (R272). -/
def execStatus (m : Msg) (s : State) : Result :=
  ingress 0x0C 0 (fun _ => true) (fun s => settle s (s.respond 0x0C m s.statusBody)) m s

/-- IDENT (R272). -/
def execIdent (m : Msg) (s : State) : Result :=
  ingress 0x0D 0 (fun _ => true) (fun s => settle s (s.respond 0x0D m s.identBody)) m s

/-! ## HEALTH (R273) -/

/-- The HEALTH body. -/
def Health.body (h : Health) : List Byte :=
  leBytes 2 h.code.toNat ++ leBytes 2 h.unit.toNat ++ [h.part, h.severity, 0, 0] ++ leBytes 8 h.tb.toNat ++ h.detail

/-- HEALTH_SEND (R273, R374): the oldest waiting event leaves while sending is on, in OPEN, and a CTRL credit is held. -/
def execHealthSend (s : State) : Result :=
  match s.fab.hq with
  | [] => .next s
  | h :: rest =>
    let port := s.fab.hPort.toNat
    whenDue s (s.isOpen && s.fab.hEn && (s.port port).en && decide (0 < (s.port port).egress.ctrl))
      (settle s ({ s with fab := { s.fab with hq := rest, hseq := s.fab.hseq + 1 } }.send
        { port := port, cls := 0, type := 0x0E, flags := 0, stream := 0, sgen := 0, seq := s.fab.hseq + 1
          peer := BitVec.ofNat 32 s.fab.hEp.toNat, payload := h.body }))

end Sys2Proof.Machine
end

