-- ==== Sys2Proof/Machine/Power.lean ====
section
/-! DEFINITION. The power controller: clock and supply handshakes, squalls, temperature, caps and the throttle ladder, throttle
reasons and their log, hints and drizzle (R339 to R360, R367, R368). -/

namespace Sys2Proof.Machine

open Sys2Proof

def State.modPwr (s : State) (f : Pwr → Pwr) : State := { s with pwr := f s.pwr }

/-- The controller works: an image has been applied and the engine has not stopped (R341, R348, R373). -/
def State.powered (s : State) : Bool :=
  match s.boot.phase with
  | .fuse | .load | .auth | .failed | .tripped => false
  | _ => !s.boot.porst

/-! ## Throttle reasons and their log (R355, R356) -/

def rzBudget : Nat := 1
def rzThermal : Nat := 2
def rzSquall : Nat := 3
def rzCapFloor : Nat := 4
def rzVfLimit : Nat := 5
def rzFixed : Nat := 6
def rzClkWait : Nat := 7

def State.reason (s : State) (k : Nat) : Bool := s.pwr.active.any (·.1 == k)

def State.openReason (s : State) (k : Nat) : State :=
  if s.reason k then s
  else
    let n := s.pwr.tlogHead
    s.modPwr fun p =>
      { p with tlog := NMap.put {} p.tlog (n.toNat % 256) { reason := k, isOpen := true, start := s.tbu.tb }
               tlogHead := n + 1, active := NMap.put 0 p.active k (n.toNat + 1) }

/-- The end TB goes into the entry unless a newer one has taken its place. -/
def State.closeReason (s : State) (k : Nat) : State :=
  if s.reason k then
    let n := NMap.get 0 s.pwr.active k - 1
    let kept := decide (s.pwr.tlogHead.toNat ≤ n + 256)
    s.modPwr fun p =>
      let old := NMap.get {} p.tlog (n % 256)
      { p with tlog := if kept then NMap.put {} p.tlog (n % 256) { old with isOpen := false, stop := s.tbu.tb } else p.tlog
               active := NMap.put 0 p.active k 0 }
  else s

def State.setReason (s : State) (k : Nat) (on : Bool) : State := if on then s.openReason k else s.closeReason k

/-! ## Codes and voltages (R341, R342, R381) -/

/-- PWR_CTL.FMAX_CODE in force (Table 12.6). -/
def Pwr.fmaxCode (p : Pwr) : Nat := if 24 ≤ p.fmax.toNat ∧ p.fmax.toNat ≤ 84 then p.fmax.toNat else 84

/-- The highest code the V/F table allows, less TRIM. -/
def State.vfTop (s : State) : Nat := ((s.boot.image.vf.getLast?.map (·.1)).getD 0) - s.pwr.trim.toNat

/-- The lowest VID for a code. -/
def State.vidFor (s : State) (c : Nat) : Nat :=
  match s.boot.image.vf.find? fun e => decide (c ≤ e.1) with
  | some e => e.2
  | none => (s.boot.image.vf.getLast?.map (·.2)).getD 0

/-- The code before stage 2: FMAX, the V/F table, and no boost code while a reason other than SQUALL is active. -/
def State.baseCode (s : State) : Nat :=
  let top := min s.pwr.fmaxCode s.vfTop
  if s.pwr.active.any fun e => e.1 != rzSquall then min 72 top else top

/-- Clock steps that stage 2 can take without going below 24 (R351). -/
def State.clockSteps (s : State) : Nat := (min 72 (min s.pwr.fmaxCode s.vfTop) - 24) / 4

/-- The ladder position that the clock is steered to: with the step whose handshakes are under way (R352). -/
def State.steered (s : State) : Nat := max (s.pwr.budgetNext.getD s.pwr.budgetPos) s.pwr.thermPos

/-- The wclk code the controller wants. -/
def State.wantCode (s : State) : Nat :=
  if s.pwr.fixed then max 24 (min 64 s.vfTop)
  else max 24 (s.baseCode - 4 * min (min 15 (s.steered - 4)) s.clockSteps)

def State.wantVid (s : State) : Nat := s.vidFor (s.wantCode + s.pwr.trim.toNat)

/-- Request a frequency or a voltage: the request signal toggles (R340). -/
def Pwr.askClock (p : Pwr) (now c : Nat) : Pwr :=
  { p with reqCode := BitVec.ofNat 7 c, wclkReq := !p.wclkReq, shake := .clk, shakeStart := now, shakeLate := false }

def Pwr.askVid (p : Pwr) (now v : Nat) (sh : Shake) : Pwr :=
  { p with reqVid := BitVec.ofNat 8 v, vidReq := !p.vidReq, shake := sh, shakeStart := now, shakeLate := false }

/-- Start the next handshake towards the wanted code: VID first to raise, VID last to lower (R340). -/
def State.steer (s : State) : State :=
  if s.pwr.shake != .idle || s.boot.image.vf.isEmpty || !s.powered then s
  else
    let c := s.wantCode
    let v := s.wantVid
    let c0 := s.pwr.code.toNat
    let v0 := s.pwr.vid.toNat
    if c0 < c then
      if v0 < v then s.modPwr fun p => p.askVid s.elapsed v .vidUp else s.modPwr fun p => p.askClock s.elapsed c
    else if c < c0 then s.modPwr fun p => p.askClock s.elapsed c
    else if v0 < v then s.modPwr fun p => p.askVid s.elapsed v .vidUp
    else if v < v0 then s.modPwr fun p => p.askVid s.elapsed v .vidDown
    else s

/-- A clock step whose handshakes are complete, or that needs none, counts as taken (R352). -/
def Pwr.stepTaken (p : Pwr) : Pwr :=
  match p.shake, p.budgetNext with
  | .idle, some n => { p with budgetPos := n, budgetNext := none }
  | _, _ => p

/-- Bring reasons 1, 2, 5 and 6 up to date, then the clock. -/
def State.retune (s : State) : State :=
  if s.powered then
    let s := s.setReason rzBudget (decide (0 < s.pwr.budgetPos))
    let s := s.setReason rzThermal (decide (0 < s.pwr.thermPos))
    let s := s.setReason rzFixed s.pwr.fixed
    let s := (s.setReason rzVfLimit (!s.boot.image.vf.isEmpty &&
      decide (s.vfTop < if s.pwr.fixed then 64 else s.pwr.fmaxCode))).steer.modPwr Pwr.stepTaken
    s.setReason rzBudget (decide (0 < s.pwr.budgetPos))
  else s

/-- A handshake ends. -/
def State.shaken (s : State) : State :=
  ((s.modPwr fun p => { p with shake := .idle, shakeLate := false }).closeReason rzClkWait).retune

/-- WCLK_ACK (R340). -/
def execWclkAck (level : Bool) (s : State) : Result :=
  if s.pwr.shake == .clk && level == s.pwr.wclkReq then
    settle s (s.modPwr fun p => { p with wclkAck := level, code := p.reqCode }).shaken
  else .fault .unsolicited

/-- VID_ACK (R340). -/
def execVidAck (level : Bool) (s : State) : Result :=
  if (s.pwr.shake == .vidUp || s.pwr.shake == .vidDown) && level == s.pwr.vidReq then
    settle s (s.modPwr fun p => { p with vidAck := level, vid := p.reqVid }).shaken
  else .fault .unsolicited

/-- WCLK_ACK_LATE (R340, R355): more than 2 µs old. -/
def execWclkAckLate (s : State) : Result :=
  whenDue s (s.pwr.shake != .idle && !s.pwr.shakeLate && decide (s.pwr.shakeStart + 2000 < s.elapsed))
    (let what : Byte := if s.pwr.shake == .clk then 1 else 2
     settle s (((s.modPwr fun p => { p with shakeLate := true }).openReason rzClkWait).health 0x0106 unitInst noPart 2
       [BitVec.ofNat 8 s.pwr.reqCode.toNat, s.pwr.reqVid, what]))

/-! ## Caps and the ladder (R349 to R354) -/

/-- Design power limit in 0.125 W (Table 0.2). -/
def State.dpl (s : State) : Nat := if s.build.clusters ≤ 1 then 256 else if s.build.clusters ≤ 4 then 880 else 3200

/-- The effective cap (R350). -/
def State.ce (s : State) : Nat := min s.dpl (min s.pwr.cap.toNat s.pwr.bcap.toNat)

/-- P10: the mean of the last ten estimates, of fewer before there are ten, rounded down. -/
def State.p10 (s : State) : Nat := if s.pwr.ests.isEmpty then 0 else s.pwr.ests.sum / s.pwr.ests.length

/-- The hottest reading, °C + 40, over the clusters in service (R347). -/
def State.hot (s : State) : Nat :=
  s.pwr.sensors.foldl (fun h e => if (s.cluster (e.1 / 4)).retired then h else max h e.2.toNat) 0

/-- A clock step that is skipped (R351). -/
def State.skipped (s : State) (p : Nat) : Bool :=
  decide (4 < p) && decide (p ≤ 19) && (s.pwr.fixed || decide (s.clockSteps < p - 4))

/-- One step down the ladder, past the steps that are skipped. -/
def State.stepDown (s : State) (p : Nat) : Nat :=
  if 31 ≤ p then p else if s.skipped (p + 1) then 20 else p + 1

/-- One step back up. -/
def State.stepBack (s : State) (p : Nat) : Nat :=
  if p = 0 then 0
  else if s.skipped (p - 1) then (if s.pwr.fixed then 4 else 4 + min 15 s.clockSteps)
  else p - 1

/-- A floor now, in 0.125 W (R359). -/
def State.floorOf (s : State) (d : Drizzle) : Nat :=
  d.p0 * (d.floorPm - max 1 s.pwr.slope.toNat * ((s.elapsed - d.start) / 1000)) / 1000

/-- The floor of drizzle and of every hinted level that falls: the larger governs (R360). -/
def State.drizzleFloor (s : State) : Nat := (s.pwr.drizzle.toList ++ s.pwr.falls).foldl (fun m d => max m (s.floorOf d)) 0

/-- The level of a pre-ramp at an elapsed time (R358). -/
def PreRamp.level (r : PreRamp) (now : Nat) : Nat :=
  if r.stop ≤ now then r.target else r.p0 + (r.target - r.p0) * (now - r.start) / (r.stop - r.start)

/-- The level of the highest pre-ramp now, in 0.125 W. -/
def State.rampLevel (s : State) : Nat :=
  s.pwr.hints.foldl (fun m h => match h.ramp with | some r => max m (r.level s.elapsed) | none => m) 0

/-- Unit activity since the last estimate, the flits of egress included (R349, Table 13.7). -/
def State.activityNow (s : State) : List Nat := bump s.pwr.activity 8 (s.fab.flitsOut - s.pwr.flitsSeen)

/-- The estimate from unit activity and leakage alone. -/
def State.bareEstimate (s : State) : Nat := Config.powerEstimate s.activityNow s.boot.image.energy s.hot

/-- The estimate: from unit activity, raised by drizzle and pre-ramps up to Ce (R349, R360). -/
def State.estimate (s : State) : Nat := max s.bareEstimate (min s.ce (max s.drizzleFloor s.rampLevel))

/-- Record an estimate: P10, energy in µJ with its remainder. -/
def State.addEstimate (s : State) (e : Nat) : State :=
  let es := s.pwr.ests ++ [e]
  let r := s.pwr.energyRem + e
  s.modPwr fun p =>
    { p with ests := es.drop (es.length - 10), activity := [], energy := p.energy + BitVec.ofNat 64 (r / 8), energyRem := r % 8,
             estAt := s.elapsed, bare := s.bareEstimate, flitsSeen := s.fab.flitsOut }

/-- CAP_FLOOR (R354). -/
def State.judgeFloor (s : State) : State :=
  let beyond := decide (s.ce < s.p10)
  if beyond && decide (31 ≤ s.ladder) && !s.reason rzCapFloor then
    (s.openReason rzCapFloor).health 0x0101 unitInst noPart 1 (leBytes 4 s.ce ++ leBytes 4 s.p10)
  else if !beyond then s.closeReason rzCapFloor
  else s

/-- A step of the ladder that lowers the wclk code. -/
def clockStep (n : Nat) : Bool := decide (5 ≤ n) && decide (n ≤ 19)

/-- The budget position moves one step down the ladder: a clock step counts once its handshakes are complete (R352). -/
def State.advanceBudget (s : State) : State :=
  let n := s.stepDown s.pwr.budgetPos
  if clockStep n then s.modPwr fun p => { p with budgetNext := some n } else s.modPwr fun p => { p with budgetPos := n, budgetNext := none }

/-- POWER_ESTIMATE_TICK (R349, R352). -/
def execPowerEstimateTick (s : State) : Result :=
  whenDue s (s.powered && decide (s.pwr.estAt + 1000 ≤ s.elapsed))
    (let s1 := (s.addEstimate s.estimate).judgeFloor
     let up := decide (s1.ce < s1.p10) && s1.pwr.shake == .idle
     settle s (if up then s1.advanceBudget.retune else s1))

/-- BUDGET_RELEASE_TICK (R352). -/
def execBudgetReleaseTick (s : State) : Result :=
  whenDue s (s.powered && decide (s.pwr.relAt + 10000 ≤ s.elapsed))
    (let s1 := s.modPwr fun p => { p with relAt := s.elapsed }
     settle s (if 10 * s.p10 ≤ 9 * s.ce then
         (s1.modPwr fun p => { p with budgetPos := s1.stepBack p.budgetPos, budgetNext := none }).retune
       else s1))

/-- A thermal trip: wclk and pclk stop and every port is silent (R348). -/
def State.trip (s : State) : State := { s with boot := { s.boot with phase := .tripped } }

/-- Record sensor readings; 125 °C trips. -/
def State.sense (s : State) (rs : List (Nat × Byte)) : State :=
  let ok := rs.filter fun r => decide (r.1 < 4 * s.nclusters)
  let s := s.modPwr fun p => { p with sensors := ok.foldl (fun m r => NMap.put 0 m r.1 r.2) p.sensors }
  if ok.any fun r => decide (165 ≤ r.2.toNat) then s.trip else s

/-- PWR_THERM.TARGET in force, as a reading. -/
def Pwr.targetReading (p : Pwr) : Nat := 40 + max 85 (min 110 p.target.toNat)

/-- THERMAL_STEP (R347): the sensors report; over TARGET the position advances every 10 µs, 2 °C below it moves back every
100 µs. -/
def execThermalStep (readings : List (Nat × Byte)) (s : State) : Result :=
  whenDue s (!s.boot.porst)
    (let s1 := s.sense readings
     if !s1.powered then settle s s1
     else
       let t := s.pwr.targetReading
       if t < s1.hot ∧ s.pwr.thermAt + 10000 ≤ s.elapsed then
         settle s (s1.modPwr fun p => { p with thermPos := s1.stepDown p.thermPos, thermAt := s.elapsed }).retune
       else if s1.hot + 2 ≤ t ∧ s.pwr.thermAt + 100000 ≤ s.elapsed then
         settle s (s1.modPwr fun p => { p with thermPos := s1.stepBack p.thermPos, thermAt := s.elapsed }).retune
       else settle s s1.retune)

/-- THERMAL_TRIP (R348). -/
def execThermalTrip (m j : Nat) (reading : Byte) (s : State) : Result :=
  onUnit (decide (m < s.nclusters) && decide (j < 4))
    (whenDue s (decide (165 ≤ reading.toNat) && !s.boot.porst) (settle s (s.sense [(4 * m + j, reading)])))

/-- MARGIN_SAMPLE (R343): at a 1 ms boundary TRIM rises to the largest shortfall of an admitted slice. -/
def execMarginSample (reports : List (Nat × Byte)) (s : State) : Result :=
  let ms := s.tbu.tb.toNat / 1000000
  whenDue s (s.powered && decide (s.pwr.marginMs < ms))
    (let mine := reports.filter fun r => (s.slice r.1).st == .admitted && decide (r.1 < s.nslices)
     let (w, t) := mine.foldl (fun (acc : Byte × Byte) r => if acc.2 < r.2 then (BitVec.ofNat 8 r.1, r.2) else acc)
       (s.pwr.worst, s.pwr.trim)
     settle s (s.modPwr fun p => { p with worst := w, trim := t, marginMs := ms }).retune)

/-! ## Squalls (R345, R346) -/

/-- SAG_N: bit m is 0 while a slice of Cm is stretched (Table 12.1). -/
def State.sagN (s : State) (m : Nat) : Bool := !((List.range 16).any fun j => (s.slice (16 * m + j)).stretched)

/-- SQUALL_BEGIN. -/
def execSquallBegin (n : Nat) (s : State) : Result :=
  onUnit (decide (n < s.nslices))
    (whenDue s (s.powered && !(s.slice n).stretched)
      (let s1 := s.modSlice n fun v => { v with stretched := true, stretchedAt := s.wclk }
       settle s ((s1.modPwr fun p => { p with sq := NMap.put 0 p.sq (clusterOf n) (satInc (NMap.get 0 p.sq (clusterOf n)) 1) }).openReason
         rzSquall).retune))

/-- SQUALL_END: the supply has stayed within 2 % for 256 wclk, which no stretch can be shorter than. -/
def execSquallEnd (n : Nat) (s : State) : Result :=
  onUnit (decide (n < s.nslices))
    (whenDue s ((s.slice n).stretched && decide ((s.slice n).stretchedAt + 256 ≤ s.wclk))
      (settle s ((s.modSlice n fun v => { v with stretched := false }).modPwr fun p => { p with lastStretch := s.elapsed })))

/-- SQUALL_LOG_CLOSE: 1 µs with no slice stretched. -/
def execSquallLogClose (s : State) : Result :=
  whenDue s (s.reason rzSquall && !(s.slices.any fun e => e.2.stretched) && decide (s.pwr.lastStretch + 1000 ≤ s.elapsed))
    (settle s (s.closeReason rzSquall).retune)

/-! ## Drizzle and hints (R358 to R360) -/

/-- The slice holds a batch, leaf work or a context (R359). -/
def State.holdsWork (s : State) (n : Nat) : Bool := !(s.slice n).inQ.isEmpty || s.ctxs.any fun c => c.slice == n

/-- The slice has passed from busy to idle within the last 1 µs. -/
def State.wentIdle (s : State) (n : Nat) : Bool :=
  ((s.slice n).busy && !s.holdsWork n) ||
    match (s.slice n).idleAt with | some t => decide (s.elapsed ≤ t + 1000) | none => false

/-- Note which slices hold work and which have become idle: what a TB tick observes. -/
def State.noteIdle (s : State) : State :=
  (s.slices.map (·.1)).foldl (fun t n =>
    let w := s.holdsWork n
    t.modSlice n fun v => { v with busy := w, idleAt := if v.busy && !w then some s.elapsed else v.idleAt }) s

/-- Forget the passages to idle that a drizzle start has used. -/
def State.clearIdle (s : State) : State :=
  (s.slices.map (·.1)).foldl (fun t n => t.modSlice n fun v => { v with busy := s.holdsWork n, idleAt := none }) s

/-- More than A / 2 slices have passed from busy to idle within 1 µs. -/
def State.idleRush (s : State) : Bool :=
  decide (s.admittedAll.length < 2 * ((s.slices.map (·.1)).filter s.wentIdle).length)

/-- DRIZZLE_START (R359): counted; a new start restarts the floor from the present P10. FLOOR 0 turns drizzle off. -/
def execDrizzleStart (s : State) : Result :=
  whenDue s (s.powered && s.pwr.floor != 0 && s.idleRush)
    (settle s (s.clearIdle.modPwr fun p =>
      { p with drizzle := some { p0 := s.p10, start := s.elapsed, floorPm := 10 * min 100 p.floor.toNat }
               drzCount := satInc p.drzCount 1 }))

/-- The floor has reached the estimated power without drizzle (R359). -/
def State.sunk (s : State) (d : Drizzle) : Bool := decide (s.floorOf d ≤ s.pwr.bare)

/-- DRIZZLE_END (R359): drizzle and falling floors that have reached the power without drizzle end. -/
def execDrizzleEnd (s : State) : Result :=
  whenDue s ((s.pwr.drizzle.toList ++ s.pwr.falls).any s.sunk)
    (settle s (s.modPwr fun p =>
      { p with drizzle := p.drizzle.filter fun d => !s.sunk d, falls := p.falls.filter fun d => !s.sunk d }))

/-- The body check of a HINT (R358); its reserved bytes are ignored (R11). -/
def hintOk (b : List Byte) : Bool :=
  decide (fieldAt b 0 4 ≤ 1000000000) && decide (1 ≤ fieldAt b 4 4) && decide (fieldAt b 4 4 ≤ 1000000000) &&
    decide ((byteAt b 8).toNat ≤ 3) && byteAt b 9 != 0

/-- Two hints of one class whose phases share an instant. -/
def Hint.overlaps (a b : Hint) : Bool := a.hclass == b.hclass && decide (a.start < b.stop) && decide (b.start < a.stop)

/-- What a HINT does; the flag tells whether it got room. -/
def State.takeHint (s : State) (inj : Bool) (m : Msg) : State × Bool :=
  let b := m.payload
  let start := s.elapsed + fieldAt b 0 4
  let h : Hint := { start := start, stop := start + fieldAt b 4 4, arrived := s.elapsed, hclass := (byteAt b 8).toNat
                    level := (byteAt b 9).toNat }
  let old := s.pwr.hints.filter fun x => x.overlaps h
  if old.isEmpty && decide (4 ≤ s.pwr.hints.length) then (s.refuse 0x08 m inj rBusy 9, false)
  else
    let kept := s.pwr.hints.filter fun x => !x.overlaps h
    let t := s.modPwr fun p => { p with hints := kept ++ [h] }
    (t.reply 0x08 m inj (.accept false), true)

/-- HINT (R270, R358). -/
def execHint (m : Msg) (s : State) : Result :=
  ingress 0x08 2 (fun _ => hintOk m.payload) (fun t => settle s (t.takeHint false m).1) m s

def State.hint? (s : State) (i : Nat) : Option Hint := s.pwr.hints[i]?

/-- HINT_PRE_RAMP (R358): from LEAD µs before the phase, or from arrival. -/
def execHintPreRamp (i : Nat) (s : State) : Result :=
  match s.hint? i with
  | none => .next s
  | some h =>
    whenDue s (s.powered && h.ramp.isNone && decide (h.start - 1000 * max 1 s.pwr.lead.toNat ≤ s.elapsed) &&
        decide (s.elapsed < h.start + 2000))
      (let top := min s.ce (h.level * s.dpl / 255)
       let r : PreRamp := { p0 := min top ((s.pwr.ests.getLast?).getD 0), target := top, start := s.elapsed, stop := h.start
                            macs := h.hclass == 1 }
       settle s (s.modPwr fun p => { p with hints := p.hints.modify i fun h => { h with ramp := some r } }))

/-- HINT_TAKEOVER_EXPIRY (R358): 2 µs after the phase start the pre-ramp ends; where the power without drizzle is below the
hinted level, real work has not taken over and the floor falls from that level. -/
def execHintTakeoverExpiry (i : Nat) (s : State) : Result :=
  match (s.hint? i).bind fun h => h.ramp.map fun r => (h, r) with
  | none => .next s
  | some (h, r) =>
    whenDue s (decide (h.start + 2000 ≤ s.elapsed))
      (let fall : List Drizzle := if s.pwr.bare < r.target then [{ p0 := r.target, start := s.elapsed, floorPm := 1000 }] else []
       settle s (s.modPwr fun p =>
         { p with hints := p.hints.modify i fun h => { h with ramp := none }, falls := p.falls ++ fall }))

/-- HINT_PHASE_END (R358): the hint is pending no more, and its pre-ramp ends with it. -/
def execHintPhaseEnd (i : Nat) (s : State) : Result :=
  match s.hint? i with
  | none => .next s
  | some h => whenDue s (decide (h.stop ≤ s.elapsed)) (settle s (s.modPwr fun p => { p with hints := p.hints.eraseIdx i }))

/-! ## BUDGET (R350) -/

/-- The body check of a BUDGET. -/
def State.budgetOk (s : State) (b : List Byte) : Bool :=
  fieldAt b 4 4 == 0 && decide (fieldAt b 8 8 ≤ s.tbu.tb.toNat + 16000000000)

/-- A BUDGET's cap replaces the one in force at once, or becomes pending; a pending one is cancelled either way. -/
def State.takeBudget (s : State) (inj : Bool) (m : Msg) : State :=
  let eff := fieldAt m.payload 8 8
  let cap := BitVec.ofNat 32 (fieldAt m.payload 0 4)
  let t := if eff ≤ s.tbu.tb.toNat then s.modPwr fun p => { p with bcap := cap, pendCap := none }
    else s.modPwr fun p => { p with pendCap := some (cap, BitVec.ofNat 64 eff) }
  t.reply 0x09 m inj (.accept false)

/-- BUDGET. -/
def execBudget (m : Msg) (s : State) : Result :=
  ingress 0x09 3 (fun s => s.budgetOk m.payload) (fun t => settle s (t.takeBudget false m)) m s

/-- BUDGET_CAP_EFFECTIVE: TB has reached TB_EFFECTIVE. -/
def execBudgetCapEffective (s : State) : Result :=
  match s.pwr.pendCap with
  | none => .next s
  | some (c, t) => whenDue s (decide (t.toNat ≤ s.tbu.tb.toNat)) (settle s (s.modPwr fun p => { p with bcap := c, pendCap := none }))

end Sys2Proof.Machine
end

