-- ==== Sys2Proof/Machine/Scan.lean ====
section
/-! DEFINITION. What a scan of a journal ring finds: its valid records in order, the frees of its RETIRE records, its live
deposits (R279 to R281, R287, R306 to R308). -/

namespace Sys2Proof.Machine

open Sys2Proof

/-- A valid record of a ring, with the number the agent counts it by. -/
structure RingRec where
  kind : Nat
  pos : Nat
  bytes : List Byte
  deriving DecidableEq, Repr

/-- A slot that holds a valid record (R279). -/
def validRecord (bs : List Byte) : Bool :=
  decide (1 ≤ (byteAt bs 0).toNat) && decide ((byteAt bs 0).toNat ≤ 4) && fieldAt bs 62 2 == crc16 (bs.take 62)

/-- The slots of a ring with the system address of each; a slot no window lets the engine read has none. -/
def State.ringSlots (s : State) (p ring : Nat) : List (Nat × Nat) :=
  let j := (s.part p).jrnl
  (List.range j.slots).filterMap fun i => (s.translate p (j.slotAddr ring i) 64 false).map fun sys => (i, sys)

/-- Every slot of a ring lies behind a port that issues requests (R337). -/
def State.ringReachable (s : State) (p ring : Nat) : Bool := (s.ringSlots p ring).all fun x => s.portEn x.2

/-- Failed tries of a ring's reads, each under the line number of its slot: they are counted, and a final failure is reported
(R296, R306, R322). -/
def State.ringTries (s : State) (p ring : Nat) (fails : Fails) : State :=
  (s.ringSlots p ring).foldl (fun (s : State) x =>
    s.tried x.2 p ((s.part p).jrnl.slotAddr ring x.1) (triesOf fails (lineOf x.2))) s

/-- Valid records of a ring by slot; a slot whose read fails finally counts as empty (R306). -/
def State.ringRecords (s : State) (p ring : Nat) (fails : Fails) : List (Nat × List Byte) :=
  (s.ringSlots p ring).filterMap fun x =>
    let bs := s.readSys x.2 64
    if (finalFail (triesOf fails (lineOf x.2))).isNone && validRecord bs then some (x.1, bs) else none

/-- The newest lap of a ring: every other lap is behind it, modulo 256 (R281). -/
def newestLap (laps : List Nat) : Nat := (laps.find? fun l => laps.all fun x => decide ((l + 256 - x) % 256 < 128)).getD 0

/-- The records of a ring in the order they were written, and how many slots its agent has used. -/
def ringOrder (slots : Nat) (rs : List (Nat × List Byte)) : List RingRec × Nat :=
  let lapOf := fun (bs : List Byte) => (byteAt bs 1).toNat
  let l := newestLap (rs.map fun x => lapOf x.2)
  let out := rs.map fun x =>
    ({ kind := (byteAt x.2 0).toNat, pos := (256 + l - (l + 256 - lapOf x.2) % 256) * slots + x.1, bytes := x.2 } : RingRec)
  (sortBy (fun a b => decide (a.pos < b.pos)) out, out.foldl (fun n x => max n (x.pos + 1)) 0)

/-- STREAM, SEQ and SGEN of a record (Tables 10.1, 10.3 and 10.4). -/
def RingRec.stream (r : RingRec) : Nat := fieldAt r.bytes 2 2
def RingRec.seq (r : RingRec) : Nat := fieldAt r.bytes 4 4
def RingRec.sgen (r : RingRec) : Byte := byteAt r.bytes (if r.kind = 1 then 20 else 10)

/-- Two records of one deposit. -/
def RingRec.same (a b : RingRec) : Bool := a.stream == b.stream && a.seq == b.seq && a.sgen == b.sgen

/-- A record is one of a deposit the engine holds. -/
def RingRec.names (r : RingRec) (d : Dep) : Bool :=
  r.stream == d.stream.toNat && r.seq == d.seq.toNat && r.sgen == d.sgen

/-- Handles of a FREE or RETIRE record. -/
def RingRec.handles (r : RingRec) : List Word :=
  (List.range (min 12 (byteAt r.bytes 8).toNat)).map fun j => BitVec.ofNat 32 (fieldAt r.bytes (12 + 4 * j) 4)

/-- Apply a handle of a valid RETIRE to claim state that still holds it; nothing is counted or raised (R306). -/
def State.scanFree (s : State) (p stream : Nat) (h : Word) : State :=
  s.modPart p fun v => v.modPool (poolOf h) fun x => x.modBuf (indexOf h) fun b =>
    if b.gen.toNat = bitsAt h.toNat 31 24 ∧ b.owner = some (p, stream) then { b with claim := none } else b

/-- Apply the handles of every valid RETIRE of a ring and of the FREE records of its deposit. -/
def State.scanFrees (s : State) (p : Nat) (rs : List RingRec) : State :=
  (rs.filter (·.kind == 4)).foldl (fun (s : State) r =>
    let hs := (rs.filter fun x => (x.kind == 3 || x.kind == 4) && x.same r).map RingRec.handles
    hs.flatten.foldl (fun s h => s.scanFree p r.stream h) s) s

/-- The live DEPOSIT records of a ring: no valid RETIRE of the same deposit, and the newer of two; by stream and SEQ. -/
def liveRecords (rs : List RingRec) : List RingRec :=
  let live := (rs.filter (·.kind == 1)).filter fun r =>
    !(rs.any fun x => x.kind == 4 && x.same r) && !(rs.any fun x => x.kind == 1 && x.same r && decide (r.pos < x.pos))
  sortBy (fun a b => decide (a.stream < b.stream) || (a.stream == b.stream && decide (a.seq < b.seq))) live

/-- The gate word of a live record: its own bits and those of its deposit's GATE records (R307). -/
def gatesOf (rs : List RingRec) (r : RingRec) : Half :=
  (rs.filter fun x => x.kind == 2 && x.same r).foldl (fun (g : Half) x => g ||| BitVec.ofNat 16 (fieldAt x.bytes 8 2))
    (BitVec.ofNat 16 (fieldAt r.bytes 56 2))

/-- The deposit of a live record. -/
def State.depOfRecord (s : State) (p ring : Nat) (rs : List RingRec) (r : RingRec) : Dep :=
  let bs := r.bytes
  let w := fun (o : Nat) => BitVec.ofNat 32 (fieldAt bs o 4)
  let bits := (byteAt bs 19).toNat
  { id := s.nextDep, part := p, stream := BitVec.ofNat 16 r.stream, sgen := r.sgen, seq := w 4
    port := (byteAt bs 21).toNat % 64, peer := w 44, qbase := BitVec.ofNat 64 (fieldAt bs 8 8), qcount := fieldAt bs 16 2
    graphId := (byteAt bs 18).toNat, timed := bitAt bits 0
    handle := { base := BitVec.ofNat 64 (fieldAt bs 24 8), epoch := w 32, treeId := BitVec.ofNat 16 (fieldAt bs 22 2) }
    dmode := bit (bitAt bits 1), terse := bitAt bits 2, endpoint := w 36, buffer := w 40
    release := BitVec.ofNat 64 (fieldAt bs 48 8), gate := gatesOf rs r, home := s.homeOf r.stream, ring := ring, pos := r.pos
    step := .held, answered := true }

/-- A live deposit's buffer: the claim it still holds names it; a resume claims it with its owner and GEN (R306, R308). -/
def State.relinkClaim (s : State) (resume : Bool) (d : Dep) : State :=
  if d.dmode = 1 then
    let gen : Byte := BitVec.ofNat 8 (bitsAt d.buffer.toNat 31 24)
    s.modPart d.part fun v => v.modPool (poolOf d.buffer) fun x => x.modBuf (indexOf d.buffer) fun b =>
      if resume then { gen := gen, claim := some d.id, owner := some (d.part, d.stream.toNat) }
      else if b.claim.isSome && b.gen == gen then { b with claim := some d.id }
      else b
  else s

/-- A live deposit's stream: LAST_ACC reaches its SEQ; a resume opens it, closing (R306, R308). -/
def State.relinkStream (s : State) (resume : Bool) (d : Dep) : State :=
  s.modStrm d.stream.toNat fun t =>
    let t := if resume then
        { t with en := false, closing := true, port := BitVec.ofNat 6 d.port, gen := d.sgen, part := BitVec.ofNat 5 d.part }
      else t
    if t.lastAcc.toNat < d.seq.toNat then { t with lastAcc := d.seq } else t

/-- The deposit of a live record that the engine does not hold yet. -/
def State.takeRecord (s : State) (p : Nat) (resume : Bool) (ring : Nat) (rs : List RingRec) (r : RingRec) : State :=
  let d := s.depOfRecord p ring rs r
  ({ s with deps := s.deps ++ [d], nextDep := s.nextDep + 1 }.relinkClaim resume d).relinkStream resume d

/-- Read one ring: failed reads, the slot the agent writes next, frees of RETIRE records; and its records in order. -/
def State.readRing (s : State) (p : Nat) (fails : Fails) (ring : Nat) : State × List RingRec :=
  let (rs, used) := ringOrder (s.part p).jrnl.slots (s.ringRecords p ring fails)
  let s := s.ringTries p ring fails
  let s := s.modPart p fun v => { v with jrnl := { v.jrnl with rings := NMap.put 0 v.jrnl.rings ring used } }
  (s.scanFrees p rs, rs)

/-- Scan one ring of a partition that holds no deposit yet. -/
def State.scanRing (s : State) (p : Nat) (resume : Bool) (fails : Fails) (ring : Nat) : State :=
  let (s, rs) := s.readRing p fails ring
  (liveRecords rs).foldl (fun s r => s.takeRecord p resume ring rs r) s

/-- Scan every ring of a partition. -/
def State.scanPart (s : State) (resume : Bool) (fails : Fails) (p : Nat) : State :=
  let s := (List.range s.nclusters).foldl (fun s ring => s.scanRing p resume fails ring) s
  let s := s.modPart p fun v => { v with jrnl := { v.jrnl with replaying := false, replayed := 0, replayLeft := [] } }
  s.modPart p Part.settlePools

/-- Every ring of a partition can be read (R337). -/
def State.scanReady (s : State) (p : Nat) : Bool := (List.range s.nclusters).all fun ring => s.ringReachable p ring

end Sys2Proof.Machine
end

