-- ==== Sys2Proof/Machine/Faults.lean ====
section
/-! DEFINITION. Faults and recovery, audit, probation and readmission, locked pairs (R290 to R311). Every step of a lead core's work
is taken whole by the command that begins it, so no step log is needed to repeat one (R294; log 32). -/

namespace Sys2Proof.Machine

open Sys2Proof

/-! ## Families run again (R292) -/

/-- Queries that are lost: with them go their queue places, shadows, accesses and threads. -/
def State.loseQueries (s : State) (gone : Nat → Bool) : State :=
  let lost := fun (t : Thread) => match t.query with | some u => gone u && !t.exited | none => false
  let hit := s.ctxs.filter fun c => c.groups.any fun g => g.threads.any lost
  let one := fun (t : Thread) => if lost t then { t with exited := true, wait := .run } else t
  let s := s.discard gone
  let s := { s with ctxs := s.ctxs.map fun c => { c with groups := c.groups.map fun g => { g with threads := g.threads.map one } } }
  hit.foldl (fun s c => s.settleCtx c.slice c.slot) s

def Query.fam (q : Query) : Fam := (q.dep, q.qid.toNat % 4096, q.run)
def Done.inFam (x : Done) (f : Fam) : Bool := x.qid.toNat % 4096 == f.2.1 && x.run == f.2.2

/-- Read a family's primary again; QUERY_RECORD_READ takes it. A window miss ends it with MEM_ERROR (R326). -/
def State.readPrimary (s : State) (d : Dep) (f : Fam) (fails : Nat) : State :=
  let a := d.qbase.toNat + 64 * f.2.1
  match s.translate d.part a 64 false with
  | none => s.modDep d.id fun x => { x with done := x.done ++ [doneAs stMemError (BitVec.ofNat 32 f.2.1) 0 0 f.2.2 false] }
  | some sys => s.issue false d.part sys a [] (.rerun d.id f.2.1 f.2.2 fails)

/-- Discard every member of a family and run it anew, with `extra` more spill failures to its name (R292, R296). A family whose
deposit has begun DELIVER is not affected. -/
def State.rerunFamily (s : State) (f : Fam) (extra : Nat) : State :=
  match s.dep? f.1 with
  | none => s
  | some d =>
    if d.hdr.isNone || (d.step != .reading && d.step != .running) then s
    else
      let mine := s.queries.filter fun q => q.pin.isNone && q.fam == f
      let fails := mine.foldl (fun n q => max n q.spillFails) 0 + extra
      let s := s.loseQueries (mine.map (·.uid)).contains
      let s := s.modDep d.id fun x => { x with done := x.done.filter fun y => !y.inFam f }
      (s.modCluster d.home fun c => { c with rerun := satInc c.rerun 1 }).readPrimary d f fails

/-! ## Recoveries in progress (R290, R299) -/

/-- A recovery goes on while the record of a family it discarded is still being read. -/
def State.recovering (s : State) (r : Recov) : Bool := r.fams.any fun f => s.accs.any fun a => a.purpose.fam? == some f

/-- How many recoveries are in progress. -/
def State.recoveries (s : State) : Nat := (s.recovs.filter s.recovering).length

/-- A recovery begins: noted with the families it discards, which then run again; recoveries that have ended are forgotten. -/
def State.recover (s : State) (fams : List Fam) (extra : Nat) : State :=
  let left := s.recovs.filter fun r => s.recovering r || (r.third && !r.reported)
  let s := { s with recovs := left ++ [{ start := s.elapsed, fams := fams, third := decide (2 ≤ s.recoveries) }] }
  fams.foldl (fun s f => s.rerunFamily f extra) s

/-! ## A deposit run again in full (R282, R295, R302, R307) -/

/-- A deposit at its first query, with its journaled gate bits, handle and GEN. -/
def Dep.anew (d : Dep) (tb : Nat) (mintHeld : Bool) : Dep :=
  { d with
    step := .held, stampReached := !d.timed || decide (d.release.toNat ≤ tb), mintHeld := mintHeld, hdr := none, hdrRead := false
    hdrStatus := none, hdrLines := [], hdrOlder := none, nextIdx := 0, done := [], depBits := 0, killed := [], bufFault := false
    memFault := none, receipt := [], resends := 0, redirected := false, stopDelivery := false, runs := [], ran := []
    third := false, retireOn := false, freeList := [], rreason := 0 }

/-- Accesses that serve the course of a deposit. -/
def Purpose.ofDep (p : Purpose) (dep : Nat) : Bool :=
  match p with
  | .queryRec i _ | .rerun i _ _ _ | .header i | .resultRec i | .resultHdr i | .reduce i _ | .freeRec i | .retireRec i => i == dep
  | _ => false

/-- The queries, contexts and accesses of a deposit go. -/
def State.clearDep (s : State) (dep : Nat) : State :=
  let us := (s.queries.filter (·.dep == dep)).map (·.uid)
  ((s.loseQueries us.contains).dropCtxs (·.dep == dep)).cancelAccs fun a => a.purpose.ofDep dep

/-- Run a deposit again from its first query. -/
def State.restartDep (s : State) (dep : Nat) : State :=
  match s.dep? dep with
  | none => s
  | some d => ((s.clearDep dep).modDep dep fun x => x.anew s.tbu.tb.toNat (s.mintHolds d.part d.handle)).depGo dep

/-- A deposit replays: counted, and reported once the last of its partition is retired (R295, R307). -/
def State.replayDep (s : State) (dep : Nat) : State :=
  match s.dep? dep with
  | none => s
  | some d =>
    let s := s.modCluster d.home fun c => { c with replay := satInc c.replay 1 }
    let s := s.modPart d.part fun p => { p with jrnl := { p.jrnl with
      replayed := p.jrnl.replayed + 1, replayLeft := p.jrnl.replayLeft ++ [dep] } }
    (s.modDep dep fun x => { x with replayed := true }).restartDep dep

/-! ## Cluster faults (R295, R336) -/

/-- Clusters in service other than `m`, in ascending cyclic order after it. -/
def State.clustersAfter (s : State) (m : Nat) : List Nat :=
  ((List.range s.nclusters).map fun i => (m + 1 + i) % s.nclusters).filter fun c =>
    c != m && !(s.cluster c).retired && !(s.admittedSlices c).isEmpty

/-- Queries whose state lies in some units: their contexts, or what a kernel context on them serves. -/
def State.stateIn (s : State) (lost : Nat → Bool) : List Query :=
  let served := ((s.ctxs.filter fun c => lost c.slice).map fun c =>
    c.batch ++ (c.groups.map fun g => g.threads.filterMap (·.query)).flatten).flatten
  s.queries.filter fun q => q.pin.isNone && (lost q.slice || served.contains q.uid)

/-- Slices leave service: their contexts, caches and shadows go; visitors go home as they stand (log 17); the families of
the rest come back for their home clusters to run again. -/
def State.clearSlices (s : State) (lost : Nat → Bool) : State × List Fam :=
  let mine := s.stateIn lost
  let s := (List.range s.nslices).foldl (fun (s : State) n =>
    if lost n then s.modSlice n fun v =>
      { v with st := .retired, inQ := [], l0 := { v.l0 with lines := [] }, dcache := { v.dcache with lines := [] }, mismatch := false }
    else s) s
  let s := (s.queries.filter fun q => match q.pin with | some p => lost p | none => false).foldl State.dropShadow s
  let s := s.dropCtxs fun c => lost c.slice
  let s := (mine.filter (·.visitor.isSome)).foldl (fun s q => s.failQuery q.uid stMemError) s
  (s, ((mine.filter (·.visitor.isNone)).map Query.fam).eraseDups)

/-- The journal record writes of a home cluster's deposits. -/
def State.recordsOfHome (s : State) (m : Nat) : List Acc :=
  s.accs.filter fun a =>
    match a.purpose with
    | .depositRec d | .retireRec d | .freeRec d | .gateRec d _ _ => (match s.dep? d with | some d => d.home == m | none => false)
    | _ => false

/-- An owned line that the faulted L1 cannot return: the atomics it held are lost, memory keeps what it has (R336). -/
def State.loseLine (s : State) (line : Nat) : State :=
  s.modCluster (s.bankOf line) fun c =>
    { c with bank := { c.bank with
        l2 := { c.bank.l2 with lines := c.bank.l2.lines.map fun x => if x.line = line then { x with owner := none } else x }
        q := c.bank.q.filter (·.2.line != line)
        recalls := c.bank.recalls.filter (·.1 != line) } }

/-- Lines that L1s of other clusters own and whose home bank is that of cluster `m`. -/
def State.ownedAt (s : State) (m : Nat) : List Nat :=
  (((List.range s.nclusters).map fun k =>
    let c := s.cluster k
    (((c.l1.lines ++ c.evbuf).filter (·.owned)) ++ c.grants).map (·.line)).flatten).filter fun l => s.bankOf l == m

/-- What a cluster's fault leaves in memory: the recall responses on their way to its bank and the lines it has granted, which come
back first, the owned lines of its L1 when it can return them (R336), and the record writes of its agent, each valid or empty
(Table 10.5). -/
def State.flushCluster (s : State) (m : Nat) : State :=
  let c := s.cluster m
  let owned := ((c.l1.lines ++ c.evbuf).filter (·.owned)).map (·.line) ++ c.grants.map (·.line)
  let (returns, s) := if owned.isEmpty then (true, s) else s.freshBool
  let s := if returns then owned.foldl State.recallNow s else owned.foldl State.loseLine s
  let s := (c.bank.q.map (·.2.line)).foldl State.recallNow s
  let s := ((s.ownedAt m).filter fun l => !owned.contains l).foldl State.recallNow s
  (s.recordsOfHome m).foldl (fun (s : State) a =>
    let (b, s) := s.freshBool
    if b then s.applyWrite a else s) s

/-- A deposit of an adopted ring without a live record: a valid RETIRE has retired it, or its DEPOSIT record is empty and its claim is
undone; a record lost in the scan leaves its buffer claimed (Table 10.5). -/
def State.lapse (s : State) (rs : List RingRec) (d : Dep) : State :=
  let note : Sent := { dep := d.id, part := d.part, home := d.home, stream := d.stream, sgen := d.sgen, seq := d.seq, ran := d.ran }
  let retired := rs.any fun r => r.kind == 4 && r.names d
  let s := if d.step == .journal && !retired then s.unclaim d else s
  let s := if retired && !d.ran.isEmpty then { s with delivered := s.delivered ++ [note] } else s
  ((((s.clearDep d.id).dropDep d.id).settleReplay d).settleStream d.stream).settleDrain d.part

/-- The adopting agent takes a live record: of a deposit the engine holds, or of one whose failed write has landed (R287). It is
replayed; a message that waited for the record gets no answer, and its resend receives ACCEPT with DUP (Table 10.5). -/
def State.adoptRecord (s : State) (a p ring : Nat) (rs : List RingRec) (r : RingRec) : State :=
  match s.deps.find? fun d => d.part == p && r.names d with
  | some d =>
    let s := s.modDep d.id fun x =>
      { x with home := a, ring := ring, pos := r.pos, gate := gatesOf rs r, answered := true, dupHeld := [], gateWaiters := [] }
    (s.relinkStream false d).replayDep d.id
  | none =>
    let id := s.nextDep
    (s.takeRecord p false ring rs r).replayDep id

/-- The adopter scans a ring of a partition and replays its live deposits (R295, R306, R307). -/
def State.adoptRing (s : State) (a p ring : Nat) (fails : Fails) : State :=
  let (s, rs) := s.readRing p fails ring
  let live := liveRecords rs
  let old := s.deps.filter fun d => d.part == p && d.ring == ring && !live.any fun r => r.names d
  let s := old.foldl (fun s d => s.lapse rs d) s
  (live.foldl (fun s r => s.adoptRecord a p ring rs r) s).modPart p Part.settlePools

/-- Rings whose agent is that of cluster `m` (R277, R295), with the partitions that use them; before OPEN the bring-up scans them. -/
def State.ringsOf (s : State) (m : Nat) : List (Nat × Nat) :=
  let rings := (List.range s.nclusters).filter fun r => s.acting 16 r == m
  let parts := (List.range 32).filter fun p => let j := (s.part p).jrnl; j.en && !j.formatting && !j.replaying
  if s.isOpen then (parts.map fun p => rings.map fun r => (p, r)).flatten else []

/-- A faulted cluster leaves service with its queues, caches and bank; L1 copies of lines its bank held go with theirs (R334, R336). -/
def State.clusterOut (s : State) (m a : Nat) : State :=
  let held := (s.cluster m).bank.l2.lines.map (·.line)
  let s := s.modCluster m fun c =>
    { c with retired := true, adopter := some a, nqs := [], strag := [], fqs := [], l1 := { c.l1 with lines := [] }, locks := []
             preloaded := [], preload := none, evbuf := [], grants := [], recalls := [], wbAcks := [], up := [], down := []
             bank := { c.bank with l2 := { c.bank.l2 with lines := [] }, q := [], recalls := [], takenBy := some a } }
  let s := held.foldl State.dropShared s
  let s := (List.range s.nclusters).foldl (fun (s : State) k =>
    if (s.cluster k).bank.takenBy == some m then s.modCluster k fun c => { c with bank := { c.bank with takenBy := some a } } else s) s
  (s.modCluster a fun c => { c with adopted := some m }).health 0x08 (unitCluster m) noPart 2 [BitVec.ofNat 8 a]

/-- A cluster faults, its memory flushed: its bank, its rings and its streams pass to its adopter, lost families and its rings'
deposits run again (R295). Without an adopter the fault ends in RECOVERY_OVERRUN. -/
def State.clusterFault (s : State) (m : Nat) (fails : Fails) : State :=
  match (s.clustersAfter m).head? with
  | none =>
    (s.modCluster m fun c => { c with retired := true }).health 0x0D (unitCluster m) noPart 3 [BitVec.ofNat 8 (s.recoveries + 1)]
  | some a =>
    let rings := s.ringsOf m
    let s := s.cancelAccs fun x => (s.recordsOfHome m).contains x
    let (s, fams) := s.clearSlices fun n => clusterOf n == m
    let s := s.clusterOut m a
    let s := { s with deps := modAll (·.home == m) (fun d => { d with home := a }) s.deps }
    let s := rings.foldl (fun s x => s.adoptRing a x.1 x.2 fails) s
    s.recover (fams.filter fun f => !rings.any fun x => (s.dep? f.1).any fun d => d.part == x.1 && d.ring == x.2) 0

/-- The phases in which slices and lead cores run and faults are detected (Table 13.2, R291). -/
def State.awake (s : State) : Bool := s.boot.phase == .sync || s.boot.phase == .replay || s.boot.phase == .opened

/-- Queries that began in a recovery go on. -/
def goOn (base t : State) : Result := settle base (t.beginNew (t.newSince base.nextUid))

/-- CLUSTER_FAULT (R295). `fails` are the failed tries of ring reads, by line number. -/
def execClusterFault (x : Tried Nat Fails) (s : State) : Result :=
  onUnit (decide (x.it < s.nclusters)) (whenDue s (s.awake && !(s.cluster x.it).retired)
    (let base := s.flushCluster x.it
     goOn base (base.clusterFault x.it x.fails)))

/-! ## Slice faults (R291 to R293) -/

/-- A batch of a slice that retires goes to another slice, or back to its queue where every other is full (R141, R293). -/
def State.moveBatch (s : State) (m : Nat) (b : Batch) : State :=
  let left := b.members.filter fun u => match s.query? u with | some q => q.st == .ready | none => false
  if left.isEmpty then s
  else
    match (s.keySlices m b.key).find? fun n => !s.gated n && decide ((s.slice n).inQ.length < 4) with
    | some n => s.modSlice n fun v => { v with inQ := v.inQ ++ [{ b with members := left, released := s.wclk }], busy := true }
    | none => left.foldl State.joinQueue s

/-- Retire a slice: SLICE_RETIRED with its cause, its batches to other slices, its families run again; the last admitted slice of a
cluster takes the cluster with it (R292, R293). -/
def State.retireSlice (s : State) (n cause : Nat) : State :=
  let batches := (s.slice n).inQ
  let (s, fams) := s.clearSlices (· == n)
  let s := s.recover fams 0
  let s := batches.foldl (fun s b => s.moveBatch (clusterOf n) b) s
  let s := s.health 0x01 (unitSlice n) noPart 1 ([BitVec.ofNat 8 cause, 0, 0, 0] ++ leBytes 4 fams.length)
  if (s.admittedSlices (clusterOf n)).isEmpty && !(s.cluster (clusterOf n)).retired then s.clusterFault (clusterOf n) [] else s

/-- A slice that can fault. -/
def State.inService (s : State) (n : Nat) : Bool := (s.slice n).st == .admitted || (s.slice n).st == .probation

/-- The state in which a slice's retirement starts: flushed, where the slice takes its cluster with it. -/
def State.beforeRetire (s : State) (n : Nat) : State :=
  let m := clusterOf n
  if (s.admittedSlices m).all (· == n) && !(s.cluster m).retired && !(s.clustersAfter m).isEmpty then s.flushCluster m else s

/-- A fault of a slice, with memory as the recovery leaves it. -/
def sliceGoes (s : State) (n cause : Nat) : Result :=
  let base := s.beforeRetire n
  goOn base (base.retireSlice n cause)

/-- SLICE_FAULT (R293): an uncorrectable ECC error. -/
def execSliceFault (n : Nat) (s : State) : Result :=
  onUnit (decide (n < s.nslices)) (whenDue s (s.awake && s.inService n) (sliceGoes s n 1))

/-- BATCH_WATCHDOG (R291): a batch not completed within 65,536 wclk. -/
def execBatchWatchdog (n : Nat) (s : State) : Result :=
  onUnit (decide (n < s.nslices))
    (match s.headBatch n with
     | none => .next s
     | some b => whenDue s (s.awake && s.inService n && decide (b.released + 65536 ≤ s.wclk)) (sliceGoes s n 2))

/-- ECC_CORRECTED (R291). -/
def execEccCorrected (m : Nat) (s : State) : Result :=
  onUnit (decide (m < s.nclusters)) (settle s (s.modCluster m fun c => { c with cecc := satInc c.cecc 1 }))

/-- A lead core faults: the standby takes over from the active one; with both gone the cluster has faulted (R294). -/
def State.leadFault (s : State) (core : Nat) : State :=
  let m := core / 2
  let other := 1 - core % 2
  let s := s.modLead core fun l => { l with faulted := true }
  if (s.lead (2 * m + other)).faulted then (if (s.cluster m).retired then s else s.clusterFault m [])
  else if (s.cluster m).lead = core % 2 then
    ((s.recover [] 0).modCluster m fun c => { c with lead := other }).health 0x07 (unitLead core) noPart 1 [BitVec.ofNat 8 other]
  else s

def leadGoes (core : Nat) (due : Bool) (s : State) : Result :=
  onUnit (decide (core < 2 * s.nclusters)) (whenDue s (s.awake && due && !(s.lead core).faulted)
    (let base := if (s.lead (2 * (core / 2) + (1 - core % 2))).faulted && !(s.cluster (core / 2)).retired
       then s.flushCluster (core / 2) else s
     goOn base (base.leadFault core)))

/-- LEAD_CORE_FAULT (R294). -/
def execLeadCoreFault (core : Nat) (s : State) : Result := leadGoes core true s

/-- LEAD_WATCHDOG (R291): unserviced for 10 µs, so no sooner than 10 µs after the lead cores began to run. -/
def execLeadWatchdog (core : Nat) (s : State) : Result := leadGoes core (decide (s.boot.ranSince + 10000 ≤ s.elapsed)) s

/-- A recovery that must be reported: the third fault while two were in progress, or one that takes longer than 200 µs (R290). -/
def State.overruns (s : State) (r : Recov) : Bool :=
  !r.reported && (r.third || (s.recovering r && decide (r.start + 200000 < s.elapsed)))

/-- RECOVERY_OVERRUN (R290). -/
def execRecoveryOverrun (s : State) : Result :=
  whenDue s (s.awake && s.recovs.any s.overruns)
    (settle s ({ s with recovs := modFirst s.overruns (fun r => { r with reported := true }) s.recovs }.health 0x0D unitInst noPart 3
      [BitVec.ofNat 8 s.recoveries]))

/-! ## Audit (R300 to R303) -/

/-- What a comparison looks at: status, VISITS, held set, staged queries (R301). -/
def sameEnd (a : Query) (sa : Byte) (b : Query) (sb : Byte) : Bool :=
  sa == sb && a.visits == b.visits && a.held == b.held && a.staged == b.staged

def State.snapOf (s : State) (o : Nat) : Option (Query × Byte) := s.snaps.find? fun x => x.1.uid == o

/-- Home cluster, partition, stream and SEQ of a query's deposit, retired or not. -/
def State.origin (s : State) (q : Query) : Nat × Half × Word :=
  match s.dep? q.dep with
  | some d => (d.home, d.stream, d.seq)
  | none =>
    match s.delivered.find? (·.dep == q.dep) with
    | some d => (d.home, d.stream, d.seq)
    | none => (q.cluster, 0, 0)

/-- HEALTH AUDIT_MISMATCH or AUDIT_SPLIT (Table 10.8). -/
def State.auditEvent (s : State) (code sev : Nat) (q : Query) (suspect : Nat) : State :=
  let (home, stream, seq) := s.origin q
  s.health code (unitCluster home) q.part sev
    (leBytes 4 q.qid.toNat ++ leBytes 2 stream.toNat ++ [0, 0] ++ leBytes 4 seq.toNat ++ leBytes 2 suspect)

/-- A matching audit: it covers the visits its slices have run so far (R302). -/
def State.matched (s : State) (slices : List Nat) : State :=
  let s := slices.foldl (fun (s : State) n => s.modSlice n fun v => { v with lastMatch := s.wclk + 1 }) s
  { s with delivered := s.delivered.filter fun d => d.ran.any fun e => decide ((s.slice e.1).lastMatch < e.2) }

/-- Slices for the third copy: in a third cluster where there is one, with no visit in either trace (R302), and of the slice set of the
run in a locked pair (log 84). -/
def State.thirdSlices (s : State) (orig shadow : Query) : List Nat :=
  let c2 := shadow.cluster
  let others := (s.clustersAfter c2).filter (· != orig.cluster)
  let ms := others ++ (if s.nclusters = 1 then [c2] else [])
  ((ms.map s.admittedSlices).flatten).filter fun n =>
    NMap.get 0 orig.ran n == 0 && NMap.get 0 shadow.ran n == 0 && s.sliceAllowed orig.part orig.run n

/-- AUDIT_COMPARE (R301, R302): a shadow and its original have both ended. A third copy waits for a context of its slice and for
quota. -/
def execAuditCompare (u : Nat) (s : State) : Result :=
  match s.query? u with
  | none => .next s
  | some c =>
    match c.shadowOf.bind s.snapOf, c.status, c.pin with
    | some (orig, ost), some st, some pin =>
      whenDue s (s.isOpen && c.st == .ended && c.voteWith.isNone && !(s.queries.any (·.voteWith == some u)))
        (let (home, _, _) := s.origin orig
         let prob := (s.slice pin).st == .probation
         if c.memEvent || orig.memEvent then settle s (s.dropShadow c)
         else
           let s1 := s.modCluster home fun m => { m with audits := satInc m.audits 1 }
           if sameEnd orig ost c st then
             let s2 := if prob then s1.modSlice pin fun v => { v with compared := v.compared + 1 }
               else s1.matched (pin :: orig.ran.map (·.1))
             settle s (s2.dropShadow c)
           else
             let s2 := s1.modCluster home fun m => { m with amiss := satInc m.amiss 1 }
             if prob then settle s ((s2.modSlice pin fun v => { v with mismatch := true }).dropShadow c)
             else
               let ns := s2.thirdSlices orig c
               if ns.isEmpty then settle s ((s2.auditEvent 0x05 2 orig 0xFFFF).dropShadow c)
               else
                 match ns.find? fun n => decide (s.sliceCtx n < 2048) && decide (s.partCtx orig.part < (s.part orig.part).quotaCtx.toNat) with
                 | none => .next s
                 | some n =>
                   let t := s2.addPinned orig n
                   settle s ((t.modQuery s.nextUid fun q => { q with voteWith := some u }).beginNew [s.nextUid]))
    | _, _, _ => .next s

/-- The slice at the first visit where a trace departs from another. -/
def departs : List Visit → List Visit → Option Nat
  | [], _ => none
  | v :: _, [] => some v.slice
  | v :: t, w :: u => if v.line = w.line ∧ v.outcome = w.outcome then departs t u else some v.slice

/-- A deposit of which a query ran a visit on a slice since that slice's last matching audit. -/
def State.ranOn (s : State) (d : Dep) (n : Nat) : Bool :=
  let since := (s.slice n).lastMatch
  decide (since < NMap.get 0 d.ran n) || (s.queries.any fun q => q.dep == d.id && q.pin.isNone && decide (since < NMap.get 0 q.ran n))

/-- HEALTH SUSPECT_DELIVERED (R303). -/
def State.suspectEvent (s : State) (n home part : Nat) (stream : Half) (sgen : Byte) (seq : Word) : State :=
  s.health 0x06 (unitCluster home) part 2 ([0, 0, 0, 0] ++ leBytes 2 stream.toNat ++ [sgen, 0] ++ leBytes 4 seq.toNat ++ leBytes 2 n)

/-- What an audit that names a slice does (R302, R303): live deposits it touched run again, delivered ones are named, and
the slice is retired. -/
def State.convict (s : State) (n : Nat) : State :=
  let hit := s.deps.filter fun d => s.ranOn d n
  let out := fun (d : Dep) => d.step == .receipt || d.step == .retiring
  let since := (s.slice n).lastMatch
  let s := (hit.filter out).foldl (fun s d => s.suspectEvent n d.home d.part d.stream d.sgen d.seq) s
  let s := (s.delivered.filter fun d => decide (since < NMap.get 0 d.ran n)).foldl
    (fun s d => s.suspectEvent n d.home d.part d.stream d.sgen d.seq) s
  let s := (hit.filter fun d => !out d).foldl (fun s d => s.restartDep d.id) s
  s.retireSlice n 3

/-- AUDIT_VOTE (R302): the third copy has ended. -/
def execAuditVote (u : Nat) (s : State) : Result :=
  match s.query? u with
  | none => .next s
  | some t =>
    match t.voteWith.bind s.query?, t.shadowOf.bind s.snapOf, t.status with
    | some c, some (orig, ost), some st =>
      whenDue s (s.isOpen && t.st == .ended)
        (let s1 := (s.dropShadow t).dropShadow c
         let cst := c.status.getD 0
         if t.memEvent || c.memEvent || orig.memEvent then settle s s1
         else
           let verdict :=
             if sameEnd t st orig ost then some (c.pin.getD 0)
             else if sameEnd t st c cst then some ((departs orig.trace c.trace).getD orig.slice)
             else none
           match verdict with
           | none => settle s (s1.auditEvent 0x05 2 orig 0xFFFF)
           | some n =>
             let base := s1.beforeRetire n
             goOn base ((base.auditEvent 0x04 1 orig n).convict n))
    | _, _, _ => .next s

/-! ## Probation and readmission (R304, R305) -/

/-- A write of ADMIT for one slice: ignored for a slice not retired, and after three failures. -/
def State.readmit (s : State) (n : Nat) : State :=
  if (s.slice n).st == .retired && decide ((s.slice n).fails < 3) && !(s.cluster (clusterOf n)).retired then
    s.modSlice n fun v => { v with st := .bist, compared := 0, mismatch := false }
  else s

/-- Readmission fails: PROBATION_FAILED with its cause and the failures since cold reset. -/
def State.readmitFails (s : State) (n cause : Nat) : State :=
  let s := s.modSlice n fun v => { v with st := .retired, fails := v.fails + 1, mismatch := false }
  s.health 0x03 (unitSlice n) noPart 1 [BitVec.ofNat 8 cause, BitVec.ofNat 8 (s.slice n).fails]

/-- READMIT_BIST_DONE (R304). -/
def execReadmitBistDone (n : Nat) (pass : Bool) (s : State) : Result :=
  onUnit (decide (n < s.nslices)) (whenDue s (s.isOpen && (s.slice n).st == .bist)
    (settle s (if pass then s.modSlice n fun v => { v with st := .probation } else s.readmitFails n 1)))

/-- PROBATION_END (R304): 65,536 comparisons, or one mismatch, which as a slice fault of Table 10.6 also retires the slice under R293
(log 86). -/
def execProbationEnd (n : Nat) (s : State) : Result :=
  onUnit (decide (n < s.nslices))
    (let v := s.slice n
     whenDue s (s.isOpen && v.st == .probation && (v.mismatch || decide (65536 ≤ v.compared)))
       (let s1 := (s.queries.filter (·.pin == some n)).foldl State.dropShadow s
        settle s (if v.mismatch then (s1.readmitFails n 2).health 0x01 (unitSlice n) noPart 1 [5]
                  else s1.modSlice n fun v => { v with st := .waiting, since := s.tbu.tb })))

/-- SLICE_ADMISSION (R304): at the first 1 ms boundary of TB after probation. -/
def execSliceAdmission (n : Nat) (s : State) : Result :=
  onUnit (decide (n < s.nslices))
    (let v := s.slice n
     whenDue s (s.isOpen && v.st == .waiting && decide (v.since.toNat / 1000000 < s.tbu.tb.toNat / 1000000))
       (settle s ((s.modSlice n fun v => { v with st := .admitted }).health 0x02 (unitSlice n) noPart 0 [])))

/-! ## Locked pairs (R309 to R311) -/

/-- Two runs agree: record streams and receipt bodies. -/
def RunOut.agrees (a b : RunOut) : Bool := a.records == b.records && a.receipt == b.receipt

/-- Start the third run of a deposit on the pair's third slice set. -/
def State.startThird (s : State) (dep : Nat) : State :=
  let s := s.modDep dep fun d => { d with third := true, nextIdx := 0, killed := [] }
  match s.dep? dep with
  | none => s
  | some d =>
    if d.hdr.isSome then (s.modDep dep fun d => { d with step := .reading }).askRecord dep else s.startReading dep

/-- LOCK_COMPARE (R310): both runs have produced their outputs. -/
def execLockCompare (dep : Nat) (s : State) : Result :=
  match s.dep? dep with
  | none => .next s
  | some d =>
    match d.runs with
    | [a, b] =>
      whenDue s (s.isOpen && d.step == .running && !d.third)
        (if a.agrees b then settle s (s.sendOut dep a) else settle s ((s.depEvent 0x0E 1 d).startThird dep))
    | _ => .next s

/-- The slice the minority run's traces name: at its first departure from the majority's. -/
def minoritySlice : List (Word × Nat × List Visit) → List (Word × Nat × List Visit) → Option Nat
  | [], _ => none
  | (q, b, t) :: rest, maj =>
    match (maj.find? fun x => x.1 == q && x.2.1 == b).bind fun x => departs t x.2.2 with
    | some n => some n
    | none => minoritySlice rest maj

/-- Deliver the majority and retire the minority's slice, unless a memory failure can explain the difference (R297). -/
def deliverMajority (s : State) (dep : Nat) (maj minr : RunOut) (excused : Bool) : Result :=
  match minoritySlice minr.traces maj.traces, excused with
  | some n, false =>
    let base := s.beforeRetire n
    goOn base ((base.sendOut dep maj).retireSlice n 3)
  | _, _ => settle s (s.sendOut dep maj)

/-- LOCK_VOTE (R310, R311, R297): the third run has ended. -/
def execLockVote (dep : Nat) (s : State) : Result :=
  match s.dep? dep with
  | none => .next s
  | some d =>
    match d.runs with
    | [a, b] =>
      whenDue s (s.isOpen && d.third && d.step == .running && ((d.killedIn 2).isSome || s.allQueriesDone d))
        (let c := s.runOut d 2
         let excused := a.memEvent || b.memEvent
         if a.agrees c then deliverMajority s dep c b excused
         else if b.agrees c then deliverMajority s dep c a excused
         else if excused then
           let best := ([a, b, c].find? fun r => !r.memEvent).getD a
           let s1 := s.sendOut dep best
           settle s (match d.memFault with | some (port, addr, cause) => s1.portEvent port d.part addr cause | none => s1)
         else
           settle s (((s.modDep dep fun d => { d with step := .split }).modPart d.part fun p => { p with split := true }).depEvent
             0x0F 3 d))
    | _ => .next s

end Sys2Proof.Machine
end

