-- ==== Sys2Proof/Machine/Mint.lean ====
section
/-! DEFINITION. The mint: commands, the build of a tree image from primitives, the refit of one, the writes, the completion
record, holds and aborts (R221 to R241, R269). -/

namespace Sys2Proof.Machine

open Sys2Proof

/-! ## The command descriptor (Table 8.4) -/

/-- A command descriptor. -/
structure MintDesc where
  op : Nat
  lt : Nat
  qmode : Nat
  leafMax : Nat
  ids : Bool
  masks : Bool
  count : Nat
  inBase : Nat
  outBase : Nat
  outLines : Nat
  epoch : Word
  perm : Nat
  idBase : Nat
  src : Nat
  treeId : Nat
  dims : Nat
  notify : Word
  deriving DecidableEq, Repr

def parseMint (bs : List Byte) : MintDesc :=
  let b := fun (i : Nat) => (byteAt bs i).toNat
  { op := b 0, lt := b 1, qmode := b 2, leafMax := b 3 % 16, ids := bitAt (b 3) 4, masks := bitAt (b 3) 5,
    count := fieldAt bs 4 4, inBase := fieldAt bs 8 8, outBase := fieldAt bs 16 8, outLines := fieldAt bs 24 4,
    epoch := BitVec.ofNat 32 (fieldAt bs 28 4), perm := fieldAt bs 32 8, idBase := fieldAt bs 40 8, src := fieldAt bs 48 8,
    treeId := fieldAt bs 56 2, dims := b 58, notify := BitVec.ofNat 32 (fieldAt bs 60 4) }

def msDone : Byte := 0
def msBadCmd : Byte := 1
def msNoSpace : Byte := 2
def msTooDeep : Byte := 3
def msBadSource : Byte := 4
def msMemError : Byte := 5
def msAborted : Byte := 6
def msAllVoid : Byte := 7

def MintDesc.build (c : MintDesc) : Bool := c.op != 2
def MintDesc.inPlace (c : MintDesc) : Bool := c.op == 2 && c.outBase == c.src

/-- The epoch after another (R45). -/
def nextEpoch (e : Word) : Word := if e = 0xFFFFFFFF then 1 else e + 1

/-- The epoch of the image written (R223, R235). -/
def MintDesc.written (c : MintDesc) : Word := if c.op = 2 then nextEpoch c.epoch else c.epoch

/-- Bytes of an input record, and records in a record line; pairs are never formed (R232). -/
def MintDesc.recBytes (c : MintDesc) : Nat := (recordSize c.lt c.dims).1
def MintDesc.perLine (c : MintDesc) : Nat := if c.lt = 1 then 1 else (recordSize c.lt c.dims).2

/-- A field lies outside its range in Table 8.4, DIMS does not match, or MASKS stands with POINT_ND. -/
def MintDesc.badField (c : MintDesc) : Bool :=
  !(c.op == 1 || c.op == 2) || !(decide (1 ≤ c.lt) && decide (c.lt ≤ 6)) || !(decide (1 ≤ c.count) && decide (c.count ≤ 2 ^ 28)) ||
    decide (c.inBase % 4 ≠ 0) || decide (c.outBase % 64 ≠ 0) || c.epoch == 0 ||
    (if c.lt = 5 then !(decide (4 ≤ c.dims) && decide (c.dims ≤ 8)) else c.dims != 3) ||
    (if c.op = 1 then (c.lt != 5 && decide (3 < c.qmode)) || !(decide (1 ≤ c.leafMax) && decide (c.leafMax ≤ 8)) || (c.masks && c.lt == 5)
     else decide (c.src % 64 ≠ 0))

/-! ## Reading and checking ranges -/

/-- The pieces of a range that lie in one 64-byte granule each. -/
def granules (a n : Nat) : List (Nat × Nat) :=
  if n = 0 then []
  else (linesOf a n).map fun l =>
    let lo := max a (64 * l)
    (lo, min (a + n) (64 * l + 64) - lo)

/-- Every access of a range translates. -/
def State.rangeOk (s : State) (part a n : Nat) (wr : Bool) : Bool :=
  (granules a n).all fun x => (s.translate part x.1 x.2 wr).isSome

/-- The bytes of a range; a window miss gives none. -/
def State.readPart (s : State) (part a n : Nat) : Option (List Byte) :=
  ((granules a n).mapM fun x => (s.translate part x.1 x.2 false).map fun sys => s.readSys sys x.2).map List.flatten

/-- Every granule of a range that translates lies behind a port that issues requests (R337). -/
def State.rangeReady (s : State) (part a n : Nat) (wr : Bool) : Bool :=
  (granules a n).all fun x => match s.translate part x.1 x.2 wr with | some sys => s.portEn sys | none => true

def overlap (a n b m : Nat) : Bool := decide (a < b + m) && decide (b < a + n)

/-! ## Boxes (R226) -/

/-- Bounds per axis. -/
abbrev Bounds := List (Q × Q)

/-- A bound as the engine holds it; one beyond the FP32 range is open (log 33). -/
def sphereEdge (c r : Q) (up : Bool) : Q :=
  match (if up then upFp (c.add r) else downFp (c.sub r)) with
  | .fin q => q
  | _ => Q.ofInt (Config.sphereBound c.floor r.floor up)

def cornerBounds (vs : List (List Q)) : Bounds :=
  (List.range 3).map fun a =>
    let xs := vs.map fun v => at3 v a
    (xs.foldl Q.min (xs.headD Q.zero), xs.foldl Q.max (xs.headD Q.zero))

def Prim.bounds : Prim → Bounds
  | .tri a b c => cornerBounds [a, b, c]
  | .tet a b c d => cornerBounds [a, b, c, d]
  | .sphere c r => c.map fun x => (sphereEdge x r false, sphereEdge x r true)
  | .aabb lo hi => lo.zip hi
  | .point p => p.map fun x => (x, x)

def unionB : Bounds → Bounds → Bounds := List.zipWith fun x y => (x.1.min y.1, x.2.max y.2)

def unionAll : List Bounds → Option Bounds
  | [] => none
  | b :: t => some (t.foldl unionB b)

/-- The primitive of an input record; none is void (R66). -/
def recordPrim (lt dims : Nat) (bs : List Byte) : Option Prim :=
  if lt = 1 then parseTri bs 0 12 24 else parsePrim lt dims bs 0

/-! ## Keys and order (R227, R228) -/

/-- A placed primitive: input index, record, bounds, class mask, key. -/
structure Placed where
  idx : Nat
  data : List Byte
  box : Bounds
  mask : Byte
  key : Nat := 0
  deriving DecidableEq, Repr

/-- Twice the centroid on each axis. -/
def Placed.centre (p : Placed) : List Q := p.box.map fun x => x.1.add x.2

/-- m_a, from twice the centroid and its extremes. -/
def mortonAxis (b : Nat) (c cmin cmax : Q) : Nat :=
  if cmax.le cmin then 0
  else min (2 ^ b - 1) ((((c.sub cmin).mul (Q.ofInt (2 ^ b : Nat))).div (cmax.sub cmin)).floor.toNat)

/-- Bit j of m_a at key bit DIMS × j + a. -/
def spread (dims b : Nat) (ms : List Nat) : Nat :=
  ((List.range dims).map fun a => ((List.range b).map fun j => ms.getD a 0 / 2 ^ j % 2 * 2 ^ (dims * j + a)).sum).sum

/-- The placed primitives with their keys, sorted by key and input index. -/
def sortPlaced (dims : Nat) (ps : List Placed) : List Placed :=
  let b := 63 / dims
  let cs := ps.map Placed.centre
  let ext := (List.range dims).map fun a =>
    let xs := cs.map fun c => at3 c a
    (xs.foldl Q.min (xs.headD Q.zero), xs.foldl Q.max (xs.headD Q.zero))
  let key := fun (p : Placed) => spread dims b
    ((List.range dims).map fun a => mortonAxis b (at3 p.centre a) (ext.getD a (Q.zero, Q.zero)).1 (ext.getD a (Q.zero, Q.zero)).2)
  sortBy (fun x y => decide (x.key < y.key) || (x.key == y.key && decide (x.idx < y.idx))) (ps.map fun p => { p with key := key p })

/-! ## The binary hierarchy and its collapse (R229, R230) -/

/-- A node of the binary hierarchy over the sorted indices i to j. -/
inductive BTree where
  | leaf (i j : Nat)
  | node (i j : Nat) (l r : BTree)
  deriving DecidableEq, Repr

def BTree.lo : BTree → Nat
  | .leaf i _ => i
  | .node i _ _ _ => i
def BTree.hi : BTree → Nat
  | .leaf _ j => j
  | .node _ j _ _ => j
def BTree.size (t : BTree) : Nat := t.hi + 1 - t.lo
def BTree.inner : BTree → Bool
  | .leaf _ _ => false
  | .node _ _ _ _ => true

/-- Where a range splits. -/
def splitAt (keys : List Nat) (i j : Nat) : Nat :=
  let ki := keys.getD i 0
  let kj := keys.getD j 0
  if ki = kj then (i + j) / 2
  else
    let h := Nat.log2 (ki ^^^ kj)
    i + (((keys.drop i).take (j - i)).filter fun k => k / 2 ^ h == ki / 2 ^ h).length - 1

/-- The hierarchy over a range; the fuel bounds its depth. -/
def hierarchy (keys : List Nat) (leafMax : Nat) : Nat → Nat → Nat → BTree
  | 0, i, j => .leaf i j
  | k + 1, i, j =>
    if j + 1 - i ≤ leafMax then .leaf i j
    else
      let m := splitAt keys i j
      .node i j (hierarchy keys leafMax k i m) (hierarchy keys leafMax k (m + 1) j)

/-- Replace the non-leaf candidate with most primitives by its children; ties go to the lowest first index. -/
def expandOne (cs : List BTree) : List BTree :=
  let inner := cs.filter BTree.inner
  match inner.find? fun x => inner.all fun y => decide (y.size < x.size) || (decide (y.size = x.size) && decide (x.lo ≤ y.lo)) with
  | some x => (cs.map fun y => if y = x then (match y with | .node _ _ l r => [l, r] | t => [t]) else [y]).flatten
  | none => cs

def expand : Nat → List BTree → List BTree
  | 0, cs => cs
  | k + 1, cs => if cs.length < 8 then expand k (expandOne cs) else cs

/-- The slots of the 8-wide node a binary node forms: internal children first, each group by first index. -/
def slotsOf (t : BTree) : List BTree × List BTree :=
  match t with
  | .leaf _ _ => ([], [t])
  | .node _ _ l r =>
    let cs := sortBy (fun x y => decide (x.lo < y.lo)) (expand 6 [l, r])
    (cs.filter BTree.inner, cs.filter fun x => !x.inner)

/-! ## Encoding (R60, R231) -/

/-- The codes of one axis over the used slots: origin, exponent, low and high codes, whether a decoded bound grows by more
than an eighth of the span. -/
structure AxisCode where
  o : Q
  e : Int
  lo : List Nat
  hi : List Nat
  grows : Bool
  deriving DecidableEq, Repr

/-- The canonical procedure of R60 on one axis; N is the largest code. -/
def quantAxis (n : Nat) (bs : List (Q × Q)) : AxisCode :=
  let first := bs.headD (Q.zero, Q.zero)
  let o := bs.foldl (fun m x => m.min x.1) first.1
  let top := bs.foldl (fun m x => m.max x.2) first.2
  let span := top.sub o
  let nq := Q.ofInt n
  let e : Int := match (List.range 256).find? fun (k : Nat) => span.le (nq.mul (Q.pow2 ((k : Int) - 128))) with
    | some k => (k : Int) - 128
    | none => 127
  let step := Q.pow2 e
  let lo := bs.map fun x => min n (((x.1.sub o).div step).floor.toNat)
  let hi := bs.map fun x => min n (((x.2.sub o).div step).ceil.toNat)
  let grow := fun (x : Q × Q) (l h : Nat) =>
    ((x.1.sub o).sub (step.mul (Q.ofInt l))).add ((o.add (step.mul (Q.ofInt h))).sub x.2)
  let grows := (List.range bs.length).any fun k =>
    (Q.div span (Q.ofInt 8)).lt (grow (bs.getD k first) (lo.getD k 0) (hi.getD k 0))
  { o := o, e := e, lo := lo, hi := hi, grows := grows }

/-- Largest code of a node form (Table 2.6). -/
def formMax (kind : Nat) : Nat := match kind with | 1 => 7 | 3 => 255 | _ => 15

/-- Lines of a node form. -/
def formLines (kind dims : Nat) : Nat := match kind with | 3 => 2 | 4 => if dims ≤ 6 then 2 else 3 | _ => 1

/-- Overwrite bytes of a line from an offset. -/
def putBytes (l : List Byte) (off : Nat) (bs : List Byte) : List Byte := l.take off ++ bs ++ l.drop (off + bs.length)

/-- Pack eight codes of `w` bits (R54). -/
def pack8 (w : Nat) (cs : List Nat) : Nat := ((List.range 8).map fun k => cs.getD k 0 * 2 ^ (w * k)).sum

/-- Eight codes from those of the slots that hold a box; the others are empty (R53, R54). -/
def fill8 (empty : Nat) : List Bool → List Nat → List Nat
  | [], _ => []
  | false :: us, cs => empty :: fill8 empty us cs
  | true :: us, cs => cs.headD empty :: fill8 empty us (cs.drop 1)

def eight (used : List Bool) : List Bool := (used ++ List.replicate 8 false).take 8

/-- Write one axis of a node; `c` is none when no slot holds a box, and origin and exponent then stay. -/
def putAxis (kind : Nat) (used : List Bool) (lines : List (List Byte)) (a : Nat) (c : Option AxisCode) : List (List Byte) :=
  let (gl, oo, eo, cl, lo, hi, n, w) := axisPlace kind a
  let put := fun (ls : List (List Byte)) (k off : Nat) (bs : List Byte) => ls.modify k fun l => putBytes l off bs
  let lines := match c with
    | some x => put (put lines gl oo (leBytes 4 (fpWord (.fin x.o)).toNat)) gl eo [BitVec.ofInt 8 x.e]
    | none => lines
  let los := fill8 (formMax kind) (eight used) (match c with | some x => x.lo | none => [])
  let his := fill8 0 (eight used) (match c with | some x => x.hi | none => [])
  put (put lines cl lo (leBytes n (pack8 w los))) cl hi (leBytes n (pack8 w his))

/-- Code every axis of a node's slots; an empty slot has no bounds. -/
def putAxes (kind dims : Nat) (slots : List (Option Bounds)) (lines : List (List Byte)) : List (List Byte) :=
  let boxes := slots.filterMap id
  let used := slots.map Option.isSome
  (List.range dims).foldl (fun ls a =>
    let bs := boxes.map fun b => b.getD a (Q.zero, Q.zero)
    putAxis kind used ls a (if bs.isEmpty then none else some (quantAxis (formMax kind) bs))) lines

def setTag (e : Word) (l : List Byte) : List Byte := putBytes l 4 (leBytes 4 e.toNat)

/-- A node ready to be laid out: its slots' bounds and masks, and its form. -/
structure WideNode where
  ints : List BTree
  leaves : List BTree
  boxes : List Bounds
  cmask : List Byte
  kind : Nat
  deriving DecidableEq, Repr

def rangeOf (ps : List Placed) (t : BTree) : List Placed := (ps.drop t.lo).take t.size

/-- The form of a node (R231). -/
def formOf (c : MintDesc) (boxes : List Bounds) (masks : List Byte) : Nat :=
  if c.lt = 5 then 4
  else if c.masks && masks.any fun m => m != masks.headD 0 then 1
  else if c.qmode ≠ 0 then c.qmode
  else
    let grows := (List.range c.dims).any fun a => (quantAxis 15 (boxes.map fun b => b.getD a (Q.zero, Q.zero))).grows
    if grows then 3 else 2

def wideOf (c : MintDesc) (ps : List Placed) (t : BTree) : WideNode :=
  let (ints, leaves) := slotsOf t
  let all := ints ++ leaves
  let boxes := all.map fun x => (unionAll ((rangeOf ps x).map (·.box))).getD []
  let masks := all.map fun x => (rangeOf ps x).foldl (fun m p => m ||| p.mask) 0
  { ints := ints, leaves := leaves, boxes := boxes, cmask := if c.masks then masks else masks.map fun _ => 0xFF,
    kind := formOf c boxes masks }

/-! ## Layout (R232) -/

/-- A node or leaf with its place. -/
structure LaidNode where
  line : Nat
  base : Nat
  depth : Nat
  w : WideNode
  at_ : List Nat
  deriving DecidableEq, Repr

/-- Consecutive positions from `p` for items of given sizes. -/
def positions : Nat → List Nat → List Nat
  | _, [] => []
  | p, n :: t => p :: positions (p + n) t

/-- Lay the nodes out breadth-first: the queue holds binary nodes with their line and depth. -/
def layNodes (c : MintDesc) (ps : List Placed) : Nat → List (BTree × Nat × Nat) → Nat → List LaidNode × Nat
  | 0, _, free => ([], free)
  | _, [], free => ([], free)
  | k + 1, (t, line, depth) :: rest, free =>
    let w := wideOf c ps t
    let sizes := w.ints.map (fun x => formLines (wideOf c ps x).kind c.dims) ++ w.leaves.map fun _ => 1
    let at_ := positions free sizes
    let kids := (w.ints.zip at_).map fun x => (x.1, x.2, depth + 1)
    let (more, last) := layNodes c ps k (rest ++ kids) (free + sizes.sum)
    ({ line := line, base := free, depth := depth, w := w, at_ := at_ } :: more, last)

/-- The lines of a laid node. -/
def nodeBytes (c : MintDesc) (n : LaidNode) : List (Nat × List Byte) :=
  let w := n.w
  let head := padTo 64 ([BitVec.ofNat 8 w.kind, BitVec.ofNat 8 (w.ints.length + 16 * w.leaves.length), BitVec.ofNat 8 c.dims, 0] ++
    leBytes 4 c.epoch.toNat ++ leBytes 4 n.base ++ padTo 7 ((n.at_.drop 1).map fun x => BitVec.ofNat 8 (x - n.base)))
  let head := if w.kind = 1 then putBytes head 54 (padTo 8 w.cmask) else head
  let exts := (List.range (formLines w.kind c.dims - 1)).map fun p =>
    padTo 64 ([0x08, BitVec.ofNat 8 (p + 1), 0, 0] ++ leBytes 4 c.epoch.toNat)
  (putAxes w.kind c.dims (w.boxes.map some) (head :: exts)).mapIdx fun i l => (n.line + i, l)

/-- A leaf line. -/
def leafBytes (c : MintDesc) (recBase recLines : Nat) (ids : List Word) : List Byte :=
  padTo 64 ([0x10, BitVec.ofNat 8 c.lt, BitVec.ofNat 8 ids.length, BitVec.ofNat 8 (if c.lt = 5 then c.dims else 0)] ++
    leBytes 4 c.epoch.toNat ++ leBytes 4 recBase ++ leBytes 2 recLines ++ [0, 0] ++ (ids.map fun i => leBytes 4 i.toNat).flatten)

/-- The record lines of a leaf. -/
def recordBytes (c : MintDesc) (recs : List (List Byte)) : List (List Byte) :=
  (chunks c.perLine recs.length recs).map fun r =>
    padTo 64 ([0x20, BitVec.ofNat 8 c.lt, BitVec.ofNat 8 r.length, 0] ++ leBytes 4 c.epoch.toNat ++ r.flatten)

/-- The header line of a built image. -/
def headerBytes (c : MintDesc) (lines placed : Nat) : List Byte :=
  padTo 64 ([0x40, 0x02, BitVec.ofNat 8 c.dims, 0] ++ leBytes 4 c.epoch.toNat ++ leBytes 4 lines ++ leBytes 4 1 ++
    leBytes 2 c.treeId ++ [0, 0, 0, 0, 0, 0] ++ leBytes 4 placed)

/-- Leaf lines and record runs, in ascending leaf-line index. -/
def layLeaves (c : MintDesc) (ps : List Placed) (ids : List Word) : List (Nat × BTree) → Nat → List (Nat × List Byte) × Nat
  | [], free => ([], free)
  | (line, t) :: rest, free =>
    let r := rangeOf ps t
    let recs := recordBytes c (r.map (·.data))
    let pid := r.map fun p => if c.ids then ids.getD p.idx 0 else BitVec.ofNat 32 p.idx
    let (more, last) := layLeaves c ps ids rest (free + recs.length)
    ((line, leafBytes c free recs.length pid) :: recs.mapIdx (fun i l => (free + i, l)) ++ more, last)

/-- What a command produces: its status, lines of the image, PERM entries, and the completion fields from EPOCH on. -/
structure Minted where
  status : Byte
  lines : List (Nat × List Byte) := []
  perm : List Nat := []
  fields : List Nat := []
  prims : Nat := 0
  deriving DecidableEq, Repr

/-- The build of R226 to R233 from the input records, the ID buffer and the masks. -/
def buildImage (c : MintDesc) (recs : List (List Byte)) (ids : List Word) (masks : List Byte) : Minted :=
  let placed := (List.range recs.length).filterMap fun i =>
    (recordPrim c.lt c.dims (recs.getD i [])).map fun p =>
      ({ idx := i, data := recs.getD i [], box := p.bounds, mask := if c.masks then byteAt masks i else 0xFF } : Placed)
  if placed.isEmpty then { status := msAllVoid }
  else
    let ps := sortPlaced c.dims placed
    let n := ps.length
    let root := hierarchy (ps.map (·.key)) c.leafMax n 0 (n - 1)
    let rootLines := formLines (wideOf c ps root).kind c.dims
    let (nodes, free) := layNodes c ps n [(root, 1, 1)] (1 + rootLines)
    let leaves := (nodes.map fun x => (x.at_.drop x.w.ints.length).zip x.w.leaves).flatten
    let (ls, total) := layLeaves c ps ids leaves free
    let depth := nodes.foldl (fun m x => max m x.depth) 0
    if c.outLines < total then { status := msNoSpace, perm := ps.map (·.idx) }
    else if 64 < depth then { status := msTooDeep, perm := ps.map (·.idx) }
    else
      let kind := fun (k : Nat) => (nodes.filter fun x => x.w.kind == k).length
      { status := msDone, lines := (0, headerBytes c total n) :: (nodes.map (nodeBytes c)).flatten ++ ls,
        perm := ps.map (·.idx),
        fields := [c.epoch.toNat, total, n, recs.length - n, nodes.length, kind 3, kind 1, depth], prims := n }

/-! ## Refit (R235 to R237) -/

/-- A source line under the epoch rule of a refit: tag e, or, in place, e + 1 too. -/
def MintDesc.tagOk (c : MintDesc) (l : List Byte) : Bool :=
  lineTag l == c.epoch || (c.inPlace && lineTag l == nextEpoch c.epoch)

/-- A structural line of the source: a node with its lines, or a leaf. -/
inductive SrcItem where
  | node (line : Nat) (n : Node) (raw : List (List Byte))
  | leaf (f : Leaf)
  deriving DecidableEq, Repr

def SrcItem.line : SrcItem → Nat
  | .node l _ _ => l
  | .leaf f => f.addr

/-- One structural line of the source and what it leads to; none is BAD_SOURCE. -/
def srcItem (c : MintDesc) (h : ImgHdr) (src : List (List Byte)) (line : Nat) (leaf : Bool) : Option (SrcItem × List (Nat × Bool)) :=
  let l := src.getD line []
  if !c.tagOk l then none
  else if leaf then
    (parseLeaf h line l).bind fun f => if f.type = c.lt ∧ f.runOk h then some (.leaf f, []) else none
  else
    (nodeLines l).bind fun k =>
      let raw := (src.drop line).take k
      if !raw.all c.tagOk then none
      else (parseNode h line raw).map fun n => (.node line n raw, n.children.mapIdx fun i x => (x, decide (n.nint ≤ i)))

/-- The structural lines reached from the root, each once; the fuel bounds the lines looked at. -/
def srcWalk (c : MintDesc) (h : ImgHdr) (src : List (List Byte)) : Nat → List (Nat × Bool) → List SrcItem → Option (List SrcItem)
  | _, [], acc => some acc
  | 0, _ :: _, _ => none
  | k + 1, (line, leaf) :: rest, acc =>
    if acc.any fun x => x.line == line && (match x with | .leaf _ => leaf | _ => !leaf) then srcWalk c h src k rest acc
    else (srcItem c h src line leaf).bind fun (x, kids) => srcWalk c h src k (kids ++ rest) (acc ++ [x])

/-- Node head lines on the longest path from a line; none on a cycle, which runs out of fuel. -/
def srcDepth (items : List SrcItem) : Nat → Nat → Option Nat
  | 0, _ => none
  | k + 1, line =>
    match items.find? fun x => x.line == line with
    | some (.node _ n _) => (n.children.mapM (srcDepth items k)).map fun ds => 1 + ds.foldl max 0
    | _ => some 0

/-- Bounds below a line, from the leaves' bounds; none where nothing but void primitives stands there. -/
def srcBounds (items : List SrcItem) (leafBox : Nat → Option Bounds) : Nat → Nat → Option Bounds
  | 0, _ => none
  | k + 1, line =>
    match items.find? fun x => x.line == line with
    | some (.node _ n _) => unionAll (n.children.filterMap (srcBounds items leafBox k))
    | _ => leafBox line

/-- A leaf with the first position of its primitives in leaf order, ascending leaf-line index (log 34). -/
def leafPositions : Nat → List Leaf → List (Leaf × Nat)
  | _, [] => []
  | p, f :: t => (f, p) :: leafPositions (p + f.count) t

/-- The record lines of a leaf, filled with the new records: each line keeps its COUNT; a pair takes its fourth vertex from
the second record. -/
def fillRecords (c : MintDesc) : List (List Byte) → List (List Byte) → List (List Byte)
  | [], _ => []
  | l :: ls, recs =>
    let k := (byteAt l 2).toNat
    let payload := if c.lt = 1 ∧ k = 2 then recs.headD [] ++ ((recs.getD 1 []).drop 24).take 12 else (recs.take k).flatten
    putBytes l 8 (payload.take 56) :: fillRecords c ls (recs.drop k)

/-- The refit of an image: its source lines, and for each position in leaf order the new record. -/
def refitImage (c : MintDesc) (h : ImgHdr) (src : List (List Byte)) (items : List SrcItem) (depth : Nat) (recs : List (List Byte)) : Minted :=
  let e := c.written
  let leaves := leafPositions 0 (sortBy (fun x y => decide (x.addr < y.addr)) (items.filterMap fun x => match x with | .leaf f => some f | _ => none))
  let prims := fun (f : Leaf) (p : Nat) => ((recs.drop p).take f.count).map (recordPrim c.lt c.dims)
  let leafBox := fun (line : Nat) =>
    match leaves.find? fun x => x.1.addr == line with
    | some (f, p) => unionAll ((prims f p).filterMap fun x => x.map Prim.bounds)
    | none => none
  let box := srcBounds items leafBox (items.length + 1)
  let newNodes := (items.map fun x =>
    match x with
    | .node line n raw =>
      let kind := (byteAt (raw.headD []) 0).toNat
      (putAxes kind h.dims (n.children.map box) raw).mapIdx fun i l => (line + i, l)
    | .leaf _ => []).flatten
  let newRecs := (leaves.map fun x =>
    (fillRecords c ((src.drop x.1.recBase).take x.1.recLines) ((recs.drop x.2).take x.1.count)).mapIdx fun i l => (x.1.recBase + i, l)).flatten
  let line := fun (i : Nat) =>
    match (newNodes ++ newRecs).find? fun x => x.1 == i with
    | some x => (i, setTag e x.2)
    | none => (i, setTag e (src.getD i []))
  let kind := fun (k : Nat) => (items.filter fun x => match x with | .node _ _ raw => (byteAt (raw.headD []) 0).toNat == k | _ => false).length
  let voids := (leaves.map fun x => ((prims x.1 x.2).filter Option.isNone).length).sum
  { status := msDone, lines := (List.range h.lineCount).map line, fields := [e.toNat, h.lineCount, c.count, voids,
      (items.filter fun x => match x with | .node _ _ _ => true | _ => false).length, kind 3, kind 1, depth], prims := c.count }

/-! ## What a command comes to -/

/-- The command's input buffers (Table 8.4). -/
def MintDesc.inputs (c : MintDesc) : List (Nat × Nat) :=
  (c.inBase, c.count * c.recBytes) ::
    (if c.op = 2 then [(c.perm, 4 * c.count)]
     else (if c.ids then [(c.idBase, 4 * c.count)] else []) ++ if c.masks then [(c.src, c.count)] else [])

/-- Ranges and windows of R224 but for the source image. -/
def State.mintBad (s : State) (p : Nat) (c : MintDesc) : Bool :=
  c.badField || !(c.inputs.all fun x => s.rangeOk p x.1 x.2 false) || !s.rangeOk p c.outBase (64 * c.outLines) true ||
    (!c.inPlace && c.inputs.any fun x => overlap c.outBase (64 * c.outLines) x.1 x.2)

/-- BUILD; the PERM array of the placed primitives is judged before the room for the image (R224). -/
def State.mintBuilt (s : State) (p : Nat) (c : MintDesc) : Minted :=
  let bytes := (s.readPart p c.inBase (c.count * c.recBytes)).getD []
  let recs := chunks c.recBytes c.count bytes
  let idBytes := if c.ids then (s.readPart p c.idBase (4 * c.count)).getD [] else []
  let ids := (chunks 4 c.count idBytes).map fun b => (BitVec.ofNat 32 (leNat b) : Word)
  let masks := if c.masks then (s.readPart p c.src c.count).getD [] else []
  let m := buildImage c recs ids masks
  if s.rangeOk p c.perm (4 * m.perm.length) true then m else { status := msBadCmd }

/-- The header of the source of a REFIT, or the status it ends with. -/
def State.mintSource (s : State) (p : Nat) (c : MintDesc) : Except Byte ImgHdr :=
  match s.readPart p c.src 64 with
  | none => .error msBadCmd
  | some l =>
    match parseHeader (BitVec.ofNat 16 (fieldAt l 16 2)) l with
    | none => .error msBadSource
    | some (h, sr, _) =>
      if !c.tagOk l || sr != 0 || h.dims != c.dims || fieldAt l 24 4 != c.count || decide (c.outLines < h.lineCount) then
        .error msBadSource
      else if !c.inPlace && overlap c.outBase (64 * c.outLines) c.src (64 * h.lineCount) then .error msBadCmd
      else if !s.rangeOk p c.src (64 * h.lineCount) false then .error msBadCmd
      else .ok h

/-- REFIT of a source whose header is usable. -/
def State.mintRefitted (s : State) (p : Nat) (c : MintDesc) (h : ImgHdr) : Minted :=
  let src := chunks 64 h.lineCount ((s.readPart p c.src (64 * h.lineCount)).getD [])
  match srcWalk c h src (9 * h.lineCount + 9) [(h.root, false)] [] with
  | none => { status := msBadSource }
  | some items =>
    match srcDepth items (items.length + 1) h.root with
    | none => { status := msBadSource }
    | some depth =>
      let n := (items.map fun x => match x with | .leaf f => f.count | _ => 0).sum
      let perm := (chunks 4 c.count ((s.readPart p c.perm (4 * c.count)).getD [])).map leNat
      match (List.range n).mapM fun j => s.readPart p (c.inBase + perm.getD j 0 * c.recBytes) c.recBytes with
      | none => { status := msBadCmd }
      | some recs => refitImage c h src items depth recs

/-! ## Running a command (R221, R225, R238, R239) -/

/-- Entries of a ring; what SIZE_LOG2 outside 4 to 12 acts as is open (log 36). -/
def MRing.size (r : MRing) : Nat :=
  let n := r.sizeLog2.toNat
  2 ^ (if 4 ≤ n ∧ n ≤ 12 then n else 4 + Config.ringLog2 n % 9)
def MRing.waiting (r : MRing) : Bool := r.en && decide ((r.tail.toNat + 4096 - r.head.toNat) % r.size ≠ 0)

/-- The partition's ring is served (R396). -/
def Part.mintServed (p : Part) : Bool := p.mring.waiting && p.st != .isolated && p.st != .loading

/-- The partition whose command is next: the lowest above the one last served, wrapping (R221). -/
def State.mintNext (s : State) : Option Nat :=
  let above := (List.range 32).map fun k => (s.mint.lastPart.toNat + 1 + k) % 32
  above.find? fun p => (s.part p).mintServed

/-- Partition address of a ring entry. -/
def MRing.entry (r : MRing) (i : Nat) : Nat := r.base.toNat + 128 * i

/-- The purposes of the mint's writes. -/
def isMintWrite : Purpose → Bool
  | .mintLine => true
  | .mintHeader => true
  | _ => false

def State.mintWriting (s : State) : Bool := s.accs.any fun a => isMintWrite a.purpose

def State.modMint (s : State) (f : MintCmd → MintCmd) : State := { s with mint := { s.mint with cur := s.mint.cur.map f } }

/-- The completion record (Table 8.5). -/
def completionRecord (c : MintCmd) (tbEnd : Dword) : List Byte :=
  let f := fun (i : Nat) => if c.status = 0 then leBytes 4 (c.fields.getD i 0) else [0, 0, 0, 0]
  padTo 64 ([c.status, 0, 0, 0] ++ f 0 ++ f 1 ++ f 2 ++ f 3 ++ f 4 ++ f 5 ++ f 6 ++ leBytes 8 c.tbStart.toNat ++
    leBytes 8 tbEnd.toNat ++ f 7)

/-- Release the deposits that the mint held (R238, R239). -/
def State.releaseHeld (s : State) : State :=
  ((s.deps.filter (·.mintHeld)).map (·.id)).foldl (fun s i => (s.modDep i fun d => { d with mintHeld := false }).depGo i) s

/-- The MINT_DONE EVENT (R225, R269). -/
def State.mintNotify (s : State) (c : MintCmd) : State :=
  if bitAt c.notify.toNat 31 then
    s.send { port := s.fab.hPort.toNat, cls := 3, type := 7, flags := 0, stream := 0, sgen := 0, seq := 0,
             peer := BitVec.ofNat 32 (bitsAt c.notify.toNat 27 0),
             payload := [3, 0] ++ leBytes 2 c.index ++ [BitVec.ofNat 8 c.part, c.status, 0, 0] }
  else s

/-- Drop every cached line of a range (R238): an owned copy leaves for its home bank. -/
def State.dropRange (s : State) (part base lines : Nat) : State :=
  let inside := fun (l : Nat) => ((s.part part).seenAt l).any fun a => decide (base ≤ a) && decide (a < base + 64 * lines)
  ((s.cachedLines part).filter inside).foldl State.discardLine s

/-- The command has ended: the image range leaves the caches, then HEAD, MINT_DONE, DONE_EVT, the count, and the deposits held
(R225, R238). -/
def State.mintDone (s : State) : State :=
  match s.mint.cur with
  | none => s
  | some c =>
    let s := s.dropRange c.part c.target.toNat c.lines
    let irq := (s.part c.part).mring.irqEn
    let s := s.modPart c.part fun p => { p with mring := { p.mring with
      head := BitVec.ofNat 12 ((c.index + 1) % p.mring.size), en := p.mring.en && !c.stop } }
    let count : Dword := if c.status = 0 then s.mint.prims + BitVec.ofNat 64 c.prims else s.mint.prims
    let s := { s with mint := { s.mint with cur := none, lastPart := BitVec.ofNat 5 c.part, doneEvt := s.mint.doneEvt || irq, prims := count } }
    ((s.mintNotify c).releaseHeld).settleDrain c.part

/-- Write the completion record; with the entry outside the windows the command ends without it (log 35). -/
def State.mintFinish (s : State) : State :=
  match s.mint.cur with
  | none => s
  | some c =>
    let a := (s.part c.part).mring.entry c.index + 64
    match s.translate c.part a 64 true with
    | some sys => (s.issue true c.part sys a (completionRecord c s.tbu.tb) .mintRec).modMint fun c => { c with completing := true, drain := false }
    | none => s.mintDone

/-- Issue writes of the image and of PERM; the flag tells of a window miss. -/
def State.mintIssue (s : State) (part : Nat) (pur : Purpose) : List (Nat × List Byte) → State × Bool
  | [] => (s, false)
  | (a, bs) :: rest =>
    match s.translate part a bs.length true with
    | some sys => (s.issue true part sys a bs pur).mintIssue part pur rest
    | none => (s, true)

/-- Go on once no write is outstanding: the header of an in-place refit, or the completion record. -/
def State.mintAdvance (s : State) : State :=
  match s.mint.cur with
  | none => s
  | some c =>
    if c.completing || c.drain || s.mintWriting then s
    else if c.failed then (s.modMint fun c => { c with status := msMemError, writes := [] }).mintFinish
    else if c.writes.isEmpty || c.status != 0 then s.mintFinish
    else
      let (t, miss) := (s.modMint fun c => { c with writes := [] }).mintIssue c.part .mintHeader c.writes
      if miss then (t.modMint fun c => { c with status := msBadCmd }).mintFinish else t

/-- Issue the first writes: all of them, or, in place, all but the header (R237). -/
def State.mintWrite (s : State) : State :=
  match s.mint.cur with
  | none => s
  | some c =>
    let k := if (parseMint c.desc).inPlace then c.writes.length - 1 else c.writes.length
    let s := s.modMint fun c => { c with tbStart := s.tbu.tb, drain := false, writes := c.writes.drop k }
    let (t, miss) := s.mintIssue c.part .mintLine (c.writes.take k)
    if miss then (t.modMint fun c => { c with status := msBadCmd, writes := [] }).mintAdvance else t.mintAdvance

/-- A deposit that names the target with another epoch has not sent its RECEIPT (R238). -/
def State.mintBlocked (s : State) (c : MintCmd) : Bool :=
  s.deps.any fun d => d.part == c.part && d.handle.base == c.target && d.handle.epoch != c.epoch &&
    !(d.step == .receipt || d.step == .retiring)

/-- The writes of what a command came to, by partition address: PERM, then the lines, the header last in place. -/
def mintWrites (c : MintDesc) (m : Minted) : List (Nat × List Byte) :=
  let bytes := (m.perm.map fun i => leBytes 4 i).flatten
  let perm := (granules c.perm bytes.length).map fun x => (x.1, (bytes.drop (x.1 - c.perm)).take x.2)
  let line := fun (x : Nat × List Byte) => (c.outBase + 64 * x.1, x.2)
  if m.status != msDone then []
  else if c.inPlace then (m.lines.drop 1).map line ++ (m.lines.take 1).map line
  else perm ++ m.lines.map line

/-- Take a command: its target holds from now; its writes wait for older deposits, or begin. -/
def State.mintStart (s : State) (p : Nat) (desc : List Byte) (m : Minted) : State :=
  let c := parseMint desc
  let cmd : MintCmd := { part := p, index := (s.part p).mring.head.toNat % (s.part p).mring.size, desc := desc,
                         target := BitVec.ofNat 64 c.outBase, epoch := c.written, writes := mintWrites c m, status := m.status,
                         fields := m.fields, tbStart := s.tbu.tb, notify := c.notify, prims := m.prims, lines := m.fields.getD 1 0 }
  let s := { s with mint := { s.mint with cur := some cmd, redo := none, part := BitVec.ofNat 5 p } }
  if m.status != msDone then s.mintFinish
  else if s.mintBlocked cmd then s.modMint fun c => { c with drain := true }
  else s.mintWrite

/-- The tries of reads of the mint, each under its granule of the partition's space: failures are counted and final ones
reported; the flag tells of a final one (R296, R322). -/
def State.mintTried (s : State) (p : Nat) (fails : Fails) (gs : List (Nat × Nat)) : State × Bool :=
  let mine := fails.filter fun x => gs.any fun g => g.1 / 64 == x.1
  let one := fun (s : State) (x : Nat × List MemFail) =>
    match s.translate p (64 * x.1) 1 false with
    | some sys => s.tried sys p (64 * x.1) x.2
    | none => s
  (mine.foldl one s, mine.any fun x => (finalFail x.2).isSome)

/-- What a command comes to whose descriptor has been read, its reads of memory on the way (R224, R236). -/
def State.mintRun (s : State) (p : Nat) (fails : Fails) (c : MintDesc) : State × Minted :=
  let ins := (c.inputs.map fun x => granules x.1 x.2).flatten
  if s.mintBad p c then (s, { status := msBadCmd })
  else if c.op != 2 then
    let (t, bad) := s.mintTried p fails ins
    (t, if bad then { status := msMemError } else s.mintBuilt p c)
  else
    let (t, bad) := s.mintTried p fails (granules c.src 64)
    if bad then (t, { status := msMemError })
    else
      match s.mintSource p c with
      | .error st => (t, { status := st })
      | .ok h =>
        let (t, bad) := t.mintTried p fails ((granules c.src (64 * h.lineCount)).drop 1 ++ ins)
        (t, if bad then { status := msMemError } else s.mintRefitted p c h)

/-- Serve the next command when it is one of the operation `refit`, once every port it reads through issues requests (R337). A
descriptor outside the windows is BAD_CMD. -/
def mintTake (refit : Bool) (part : Nat) (fails : Fails) (s : State) : Result :=
  whenDue s (s.isOpen && s.mint.cur.isNone && s.mintNext == some part)
    (let r := (s.part part).mring
     let entry := r.entry (r.head.toNat % r.size)
     match s.readPart part entry 64 with
     | none => if refit then .next s else settle s (s.mintStart part [] { status := msBadCmd })
     | some desc =>
       let c := parseMint desc
       if (c.op == 2) != refit then .next s
       else if !s.rangeReady part entry 64 false || !c.inputs.all (fun x => s.rangeReady part x.1 x.2 false) ||
           (refit && !s.rangeReady part c.src (64 * c.outLines) false) then .next s
       else
         let (t, bad) := s.mintTried part fails (granules entry 64)
         if bad then settle s (t.mintStart part [] { status := msMemError })
         else
           let (t, m) := t.mintRun part fails c
           settle s (t.mintStart part desc m))

/-- MINT_BUILD (R221, R226 to R234). A command whose OP is no REFIT is judged here. -/
def execMintBuild (part : Nat) (fails : Fails) (s : State) : Result := mintTake false part fails s

/-- MINT_REFIT (R235 to R237). -/
def execMintRefit (part : Nat) (fails : Fails) (s : State) : Result := mintTake true part fails s

/-- MINT_DRAIN_END (R238): the older deposits have sent their receipts. -/
def execMintDrainEnd (s : State) : Result :=
  match s.mint.cur with
  | none => .next s
  | some c => whenDue s (s.isOpen && c.drain && !s.mintBlocked c) (settle s s.mintWrite)

/-- MINT_COMPLETE (R225, R238): the completion record is acknowledged. -/
def execMintComplete (port tag : Nat) (s : State) : Result :=
  onAcc s port tag true fun a =>
    match a.purpose, s.mint.cur with
    | .mintRec, some _ =>
      let base := s.landAcc a
      settle base base.mintDone
    | _, _ => .fault .unsolicited

/-- End the current command of a partition with ABORTED (R239): outstanding writes are discarded, held deposits released. -/
def State.mintAbort (s : State) (p : Nat) : State :=
  match s.mint.cur with
  | none => s
  | some c =>
    if c.part ≠ p ∨ c.completing then s
    else
      let s := s.cancelAccs fun a => isMintWrite a.purpose
      ((s.modMint fun c => { c with status := msAborted, writes := [], drain := false }).releaseHeld).mintFinish

/-- Set the TAIL of a ring (R222). -/
def State.setTail (s : State) (p : Nat) (v : Nat) : State :=
  s.modPart p fun x => { x with mring := { x.mring with tail := BitVec.ofNat 12 v } }

/-- What an EVENT MINT_TAIL of a partition does. -/
def State.takeTail (s : State) (p : Nat) (inj : Bool) (m : Msg) : State :=
  let v := fieldAt m.payload 2 2
  if !inj && s.tailOverruled p v m.pclk then s.refuse 7 m inj rBusy 0
  else (s.setTail p v).reply 7 m inj (.accept false)

/-- EVENT_MINT_TAIL (R269). -/
def execEventMintTail (m : Msg) (s : State) : Result :=
  ingress 7 1 (fun _ => byteAt m.payload 0 == 2) (fun t => settle s (t.takeTail (t.partOf m) false m)) m s

end Sys2Proof.Machine
end

