-- ==== Sys2Proof/Machine/Ports.lean ====
section
/-! DEFINITION. Memory-port failures: counted, repeated, and, when they fail finally, what each costs; late responses; the
end of formatting (R278, R296, R297, R322, R432). -/

namespace Sys2Proof.Machine

open Sys2Proof

/-! ## Requests (R317) -/

/-- SIZE: every access of the model stays within one 64-byte granule. -/
def accSize : Nat := 6

/-- A journal-record write. -/
def Purpose.journal : Purpose → Bool
  | .depositRec _ | .gateRec .. | .freeRec _ | .retireRec _ | .format _ => true
  | _ => false

/-- The header of an access's request (Table 11.2). -/
def Acc.header (a : Acc) : List Byte :=
  [if a.write then 2 else 1, BitVec.ofNat 8 accSize] ++ leBytes 2 a.tag ++ leBytes 8 (a.addr / 64 * 64) ++
    [BitVec.ofNat 8 (a.part % 32), BitVec.ofNat 8 (bit a.persist + 2 * bit a.purpose.journal), 0, 0]

/-- MPn_WD_BE of a write: only the bytes it stores are enabled in its granule. -/
def Acc.enables (a : Acc) : BitVec 128 := BitVec.ofNat 128 ((2 ^ a.data.length - 1) * 2 ^ (a.addr % 64))

/-- MPn_WD of a write: its bytes in their places of the granule. -/
def Acc.lanes (a : Acc) : List Byte := List.replicate (a.addr % 64) 0 ++ a.data

/-! ## Final failures (R296, R297) -/

/-- Causes of MEMPORT_FAULT (Table 10.8). -/
def cError : Nat := 1
def cPoison : Nat := 2
def cTimeout : Nat := 3

/-- A final failure touches an output of a deposit: where LOCK_VOTE finds its address and cause (R297). -/
def State.noteFail (s : State) (dep : Nat) (a : Acc) (cause : Nat) : State :=
  s.modDep dep fun d => { d with memFault := some (a.port, a.paddr, cause) }

/-- The query meets such an event. -/
def State.markFail (s : State) (u : Nat) (a : Acc) (cause : Nat) : State :=
  match s.query? u with
  | none => s
  | some q =>
    let s := s.modQuery u fun q => { q with memEvent := true }
    if q.visitor.isSome || q.pin.isSome then s else s.noteFail q.dep a cause

/-- Queries that a failed read ends with MEM_ERROR, marked as R297 has it. -/
def State.memErrors (s : State) (us : List Nat) (a : Acc) (cause : Nat) : State :=
  us.foldl (fun s u => (s.markFail u a cause).failQuery u stMemError) s

/-- The members of the queue or straggler entry that a query waits in. -/
def Cluster.waitingWith (c : Cluster) (u : Nat) : List Nat :=
  match c.nqs.find? fun n => n.members.any (·.uid == u) with
  | some n => n.members.map (·.uid)
  | none => [u]

/-- A spill access has failed finally: the family runs again, and ends the second time (R296). -/
def State.spillFailed (s : State) (u : Nat) (a : Acc) (cause : Nat) : State :=
  match s.query? u with
  | none => s
  | some q =>
    if q.visitor.isSome || q.pin.isSome || 0 < q.spillFails then s.memErrors [u] a cause else s.recover [q.fam] 1

/-- A DEPOSIT record has failed finally: BUSY for it and for what R287 holds with it; nothing was accepted. The slot stays
used; held gate bits stay held (R268, R287, R296). -/
def State.depositFailed (s : State) (d : Dep) : State :=
  let s := if d.answered then s else s.refuse 1 d.asMsg d.injected rBusy 9
  let s := d.dupHeld.foldl (fun s (x : Nat × Msg) => s.refuse 1 x.2 false rBusy 9) s
  let held : HeldGate := { stream := d.stream, sgen := d.sgen, seq := d.seq, bits := d.gate, waiters := d.gateWaiters }
  let s := if d.gate = 0 ∧ d.gateWaiters.isEmpty then s
    else { s with fab := { s.fab with heldGates := s.fab.heldGates ++ [held] } }
  (((s.unclaim d).dropDep d.id).settleStream d.stream).settleDrain d.part

/-- A record write that is repeated without end: JOURNAL_STALL, once (R296). -/
def State.stall (s : State) (a : Acc) : State :=
  let j := (s.part a.part).jrnl
  let ring := (a.paddr - j.base.toNat) / (64 * j.slots)
  let ids := match a.purpose with
    | .freeRec d | .retireRec d => (match s.dep? d with | some d => leBytes 2 d.stream.toNat ++ [0, 0] ++ leBytes 4 d.seq.toNat | none => [])
    | _ => []
  let s := if 4 ≤ a.tries then s else s.health 0x0A (unitCluster (s.acting 16 ring)) a.part 2 ([BitVec.ofNat 8 ring, 0, 0, 0] ++ ids)
  s.modAcc a.port a.tag a.write fun x => { x with tries := 4, st := .stalled (s.elapsed + 10000) }

/-- STALL of PRT_JRNL_CFG: such a write is being repeated. -/
def State.stalled (s : State) (p : Nat) : Bool := s.accs.any fun a => a.part == p && decide (4 ≤ a.tries)

/-- A write of the mint has failed finally: the command ends with MEM_ERROR (R239, Table 8.6). -/
def State.mintWriteFailed (s : State) : State := (s.modMint fun c => { c with failed := true }).mintAdvance

/-- The writing of a result buffer has failed: no further record write goes out, and the header is written once those on their way
are answered (R432). -/
def State.bufferFails (s : State) (dep : Nat) (a : Acc) (cause : Nat) : State :=
  let s := s.cancelAccs fun x => x.purpose == Purpose.resultRec dep && x.st != .out
  ((s.noteFail dep a cause).modDep dep Dep.faultBuffer).headerNow dep

/-- The record of a family that runs again has failed: the primary ends with MEM_ERROR and counts among the reads of the audit
(R296, R300). -/
def State.rerunFails (s : State) (dep idx run : Nat) : State :=
  match s.dep? dep with
  | none => s
  | some d =>
    (s.modCluster d.home fun c => { c with auditReads := c.auditReads + 1 }).modDep dep fun x =>
      { x with done := x.done ++ [doneAs stMemError (BitVec.ofNat 32 idx) 0 0 run true] }

/-- What a final failure costs, by what the access served (R296). -/
def State.finalFailure (s : State) (a : Acc) (cause : Nat) : State :=
  let told := s.portEvent a.port a.part a.paddr cause
  let gone := told.dropAcc a.port a.tag a.write
  match a.purpose with
  | .depositRec dep => (match gone.dep? dep with | some d => gone.depositFailed d | none => gone)
  | .gateRec _ _ ms => ms.foldl (fun t m => t.refuse 7 m.2 false rBusy 9) gone
  | .freeRec _ | .retireRec _ | .format _ => told.stall a
  | .queryRec dep _ =>
    (match gone.dep? dep with
     | some d => ((gone.noteFail dep a cause).missRecord d true).askRecord dep
     | none => gone)
  | .rerun dep idx run _ => (gone.noteFail dep a cause).rerunFails dep idx run
  | .header dep => (gone.noteFail dep a cause).decideAll dep stMemError true
  | .node u =>
    (match gone.query? u with
     | none => gone
     | some q =>
       let us := (gone.cluster q.cluster).waitingWith u
       (gone.modCluster q.cluster fun c => c.leaveQueues us.contains s.wclk).memErrors us a cause)
  | .reread u => (gone.markFail u a cause).epochEnd u stMemError
  | .spillRd u | .spillWr u => gone.spillFailed u a cause
  | .resultRec dep => gone.bufferFails dep a cause
  | .resultHdr dep => (gone.noteFail dep a cause).modDep dep fun d => { d.faultBuffer with step := .delivered }
  | .reduce dep j =>
    (gone.noteFail dep a cause).modDep dep fun d => { d.allMemError true with depBits := d.depBits ||| BitVec.ofNat 16 (2 ^ j) }
  | .mintLine | .mintHeader => gone.mintWriteFailed
  | .mintRec => gone.mintDone

/-- A record write of a buffer whose writing has failed: it is not repeated (R432). -/
def State.voidWrite (s : State) (a : Acc) : Option Nat :=
  match a.purpose with
  | .resultRec dep => if (s.dep? dep).any (·.bufFault) then some dep else none
  | _ => none

/-- An access has failed once: it is repeated 1 µs later, up to three times; so is each later try of a stalled record write
(R296, log 55). -/
def State.accFails (s : State) (a : Acc) (cause : Nat) : State :=
  match s.voidWrite a with
  | some dep => (s.dropAcc a.port a.tag a.write).headerNow dep
  | none =>
    if a.tries % 4 < 3 then
      s.modAcc a.port a.tag a.write fun x => { x with tries := x.tries + 1, st := .retryAt (s.elapsed + 1000) }
    else s.finalFailure a cause

/-- A failed access is to be repeated. -/
def State.repeats (s : State) (a : Acc) : Bool := (s.voidWrite a).isNone && decide (a.tries % 4 < 3)

/-- The effect of a failure: a repeated access changes nothing else; a final failure may have begun queries. -/
def failed (s t : State) (a : Acc) (cause : Nat) : Result :=
  let u := t.accFails a cause
  settle s (if t.repeats a then u else u.beginNew (u.newSince s.nextUid))

/-- What the status of a response says: 0 OK, 2 POISON of a read, anything else ERROR (Table 11.3; for the reserved codes of MPn_WA_ST,
log 88). -/
def respFail (write : Bool) (status : Byte) : Option MemFail :=
  if status = 0 then none else if status = 2 ∧ !write then some .poison else some .error

/-- MEM_ACCESS_FAILURE (R296, R319, R322): a response with ERROR, or one with POISON, which fails the access when it names the
granule read. -/
def execMemAccessFailure (port tag : Nat) (write : Bool) (resp : MemResp) (s : State) : Result :=
  onUnit (decide (port < s.nmports))
    (onAcc s port tag write fun a =>
      match respFail write resp.status with
      | none => .next s
      | some f =>
        let t := s.countFails port [f]
        if f == .poison && !resp.pmask.getLsbD 0 then settle s t else failed s t a (failCause f))

/-- MEM_ACCESS_TIMEOUT (R322): 5 µs without a response. The tag stays unused; the repeat takes another. -/
def execMemAccessTimeout (port tag : Nat) (write : Bool) (s : State) : Result :=
  onUnit (decide (port < s.nmports))
    (match s.acc? port tag write with
     | none => .next s
     | some a =>
       whenDue s (s.boot.phase != .tripped && decide (a.issued + 5000 ≤ s.elapsed))
         (let late : LateTag := { port := port, tag := tag, write := write, timedOut := true }
          let s1 := { s with lateTags := s.lateTags ++ [late] }
          let n := s1.freeTag port write
          let s2 := (s1.modMport port fun p => { p with timeouts := satInc p.timeouts 1 }).modAcc port tag write
            fun x => { x with tag := n }
          failed s s2 { a with tag := n } cTimeout))

/-- The access of a port and tag that waits to be issued again at a time. -/
def State.waiting? (s : State) (port tag : Nat) (write : Bool) : Option (Acc × Nat × Bool) :=
  match s.accs.find? fun a => a.port == port && a.tag == tag && a.write == write with
  | some a => (match a.st with | .retryAt t => some (a, t, false) | .stalled t => some (a, t, true) | _ => none)
  | none => none

/-- Issue an access again. -/
def State.reissue (s : State) (a : Acc) : State :=
  s.modAcc a.port a.tag a.write fun x =>
    { x with issued := s.elapsed, st := s.accStart a.port a.tag a.write a.part }

/-- MEM_ACCESS_RETRY (R296). -/
def execMemAccessRetry (port tag : Nat) (write : Bool) (s : State) : Result :=
  onUnit (decide (port < s.nmports))
    (match s.waiting? port tag write with
     | some (a, t, false) => whenDue s (s.boot.phase != .tripped && decide (t ≤ s.elapsed)) (settle s (s.reissue a))
     | _ => .next s)

/-- JOURNAL_STALL_RETRY (R296). -/
def execJournalStallRetry (port tag : Nat) (s : State) : Result :=
  onUnit (decide (port < s.nmports))
    (match s.waiting? port tag true with
     | some (a, t, true) => whenDue s (s.boot.phase != .tripped && decide (t ≤ s.elapsed)) (settle s (s.reissue a))
     | _ => .next s)

/-- LATE_RESPONSE (R322): counted for a timed-out tag, and discarded. -/
def execLateResponse (port tag : Nat) (write : Bool) (s : State) : Result :=
  onUnit (decide (port < s.nmports))
    (let mine := fun (t : LateTag) => t.port == port && t.tag == tag && t.write == write
     match s.lateTags.find? mine with
     | none => .fault .unsolicited
     | some t =>
       let s1 := { s with lateTags := s.lateTags.erase t }.feed port write
       settle s (if t.timedOut then s1.modMport port fun p => { p with late := satInc p.late 1 } else s1))

/-- The format write is answered in its turn: on its way, or waiting for a tag of a port that issues requests (R318). -/
def State.formatGoes (s : State) (a : Acc) : Bool := a.st == .out || (a.st == .queued && (s.mport a.port).en && !s.bordered a.part)

/-- JOURNAL_FORMAT_DONE (R278): the last format write is acknowledged, and the rings come into use. The earlier ones, whose
acknowledgements are no commands of their own, land with it. -/
def execJournalFormatDone (p : Nat) (s : State) : Result :=
  let mine := s.accs.filter fun a => a.purpose == .format p
  whenDue s ((s.part p).jrnl.formatting && mine.all s.formatGoes && s.boot.phase != .tripped)
    (let landed := mine.foldl State.applyWrite s
     let base := mine.foldl (fun (t : State) a => t.feed a.port true)
       { landed with accs := landed.accs.filter fun a => a.purpose != .format p }
     settle base (base.modPart p fun v => { v with jrnl := { v.jrnl with formatting := false } }))

end Sys2Proof.Machine
end

