-- ==== Sys2Proof/Machine/Caches.lean ====
section
/-! DEFINITION. Ownership of scratch lines between the L1 caches and the home banks, write-backs, the writes of the engine at
the home bank, preloads and locked ways (R330 to R335). -/

namespace Sys2Proof.Machine

open Sys2Proof

/-! ## What waits for a line (R331 to R333) -/

/-- An atomic of a cluster that waits for a line: place, lane, request. -/
structure WaitingAtom where
  pl : Place
  lane : Nat
  r : AtomReq
  deriving DecidableEq, Repr

/-- The waiting atomics of a cluster on a line, by context, group and lane. -/
def State.atomsOn (s : State) (m line : Nat) : List WaitingAtom :=
  let ofGroup := fun (c : Ctx) (gi : Nat) (g : Group) =>
    (g.threads.mapIdx fun i t =>
      match t.wait with
      | .atomic r => if lineOf r.addr = line then some ({ pl := ⟨c.slice, c.slot, gi⟩, lane := i, r := r } : WaitingAtom) else none
      | _ => none).filterMap id
  ((s.ctxs.filter fun c => clusterOf c.slice == m).map fun c => (c.groups.mapIdx (ofGroup c)).flatten).flatten

/-- A write-back, a recall response or a write to the line stands before an OWN at the home bank (R333). -/
def State.lineBusy (s : State) (line : Nat) : Bool :=
  (List.range s.nclusters).any (fun m => (s.cluster m).evbuf.any fun l => l.line == line && l.owned) ||
    ((s.cluster (s.bankOf line)).bank.q.any fun x => x.2.line == line) ||
    s.accs.any fun a => a.write && !a.applied && a.st == .out && (linesOf a.addr a.data.length).contains line

/-- The first waiting atomic of a cluster on a line for whose partition its L1 does not own the line (R328). -/
def State.ownFor (s : State) (m line : Nat) : Option WaitingAtom :=
  let c := s.cluster m
  (s.atomsOn m line).find? fun w => match c.owned? line with | some l => l.part != w.r.part | none => true

/-- A cluster has an OWN for the line to send: an atomic waits that the L1 has no copy for, granted or held, and no entry of its
eviction buffer keeps the line (R332). -/
def State.ownWaits (s : State) (m line : Nat) : Bool :=
  (s.ownFor m line).isSome && !((s.cluster m).evbuf.any fun l => l.line == line)

/-! ## The order of messages (R333) -/

/-- No earlier message of this L1 to the same home bank is on its way. -/
def State.upFirst (s : State) (m : Nat) (k : UpMsg) (line : Nat) : Bool :=
  match (s.cluster m).up.find? fun x => s.bankOf x.2 == s.bankOf line with
  | some x => x == (k, line)
  | none => true

/-- A message that has come to an L1 and waits there: a grant for room in the eviction buffer (R332), a recall for an atomic on
the line granted before it (R331). -/
def Cluster.holdsBack (c : Cluster) (x : DownMsg × Nat) : Bool :=
  match x.1 with
  | .grant => decide (16 ≤ c.evbuf.length)
  | .recall => c.grants.any (·.line == x.2)
  | .ack => false

/-- Every earlier message of the same home bank to this L1 has come. -/
def State.downFirst (s : State) (m : Nat) (k : DownMsg) (line : Nat) : Bool :=
  let c := s.cluster m
  (c.down.takeWhile (· != (k, line))).all fun x => s.bankOf x.2 != s.bankOf line || c.holdsBack x

/-- Make room in L2 for a line: an owned victim is recalled first (R334). -/
def State.makeRoom (s : State) (line : Nat) : State :=
  let g := geomL2 s.nclusters
  let l2 := (s.cluster (s.bankOf line)).bank.l2
  if l2.lines.any fun x => x.line == line then s
  else
    match l2.pickWay g s.build.plru line (allWays 16) with
    | some (w, _) => (match l2.atWay g line w with | some v => s.recallNow v.line | none => s)
    | none => s

/-- Grant a line with its current data to a cluster: every shared copy goes, the directory notes the owner (R331, R334). -/
def State.grantLine (s : State) (m line : Nat) : State :=
  let part := match s.ownFor m line with | some w => w.r.part | none => 0
  let data := s.readLine line
  let s := ((s.fillL2 line part data).1).dropShared line
  let s := s.modCluster (s.bankOf line) fun c => { c with bank := { c.bank with l2 := { c.bank.l2 with
    lines := modAll (·.line == line) (fun l => { l with owner := some m, sharers := 0 }) c.bank.l2.lines } } }
  s.modCluster m fun c => { c with grants := c.grants ++ [{ way := 0, line := line, part := part, data := data, owned := true }]
                                   down := c.down ++ [(.grant, line)] }

/-- Send a recall to the owner for the cluster whose OWN waits. -/
def State.sendRecall (s : State) (owner line m : Nat) : State :=
  (s.modCluster (s.bankOf line) fun c => { c with bank := { c.bank with recalls := c.bank.recalls ++ [(line, owner, some m)] } }).modCluster
    owner fun c => { c with recalls := c.recalls ++ [line], down := c.down ++ [(.recall, line)] }

/-- The recall that the bank of a line has sent. -/
def State.recallOf (s : State) (line : Nat) : Option (Nat × Nat × Option Nat) :=
  (s.cluster (s.bankOf line)).bank.recalls.find? (·.1 == line)

/-- The contexts of a cluster whose threads wait for an atomic on a line. -/
def State.atomCtxs (s : State) (m line : Nat) : List Place :=
  ((s.atomsOn m line).map fun w => { w.pl with group := 0 }).eraseDups

/-- The read of a line for an ATOM has failed finally: MEM_POISON, as of a kernel load (R217, R296, R328). -/
def State.atomPoison (s : State) (m line cause : Nat) : State :=
  (s.atomCtxs m line).foldl (fun s pl =>
    match (s.atomsOn m line).find? fun w => w.pl.slice == pl.slice && w.pl.slot == pl.slot with
    | some w =>
      (s.memEventAt pl (s.portOf (64 * line), w.r.paddr, cause)).fault w.pl w.lane fPoison (((s.thread? w.pl w.lane).map (·.pc)).getD 0)
    | none => s) s

/-- L1_OWN_REQUEST (R331, R333): the home bank takes the OWN of a cluster: it grants the line, or recalls its owner first.
`fails` are the failed tries of the read of a line that L2 does not hold. -/
def execL1OwnRequest (m : Nat) (x : Tried Nat (List MemFail)) (s : State) : Result :=
  onUnit (decide (m < s.nclusters))
    (match s.ownFor m x.it with
     | none => .next s
     | some w =>
       whenDue s (s.isOpen && s.ownWaits m x.it && !s.lineBusy x.it && (s.recallOf x.it).isNone && !s.granted x.it &&
           !((List.range m).any fun k => s.ownWaits k x.it) && !((s.cluster m).up.any fun y => s.bankOf y.2 == s.bankOf x.it))
         (match s.ownerOf x.it with
          | some (o, _) => settle s (s.sendRecall o x.it m)
          | none =>
            let reads := s.missesL2 w.r.part x.it
            whenDue s ((s.fillL2 x.it w.r.part []).2 && (!reads || s.portEn (64 * x.it)))
              (if reads then
                 let t := s.tried (64 * x.it) w.r.part w.r.paddr x.fails
                 match finalFail x.fails with
                 | some f =>
                   let t := t.atomPoison m x.it (failCause f)
                   settle s (t.beginNew (t.newSince s.nextUid))
                 | none => settle s (t.grantLine m x.it)
               else settle s (s.grantLine m x.it))))

/-- Perform one waiting atomic on the owned line of its L1. -/
def State.runAtom (s : State) (m : Nat) (w : WaitingAtom) : State :=
  match s.atomAt m w.r with
  | some (old, s) => s.modThread w.pl w.lane fun t => ({ t with wait := .run }.put w.r.dst old).step
  | none => s

/-- OWN_GRANT (R331): the L1 takes the granted line and performs its waiting atomics on it. With the eviction buffer full
the fill waits (R332). -/
def execOwnGrant (m line : Nat) (s : State) : Result :=
  onUnit (decide (m < s.nclusters))
    (match (s.cluster m).grants.find? (·.line == line) with
     | none => .next s
     | some g =>
       let (t, ok) := s.fillL1 m line g.part g.data (s.cluster m).unlockedWays
       whenDue s (ok && s.boot.phase != .tripped && s.downFirst m .grant line)
         (let ws := (s.atomsOn m line).filter fun w => w.r.part == g.part
          let t := t.modCluster m fun c =>
            { c with grants := c.grants.filter (·.line != line), down := c.down.erase (.grant, line)
                     l1 := { c.l1 with lines := modAll (fun l => l.line == line && l.part == g.part) (fun l => { l with owned := true }) c.l1.lines } }
          let t := ws.foldl (fun t w => t.runAtom m w) t
          settle s (ws.foldl (fun t w => t.settleCtx w.pl.slice w.pl.slot) t)))

/-- RECALL (R331, R332): the L1 returns the line's data and drops its copy; the eviction buffer answers for what it holds. A
grant not yet used goes first. -/
def execRecall (m line : Nat) (s : State) : Result :=
  onUnit (decide (m < s.nclusters))
    (let c := s.cluster m
     whenDue s (c.recalls.contains line && !(c.grants.any (·.line == line)) && s.boot.phase != .tripped && s.downFirst m .recall line)
       (let t := s.modCluster m fun c => { c with recalls := c.recalls.filter (· != line), down := c.down.erase (.recall, line) }
        settle s (if (c.held? line).isSome then t.pullOwned line else t)))

/-- The home bank merges a line's data: memory, its own copy, the directory (R331). -/
def State.mergeLine (s : State) (line : Nat) (data : List Byte) : State :=
  ({ s with mem := s.mem.writeN (64 * line) (padTo 64 data) }).modCluster (s.bankOf line) fun c => { c with bank := { c.bank with l2 := { c.bank.l2 with
    lines := modAll (·.line == line) (fun l => { l with data := data, owner := none }) c.bank.l2.lines } } }

/-- The recall of a line is answered: the OWN that waited gets its grant (R333). -/
def State.endRecall (s : State) (line : Nat) : State :=
  match s.recallOf line with
  | none => s
  | some (_, _, w) =>
    let s := s.modCluster (s.bankOf line) fun c => { c with bank := { c.bank with recalls := c.bank.recalls.filter (·.1 != line) } }
    match w with
    | some m => s.grantLine m line
    | none => s

/-- The failed tries of the write of merged data: counted, and reported when final. -/
def State.mergeTried (s : State) (line part : Nat) (fails : List MemFail) : State :=
  s.tried (64 * line) part (((s.part part).seenAt line).headD 0) fails

/-- The home bank merges a line's data with the failed tries of its write; whether memory has taken one that failed finally is
open (log 73). -/
def State.mergeTries (s : State) (line part : Nat) (data : List Byte) (fails : List MemFail) : State :=
  let old := s.mem.readN (64 * line) 64
  let t := (s.mergeTried line part fails).mergeLine line data
  if (finalFail fails).isNone then t
  else
    let (lands, t) := t.freshBool
    if lands then t else { t with mem := t.mem.writeN (64 * line) old }

/-- RECALL_RESPONSE (R331, R333): the home bank merges recalled data and writes them to memory. -/
def execRecallResponse (m : Nat) (x : Tried Nat (List MemFail)) (s : State) : Result :=
  let line := x.it
  onUnit (decide (m < s.nclusters))
    (match (s.cluster (s.bankOf line)).bank.q.find? fun y => y.1 == m && y.2.line == line with
     | none => .next s
     | some (_, l) =>
       whenDue s (s.boot.phase != .tripped && s.upFirst m .response line && s.portEn (64 * line))
         (let base := s.mergeTries line l.part l.data x.fails
          let t := (base.modCluster (s.bankOf line) fun c =>
              { c with bank := { c.bank with q := c.bank.q.filter (·.2.line != line) } }).modCluster m fun c =>
            { c with up := c.up.erase (.response, line) }
          settle base (t.endRecall line)))

/-- L1_WRITEBACK (R332, R333): the home bank merges a write-back and acknowledges it; it counts as the L1's recall
response. -/
def execL1Writeback (m : Nat) (x : Tried Nat (List MemFail)) (s : State) : Result :=
  let line := x.it
  onUnit (decide (m < s.nclusters))
    (match (s.cluster m).evbuf.find? fun l => l.line == line with
     | none => .next s
     | some l =>
       whenDue s (!(s.cluster m).wbAcks.contains line && s.boot.phase != .tripped && s.upFirst m .writeback line &&
           (!l.owned || s.portEn (64 * line)))
         (let base := if l.owned then s.mergeTries line l.part l.data x.fails else s
          let t := base.modCluster m fun c =>
            { c with wbAcks := c.wbAcks ++ [line], up := c.up.erase (.writeback, line), down := c.down ++ [(.ack, line)], evbuf := modAll (·.line == line) (fun y => { y with owned := false }) c.evbuf }
          settle base (match s.recallOf line with | some (_, o, _) => if o = m ∧ l.owned then t.endRecall line else t | none => t)))

/-- WRITEBACK_ACK (R332): the eviction-buffer entry is released. -/
def execWritebackAck (m line : Nat) (s : State) : Result :=
  onUnit (decide (m < s.nclusters))
    (whenDue s ((s.cluster m).wbAcks.contains line && s.boot.phase != .tripped && s.downFirst m .ack line)
      (settle s (s.modCluster m fun c => { c with wbAcks := c.wbAcks.filter (· != line), down := c.down.erase (.ack, line), evbuf := c.evbuf.filter (·.line != line) })))

/-! ## Writes of the engine (R330) -/

/-- A write whose acknowledgement has a command of its own. -/
def ownAck : Purpose → Bool
  | .depositRec _ => true
  | .gateRec _ _ _ => true
  | .retireRec _ => true
  | .format _ => true
  | .resultHdr _ => true
  | .mintRec => true
  | _ => false

/-- What follows the end of a write that has no such command (log 31). -/
def State.wrote (s : State) (a : Acc) : State :=
  match a.purpose with
  | .resultRec dep => s.headerNow dep
  | .freeRec dep =>
    if s.accs.any fun x => x.purpose == .freeRec dep then s
    else (match (s.dep? dep).bind s.writeRetire with | some t => t | none => s)
  | .reduce dep j => s.modDep dep fun d => { d with depBits := d.depBits ||| BitVec.ofNat 16 (2 ^ j) }
  | .mintLine => s.mintAdvance
  | .mintHeader => s.mintAdvance
  | _ => s

/-- A write-back or recall response stands before a write of these lines (R333). -/
def State.mergesFirst (s : State) (a : Acc) : Bool :=
  (linesOf a.addr a.data.length).any fun line =>
    ((List.range s.nclusters).any fun m => (s.cluster m).evbuf.any fun l => l.line == line && l.owned) ||
      (s.cluster (s.bankOf line)).bank.q.any fun x => x.2.line == line

/-- HOME_BANK_WRITE (R330): the home bank applies a write of the engine; one whose acknowledgement has no command of its own
ends with it (log 31). -/
def execHomeBankWrite (port tag : Nat) (s : State) : Result :=
  onUnit (decide (port < s.nmports))
    (match s.acc? port tag true with
     | none => .next s
     | some a =>
       whenDue s (!a.applied && s.boot.phase != .tripped && !s.mergesFirst a &&
           !((linesOf a.addr a.data.length).any s.granted))
         (if ownAck a.purpose then
            let base := s.homeWrite a.addr a.data
            settle base (base.modAcc port tag true fun x => { x with applied := true })
          else
            let base := s.landAcc a
            settle base (base.wrote a)))

/-! ## Way locking (R335) -/

/-- The ways a mask names. -/
def waysIn (w : Nat) : List Nat := (allWays 16).filter (bitAt w)

/-- Ways a partition holds locked in a cluster. -/
def Cluster.lockedFor (c : Cluster) (p : Nat) : List Nat := (c.locks.filter fun e => e.2 == p + 1).map Prod.fst

/-- A preload is ignored with FAIL: more than 12 ways named or locked in all, a way of another partition, or the partition's
way quota (R335, R394). -/
def State.preloadRefused (s : State) (m part ways : Nat) : Bool :=
  let c := s.cluster m
  let ws := waysIn ways
  let quota := min 12 (s.part part).ways.toNat
  let all := (ws ++ c.locks.map Prod.fst).eraseDups
  decide (12 < ws.length) || decide (12 < all.length) || ws.any (fun w => c.locks.any fun e => e.1 == w && e.2 != part + 1) ||
    decide (quota < (ws ++ c.lockedFor part).eraseDups.length)

/-- GO of MEM_PRE_CTL. -/
def State.preloadStart (s : State) (m part ways : Nat) : State :=
  if (s.cluster m).preload.isSome then s
  else if s.preloadRefused m part ways then s.modCluster m fun c => { c with preFail := true }
  else s.modCluster m fun c => { c with preload := some (part, BitVec.ofNat 16 ways) }

/-- UNLOCK of MEM_PRE_CTL. -/
def State.preloadUnlock (s : State) (m ways : Nat) : State :=
  if (s.cluster m).preload.isSome then s
  else
    let ws := waysIn ways
    s.modCluster m fun c => { c with locks := c.locks.filter fun e => !ws.contains e.1
                                     preloaded := c.preloaded.filter fun x => !ws.contains x.2.1 }

/-- The first way of a preload whose place in a line's set holds no preloaded line. -/
def Cluster.preloadWay (c : Cluster) (ws : List Nat) (line : Nat) : Option Nat :=
  ws.find? fun w => !(c.preloaded.any fun x => x.2.1 == w && geomL1.setOf x.1 == geomL1.setOf line)

/-- An owned line that stands in a way goes back to memory first. -/
def State.clearWay (s : State) (m line w : Nat) : State :=
  match (s.cluster m).l1.atWay geomL1 line w with
  | some v => if v.owned then s.recallNow v.line else s
  | none => s

/-- Preload one line, with the failed tries of its read; without a translation, a free way or its data it is not loaded. The
flag tells whether it is present (log 74). -/
def State.preloadLine (s : State) (m part : Nat) (ws : List Nat) (fails : List MemFail) (a : Nat) : State × Bool :=
  match s.translate part a 64 false with
  | none => (s, false)
  | some sys =>
    let line := lineOf sys
    match (s.cluster m).preloadWay ws line with
    | none => (s, false)
    | some w =>
      let reads := s.missesL2 part line
      let s := if reads then s.tried sys part a fails else s
      if reads && (finalFail fails).isSome then (s, false)
      else
        let s := ((s.recallNow line).makeRoom line).dropL1 m line
        let data := s.readLine line
        let (s, _) := s.fillL2 line part data
        let (s, ok) := (s.clearWay m line w).fillL1 m line part data [w]
        (s.modCluster m fun c => if ok then { c with preloaded := c.preloaded ++ [(line, w, part)] } else c, ok)

/-- Preload the lines of a run, in order; the flag tells whether every one is present. -/
def State.preloadRun (s : State) (m part : Nat) (ws : List Nat) (fails : Fails) (a n : Nat) : State × Bool :=
  (List.range n).foldl (fun (x : State × Bool) i =>
    let (t, ok) := x.1.preloadLine m part ws (triesOf fails i) (a + 64 * i)
    (t, x.2 && ok)) (s, true)

/-- Every line of a preload can be read: its port issues requests (R337), and no granted line would have to be recalled before
its atomic (R331). -/
def State.preloadReady (s : State) (part a n : Nat) : Bool :=
  (List.range s.nclusters).all (fun k => (s.cluster k).grants.isEmpty) &&
    (List.range n).all fun i =>
      match s.translate part (a + 64 * i) 64 false with | some sys => s.portEn sys | none => true

/-- PRELOAD_COMPLETE (R335): the reads have ended, BUSY clears. Once every line is present the ways are locked; else FAIL is
set and none is (log 74). -/
def execPreloadComplete (x : Tried Nat Fails) (s : State) : Result :=
  let m := x.it
  onUnit (decide (m < s.nclusters))
    (match (s.cluster m).preload with
     | none => .next s
     | some (part, ways) =>
       let c := s.cluster m
       let n := min c.preLines.toNat 24576
       whenDue s (s.boot.phase != .tripped && !s.bordered part && s.preloadReady part c.preAddr.toNat n)
         (let ws := waysIn ways.toNat
          let (base, all) := s.preloadRun m part ws x.fails c.preAddr.toNat n
          settle base (base.modCluster m fun c =>
            if all then { c with preload := none, locks := ws.foldl (fun l w => NMap.put 0 l w (part + 1)) c.locks }
            else { c with preload := none, preFail := true, preloaded := c.preloaded.filter fun y => !ws.contains y.2.1 || c.locks.any (·.1 == y.2.1) })))

end Sys2Proof.Machine
end

