-- ==== Sys2Proof/Machine/Boot.lean ====
section
/-! DEFINITION. Resets, the flash port, commit records, slot selection, authentication, BIST, the ring scan, entering OPEN,
and IMAGE_WRITE (R370 to R391, R306 to R308). -/

namespace Sys2Proof.Machine

open Sys2Proof

/-! ## The flash device (R376 to R378) -/

/-- Bytes of the flash device; an erased byte reads 0xFF. -/
def State.flashN (s : State) (a n : Nat) : List Byte := (List.range n).map fun i => NMap.get 0xFF s.flash (a + i)

/-- Program bytes at an address. -/
def State.program (s : State) (a : Nat) (bs : List Byte) : State :=
  { s with flash := (bs.foldl (fun (m : NMap Byte × Nat) b => (NMap.put 0xFF m.1 m.2 b, m.2 + 1)) (s.flash, a)).1 }

/-- Erase a range. -/
def State.erase (s : State) (a n : Nat) : State :=
  { s with flash := s.flash.filter fun e => !(decide (a ≤ e.1) && decide (e.1 < a + n)) }

/-- Free bytes (log 8). -/
def State.freeBytes (s : State) (n : Nat) : List Byte × State :=
  ((List.range n).map fun i => Config.freeByte (s.free + i), { s with free := s.free + n })

/-- A range whose erase or program was cut: its bytes are open. -/
def State.scramble (s : State) (a n : Nat) : State :=
  let (bs, s) := s.freeBytes n
  s.program a bs

/-- Slots A and B (Table 13.4). -/
def slotBase (k : Nat) : Nat := 0x080000 + 0x080000 * k
def slotSize : Nat := 524288

/-! ## Commit records (R384, R385) -/

structure Commit where
  seqn : Nat
  kind : Nat
  conf : Nat
  trial : Nat
  attempts : Nat
  confVersion : Word
  trialVersion : Word
  deriving DecidableEq, Repr

def ckCommit : Nat := 1
def ckAttempt : Nat := 2
def ckConfirm : Nat := 3
def ckRollback : Nat := 4
def ckWithdraw : Nat := 5

/-- No slot on trial. -/
def noTrial : Nat := 0xFF

/-- The 64 bytes of a record. -/
def Commit.bytes (c : Commit) : List Byte :=
  let b := fun (n : Nat) => BitVec.ofNat 8 n
  let bs := padTo 60 (leBytes 4 0x54434D43 ++ leBytes 4 c.seqn ++ [b c.kind, b c.conf, b c.trial, b c.attempts] ++
    leBytes 4 c.confVersion.toNat ++ leBytes 4 c.trialVersion.toNat)
  bs ++ leBytes 4 (crc32 bs)

/-- A valid record (R384). -/
def parseCommit (bs : List Byte) : Option Commit :=
  let k := (byteAt bs 8).toNat
  if fieldAt bs 0 4 = 0x54434D43 ∧ 1 ≤ k ∧ k ≤ 5 ∧ fieldAt bs 60 4 = crc32 (bs.take 60) then
    some { seqn := fieldAt bs 4 4, kind := k, conf := (byteAt bs 9).toNat, trial := (byteAt bs 10).toNat
           attempts := (byteAt bs 11).toNat, confVersion := BitVec.ofNat 32 (fieldAt bs 12 4)
           trialVersion := BitVec.ofNat 32 (fieldAt bs 16 4) }
  else none

/-- Position `i` of the two commit sectors: sector 0 holds 0 to 63, sector 1 the rest. -/
def State.commitAt (s : State) (i : Nat) : Option Commit := parseCommit (s.flashN (64 * i) 64)

/-- The newest valid record with its position. -/
def State.newest (s : State) : Option (Nat × Commit) :=
  (List.range 128).foldl (fun (m : Option (Nat × Commit)) i =>
    match s.commitAt i, m with
    | none, _ => m
    | some c, none => some (i, c)
    | some c, some x => if x.2.seqn < c.seqn then some (i, c) else m) none

/-- Free positions of a sector, ascending. -/
def State.freePositions (s : State) (sector : Nat) : List Nat :=
  ((List.range 64).map (64 * sector + ·)).filter fun i => (s.flashN (64 * i) 64).all (· == 0xFF)

def State.activeSector (s : State) : Nat := match s.newest with | some (i, _) => i / 64 | none => 0

/-- The next record goes to the other sector, erased for it (R385). -/
def State.needsSector (s : State) : Bool := s.boot.openedOnce && decide ((s.freePositions s.activeSector).length < 8)

/-- The position the next record takes, with the sector made ready. -/
def State.commitPlace (s : State) : State × Option Nat :=
  if s.needsSector then
    let o := 1 - s.activeSector
    (s.erase (4096 * o) 4096, some (64 * o))
  else (s, (s.freePositions s.activeSector).head?)

/-- The next record: the newest one changed by `f`, or a first one of the running image, with the next SEQN. -/
def State.nextCommit (s : State) (kind : Nat) (f : Commit → Commit) : Commit :=
  let old : Commit := match s.newest with
    | some (_, c) => c
    | none => { seqn := 0, kind := 0, conf := s.boot.slot, trial := noTrial, attempts := 0, confVersion := s.boot.version, trialVersion := 0 }
  { f old with seqn := old.seqn + 1, kind := kind }

/-- Append a record (R385). -/
def State.appendCommit (s : State) (kind : Nat) (f : Commit → Commit) : State :=
  let c := s.nextCommit kind f
  match s.commitPlace with
  | (s, some i) => s.program (64 * i) c.bytes
  | (s, none) => s

/-- A record that a cut left incomplete: it fails R384 whatever its bytes are. -/
def State.tornCommit (s : State) : State :=
  match s.commitPlace with
  | (s, none) => s
  | (s, some i) =>
    let (bs, s) := s.freeBytes 64
    s.program (64 * i) (if (parseCommit bs).isSome then bs.take 63 ++ [byteAt bs 63 ^^^ 0xFF] else bs)

/-- A commit sector whose erase was cut: each of its records is as it was or fails R384 (Table 13.10). -/
def State.cutSector (s : State) (sector : Nat) : State :=
  ((List.range 64).map (64 * sector + ·)).foldl (fun (s : State) i =>
    let (keep, s) := s.freshBool
    if keep then s
    else
      let (bs, s) := s.freeBytes 64
      s.program (64 * i) (if (parseCommit bs).isSome then bs.take 63 ++ [byteAt bs 63 ^^^ 0xFF] else bs)) s

/-- No slot is on trial. -/
def Commit.untried (c : Commit) : Commit := { c with trial := noTrial, attempts := 0, trialVersion := 0 }

/-! ## Images (R379 to R383) -/

/-- A section: type, offset, length. -/
abbrev Section := Nat × Nat × Nat

/-- Result codes of R388. -/
def irOk : Byte := 0
def irFlashError : Byte := 1
def irNotErased : Byte := 2
def irBadFormat : Byte := 3
def irAuthFail : Byte := 4
def irOldSvn : Byte := 5
def irNotVerified : Byte := 6
def irVersionMismatch : Byte := 7
def irNotTrial : Byte := 8

/-- CFG_MASK bit of the instance's configuration (Table 13.5). -/
def State.cfgBit (s : State) : Nat := if s.build.clusters ≤ 1 then 0 else if s.build.clusters ≤ 4 then 1 else 2

def sectionsOf (hd : List Byte) : List Section :=
  (List.range (byteAt hd 21).toNat).map fun i =>
    let o := 128 + 16 * i
    ((byteAt hd o).toNat, fieldAt hd (o + 4) 4, fieldAt hd (o + 8) 4)

def countType (ss : List Section) (t : Nat) : Nat := (ss.filter (·.1 == t)).length

/-- The image in a slot is well formed (R380). -/
def State.wellFormedImage (s : State) (k : Nat) : Bool :=
  let hd := s.flashN (slotBase k) 384
  let len := fieldAt hd 8 4
  let n := (byteAt hd 21).toNat
  let ss := sectionsOf hd
  fieldAt hd 0 4 == 0x474D4943 && byteAt hd 4 == 1 && byteAt hd 5 == 4 && decide ((byteAt hd 6).toNat ≤ 1) &&
    bitAt (byteAt hd 7).toNat s.cfgBit && decide (len % 4 = 0) && decide (1024 ≤ len) && decide (len ≤ slotSize) &&
    decide (fieldAt hd 16 4 ≤ 63) && decide ((byteAt hd 20).toNat ≤ 3) && decide (1 ≤ n) && decide (n ≤ 16) &&
    ss.all (fun x => decide (1 ≤ x.1) && decide (x.1 ≤ 4) && decide (x.2.1 % 64 = 0) && decide (128 + 16 * n ≤ x.2.1) &&
      decide (x.2.1 + x.2.2 ≤ len - 96)) &&
    disjointRanges (ss.map (·.2)) && countType ss 1 == 1 && countType ss 2 == 1 && countType ss 3 == 1 &&
    decide (countType ss 4 ≤ 1)

/-- Judge the image in a slot under R383: `none` where it authenticates. -/
def State.judgeSlot (s : State) (k : Nat) : Option Byte :=
  if !s.wellFormedImage k then some irBadFormat
  else
    let hd := s.flashN (slotBase k) 384
    let len := fieldAt hd 8 4
    let idx := (byteAt hd 20).toNat
    let pub := (hd.drop 24).take 96
    let bs := s.flashN (slotBase k) len
    if sha384 pub != s.sensed.keyHash.getD idx [] || s.sensed.revoke.getLsbD idx ||
        !ecdsaOk pub (bs.drop (len - 96)) (bs.take (len - 96)) then some irAuthFail
    else if fieldAt hd 16 4 < s.sensed.svn then some irOldSvn
    else none

/-- VERSION of a slot's header. -/
def State.slotVersion (s : State) (k : Nat) : Word := BitVec.ofNat 32 (fieldAt (s.flashN (slotBase k) 16) 12 4)

/-- The image store filled from a slot. -/
def State.storeOf (s : State) (k : Nat) : ImageStore :=
  let hd := s.flashN (slotBase k) 384
  let content := fun (t : Nat) => match (sectionsOf hd).find? (·.1 == t) with
    | some x => s.flashN (slotBase k + x.2.1) x.2.2
    | none => []
  let vf := content 2
  let en := content 3
  let ri := content 4
  { version := s.slotVersion k, svn := fieldAt hd 16 4, keyIdx := (byteAt hd 20).toNat, leadFw := content 1
    vf := (List.range (byteAt vf 0).toNat).map fun i => ((byteAt vf (1 + 2 * i)).toNat, (byteAt vf (2 + 2 * i)).toNat)
    energy := (List.range 12).map fun i => BitVec.ofNat 32 (fieldAt en (4 * i) 4)
    regInit := (List.range (ri.length / 8)).map fun i =>
      (BitVec.ofNat 32 (fieldAt ri (8 * i) 4 % 2 ^ 24), BitVec.ofNat 32 (fieldAt ri (8 * i + 4) 4)) }

/-! ## Resets (R370, R371, R392) -/

/-- The record of a bring-up: ATTEMPT counts a cold boot of the trial slot, ROLLBACK withdraws the trial (R386). -/
def State.loaderRecord (s : State) (kind : Nat) : State :=
  s.appendCommit kind fun c => if kind = ckAttempt then { c with attempts := c.attempts + 1 } else c.untried

/-- What a loss of power leaves of a record the loader is programming (Table 13.10). -/
def State.cutRecord (s : State) : State :=
  match s.boot.recOut with
  | none => s
  | some k =>
    let (whole, s) := s.freshBool
    if whole then s.loaderRecord k else s.tornCommit

/-- What a reset leaves of an IMAGE_WRITE operation it cuts (R389). -/
def State.cutOp (s : State) : State :=
  match s.boot.updRun, s.boot.updQ with
  | true, o :: _ =>
    match o.op with
    | 1 => s.scramble (slotBase o.slot) slotSize
    | 2 =>
      let a := slotBase o.slot + o.offset
      if (s.flashN a o.data.length).all (· == 0xFF) then s.scramble a o.data.length else s
    | 3 => s
    | k =>
      if (k = 4 ∧ s.boot.verified ≠ some o.version) ∨ (k = 5 ∧ !s.boot.trialBoot) then s
      else
        let (early, s) := s.freshBool
        if s.needsSector && early then s.cutSector (1 - s.activeSector)
        else
          let (whole, s) := s.freshBool
          if !whole then s.tornCommit
          else if k = 4 then s.appendCommit ckCommit fun c => { c with trial := o.slot, attempts := 0, trialVersion := o.version }
          else s.appendCommit ckConfirm fun c => { c.untried with conf := s.boot.slot, confVersion := s.boot.version }
  | _, _ => s

/-- What a reset leaves in memory: of every write on its way, and of every owned line a cache held, it is open whether it
got there (R282, R287). -/
def State.cutWrites (s : State) : State :=
  let keep := fun (s : State) (f : State → State) => let (b, s) := s.freshBool; if b then f s else s
  let s := s.accs.foldl (fun (s : State) a =>
    if a.write && !a.applied && a.st != .queued then keep s (fun s => s.homeWrite a.addr a.data) else s) s
  (List.range s.nclusters).foldl (fun (s : State) m =>
    let c := s.cluster m
    (((c.l1.lines ++ c.evbuf).filter (·.owned)).map (·.line) ++ c.grants.map (·.line)).foldl
      (fun s l => keep s (fun s => s.recallNow l)) s) s

/-- A fuse whose programming is cut is blown or not (R403). -/
def State.blow (f : Fuses) : FuseCmd → Fuses
  | .dbgKill => { f with dbgKill := true }
  | .revoke k => { f with revoke := f.revoke ||| BitVec.ofNat 4 (2 ^ k) }

def State.cutFuse (s : State) : State :=
  match s.sec.busy with
  | none => s
  | some c =>
    let (b, s) := s.freshBool
    if b then { s with fuses := State.blow s.fuses c } else s

/-- Every register at its reset value: fuses, flash contents and memory stay (R370). -/
def State.cold (s : State) : State :=
  let t := s.cutOp.cutRecord.cutFuse
  { State.reset with build := s.build, fuses := t.fuses, flash := t.flash, sfdp := s.sfdp, mem := s.mem, pending := s.pending, free := t.free }

/-- COLD_RESET (R370, R371): PORST_N low. -/
def execColdReset (s : State) : Result :=
  let base := s.cutWrites
  settle base base.cold

/-- PORST_N_DEASSERT (R21, R373). -/
def execPorstNDeassert (inst : BitVec 23) (s : State) : Result :=
  whenDue s s.boot.porst (settle s { s with boot := { s.boot with porst := false, inst := inst, phase := .fuse } })

/-- A cache without its lines; its replacement state stays (R329). -/
def Cache.emptied (c : Cache) : Cache := { c with lines := [] }

/-- A slice after a warm reset: the BIST that follows admits it (R315). -/
def Slice.warm (v : Slice) : Slice :=
  { fails := v.fails, l0 := v.l0.emptied, dcache := v.dcache.emptied, stretched := v.stretched, stretchedAt := v.stretchedAt }

/-- A cluster after a warm reset: counters, LDG_AUDIT, HIT_FLOG and the registers of chapter 5 stay (R157, R183, R220,
R315, R338). -/
def Cluster.warm (c : Cluster) : Cluster :=
  { age := c.age, xcluster := c.xcluster, visitMax := c.visitMax, fwdLow := c.fwdLow, fwdHigh := c.fwdHigh, waitMax := c.waitMax,
    fwdout := c.fwdout, fallback := c.fallback, boxtests := c.boxtests, primtests := c.primtests, voidrec := c.voidrec,
    macs := c.macs, halo8 := c.halo8, halopair := c.halopair, unres := c.unres, steplim := c.steplim, nonfin := c.nonfin,
    deadlocks := c.deadlocks, faults := c.faults, stalesig := c.stalesig, flogValid := c.flogValid, flogKind := c.flogKind,
    flogPart := c.flogPart, flogSlice := c.flogSlice, flogKernel := c.flogKernel, flogPc := c.flogPc, auditRate := c.auditRate,
    auditReads := c.auditReads, rerun := c.rerun, audits := c.audits, amiss := c.amiss, replay := c.replay, cecc := c.cecc,
    l1 := c.l1.emptied, bank := { l2 := c.bank.l2.emptied } }

/-- A partition after a warm reset (R392, R418, R421, R423). -/
def Part.warm (p : Part) : Part :=
  let loading := p.st == .loading
  let cap : Cap := { paced := p.cap.paced, cut := p.cap.active }
  { p with
    st := if loading then .isolated else p.st, loadfail := if loading then 0 else p.loadfail, loadReq := none, split := false
    jrnl := { p.jrnl with formatting := false, replaying := p.jrnl.en, replayed := 0, replayLeft := [] }
    cap := cap, replay := none, till := p.till.map fun t => { t with reset := true } }

/-- A port, a memory port and the power controller after a warm reset (R276, R337, R368). -/
def Port.warm (p : Port) : Port := { badmsg := p.badmsg }
def MPort.warm (p : MPort) : MPort := { p with en := false }

def Pwr.warm (p : Pwr) : Pwr :=
  { p with budgetPos := 0, budgetNext := none, thermPos := 0, ests := [], activity := [], drizzle := none, falls := [], bare := 0,
           hints := p.hints.map fun h => { h with ramp := none } }

/-- The mint after a warm reset: a current command starts again, unless its ring goes off with it (R239, R241). -/
def Mint.warm (m : Mint) : Mint :=
  match m.cur with
  | some c =>
    { prims := m.prims, lastPart := BitVec.ofNat 5 (c.part + 31), redo := if c.stop then none else some (c.part, c.target, c.epoch) }
  | none => { prims := m.prims, lastPart := m.lastPart, redo := m.redo }

/-- A deposit whose record did not reach its slot was never accepted: its claim is undone (Table 10.5). -/
def State.dropUnwritten (s : State) (d : Dep) : State :=
  let j := (s.part d.part).jrnl
  let written := match s.translate d.part (j.slotAddr d.ring d.pos) 64 false with
    | none => false
    | some sys => s.mem.readN sys 64 == journalRecord 1 (d.pos / j.slots) d (depositBody d)
  if d.step == .journal && !written then s.unclaim d else s

/-- The tags of accesses a reset gives up stay unused until their response (R318). -/
def State.orphanTags (s : State) : List LateTag :=
  s.lateTags ++ ((s.accs.filter (·.st == .out)).map fun a => { port := a.port, tag := a.tag, write := a.write, timedOut := false })

def mapAll {β : Type} [DecidableEq β] (d : β) (f : β → β) (m : NMap β) : NMap β :=
  m.foldl (fun (n : NMap β) e => NMap.put d n e.1 (f e.2)) []

/-- Start a warm bring-up: what R306 clears is gone, the engine is in APPLY (R370, R373, R391). -/
def State.warm (s : State) : State :=
  let late := s.orphanTags
  let s := s.deps.foldl State.dropUnwritten s
  let s := match s.mint.cur with
    | some c => if c.stop then s.modPart c.part fun p => { p with mring := { p.mring with en := false } } else s
    | none => s
  let s := s.cutOp
  let boot := { s.boot with phase := .apply, warm := true, warmUp := true, updQ := [], updRun := false, updResult := 0, verified := none }
  let mint := s.mint.warm
  let fab := { s.fab with hq := [], heldGates := [], egressQ := [], arbPclk := 0, arbTaken := [], mportOrders := [] }
  { s with
    boot := boot, pwr := s.pwr.warm, ports := mapAll {} Port.warm s.ports, fab := fab, mports := mapAll {} MPort.warm s.mports
    accs := [], lateTags := late, parts := mapAll {} Part.warm s.parts, clusters := mapAll {} Cluster.warm s.clusters
    slices := mapAll {} Slice.warm s.slices, leads := [], deps := [], queries := [], snaps := [], delivered := [], ctxs := []
    signals := [], dom := { s.dom with transits := [] }, mint := mint }.closeReason rzCapFloor

/-- A warm reset acts: not before the first OPEN, while PORST_N is low, or after a stop (R371, Table 13.2). -/
def State.warmDue (s : State) : Bool :=
  s.boot.openedOnce && !s.boot.porst && s.boot.phase != .tripped && s.boot.phase != .failed

/-- WARM_RESET (R370, R371). -/
def execWarmReset (s : State) : Result :=
  whenDue s s.warmDue
    (let base := s.cutWrites
     settle base base.warm)

/-- GEN_CTL_WARM (R391): a write of 1 to GEN_CTL.WARM in OPEN. -/
def execGenCtlWarm (data : Word) (s : State) : Result :=
  whenDue s (s.isOpen && data.getLsbD 0)
    (let base := s.cutWrites
     settle base base.warm)

/-! ## FUSE and LOAD (R377, R386, R403) -/

/-- FUSE_SENSE_DONE (R403). -/
def execFuseSenseDone (s : State) : Result :=
  whenDue s (s.boot.phase == .fuse && !s.boot.porst)
    (settle s { s with sensed := s.fuses, boot := { s.boot with phase := .load } })

/-- The engine stops with a failure code (Table 13.13). -/
def State.bootFail (s : State) (code : Byte) : State := { s with boot := { s.boot with phase := .failed, failcode := code } }

def fcNoSfdp : Byte := 1
def fcFlashUnsuitable : Byte := 2
def fcNoImage : Byte := 3
def fcNoSlice : Byte := 4

/-- The Basic Flash Parameter Table: its DWORDs (JESD216, log 46). -/
def bfptOf (sf : List Byte) : Option (List Nat) :=
  if fieldAt sf 0 4 ≠ 0x50444653 then none
  else
    ((List.range ((byteAt sf 6).toNat + 1)).find? fun i => byteAt sf (8 + 8 * i) == 0 && byteAt sf (15 + 8 * i) == 0xFF).map fun i =>
      let o := 8 + 8 * i
      (List.range (byteAt sf (o + 3)).toNat).map fun k => fieldAt sf (fieldAt sf (o + 4) 3 + 4 * k) 4

/-- Device size in bits (DWORD 2). -/
def bfptBits (t : List Nat) : Nat :=
  let v := t.getD 1 0
  if bitAt v 31 then 2 ^ (v % 2 ^ 31) else v + 1

/-- Exponents of the four erase types, 0 for one that is not listed (DWORDs 8 and 9). -/
def bfptSizes (t : List Nat) : List Nat :=
  let v := t.getD 7 0
  let w := t.getD 8 0
  [bitsAt v 7 0, bitsAt v 23 16, bitsAt w 7 0, bitsAt w 23 16]

/-- The longest time of erase type `i` in ns: twice the multiplier times the typical time (DWORD 10). -/
def bfptEraseMax (t : List Nat) (i : Nat) : Nat :=
  if t.length < 10 then 0
  else
    let v := t.getD 9 0
    let unit := [1, 16, 128, 1000].getD (bitsAt v (10 + 7 * i) (9 + 7 * i)) 0
    2 * (bitsAt v 3 0 + 1) * (bitsAt v (8 + 7 * i) (4 + 7 * i) + 1) * unit * 1000000

/-- The longest page program in ns (DWORD 11). -/
def bfptProgramMax (t : List Nat) : Nat :=
  if t.length < 11 then 0
  else
    let v := t.getD 10 0
    2 * (bitsAt v 3 0 + 1) * (bitsAt v 12 8 + 1) * (if bitAt v 13 then 64000 else 8000)

/-- The erase types listed, each with its longest time. -/
def bfptErase (t : List Nat) : List (Nat × Nat) := ((bfptSizes t).mapIdx fun i e => (e, bfptEraseMax t i)).filter (·.1 != 0)

/-- Quad-enable requirement; 7, not defined, where the table does not reach it (DWORD 15). -/
def bfptQuad (t : List Nat) : Nat := if 15 ≤ t.length then bitsAt (t.getD 14 0) 22 20 else 7

/-- READ_MODE: 2 for 1-4-4, 1 for 1-1-4, 0 for 1-1-1. -/
def bfptMode (t : List Nat) : Nat :=
  let v := t.getD 0 0
  if bfptQuad t = 7 then 0 else if bitAt v 21 then 2 else if bitAt v 22 then 1 else 0

/-- The fast read of a mode: instruction, dummy clocks, mode clocks (DWORD 3; 1-1-1 is 0x0B with 8 dummy clocks). -/
def bfptFast (t : List Nat) : Nat × Nat × Nat :=
  let v := t.getD 2 0
  match bfptMode t with
  | 2 => (bitsAt v 15 8, bitsAt v 4 0, bitsAt v 7 5)
  | 1 => (bitsAt v 31 24, bitsAt v 20 16, bitsAt v 23 21)
  | _ => (0x0B, 8, 0)

/-- Page size; 256 where the table does not reach it (DWORD 11). -/
def bfptPage (t : List Nat) : Nat := if 11 ≤ t.length then 2 ^ bitsAt (t.getD 10 0) 7 4 else 256

/-- SFDP_DISCOVERY (R377). -/
def execSfdpDiscovery (s : State) : Result :=
  whenDue s (s.boot.phase == .load && !s.boot.sfdpOk)
    (match bfptOf s.sfdp with
     | none => settle s (s.bootFail fcNoSfdp)
     | some t =>
       if bfptBits t < 2 ^ 24 ∨ !(bfptSizes t).contains 12 then settle s (s.bootFail fcFlashUnsuitable)
       else settle s { s with boot := { s.boot with sfdpOk := true, sizeLog2 := Nat.log2 (bfptBits t / 8), readMode := bfptMode t,
                                                    pageSize := bfptPage t, quadReq := bfptQuad t, eraseTypes := bfptErase t
                                                    programMax := bfptProgramMax t, fastRead := bfptFast t } })

/-- Read a slot next: the engine is in LOAD. -/
def State.trySlot (s : State) (k : Nat) (trial : Bool) : State :=
  { s with boot := { s.boot with phase := .load, trying := some k, tryTrial := trial } }

/-- The loader begins to program a record; SLOT_SELECTION takes its end. -/
def State.startRecord (s : State) (kind : Nat) : State :=
  { s with boot := { s.boot with phase := .load, trying := none, recOut := some kind } }

/-- Where R386 goes from the newest record. -/
def State.selectSlot (s : State) : State :=
  match s.newest with
  | none => s.trySlot (if (s.slotVersion 0).toNat < (s.slotVersion 1).toNat then 1 else 0) false
  | some (_, c) =>
    if c.trial = noTrial then s.trySlot c.conf false
    else if c.attempts < 3 then s.startRecord ckAttempt
    else s.startRecord ckRollback

/-- The record is complete: after an ATTEMPT the trial slot is tried, after a ROLLBACK the confirmed one. -/
def State.recordDone (s : State) (kind : Nat) : State :=
  match s.newest with
  | none => s
  | some (_, c) =>
    let t := s.loaderRecord kind
    if kind = ckAttempt then { t with boot := { t.boot with recOut := none } }.trySlot c.trial true
    else { t with boot := { t.boot with recOut := none, withdrawn := some c.trialVersion, rolledBack := true } }.trySlot c.conf false

/-- SLOT_SELECTION (R386): a slot is tried, or the record that comes before it is begun; while one is being programmed the command
takes its end, and a cold reset between the two cuts it (R389, log 75). -/
def execSlotSelection (s : State) : Result :=
  whenDue s (s.boot.phase == .load && s.boot.sfdpOk && s.boot.trying.isNone)
    (settle s (match s.boot.recOut with | none => s.selectSlot | some k => s.recordDone k))

/-- The slot read authenticates: the image store is filled, the engine goes to APPLY. -/
def State.bootSlot (s : State) (k : Nat) : State :=
  let st := s.storeOf k
  let boot := { s.boot with
    phase := .apply, image := st, slot := k, version := st.version, trial := s.boot.tryTrial, trialBoot := s.boot.tryTrial }
  let s := { s with boot := boot }
  let s := match s.boot.withdrawn with
    | some v => s.health 0x0121 unitInst noPart 1 ([BitVec.ofNat 8 k, 0, 0, 0] ++ leBytes 4 v.toNat)
    | none => s
  if s.boot.fellBack then
    let o := 1 - k
    let why := match s.boot.unusable.find? (·.1 == o) with | some x => x.2 | none => 0
    s.health 0x0122 unitInst noPart 2 [BitVec.ofNat 8 k, BitVec.ofNat 8 o, why]
  else s

/-- The slot read is unusable: what R386 tries next. -/
def State.nextSlot (s : State) (k : Nat) (why : Byte) : State :=
  let s := { s with boot := { s.boot with unusable := s.boot.unusable ++ [(k, why)] } }
  if s.boot.tryTrial then s.startRecord ckRollback
  else
    let o := 1 - k
    let fell := s.newest.isSome
    if s.boot.unusable.any (·.1 == o) then s.bootFail fcNoImage
    else { s with boot := { s.boot with fellBack := fell, rolledBack := s.boot.rolledBack || fell } }.trySlot o false

/-- IMAGE_AUTHENTICATION (R372, R383, R386): the read of the slot ends and the engine is in AUTH; there the command takes the end of
the signature check (log 47). -/
def execImageAuthentication (s : State) : Result :=
  match s.boot.trying with
  | none => .next s
  | some k =>
    if s.boot.phase = .load then settle s { s with boot := { s.boot with phase := .auth } }
    else
      whenDue s (s.boot.phase == .auth)
        (settle s (match s.judgeSlot k with
          | none => s.bootSlot k
          | some why => s.nextSlot k why))

/-! ## BIST, SYNC, REPLAY, OPEN (R306, R307, R362, R373) -/

/-- The engine enters OPEN: live deposits of a ring scan replay, stream by stream in SEQ order (R307, R373). -/
def State.enterOpen (s : State) : State :=
  let s := { s with boot := { s.boot with phase := .opened, openedOnce := true, warmUp := false } }
  ((s.deps.map (·.id)).foldl State.replayDep s).retune

/-- To OPEN when LOCK is 1, else to SYNC. -/
def State.toSync (s : State) : State :=
  if s.tbu.lock then s.enterOpen else { s with boot := { s.boot with phase := .sync } }

/-- Retire a cluster at BIST: its bank and its streams pass to its adopter (R295, R373). -/
def State.bistCluster (s : State) (m : Nat) : State :=
  let s := s.modCluster m fun c => { c with retired := true }
  s.health 0x0123 unitInst noPart 1 [0xFF, 0xFF, BitVec.ofNat 8 m]

def State.bistAdopt (s : State) (m : Nat) : State :=
  match (s.clustersAfter m).head? with
  | none => s
  | some a =>
    (s.modCluster m fun c => { c with adopter := some a, bank := { c.bank with takenBy := some a } }).modCluster a fun c =>
      { c with adopted := some m }

/-- One slice's result. -/
def State.bistSlice (s : State) (n : Nat) (pass inService : Bool) : State :=
  let s := s.modSlice n fun v => { v with st := if pass && inService then .admitted else .retired
                                          fails := if pass then v.fails else v.fails + 1 }
  if pass then s else s.health 0x0123 unitInst noPart 1 (leBytes 2 n ++ [BitVec.ofNat 8 (clusterOf n)])

/-- What BIST leaves: slices and clusters admitted or retired (R293, R295, R373). -/
def State.bist (s : State) (badSlices badClusters : List Nat) : State :=
  let s := (List.range s.nslices).foldl (fun (s : State) n =>
    s.bistSlice n (!badSlices.contains n) (!badClusters.contains (clusterOf n))) s
  let out := (List.range s.nclusters).filter fun m => badClusters.contains m || (s.admittedSlices m).isEmpty
  let s := out.foldl State.bistCluster s
  out.foldl State.bistAdopt s

/-- BIST_DONE (R372, R373): BIST ends, and with a slice that passed the engine is in ADMIT; there the command takes the end of
admission (log 47). -/
def execBistDone (badSlices badClusters : List Nat) (s : State) : Result :=
  if s.boot.phase = .admitting then
    settle s (if s.boot.warmUp then { s with boot := { s.boot with phase := .replay } } else s.toSync)
  else
    whenDue s (s.boot.phase == .bist)
      (let s1 := s.bist badSlices badClusters
       settle s (if s1.admittedAll.isEmpty then s1.bootFail fcNoSlice
                 else { s1 with boot := { s1.boot with phase := .admitting } }))

/-! ## The scan of a bring-up or resume (R306 to R308) -/

/-- Streams that close and partitions that drain with nothing live left. -/
def State.settleIdle (s : State) : State :=
  let s := (List.range 32).foldl State.settleDrain s
  s.strms.foldl (fun (s : State) e => s.settleStream (BitVec.ofNat 16 e.1)) s

/-- RING_SCAN_DONE (R306 to R308): of a warm bring-up (no partition named), or of a resume. -/
def execRingScanDone (part : Option Nat) (fails : Fails) (s : State) : Result :=
  match part with
  | none =>
    let ps := (List.range 32).filter fun p => (s.part p).jrnl.en
    whenDue s (s.boot.phase == .replay && ps.all s.scanReady)
      (let s1 := (ps.foldl (fun (s : State) p => s.scanPart false fails p) s).settleIdle
       settle s s1.toSync)
  | some p =>
    whenDue s (s.isOpen && (s.part p).jrnl.replaying && s.scanReady p && !s.bordered p)
      (let n := s.nextDep
       let s1 := s.scanPart true fails p
       let mine := (s1.deps.filter fun d => decide (n ≤ d.id)).map (·.id)
       settle s (mine.foldl State.replayDep s1))

/-! ## IMAGE_WRITE (R387, R388) -/

/-- The body check of R387 for the operation a row names. -/
def State.imageOk (s : State) (op : Nat) (b : List Byte) : Bool :=
  let slot := (byteAt b 1).toNat
  let dlen := fieldAt b 2 2
  let ofs := fieldAt b 4 4
  (byteAt b 0).toNat == op && decide (slot ≤ 1) && (if op = 5 then slot == s.boot.slot else slot != s.boot.slot) &&
    (if op = 2 then decide (1 ≤ dlen) && decide (dlen ≤ 4080) && decide (ofs + dlen ≤ slotSize) else dlen == 0) &&
    (op != 1 || ofs == 0) && fieldAt b 12 4 == 0

def imageOpOf (b : List Byte) : ImgOp :=
  { op := (byteAt b 0).toNat, slot := (byteAt b 1).toNat, offset := fieldAt b 4 4, version := BitVec.ofNat 32 (fieldAt b 8 4)
    data := b.drop 16 }

/-- Before an ERASE or WRITE of a slot: its verified mark goes, and its trial is withdrawn (R387). -/
def State.beforeWrite (s : State) (o : ImgOp) : State :=
  if o.op = 1 ∨ o.op = 2 then
    let s := { s with boot := { s.boot with verified := none } }
    match s.newest with
    | some (_, c) => if c.trial = o.slot then s.appendCommit ckWithdraw Commit.untried else s
    | none => s
  else s

/-- Take an IMAGE_WRITE: queue it, or refuse a fifth (R388). With nothing before it, what precedes an ERASE or WRITE happens
now; else when it starts (log 48). -/
def State.takeImage (s : State) (inj : Bool) (m : Msg) : State × Bool :=
  if 4 ≤ s.boot.updQ.length then (s.reply 0x0F m inj (.refuse rBusy 9 (some 65535)), false)
  else
    let o := imageOpOf m.payload
    let t := if s.boot.updQ.isEmpty then s.beforeWrite o else s
    let t := { t with boot := { t.boot with updQ := t.boot.updQ ++ [o] } }
    (t.reply 0x0F m inj (.accept false), true)

def imageWrite (op : Nat) (m : Msg) (s : State) : Result :=
  ingress 0x0F 5 (fun t => t.imageOk op m.payload) (fun t => settle s (t.takeImage false m).1) m s

/-- IMAGE_WRITE ERASE. -/
def execImageWriteErase (m : Msg) (s : State) : Result := imageWrite 1 m s
/-- IMAGE_WRITE WRITE. -/
def execImageWriteWrite (m : Msg) (s : State) : Result := imageWrite 2 m s
/-- IMAGE_WRITE VERIFY. -/
def execImageWriteVerify (m : Msg) (s : State) : Result := imageWrite 3 m s
/-- IMAGE_WRITE COMMIT. -/
def execImageWriteCommit (m : Msg) (s : State) : Result := imageWrite 4 m s
/-- IMAGE_WRITE CONFIRM. -/
def execImageWriteConfirm (m : Msg) (s : State) : Result := imageWrite 5 m s

/-- IMAGE_OP_START (R388): the oldest queued operation starts. -/
def execImageOpStart (s : State) : Result :=
  match s.boot.updQ with
  | [] => .next s
  | o :: _ =>
    whenDue s (s.isOpen && !s.boot.updRun)
      (let t := s.beforeWrite o
       settle s { t with boot := { t.boot with updRun := true, updAt := s.elapsed } })

/-- Raise the fused security-version counter to the image's SVN. -/
def State.raiseSvn (s : State) : State :=
  let v := s.boot.image.svn
  { s with fuses := { s.fuses with svn := max s.fuses.svn v }, sensed := { s.sensed with svn := max s.sensed.svn v } }

/-- Perform an operation that ends in time (Table 13.9). -/
def State.imageOp (s : State) (o : ImgOp) : State × Byte :=
  match o.op with
  | 1 => (s.erase (slotBase o.slot) slotSize, irOk)
  | 2 =>
    let a := slotBase o.slot + o.offset
    if (s.flashN a o.data.length).all (· == 0xFF) then (s.program a o.data, irOk) else (s, irNotErased)
  | 3 =>
    match s.judgeSlot o.slot with
    | none => ({ s with boot := { s.boot with verified := some (s.slotVersion o.slot) } }, irOk)
    | some why => (s, why)
  | 4 =>
    match s.boot.verified with
    | none => (s, irNotVerified)
    | some v =>
      if v ≠ o.version then (s, irVersionMismatch)
      else (s.appendCommit ckCommit fun c => { c with trial := o.slot, attempts := 0, trialVersion := o.version }, irOk)
  | _ =>
    if s.boot.trialBoot then
      let s := s.appendCommit ckConfirm fun c => { c.untried with conf := s.boot.slot, confVersion := s.boot.version }
      ({ s with boot := { s.boot with trial := false } }.raiseSvn, irOk)
    else (s, irNotTrial)

/-- The longest time of what an operation does to the device: the erase type it uses, the largest up to 64 KiB, or a page program. -/
def State.opMax (s : State) (o : ImgOp) : Nat :=
  if o.op = 1 then ((s.boot.eraseTypes.filter fun e => decide (e.1 ≤ 16)).foldl (fun (m : Nat × Nat) e => if m.1 ≤ e.1 then e else m) (0, 0)).2
  else if o.op = 3 then 0
  else s.boot.programMax

/-- IMAGE_OP_DONE (R377, R388): the operation ends, or times out with FLASH_ERROR after 4 times the maximum time of its erase or
program, its target as a cut leaves it. -/
def execImageOpDone (timedOut : Bool) (s : State) : Result :=
  match s.boot.updQ with
  | [] => .next s
  | o :: rest =>
    whenDue s (s.isOpen && s.boot.updRun && (!timedOut || decide (s.boot.updAt + 4 * s.opMax o ≤ s.elapsed)))
      (let (t, r) := if timedOut then (s.cutOp, irFlashError) else s.imageOp o
       let t := { t with boot := { t.boot with updQ := rest, updRun := false, updResult := r } }
       settle s (t.health 0x0120 unitInst noPart (if r = irOk then 0 else 2)
         ([BitVec.ofNat 8 o.op, BitVec.ofNat 8 o.slot, r, 0] ++ leBytes 4 o.offset)))

end Sys2Proof.Machine
end

