-- ==== Sys2Proof/Machine/IsaFlt.lean ====
section
/-! DEFINITION. The FLT and BR classes of Table 7.4 (R120, R163, R192). -/

namespace Sys2Proof.Machine

open Sys2Proof

/-- FADD. -/
def execFadd (pl : Place) (s : State) : Result :=
  aluOp 1 0 { d := 1, a := 1, b := 1 } (fun i t => faddW (t.a i) (t.b i)) pl s

/-- FMUL. -/
def execFmul (pl : Place) (s : State) : Result :=
  aluOp 1 1 { d := 1, a := 1, b := 1 } (fun i t => fmulW (t.a i) (t.b i)) pl s

/-- FFMA: A × B + C with one rounding. -/
def execFfma (pl : Place) (s : State) : Result :=
  aluOp 1 2 { d := 1, a := 1, b := 1, c := 1 } (fun i t => ffmaW (t.a i) (t.b i) (t.c i)) pl s

/-- FMIN; a NaN operand leaves the result open (log 14). -/
def execFmin (pl : Place) (s : State) : Result :=
  aluFree 1 3 { d := 1, a := 1, b := 1 } (fun i t => fminW (t.a i) (t.b i)) pl s

/-- FMAX; a NaN operand leaves the result open (log 14). -/
def execFmax (pl : Place) (s : State) : Result :=
  aluFree 1 4 { d := 1, a := 1, b := 1 } (fun i t => fmaxW (t.a i) (t.b i)) pl s

/-- FSETP: predicate DST[2:0] by SC[2:0]; code 7 is reserved. -/
def execFsetp (pl : Place) (s : State) : Result :=
  cmpOp 1 5 { a := 1, b := 1 } (fun i => i.sc % 8 == 7) (fun i t => fcmp (i.sc % 8) (t.a i) (t.b i)) pl s

/-- FSQRT of A, correctly rounded. -/
def execFsqrt (pl : Place) (s : State) : Result :=
  aluOp 1 6 { d := 1, a := 1 } (fun i t => fsqrtW (t.a i)) pl s

/-- FDIV: A / B, correctly rounded. -/
def execFdiv (pl : Place) (s : State) : Result :=
  aluOp 1 7 { d := 1, a := 1, b := 1 } (fun i t => fdivW (t.a i) (t.b i)) pl s

/-- F2I of A: saturates, NaN gives 0. -/
def execF2i (pl : Place) (s : State) : Result :=
  aluOp 1 8 { d := 1, a := 1 } (fun i t => f2iW (t.a i)) pl s

/-- I2F of A. -/
def execI2f (pl : Place) (s : State) : Result :=
  aluOp 1 9 { d := 1, a := 1 } (fun i t => i2fW (t.a i)) pl s

/-- PADD: the pair of A + (A + 1) + B + (B + 1) into DST and DST + 1. -/
def execPadd (pl : Place) (s : State) : Result :=
  aluPair 1 10 { d := 2, a := 2, b := 2 } (fun i t => paddW (t.reg i.sa) (t.reg (i.sa + 1)) (t.reg i.sb) (t.reg (i.sb + 1))) pl s

/-- PFMA: the pair of exact A × B + SC + (SC + 1). -/
def execPfma (pl : Place) (s : State) : Result :=
  aluPair 1 11 { d := 2, a := 1, b := 1, c := 2 } (fun i t => pfmaW (t.a i) (t.b i) (t.reg i.sc) (t.reg (i.sc + 1))) pl s

/-! ## Branches (per thread) -/

/-- Each lane moves its pc. -/
def branchOp (op : Nat) (u : Uses) (fault : Thread → Option Nat) (f : Ins → Thread → Thread) (pl : Place) (s : State) : Result :=
  issue 3 op u pl s fun x s => runLanes x s s fault fun s l t => s.modThread pl l fun _ => f x.ins t

/-- BRA: PC := IMM. -/
def execBra (pl : Place) (s : State) : Result :=
  branchOp 0 {} (fun _ => none) (fun i t => { t with pc := BitVec.ofNat 15 i.imm }) pl s

/-- CALL: a ninth nested call faults with CALL_DEPTH. -/
def execCall (pl : Place) (s : State) : Result :=
  branchOp 1 {} (fun t => if 8 ≤ t.calls.length then some fCall else none)
    (fun i t => { t with pc := BitVec.ofNat 15 i.imm, calls := (t.pc + 1) :: t.calls }) pl s

/-- RET: an empty call stack faults with CALL_DEPTH. -/
def execRet (pl : Place) (s : State) : Result :=
  branchOp 2 {} (fun t => if t.calls.isEmpty then some fCall else none)
    (fun _ t => { t with pc := t.calls.headD 0, calls := t.calls.tail }) pl s

/-- EXIT: the thread ends; the last one ends the context. -/
def execExit (pl : Place) (s : State) : Result :=
  branchOp 3 {} (fun _ => none) (fun _ t => { t with exited := true }) pl s

/-- BRX: PC := A, in the 15 bits of a program counter (R186; log 82). -/
def execBrx (pl : Place) (s : State) : Result :=
  branchOp 4 { a := 1 } (fun _ => none) (fun i t => { t with pc := (t.a i).setWidth 15 }) pl s

end Sys2Proof.Machine
end

