-- ==== Sys2Proof/Machine/IsaInt.lean ====
section
/-! DEFINITION. The INT class of Table 7.4, and the special-register class SPC (R186, R187, R192). -/

namespace Sys2Proof.Machine

open Sys2Proof

/-- IADD: saturates when IMM[0] is 1, with an immediate B too (log 20). -/
def execIadd (pl : Place) (s : State) : Result :=
  aluOp 0 0 { d := 1, a := 1, b := 1 } (fun i t => iaddW (bitAt i.imm 0) (t.a i) (t.b i)) pl s

/-- ISUB. -/
def execIsub (pl : Place) (s : State) : Result :=
  aluOp 0 1 { d := 1, a := 1, b := 1 } (fun i t => isubW (bitAt i.imm 0) (t.a i) (t.b i)) pl s

/-- IMUL: the low word. -/
def execImul (pl : Place) (s : State) : Result :=
  aluOp 0 2 { d := 1, a := 1, b := 1 } (fun i t => t.a i * t.b i) pl s

/-- IMULHI. -/
def execImulhi (pl : Place) (s : State) : Result :=
  aluOp 0 3 { d := 1, a := 1, b := 1 } (fun i t => imulhiW (t.a i) (t.b i)) pl s

/-- UMULHI. -/
def execUmulhi (pl : Place) (s : State) : Result :=
  aluOp 0 4 { d := 1, a := 1, b := 1 } (fun i t => umulhiW (t.a i) (t.b i)) pl s

/-- IMIN. -/
def execImin (pl : Place) (s : State) : Result :=
  aluOp 0 5 { d := 1, a := 1, b := 1 } (fun i t => iminW (t.a i) (t.b i)) pl s

/-- IMAX. -/
def execImax (pl : Place) (s : State) : Result :=
  aluOp 0 6 { d := 1, a := 1, b := 1 } (fun i t => imaxW (t.a i) (t.b i)) pl s

/-- UMIN. -/
def execUmin (pl : Place) (s : State) : Result :=
  aluOp 0 7 { d := 1, a := 1, b := 1 } (fun i t => uminW (t.a i) (t.b i)) pl s

/-- UMAX. -/
def execUmax (pl : Place) (s : State) : Result :=
  aluOp 0 8 { d := 1, a := 1, b := 1 } (fun i t => umaxW (t.a i) (t.b i)) pl s

/-- AND. -/
def execBAnd (pl : Place) (s : State) : Result :=
  aluOp 0 9 { d := 1, a := 1, b := 1 } (fun i t => t.a i &&& t.b i) pl s

/-- OR. -/
def execBOr (pl : Place) (s : State) : Result :=
  aluOp 0 10 { d := 1, a := 1, b := 1 } (fun i t => t.a i ||| t.b i) pl s

/-- XOR. -/
def execBXor (pl : Place) (s : State) : Result :=
  aluOp 0 11 { d := 1, a := 1, b := 1 } (fun i t => t.a i ^^^ t.b i) pl s

/-- SHL by B[4:0]. -/
def execShl (pl : Place) (s : State) : Result :=
  aluOp 0 12 { d := 1, a := 1, b := 1 } (fun i t => shlW (t.a i) (t.b i)) pl s

/-- SHR by B[4:0]. -/
def execShr (pl : Place) (s : State) : Result :=
  aluOp 0 13 { d := 1, a := 1, b := 1 } (fun i t => shrW (t.a i) (t.b i)) pl s

/-- SAR by B[4:0]. -/
def execSar (pl : Place) (s : State) : Result :=
  aluOp 0 14 { d := 1, a := 1, b := 1 } (fun i t => sarW (t.a i) (t.b i)) pl s

/-- ISETP: predicate DST[2:0] by the comparison SC[2:0]. -/
def execIsetp (pl : Place) (s : State) : Result :=
  cmpOp 0 15 { a := 1, b := 1 } (fun _ => false) (fun i t => icmp (i.sc % 8) (t.a i) (t.b i)) pl s

/-- SEL: p(SC[2:0]) ? A : B. -/
def execSel (pl : Place) (s : State) : Result :=
  aluOp 0 16 { d := 1, a := 1, b := 1 } (fun i t => if t.pred (i.sc % 8) then t.a i else t.b i) pl s

/-- POPC of A (log 20). -/
def execPopc (pl : Place) (s : State) : Result :=
  aluOp 0 17 { d := 1, a := 1 } (fun i t => popcW (t.a i)) pl s

/-- CLZ of A (log 20). -/
def execClz (pl : Place) (s : State) : Result :=
  aluOp 0 18 { d := 1, a := 1 } (fun i t => clzW (t.a i)) pl s

/-- MOV of B, register or immediate (log 20). -/
def execMov (pl : Place) (s : State) : Result :=
  aluOp 0 19 { d := 1, b := 1 } (fun i t => t.b i) pl s

/-! ## Special registers -/

/-- A special register of a thread (Table 7.2); `none` is an index the table does not list. -/
def specialReg (s : State) (pl : Place) (lane : Nat) (t : Thread) (i : Nat) : Option Word :=
  match s.ctx? pl.slice pl.slot with
  | none => none
  | some x =>
    let leaf := x.leaf.getD { line := 0, count := 0, prims := [], user := 0, recBase := 0, recLines := 0 }
    let user : Dword := match x.leaf with
      | some f => f.user
      | none => if x.node = 255 then 0
                else ((((s.part x.part).graph ((s.dep? x.dep).map (·.graphId) |>.getD 0)).node x.node).arg).setWidth 64
    let n : Option Nat := match i with
      | 0x00 => some lane
      | 0x01 => some pl.group
      | 0x02 => some (bit t.query.isSome)
      | 0x03 => some t.qid.toNat
      | 0x04 => some t.bounce
      | 0x05 => some x.node
      | 0x06 => some leaf.line
      | 0x07 => some leaf.count
      | 0x10 => some (user.toNat % 2 ^ 32)
      | 0x11 => some (user.toNat / 2 ^ 32)
      | 0x12 => some t.key.toNat
      | 0x13 => some (pl.slice + 512 * pl.slot + 8192 * x.gen.toNat)
      | 0x14 => some x.nq
      | _ => if 8 ≤ i ∧ i ≤ 15 then some (leaf.prims.getD (i - 8) 0).toNat else none
    n.map (BitVec.ofNat 32)

/-- S2R: special register IMM; an index Table 7.2 does not list is a reserved encoding (log 20). -/
def execS2r (pl : Place) (s : State) : Result :=
  issue 7 0 { d := 1, b := 1, bImm := false } pl s fun x s =>
    runLanes x s s (fun t => if (specialReg s pl 0 t x.ins.imm).isNone then some fIllegal else none) fun s l t =>
      s.modThread pl l fun _ => (t.put x.ins.dst ((specialReg s pl l t x.ins.imm).getD 0)).step

/-- U2R: uniform register IMM[3:0]. -/
def execU2r (pl : Place) (s : State) : Result :=
  issue 7 1 { d := 1, b := 1, bImm := false } pl s fun x s =>
    let us := (s.group? pl).map (·.uregs) |>.getD []
    runLanes x s s (fun _ => none) fun s l t =>
      s.modThread pl l fun _ => (t.put x.ins.dst (NMap.get 0 us (x.ins.imm % 16))).step

/-- MOVE_TO_UNIFORM (R2U): uniform register IMM[3:0] takes A of the lowest live lane. -/
def execMoveToUniform (pl : Place) (s : State) : Result :=
  issue 7 2 { a := 1 } pl s fun x s => runGroup x s false fun _ s =>
    let v := match s.lowLane pl with | some t => t.a x.ins | none => 0
    finish s pl ((s.modGroup pl fun g => { g with uregs := NMap.put 0 g.uregs (x.ins.imm % 16) v }).modLanes pl x.lanes Thread.step)

/-- VOTE: bit i of DST tells whether lane i holds p(SA[2:0]); exited lanes give 0. -/
def execVote (pl : Place) (s : State) : Result :=
  issue 7 3 { d := 1 } pl s fun x s => runGroup x s false fun act s =>
    let holds := fun l => match s.thread? pl l with | some t => !t.exited && t.pred (x.ins.sa % 8) | none => false
    let v := (List.range 32).foldl (fun m l => m + bit (holds l) * 2 ^ l) 0
    let s1 := s.modLanes pl (x.lanes.filter fun l => !act.contains l) Thread.step
    finish s pl (s1.modLanes pl act fun t => (t.put x.ins.dst (BitVec.ofNat 32 v)).step)

end Sys2Proof.Machine
end

