-- ==== Sys2Proof/Machine/IsaMma.lean ====
section
/-! DEFINITION. The MMA class of Table 7.4: matrix fragments and the neural unit (R164 to R171, R200 to R203). -/

namespace Sys2Proof.Machine

open Sys2Proof

/-! ## Tiles in registers (R200) -/

/-- Tile words held from register `b` on, in order. -/
def Group.tile (g : Group) (b n : Nat) : List Word :=
  let w := max 1 g.threads.length
  (List.range n).map fun j => match g.threads[j % w]? with | some t => t.reg (b + j / w) | none => 0

/-- Write tile words from register `b` on into a thread. -/
def putTile (w lane b : Nat) (ws : List Word) (t : Thread) : Thread :=
  if b = 255 then t
  else (List.range (ws.length / w)).foldl (fun t k => t.put (b + k) (ws.getD (k * w + lane) 0)) t

/-- Registers a tile of `n` words takes in each thread. -/
def tileRegs (k : KDesc) (n : Nat) : Nat := n / max 1 k.width

/-- A tile's register field is legal; DST may discard. -/
def tileOk (k : KDesc) (r n : Nat) (dst : Bool) : Bool := (dst && r == 255) || regOk k.nreg r (tileRegs k n)

/-- Words as bytes, in order. -/
def wordBytes (ws : List Word) : List Byte := (ws.map fun w => leBytes 4 w.toNat).flatten

/-- Block `r` of an A or B tile of a format: 32 elements with a scale byte (R161, R200). -/
def tileBlock (f : Nat) (bytes : List Byte) (scale : Nat → Nat) (r : Nat) : Block :=
  let n := 4 * fmtWidth f
  ⟨if fmtMx f then scale r else 127, unpackElems f ((bytes.drop (r * n)).take n)⟩

/-- Scale byte `r` of those that begin at uniform register `u`. -/
def uScale (us : NMap Word) (u r : Nat) : Nat := (NMap.get 0 us (u + r / 4)).toNat / 2 ^ (8 * (r % 4)) % 256

/-- A pair from two words; a low word that is not finite joins the high one. -/
def fpairOf (h l : Word) : FPair :=
  match fpVal l with
  | some (.fin q) => ⟨fpVal h, q⟩
  | x => ⟨fvAdd (fpVal h) x, Q.zero⟩

/-- D(r, n) of one MMA: the word, and in pair mode the low word, open where the high one is NaN (log 14). -/
def mmaElem (af bf : Nat) (pair wrap : Bool) (a b : Block) (ch cl : Word) : Word × Option Word :=
  if fmtInt af then (BitVec.ofInt 32 (dotInt wrap ch.toInt [a.elems] [b.elems]), some 0)
  else if pair then
    let p := dotPair (fpairOf ch cl) [a] [b]
    (fvWord p.hi, match p.hi with | none => none | some _ => some (rneW p.lo))
  else
    let _ := bf
    (fvWord (dotFp (fpVal ch) [a] [b]), some 0)

/-- The words of a tile, each open one (log 14) from the operation's operands and its place. -/
def closeWords (operands : List Word) (ws : List (Option Word)) : List Word :=
  ws.mapIdx fun j w => openOr (j :: operands.map (·.toNat)) w

/-- The lanes of a matrix operation take their tile words; every lane moves on. -/
def State.putTiles (s : State) (x : Iss) (act : List Nat) (dst : Nat) (ws : List Word) : State :=
  let w := max 1 x.k.width
  let s := act.foldl (fun s l => s.modThread x.pl l (putTile w l dst ws)) s
  s.modLanes x.pl x.lanes Thread.step

/-- A pair form with floating operands: INT operands have no pair form (log 20). -/
def mmaPair (i : Ins) : Bool := bitAt i.imm 8 && !fmtInt (bitsAt i.imm 3 0)

/-- MMA (R201). -/
def execMma (pl : Place) (s : State) : Result :=
  issue 4 0 { b := 1, bImm := false } pl s fun x s =>
    let i := x.ins
    let af := bitsAt i.imm 3 0
    let bf := bitsAt i.imm 7 4
    let pair := mmaPair i
    let dn := if pair then 1024 else 512
    if !(tileOk x.k i.sa (16 * fmtWidth af) false && tileOk x.k i.sb (32 * fmtWidth bf) false && tileOk x.k i.sc dn false &&
        tileOk x.k i.dst dn true) then faultAt s x fIllegal
    else runGroup x s true fun act s =>
      if !mayMeet af bf then faultAt s x fOperand
      else
        match s.group? pl with
        | none => .next s
        | some g =>
          let at' := wordBytes (g.tile i.sa (16 * fmtWidth af))
          let bt := wordBytes (g.tile i.sb (32 * fmtWidth bf))
          let c := g.tile i.sc dn
          let elem := fun j => mmaElem af bf pair (bitAt i.imm 9) (tileBlock af at' (uScale g.uregs 0) (j / 32))
            (tileBlock bf bt (uScale g.uregs 8) (j % 32)) (c.getD j 0) (c.getD (512 + j) 0)
          let es := (List.range 512).map elem
          let operands := g.tile i.sa (16 * fmtWidth af) ++ g.tile i.sb (32 * fmtWidth bf) ++ c
          let los := if pair then closeWords operands (es.map (·.2)) else []
          let s := (s.act (if fmtWidth af = 4 ∧ fmtWidth bf = 4 then 2 else 3) 16384).modCluster (clusterOf pl.slice) fun c =>
            { c with macs := addD c.macs 16384 }
          finish s pl (s.putTiles x act i.dst (es.map (·.1) ++ los))

/-! ## Fused conversion (R169, R170, R202) -/

/-- Pack the 32 codes of a row into its words. -/
def packRow (w : Nat) (codes : List Nat) : List Word :=
  let v := (codes.mapIdx fun k c => c * 2 ^ (w * k)).sum
  (List.range w).map fun k => BitVec.ofNat 32 (v / 2 ^ (32 * k))

/-- Rows of a converted tile: scale byte of an MX row, and the conversions. -/
def cvtRows (f : Nat) (wrap intacc row : Bool) (acc : List Word) (par : List Word) (lo hi : FV) : List (Nat × List Conv) :=
  (List.range 16).map fun r =>
    let cs := (List.range 32).map fun n =>
      let a := acc.getD (32 * r + n) 0
      let v : FV := if intacc then some (.fin (Q.ofInt a.toInt)) else fpVal a
      let sc := fpVal (par.getD (if row then r else n) 0)
      let bi := fpVal (par.getD ((if row then 16 else 32) + n) 0)
      fused v sc bi lo hi
    if fmtMx f then convGroup f cs else (127, cs.map (convOne f wrap))

/-- The threads' words that hold part of element e of width w: first and last tile word. -/
def elemWords (w e : Nat) : List Nat := (List.range ((w * e + w - 1) / 32 + 1 - w * e / 32)).map (w * e / 32 + ·)

/-- Whether a lane holds an element with an indication. -/
def laneHolds (width w lane : Nat) (ind : Conv → Bool) (cs : List Conv) : Bool :=
  (List.range cs.length).any fun e => (match cs[e]? with | some c => ind c | none => false) &&
    (elemWords w e).any fun j => j % width == lane

/-- Put a scale byte for each row into u4 to u7. -/
def putScales (us : NMap Word) (scales : List Nat) : NMap Word :=
  (List.range 4).foldl (fun us k =>
    NMap.put 0 us (4 + k) (BitVec.ofNat 32 (leNat ((List.range 4).map fun b => BitVec.ofNat 8 (scales.getD (4 * k + b) 0))))) us

/-- CVT (R202): each lane writes p5 and p6 with what its elements met. -/
def execCvt (pl : Place) (s : State) : Result :=
  issue 4 1 { b := 1, c := 2, bImm := false } pl s fun x s =>
    let i := x.ins
    let f := bitsAt i.imm 3 0
    let row := bitAt i.imm 4
    let dn := if f = 0 then 512 else 16 * fmtWidth f
    if !(tileOk x.k i.sa 512 false && tileOk x.k i.dst dn true) then faultAt s x fIllegal
    else runGroup x s true fun act s =>
      if 10 < f then faultAt s x fOperand
      else
        match s.group? pl, s.lowLane pl with
        | some g, some low =>
          let n := if row then 192 else 256
          let addr := (low.reg i.sb).toNat
          match s.localFault pl addr n with
          | some k => faultAt s x k
          | none =>
            let bs := s.localRead pl addr n
            let par := (List.range (n / 4)).map fun k => BitVec.ofNat 32 (fieldAt bs (4 * k) 4)
            let lo := some ((fpVal (low.reg i.sc)).getD .ninf)
            let hi := some ((fpVal (low.reg (i.sc + 1))).getD .pinf)
            let rows := cvtRows f (bitAt i.imm 5) (bitAt i.imm 6) row (g.tile i.sa 512) par lo hi
            let w := if f = 0 then 32 else fmtWidth f
            let words := (rows.map fun r => packRow w (r.2.map (·.code))).flatten
            let cs := (rows.map (·.2)).flatten
            let width := max 1 x.k.width
            let mark := fun (l : Nat) (t : Thread) =>
              (t.setPred 5 (laneHolds width w l Conv.sat cs)).setPred 6 (laneHolds width w l Conv.inv cs)
            let s := if fmtMx f then s.modGroup pl fun g => { g with uregs := putScales g.uregs (rows.map (·.1)) } else s
            let s := act.foldl (fun s l => s.modThread pl l (mark l)) s
            finish s pl (s.putTiles x act i.dst words)
        | _, _ => .next s

/-! ## Fragments and local store (R203) -/

/-- Tile words of a format and kind; `none` is a reserved kind. -/
def fragWords (i : Ins) : Option Nat :=
  match bitsAt i.imm 5 4 with
  | 0 => some (16 * fmtWidth (bitsAt i.imm 3 0))
  | 1 => some (32 * fmtWidth (bitsAt i.imm 3 0))
  | 2 => some 512
  | _ => none

/-- A and B tiles hold element formats. -/
def fragFmtOk (i : Ins) : Bool := bitsAt i.imm 5 4 == 2 || (decide (1 ≤ bitsAt i.imm 3 0) && decide (bitsAt i.imm 3 0 ≤ 10))

/-- LDF: local store from the lowest live lane's A into the tile at DST. -/
def execLdf (pl : Place) (s : State) : Result :=
  issue 4 2 { a := 1, b := 1, bImm := false } pl s fun x s =>
    match fragWords x.ins with
    | none => faultAt s x fIllegal
    | some n =>
      if !tileOk x.k x.ins.dst n true then faultAt s x fIllegal
      else runGroup x s true fun act s =>
        if !fragFmtOk x.ins then faultAt s x fOperand
        else
          let addr := match s.lowLane pl with | some t => (t.a x.ins).toNat | none => 0
          match s.localFault pl addr (4 * n) with
          | some k => faultAt s x k
          | none =>
            let bs := s.localRead pl addr (4 * n)
            finish s pl (s.putTiles x act x.ins.dst ((List.range n).map fun k => BitVec.ofNat 32 (fieldAt bs (4 * k) 4)))

/-- STF: the tile at SB to local store from the lowest live lane's A (log 20). -/
def execStf (pl : Place) (s : State) : Result :=
  issue 4 3 { a := 1, b := 1, bImm := false } pl s fun x s =>
    match fragWords x.ins with
    | none => faultAt s x fIllegal
    | some n =>
      if !tileOk x.k x.ins.sb n false then faultAt s x fIllegal
      else runGroup x s true fun _ s =>
        if !fragFmtOk x.ins then faultAt s x fOperand
        else
          match s.group? pl, s.lowLane pl with
          | some g, some t =>
            let addr := (t.a x.ins).toNat
            match s.localFault pl addr (4 * n) with
            | some k => faultAt s x k
            | none => finish s pl ((s.localWrite pl addr (wordBytes (g.tile x.ins.sb n))).modLanes pl x.lanes Thread.step)
          | _, _ => .next s

end Sys2Proof.Machine
end

