-- ==== Sys2Proof/Machine/Time.lean ====
section
/-! DEFINITION. The time base, the wall clock and the till's intervals (R361 to R366, R416 to R419, R429). -/

namespace Sys2Proof.Machine

open Sys2Proof

def State.modTb (s : State) (f : Tb → Tb) : State := { s with tbu := f s.tbu }

/-- TB takes a new value, and with it the wall clock (R366). -/
def State.setTb (s : State) (v : Dword) : State :=
  { s with tbu := { s.tbu with tb := v, wall := s.tbu.wall + (v - s.tbu.tb) } }

/-- A time of ns passes: durations count it, whatever TB does, and so does the time of every active throttle reason (R357,
R429). -/
def State.pass (s : State) (ns : Nat) : State :=
  let add := fun (m : NMap Dword) (e : Nat × Nat) =>
    if e.1 < 8 then NMap.put 0 m e.1 (NMap.get 0 m e.1 + BitVec.ofNat 64 ns) else m
  { s with elapsed := s.elapsed + ns, pwr := { s.pwr with tcum := s.pwr.active.foldl add s.pwr.tcum } }

/-! ## Ticks (R362 to R364) -/

/-- Work of a partition in a query that the till charges (R416). -/
def State.charged (s : State) (p u : Nat) : Bool :=
  match s.query? u with
  | some q => q.part == p && q.pin.isNone && !q.rerun
  | none => false

/-- Units of a slice that hold work of a partition: box array, intersector, neural unit, hit core. -/
def State.busyUnits (s : State) (p n : Nat) : Nat :=
  let mine := fun (b : Batch) => b.members.filter (s.charged p)
  let inQ := (s.slice n).inQ
  let box := inQ.any fun b => b.key.cls != .leaf && !(mine b).isEmpty
  let leaf := fun (k : Nat) => inQ.any fun b => b.key.cls == .leaf && (mine b).any fun u => s.unitOf n u == k
  let core := s.ctxs.any fun c => c.slice == n && c.part == p && (c.batch.isEmpty || c.batch.any (s.charged p))
  bit box + bit (leaf 0) + bit (leaf 1) + bit (leaf 2 || core)

/-- BUSY_NS of one TB tick: 2 ns for each such unit of each slice. -/
def State.chargeBusy (s : State) : State :=
  (List.range 32).foldl (fun (s : State) p =>
    match (s.part p).till with
    | none => s
    | some t =>
      let n := ((s.slices.map (·.1)).map (s.busyUnits p)).sum
      if n = 0 then s else s.modPart p fun v => { v with till := some { t with busy := t.busy + BitVec.ofNat 64 (2 * n) } }) s

/-- One TB tick: 8 ns; while slewing 4 ns, until the reference that adds 8 ns is reached (R363). -/
def State.tick (s : State) : State :=
  let s := s.pass 8
  let s := s.modTb fun t => { t with ticksBack := t.notick }
  match s.tbu.slew with
  | none => s.setTb (s.tbu.tb + 8)
  | some r =>
    let r := r + 8
    let v := s.tbu.tb + 4
    if v.toNat ≤ r.toNat then (s.setTb r).modTb fun t => { t with slew := none }
    else (s.setTb v).modTb fun t => { t with slew := some r }

/-- TB_TICK (R362). -/
def execTbTick (s : State) : Result := whenDue s (!s.boot.porst) (settle s s.chargeBusy.noteIdle.tick)

/-- TB_NOTICK (R364): four aclk cycles without a tick. -/
def execTbNotick (s : State) : Result :=
  whenDue s (!s.boot.porst && (!s.tbu.notick || s.tbu.ticksBack))
    (settle s ((s.modTb fun t => { t with notick := true, ticksBack := false }).health 0x0105 unitInst noPart 2
      (leBytes 8 s.tbu.tb.toNat)))

/-- TB_ADVANCES_ON_ACLK (R364, R429): 10 ns, until ticks return. -/
def execTbAdvancesOnAclk (s : State) : Result :=
  whenDue s (!s.boot.porst && s.tbu.notick && !s.tbu.ticksBack)
    (settle s (s.noteIdle.pass 10 |>.setTb (s.tbu.tb + 10)))

/-! ## Sync words (R361 to R364) -/

def syncPeriod : Nat := 1000000
def syncWindow : Nat := 1000064
def slewMax : Nat := 65536

/-- A sync word that the unit takes. -/
def State.takeSync (s : State) (w : Dword) : State :=
  s.modTb fun t => { t with lock := true, taken := true, missRaised := false, lastGood := w }

/-- DETAIL of TB_SLIP and TB_FAULT: the word and the held TB. -/
def syncDetail (w h : Dword) : List Byte := leBytes 8 w.toNat ++ leBytes 8 h.toNat

/-- Judge a sync word against the held TB (R362, R363). A word that relocks after a fault counts no slip (log 50). -/
def State.judgeSync (s : State) (w : Dword) : State :=
  let h := s.tbu.tb
  if !s.tbu.taken then (s.setTb w).takeSync w
  else if !s.tbu.lock then
    if w.toNat % syncPeriod = 0 ∧ h.toNat ≤ w.toNat then (s.setTb w).takeSync w else s
  else if w.toNat % syncPeriod ≠ 0 ∨ w.toNat + slewMax < h.toNat then
    (s.modTb fun t => { t with fault := true, lock := false, slew := none }).health 0x0103 unitInst noPart 2 (syncDetail w h)
  else if w = h then s.takeSync w
  else if h.toNat < w.toNat then
    let t := ((s.setTb w).takeSync w).modTb fun t => { t with slew := none, slips := satInc t.slips 1 }
    t.health 0x0102 unitInst noPart 1 (syncDetail w h)
  else (s.takeSync w).modTb fun t => { t with slew := some w }

/-- SYNC_WORD (R362 to R364): judged; a window opens at a word that arrives once one has been taken; an engine that waits in
SYNC opens on LOCK. -/
def execSyncWord (w : Dword) (s : State) : Result :=
  whenDue s (!s.boot.porst)
    (let t := (s.modTb fun t => { t with notick := false, ticksBack := false }).judgeSync w
     let t := if t.tbu.taken then t.modTb fun x => { x with window := some t.elapsed } else t
     settle s (if t.boot.phase = .sync ∧ t.tbu.lock then t.enterOpen else t))

/-- SYNC_MISSED (R364): a window has ended without a word. -/
def execSyncMissed (s : State) : Result :=
  match s.tbu.window with
  | none => .next s
  | some w =>
    whenDue s (decide (w + syncWindow ≤ s.elapsed))
      (let t := s.modTb fun t => { t with missed := satInc t.missed 1, window := some (w + syncWindow), missRaised := true }
       settle s (if s.tbu.missRaised then t else t.health 0x0104 unitInst noPart 1 (leBytes 8 s.tbu.lastGood.toNat)))

/-! ## The till (R416 to R419) -/

/-- PERIOD in ns; 0 seconds acts as 1 (Table 14.13). -/
def TillCtl.ns (c : TillCtl) : Nat := 1000000000 * max 1 c.period.toNat

/-- N: the smallest boundary above B_hi. -/
def TillCtl.next (c : TillCtl) : Nat := (c.bhi.toNat / c.ns + 1) * c.ns

/-- Close a partition's interval into its snapshot, and open the next. -/
def Part.closeTill (p : Part) (now : Dword) (bound skipped : Nat) : Part :=
  match p.till with
  | none => { p with till := some { start := now } }
  | some t =>
    { p with
      till := some { start := now }
      snap := { seq := p.snap.seq + 1, valid := true, skipped := min 0x7FFF skipped, missed := p.snap.valid, reset := t.reset
                fwd := t.fwd, back := t.back, start := t.start, stop := now, bound := BitVec.ofNat 64 bound, queries := t.queries
                visits := t.visits, busy := t.busy, step := t.step } }

/-- TILL_BOUNDARY_CLOSE (R417, R419). -/
def execTillBoundaryClose (s : State) : Result :=
  let c := s.tillCtl
  whenDue s (c.en && decide (c.next ≤ s.tbu.wall.toNat))
    (let bound := s.tbu.wall.toNat / c.ns * c.ns
     let t := (List.range 32).foldl (fun (t : State) p => t.modPart p fun v => v.closeTill s.tbu.tb bound ((bound - c.next) / c.ns)) s
     settle s { t with tillCtl := { c with bhi := BitVec.ofNat 64 bound } })

/-- Open an interval for every partition: a write of TIL_CTL.EN 1 (R417). -/
def State.openTill (s : State) : State :=
  let c := s.tillCtl
  let t := (List.range 32).foldl (fun (t : State) p =>
    t.modPart p fun v => { v with till := some { start := s.tbu.tb }, snap := { v.snap with seq := 0 } }) s
  { t with tillCtl := { c with en := true, bhi := BitVec.ofNat 64 (s.tbu.wall.toNat / c.ns * c.ns) } }

/-- The wall clock is set: open intervals note the step, TIL_STEP reports it (R366, R418, R420). -/
def State.setWall (s : State) (v : Dword) : State :=
  let old := s.tbu.wall
  let mark := fun (t : Till) =>
    { t with back := t.back || decide (v.toNat < old.toNat), fwd := t.fwd || decide (old.toNat < v.toNat), step := t.step + (v - old) }
  let note := fun (t : State) (p : Nat) =>
    if v ≠ old ∧ (t.part p).till.isSome then t.health 0x0144 (unitPart p) p 1 (leBytes 8 (v - old).toNat) else t
  let t := (List.range 32).foldl (fun (t : State) p => note (t.modPart p fun x => { x with till := x.till.map mark }) p) s
  t.modTb fun x => { x with wall := v }

end Sys2Proof.Machine
end

