-- ==== Sys2Proof/Machine/Parts.lean ====
section
/-! DEFINITION. Reloading a partition, its load image, capture and replay, fuse programming, the TAP (R392 to R415). -/

namespace Sys2Proof.Machine

open Sys2Proof

/-! ## PART_RELOAD (R395, R397) -/

/-- The body check of PART_RELOAD for a phase. -/
def State.reloadOk (s : State) (phase : Nat) (b : List Byte) : Bool :=
  let p := (byteAt b 0).toNat
  let st := (s.part p).st
  decide (p < 32) && (byteAt b 1).toNat == phase && (if phase = 1 then st == .loaded || st == .empty else st == .isolated)

/-- BEGIN: the partition drains, its mint command is aborted (R239, R395). -/
def State.reloadBegin (s : State) (p : Nat) : State :=
  ((s.modPart p fun v => { v with st := .draining }).mintAbort p).settleDrain p

/-- The load image of a partition is no longer in force (R397). -/
def Part.dropImage (p : Part) : Part := { p with kernels := [], graphs := [], code := [], seed := 0, pages := 0 }

/-- END: the previous load image is dropped, audit copies of its queries go with it, the new image is read (R397). -/
def State.reloadEnd (s : State) (p : Nat) (b : List Byte) : State :=
  let s := (s.queries.filter fun q => q.part == p && q.pin.isSome).foldl State.dropShadow s
  s.modPart p fun v => { v.dropImage with st := .loading, loadReq := some (fieldAt b 4 8, fieldAt b 12 4, v.wins) }

/-- What a PART_RELOAD that passed its checks does. -/
def State.takeReload (s : State) (inj : Bool) (m : Msg) : State :=
  let p := (byteAt m.payload 0).toNat
  let t := if byteAt m.payload 1 == 1 then s.reloadBegin p else s.reloadEnd p m.payload
  t.reply 0x10 m inj (.accept false)

/-- PART_RELOAD BEGIN (R395). -/
def execPartReloadBegin (m : Msg) (s : State) : Result :=
  ingress 0x10 4 (fun t => t.reloadOk 1 m.payload) (fun t => settle s (t.takeReload false m)) m s

/-- PART_RELOAD END (R397). -/
def execPartReloadEnd (m : Msg) (s : State) : Result :=
  ingress 0x10 4 (fun t => t.reloadOk 2 m.payload) (fun t => settle s (t.takeReload false m)) m s

/-! ## The load image (R398 to R401) -/

def lfMem : Byte := 1
def lfFormat : Byte := 2
def lfAuth : Byte := 3
def lfNoRoom : Byte := 4
def lfTables : Byte := 5

/-- The EN rule of Table 11.4. -/
def Win.enOk (w : Win) : Bool :=
  decide (w.base.toNat ≤ w.limit.toNat) && decide (w.tgt.toNat + w.limit.toNat + 4095 < 2 ^ 56 + w.base.toNat)

/-- Window `w` of a load image: BASE, LIMIT, TGT in units of 4 KiB, ATTR. -/
def imageWin (bs : List Byte) (w : Nat) : Win :=
  let o := 64 + 32 * w
  let a := fun (k : Nat) => BitVec.ofNat 56 (fieldAt bs (o + k) 8 % 2 ^ 56 / 4096 * 4096)
  let at4 := fieldAt bs (o + 24) 4
  { base := a 0, limit := a 8, tgt := a 16, en := bitAt at4 0, rd := bitAt at4 1, wr := bitAt at4 2, persist := bitAt at4 3 }

/-- Fields of a load image's header (Table 14.4). -/
structure LoadHdr where
  enc : Nat
  nkernel : Nat
  ngraph : Nat
  nwin : Nat
  codeLen : Nat
  seed : Dword
  keyId : Nat
  nonce : List Byte
  deriving DecidableEq, Repr

def parseLoad (bs : List Byte) : LoadHdr :=
  { enc := (byteAt bs 5).toNat, nkernel := fieldAt bs 6 2, ngraph := fieldAt bs 8 2, nwin := (byteAt bs 10).toNat
    codeLen := fieldAt bs 12 4, seed := BitVec.ofNat 64 (fieldAt bs 16 8), keyId := fieldAt bs 24 4, nonce := (bs.drop 32).take 16 }

/-- Where the kernel table, the graph table and the code begin, and the length of the whole. -/
def LoadHdr.kernelsAt (h : LoadHdr) : Nat := 64 + 32 * h.nwin
def LoadHdr.graphsAt (h : LoadHdr) : Nat := h.kernelsAt + 16 * h.nkernel
def LoadHdr.codeAt (h : LoadHdr) : Nat := h.graphsAt + 544 * h.ngraph
def LoadHdr.codeBytes (h : LoadHdr) : Nat := 8 * h.codeLen + (if h.enc = 1 then 16 * ceilDiv (8 * h.codeLen) 65536 else 0)
def LoadHdr.length (h : LoadHdr) : Nat := h.codeAt + h.codeBytes

/-- The header is in range and the length right (R398, R399). -/
def LoadHdr.ok (h : LoadHdr) (bs : List Byte) (len : Nat) : Bool :=
  fieldAt bs 0 4 == 0x4C50494D && byteAt bs 4 == 1 && decide (h.enc ≤ 1) && decide (h.nkernel ≤ 1024) && decide (h.ngraph ≤ 256) &&
    decide (h.nwin ≤ 16) && decide (h.codeLen ≤ 32768) && len == h.length

/-- Kernel descriptor `i` (Table 7.1). -/
def LoadHdr.kernel (h : LoadHdr) (bs : List Byte) (i : Nat) : KDesc :=
  let o := h.kernelsAt + 16 * i
  { codeOfs := fieldAt bs o 4, codeLen := fieldAt bs (o + 4) 4, width := (byteAt bs (o + 8)).toNat, ngroups := (byteAt bs (o + 9)).toNat
    nreg := (byteAt bs (o + 10)).toNat, lsplit := (byteAt bs (o + 11)).toNat, lsGroup := fieldAt bs (o + 12) 2, flags := byteAt bs (o + 14) }

/-- The ranges of Table 7.1 (R185). -/
def KDesc.ok (k : KDesc) (codeLen : Nat) : Bool :=
  decide (k.codeLen ≤ 32768) && (k.width == 8 || k.width == 16 || k.width == 32) && decide (1 ≤ k.ngroups) && decide (k.ngroups ≤ 32) &&
    decide (8 ≤ k.nreg) && decide (k.nreg ≤ 255) && decide (k.lsplit ≤ 3) && decide (k.lsGroup ≤ 384) &&
    decide (k.codeOfs + k.codeLen ≤ codeLen)

/-- Graph slot `i` (Tables 7.6 and 7.7). -/
def LoadHdr.graph (h : LoadHdr) (bs : List Byte) (i : Nat) : Nat × Graph :=
  let o := h.graphsAt + 544 * i
  let n := (byteAt bs o).toNat
  (n, { gather := fieldAt bs (o + 2) 2
        nodes := (List.range (min n 16)).map fun j =>
          let q := o + 32 + 32 * j
          { op := (byteAt bs q).toNat, prio := (byteAt bs (q + 1)).toNat % 8, kernel := fieldAt bs (q + 2) 2
            mask := BitVec.ofNat 32 (fieldAt bs (q + 4) 4), addr := BitVec.ofNat 64 (fieldAt bs (q + 8) 8)
            arg := BitVec.ofNat 32 (fieldAt bs (q + 16) 4) } })

/-- One node of a valid graph (R211). -/
def nodeOk (g : Graph) (present : Nat → Bool) (j : Nat) : Bool :=
  let n := g.node j
  let deps := (List.range 16).filter fun i => n.mask.getLsbD i
  decide (1 ≤ n.op) && decide (n.op ≤ 7) && deps.all (fun i => decide (i < j)) &&
    (!(n.op == opIntersect || n.op == opNeural) || (n.mask == 0 && n.prio == 0 && (g.find opTraverse).isSome)) &&
    (!queryScoped n.op || deps.all fun i => queryScoped (g.node i).op) &&
    (n.op != opKernel || present n.kernel) && (n.op != opReduce || decide (n.arg.toNat % 16 ≤ 6)) &&
    ((n.op == opDeliver) == (j + 1 == g.nodes.length)) &&
    (!queryScoped n.op || (List.range j).all fun i => queryScoped (g.node i).op)

/-- A valid graph (R211). -/
def Graph.valid (nnodes : Nat) (g : Graph) (present : Nat → Bool) : Bool :=
  decide (nnodes ≤ 16) && decide (g.gather ≤ 1023) && (List.range g.nodes.length).all (nodeOk g present) &&
    [opTraverse, opIntersect, opNeural].all fun op => decide ((g.indices (· == op)).length ≤ 1)

/-- Decrypt the segments of the code section; none where a tag does not verify (R400, R401). -/
def openSegments (kimg nonce aad : List Byte) : Nat → List Byte → Nat → Option (List Byte)
  | 0, _, _ => some []
  | k + 1, bs, i =>
    if bs.isEmpty then some []
    else
      let n := min 65536 (bs.length - 16)
      let key := kdf kimg "LW4 kernel segment" (nonce ++ beBytes 4 i)
      match gcmOpen key aad (bs.take n) ((bs.drop n).take 16), openSegments kimg nonce aad k (bs.drop (n + 16)) (i + 1) with
      | some p, some rest => some (p ++ rest)
      | _, _ => none

/-- The code section in plain text. -/
def State.loadCode (s : State) (h : LoadHdr) (bs : List Byte) : Option (List Byte) :=
  let code := bs.drop h.codeAt
  if h.enc = 1 then openSegments (kdf s.sensed.kroot "LW4 kernel image" (beBytes 4 h.keyId)) h.nonce (bs.take h.codeAt) 5 code 0
  else some code

/-- A load image whose bytes are read: its failure (R399), or what it puts in force. -/
def State.judgeLoad (s : State) (p : Nat) (bs : List Byte) : Except Byte Part :=
  let h := parseLoad bs
  let v := s.part p
  let wins := (List.range h.nwin).map fun w => (w, imageWin bs w)
  let need := ceilDiv h.codeLen 1024
  let used := (((List.range 32).filter (· != p)).map fun q => (s.part q).pages).sum
  let ks := ((List.range h.nkernel).map fun i => (i, h.kernel bs i)).filter fun x => x.2.codeLen != 0
  let gs := ((List.range h.ngraph).map fun i => (i, h.graph bs i)).filter fun x => x.2.1 != 0
  if !h.ok bs bs.length || (wins.any fun w => w.2.en && !w.2.enOk) || (h.enc == 0 && s.sensed.dbgKill) then .error lfFormat
  else
    match s.loadCode h bs with
    | none => .error lfAuth
    | some code =>
      if v.codePages.toNat < need ∨ 32 < used + need then .error lfNoRoom
      else if !(ks.all fun k => k.2.ok h.codeLen) || !(gs.all fun g => g.2.2.valid g.2.1 fun k => ks.any (·.1 == k)) then .error lfTables
      else
        let kernels := ks.foldl (fun (m : NMap KDesc) k => NMap.put {} m k.1 k.2) []
        let graphs := gs.foldl (fun (m : NMap Graph) g => NMap.put {} m g.1 g.2.2) []
        let off := v.wins.foldl (fun (m : NMap Win) w => NMap.put {} m w.1 { w.2 with en := false }) []
        .ok { v with
          kernels := kernels, graphs := graphs, seed := h.seed, pages := need, st := .loaded, loadfail := 0, loadReq := none
          code := (List.range h.codeLen).map fun i => BitVec.ofNat 64 (fieldAt code (8 * i) 8)
          wins := if h.nwin = 0 then v.wins else wins.foldl (fun (m : NMap Win) w => NMap.put {} m w.1 w.2) off }

/-- A load fails: back to ISOLATED (R397). -/
def State.loadFails (s : State) (p : Nat) (why : Byte) : State :=
  let s := s.modPart p fun v => { v with st := .isolated, loadfail := why, loadReq := none }
  let s := if why = lfAuth then s.security 3 (unitPart p) p 0 else s
  s.health 0x0141 (unitPart p) p 2 [why]

/-- The load image is read, with the failed tries of its granules: it takes effect whole or not at all (R397). It is translated
through the windows in force at END; on success the border is released and what it held goes out. -/
def State.loadPart (s : State) (p base len : Nat) (wins : NMap Win) (fails : Fails) : State :=
  let seen := s.modPart p fun v => { v with wins := wins }
  let (told, bad) := seen.mintTried p fails (granules base len)
  let s := told.modPart p fun v => { v with wins := (s.part p).wins }
  if !seen.rangeOk p base len false || bad then s.loadFails p lfMem
  else
    match seen.readPart p base (min len 64) with
    | none => s.loadFails p lfMem
    | some hd =>
      if !(parseLoad hd).ok hd len then s.loadFails p lfFormat
      else
        match (seen.readPart p base len).map (s.judgeLoad p) with
        | none => s.loadFails p lfMem
        | some (.error why) => s.loadFails p why
        | some (.ok v) =>
          let t := (s.setPart p v).health 0x0140 (unitPart p) p 0 (leBytes 4 len)
          ((List.range t.nfports).foldl (fun t n => (List.range 4).foldl (fun t c => t.pump n c) t) t).feedAll

/-- PART_LOAD_DONE (R397 to R401): the read of the load image ends, `fails` the tries that failed, by granule of the partition's
space. -/
def execPartLoadDone (p : Nat) (fails : Fails) (s : State) : Result :=
  match (s.part p).loadReq with
  | none => .next s
  | some (base, len, wins) =>
    let ready := (s.modPart p fun v => { v with wins := wins }).rangeReady p base len false
    whenDue s ((s.part p).st == .loading && s.isOpen && ready) (settle s (s.loadPart p base len wins fails))

/-! ## Capture (R409 to R411) -/

def State.modCap (s : State) (p : Nat) (f : Cap → Cap) : State := s.modPart p fun v => { v with cap := f v.cap }

/-- The body check of a CAPTURE_CTL for an operation. -/
def State.captureOk (s : State) (op : Nat) (b : List Byte) : Bool :=
  let p := (byteAt b 0).toNat
  let v := s.part p
  let log2 := (byteAt b 16).toNat
  let idle := !v.cap.active && v.replay.isNone
  decide (p < 32) && (byteAt b 1).toNat == op &&
    (op != 1 || (decide (16 ≤ log2) && decide (log2 ≤ 30) && decide (fieldAt b 8 8 % 4096 = 0) && idle)) &&
    (op != 3 || (v.st == .loaded && idle))

/-- CAPTURE_START (R409). -/
def execCaptureStart (m : Msg) (s : State) : Result :=
  let b := m.payload
  ingress 0x11 6 (fun t => t.captureOk 1 b)
    (fun t =>
      let t := t.modCap (byteAt b 0).toNat fun c =>
        { c with active := true, wr := 0, rd := 0, num := 0, queue := [], base := fieldAt b 8 8, log2 := (byteAt b 16).toNat }
      settle s (t.reply 0x11 m false (.accept false))) m s

/-- CAPTURE_STOP (R411): an END record follows what is still to be written. -/
def execCaptureStop (m : Msg) (s : State) : Result :=
  let p := (byteAt m.payload 0).toNat
  ingress 0x11 6 (fun t => t.captureOk 2 m.payload)
    (fun t =>
      let fin : CapRec := { tb := t.tbu.tb, port := 0, answer := some 0, msg := List.replicate 16 0, last := true }
      let t := t.modCap p fun c => if c.active && !(c.queue.any (·.last)) then { c with queue := c.queue ++ [fin] } else c
      settle s (t.reply 0x11 m false (.accept false))) m s

/-- Bytes of a capture record (Table 14.7). -/
def CapRec.rlen (r : CapRec) : Nat := if r.last then 32 else 32 * ceilDiv (16 + r.msg.length) 32

def CapRec.bytes (r : CapRec) (num : Nat) : List Byte :=
  padTo r.rlen (leBytes 8 r.tb.toNat ++ leBytes 4 num ++ leBytes 2 r.rlen ++
    [BitVec.ofNat 8 (r.port % 64 + (if r.last then 64 else 0)), r.answer.getD 0] ++ r.msg)

/-- A PAD record of `n` bytes; the manual gives it no number. -/
def padRecord (n : Nat) (tb : Dword) (num : Word) : List Byte :=
  padTo n (leBytes 8 tb.toNat ++ leBytes 4 num.toNat ++ leBytes 2 n ++ [0x80, 0])

/-- Ring offset of a record, the bytes of padding before it, and whether it has room. -/
def Cap.place (c : Cap) (n : Nat) : Nat × Nat × Bool :=
  let size := 2 ^ c.log2
  let wr := c.wr.toNat
  let pad := if size - wr < n then size - wr else 0
  let free := if c.wr = c.rd then size else (c.rd.toNat + size - wr) % size
  (if pad = 0 then wr else 0, pad, decide (n + pad + 32 ≤ free))

/-- Bytes a capture writes: partition address and data. -/
def Cap.writes (c : Cap) (r : CapRec) (num : Word) : List (Nat × List Byte) :=
  let (o, pad, _) := c.place r.rlen
  (if pad = 0 then [] else [(c.base + c.wr.toNat, padRecord pad r.tb num)]) ++ [(c.base + o, r.bytes c.num)]

/-- The same in pieces of one granule, translated; none at a window miss. -/
def State.capWrites (s : State) (p : Nat) (ws : List (Nat × List Byte)) : Option (List (Nat × List Byte)) :=
  ((ws.map fun w => (granules w.1 w.2.length).map fun g => (g.1, (w.2.drop (g.1 - w.1)).take g.2)).flatten).mapM fun g =>
    (s.translate p g.1 g.2.length true).map fun sys => (sys, g.2)

/-- Capture ends for want of room or at a failed write (R411). -/
def State.cutCapture (s : State) (p why : Nat) : State :=
  let (w, s) := s.freshWord
  let c := (s.part p).cap
  let lastNum := if c.num = 0 then w.toNat else c.num - 1
  let s := s.modCap p fun c => { c with active := false, queue := [], ovf := c.ovf || why == 1, memfail := c.memfail || why == 2 }
  s.health 0x0142 (unitPart p) p 1 ([BitVec.ofNat 8 why, 0, 0, 0] ++ leBytes 4 lastNum)

/-- CAPTURE_RECORD_WRITE (R410, R411): the oldest record whose answer is decided goes into the ring, unless the border of the
partition or a port that is off holds the write (R337, R396). `fails` are the tries of the write that failed; after a final
failure it is open whether the bytes reached memory (log 73). -/
def execCaptureRecordWrite (p : Nat) (fails : List MemFail) (s : State) : Result :=
  let c := (s.part p).cap
  match c.queue with
  | [] => .next s
  | r :: rest =>
    whenDue s (c.active && r.answer.isSome && s.boot.phase != .tripped && !s.bordered p)
      (if !(c.place r.rlen).2.2 then settle s (s.cutCapture p 1)
       else
         let (w, s0) := s.freshWord
         match s0.capWrites p (c.writes r w) with
         | none => settle s (s0.cutCapture p 2)
         | some ws =>
           whenDue s (ws.all fun x => s.portEn x.1)
             (let put := fun (t : State) => ws.foldl (fun (t : State) x => t.homeWrite x.1 x.2) t
              let sys := match ws with | x :: _ => x.1 | [] => 0
              let s1 := s0.tried sys p (c.base + c.wr.toNat) fails
              if (finalFail fails).isNone then
                let base := put s1
                settle base (base.modCap p fun c =>
                  { c with wr := BitVec.ofNat 32 (((c.place r.rlen).1 + r.rlen) % 2 ^ c.log2), num := c.num + 1, queue := rest
                           active := !r.last })
              else
                let (b, s2) := s1.freshBool
                let base := if b then put s2 else s2
                settle base (base.cutCapture p 2)))

/-! ## Replay (R412 to R415) -/

/-- A replay ends (Table 14.9). -/
def State.endReplay (s : State) (p : Nat) (why : Byte) : State :=
  match (s.part p).replay with
  | none => s
  | some r => (s.modPart p fun v => { v with replay := none }).health 0x0143 (unitPart p) p 0 (leBytes 4 r.count ++ [why])

/-- REPLAY_START (R412). -/
def execReplayStart (m : Msg) (s : State) : Result :=
  let b := m.payload
  ingress 0x11 6 (fun t => t.captureOk 3 b)
    (fun t =>
      let r : Replay := { base := fieldAt b 8 8, log2 := (byteAt b 16).toNat, startTb := t.tbu.tb }
      let t := t.modPart (byteAt b 0).toNat fun v => { v with replay := some r }
      settle s (t.reply 0x11 m false (.accept false))) m s

/-- REPLAY_STOP (R412). -/
def execReplayStop (m : Msg) (s : State) : Result :=
  ingress 0x11 6 (fun t => t.captureOk 4 m.payload)
    (fun t => settle s ((t.endReplay (byteAt m.payload 0).toNat 4).reply 0x11 m false (.accept false))) m s

/-- A recorded message. -/
def recordedMsg (r : List Byte) : Byte × Msg :=
  let w := fun (o : Nat) => BitVec.ofNat 32 (fieldAt r o 4)
  (byteAt r 16, { port := (byteAt r 14).toNat % 64, pclk := 0, flags := byteAt r 17, stream := BitVec.ofNat 16 (fieldAt r 20 2)
                  sgen := byteAt r 22, cls := byteAt r 23, seq := w 24, peer := w 28, payload := (r.drop 32).take (fieldAt r 18 2) })

/-- Act on an injected message of a partition under check 7 on, without answer; `none` where check 9 refuses it (R413). -/
def State.inject (s : State) (p : Nat) (type : Byte) (m : Msg) : Option State :=
  let room := fun (x : State × Bool) => if x.2 then some x.1 else none
  match type.toNat with
  | 0x01 => if s.depositOk p true m then room (s.takeDeposit p true m) else some s
  | 0x03 =>
    match (s.depNamed m).filter Dep.outstanding with
    | some d => if byteAt m.payload 0 == 3 && (byteAt m.payload 1 == 6 || byteAt m.payload 1 == 4) then some (s.receiptRefused d) else some s
    | none => some s
  | 0x05 =>
    match s.depNamed m with
    | some d => if d.receiptOut then some (s.takeReceiptAck m) else none
    | none => some s
  | 0x07 =>
    if byteAt m.payload 0 == 1 then room (s.takeGate p true m)
    else if byteAt m.payload 0 == 2 then some (s.takeTail p true m)
    else some s
  | 0x08 => if hintOk m.payload then room (s.takeHint true m) else some s
  | 0x09 => some (if s.budgetOk m.payload then s.takeBudget true m else s)
  | 0x0B => some (if fenceOk m.payload then s.fenceOut p true m (s.fenceDies p (fieldAt m.payload 0 8)) else s)
  | 0x0F => if s.imageOk (byteAt m.payload 0).toNat m.payload then room (s.takeImage true m) else some s
  | 0x10 => some (if s.reloadOk (byteAt m.payload 1).toNat m.payload then s.takeReload true m else s)
  | _ => some s

/-- Memory after an injected message: a TREE_FENCE takes owned lines back. -/
def State.injectBase (s : State) (p : Nat) (type : Byte) (m : Msg) : State :=
  if type == 0x0B && fenceOk m.payload then s.fenceRange p (fieldAt m.payload 0 8) (fieldAt m.payload 8 4) else s

def State.modReplay (s : State) (p : Nat) (f : Replay → Replay) : State := s.modPart p fun v => { v with replay := v.replay.map f }

/-- A record is not injected before its time while PACED is 1 (R414). -/
def State.paced (s : State) (p : Nat) (r : Replay) (tb : Nat) : Bool :=
  !(s.part p).cap.paced || (match r.firstTb with
    | some f => decide (r.startTb.toNat + (tb - f.toNat) ≤ s.tbu.tb.toNat)
    | none => true)

/-- REPLAY_INJECT (R412 to R414): the next record is injected, or skipped, or ends the replay. A recording that cannot be read
ends it with an open cause (log 52). -/
def execReplayInject (p : Nat) (s : State) : Result :=
  match (s.part p).replay with
  | none => .next s
  | some r =>
    whenDue s s.isOpen
      (if 2 ^ r.log2 < r.pos + 32 then settle s (s.endReplay p 2)
       else
         match s.readPart p (r.base + r.pos) 32 with
         | none =>
           let (w, t) := s.freshWord
           settle s (t.endReplay p (BitVec.ofNat 8 w.toNat))
         | some hd =>
           let n := fieldAt hd 12 2
           let flags := (byteAt hd 14).toNat
           let num := fieldAt hd 8 4
           let on := fun (x : Replay) => { x with pos := r.pos + n }
           if bitAt flags 7 then settle s (s.modReplay p on)
           else if (match r.lastNum with | some k => num != (k + 1) % 2 ^ 32 | none => false) then settle s (s.endReplay p 3)
           else if bitAt flags 6 then settle s (s.endReplay p 1)
           else if byteAt hd 15 ≠ 0 then settle s (s.modReplay p fun x => { on x with lastNum := some num })
           else if !s.paced p r (fieldAt hd 0 8) then .next s
           else
             match s.readPart p (r.base + r.pos) n with
             | none =>
               let (w, t) := s.freshWord
               settle s (t.endReplay p (BitVec.ofNat 8 w.toNat))
             | some bs =>
               let (type, m) := recordedMsg bs
               let base := s.injectBase p type m
               match base.inject p type m with
               | none => .next s
               | some t =>
                 settle base (t.modReplay p fun x =>
                   { on x with lastNum := some num, count := x.count + 1
                               firstTb := some (x.firstTb.getD (BitVec.ofNat 64 (fieldAt hd 0 8))) }))

/-! ## Fuses and the TAP (R404, R405) -/

/-- FUSE_PROGRAM_DONE (R404). -/
def execFuseProgramDone (s : State) : Result :=
  match s.sec.busy with
  | none => .next s
  | some c =>
    settle s { s with sec := { s.sec with busy := none }, fuses := State.blow s.fuses c, sensed := State.blow s.sensed c }

/-- TAP_INSTRUCTION (R405). Before the kill a Plodun debug instruction is not described in the manual; a code that the TAP
does not list selects BYPASS. -/
def execTapInstruction (i : TapInstr) (s : State) : Result :=
  let put := fun (j : TapInstr) => settle s { s with boot := { s.boot with tap := j } }
  match i with
  | .bypass => put .bypass
  | .samplePreload => put .samplePreload
  | .extest => put .extest
  | .idcode => put .idcode
  | .other _ => put .bypass
  | .debug _ => if s.sensed.dbgKill then put .bypass else .refused .debugInstruction

end Sys2Proof.Machine
end

