-- ==== Sys2Proof/Machine/Mport.lean ====
section
/-! DEFINITION. Writes over MPORT: every register a write reaches, by its offset (R12, R13, R424 to R427), the rows of the
opcode table that are one such write each, and APPLY, which performs the image's writes (R382). -/

namespace Sys2Proof.Machine

open Sys2Proof

/-! ## Fields -/

/-- A base address whose low register is written: bits [31:g] of the value (Tables 3.13, 5.1, 8.1, 10.9, 11.4, 11.8). -/
def addrLo (a : Addr) (g v : Nat) : Addr := BitVec.ofNat 56 (a.toNat / 2 ^ 32 * 2 ^ 32 + v % 2 ^ 32 / 2 ^ g * 2 ^ g)

/-- A base address whose high register is written: bits [23:0] of the value. -/
def addrHi (a : Addr) (v : Nat) : Addr := BitVec.ofNat 56 (v % 2 ^ 24 * 2 ^ 32 + a.toNat % 2 ^ 32)

/-- Register `i` of a low and high pair of a base address. -/
def addrPair (a : Addr) (g i v : Nat) : Addr := if i = 0 then addrLo a g v else addrHi a v

/-- Writes outside the GEN_ block act in OPEN only (R374, log 37). -/
def whenOpen (s : State) (r : Result) : Result := whenDue s s.isOpen r

/-! ## Time base and power -/

/-- TB_WALL_SET_HI: the wall clock takes the value with the staged low word (R366). -/
def State.wallSet (s : State) (v : Nat) : State := s.setWall (BitVec.ofNat 64 (v % 2 ^ 32 * 2 ^ 32 + s.tbu.staged.toNat))

/-- The TB_ block (Table 12.7). -/
def State.tbWrite (s : State) (o v : Nat) : State :=
  match o with
  | 0x08 => if bitAt v 4 then s.modTb fun t => { t with fault := false } else s
  | 0x18 => s.modTb fun t => { t with staged := BitVec.ofNat 32 v }
  | 0x1C => s.wallSet v
  | _ => s

/-- PWR_CTL (R342). -/
def State.pwrCtl (s : State) (v : Nat) : State :=
  (s.modPwr fun p => { p with fixed := bitAt v 8, fmax := BitVec.ofNat 7 v }).retune

/-- The PWR_ block (Table 12.6). -/
def State.pwrWrite (s : State) (o v : Nat) : State :=
  match o with
  | 0x00 => s.pwrCtl v
  | 0x08 => s.modPwr fun p => { p with cap := BitVec.ofNat 32 v }
  | 0x20 => s.modPwr fun p => { p with target := BitVec.ofNat 8 v }
  | 0x24 => s.modPwr fun p => { p with slope := BitVec.ofNat 8 (v / 256), floor := BitVec.ofNat 8 v }
  | 0x28 => s.modPwr fun p => { p with lead := BitVec.ofNat 8 v }
  | 0x40 => s.modPwr fun p => { p with tlogSel := BitVec.ofNat 8 v }
  | _ => s

/-! ## The partition block -/

/-- PRT_LOCK of a partition (R407): with EN 1 it locks two unlocked partitions that are both EMPTY or ISOLATED; with EN 0 the
leader unlocks both under the same condition (log 38). -/
def State.lockWrite (s : State) (p v : Nat) : State :=
  let idle := fun (x : Nat) => (s.part x).st == .empty || (s.part x).st == .isolated
  let q := v % 32
  let me := s.part p
  if bitAt v 31 then
    if p ≠ q ∧ idle p ∧ idle q ∧ !me.lockEn ∧ !(s.part q).lockEn then
      (s.modPart p fun x => { x with lockEn := true, lockRole := false, lockPeer := BitVec.ofNat 5 q }).modPart q fun x =>
        { x with lockEn := true, lockRole := true, lockPeer := BitVec.ofNat 5 p }
    else s
  else if !me.lockEn then s.modPart p fun x => { x with lockPeer := BitVec.ofNat 5 q }
  else
    let f := me.lockPeer.toNat
    if !me.lockRole ∧ idle p ∧ idle f then
      (s.modPart p fun x => { x with lockEn := false, lockPeer := BitVec.ofNat 5 q }).modPart f fun x =>
        { x with lockEn := false, lockRole := false }
    else s

/-- A window register (R325, Table 11.4): all but EN is ignored while EN is 1. -/
def Win.write (w : Win) (r v : Nat) : Win :=
  if r = 0x18 then
    if w.en then { w with en := bitAt v 0 }
    else
      let w := { w with rd := bitAt v 1, wr := bitAt v 2, persist := bitAt v 3 }
      if bitAt v 0 then { w with en := w.enOk } else w
  else if w.en then w
  else if r < 0x08 then { w with base := addrPair w.base 12 (r / 4) v }
  else if r < 0x10 then { w with limit := addrPair w.limit 12 (r / 4 - 2) v }
  else if r < 0x18 then { w with tgt := addrPair w.tgt 12 (r / 4 - 4) v }
  else w

/-- PRT_POOLn_CFG (R103, Table 3.15). -/
def Pool.cfgWrite (q : Pool) (v : Nat) : Pool :=
  if q.en then (if bitAt v 0 then { q with draining := false } else ({ q with draining := true }).settleOff)
  else
    let q := { q with count := BitVec.ofNat 16 (v / 65536), sizeLog2 := BitVec.ofNat 5 (v / 256) }
    let ok := decide (1 ≤ q.count.toNat) && decide (12 ≤ q.sizeLog2.toNat) && decide (q.sizeLog2.toNat ≤ 24)
    if bitAt v 0 && ok then { q with en := true, draining := false } else q

/-- A pool register; the base is ignored while EN is 1. -/
def Pool.write (q : Pool) (r v : Nat) : Pool :=
  if r = 8 then q.cfgWrite v
  else if q.en then q
  else if r < 8 then { q with base := addrPair q.base 12 (r / 4) v }
  else q

def State.poolWrite (s : State) (p n r v : Nat) : State := s.modPart p fun x => x.modPool n fun q => q.write r v

/-- Start formatting: RKIND 0 to every slot of every ring (R277, R278). A slot outside the windows takes no request. -/
def State.formatRings (s : State) (p : Nat) : State :=
  let j := (s.part p).jrnl
  let s := s.modPart p fun x => { x with jrnl := { x.jrnl with formatting := true, rings := [] } }
  (List.range (s.nclusters * j.slots)).foldl (fun (s : State) k =>
    let a := j.base.toNat + 64 * k
    match s.translate p a 64 true with
    | some sys => s.issue true p sys a (List.replicate 64 0) (.format p)
    | none => s) s

/-- PRT_JRNL_CFG (R278, Table 10.10): EN 1 formats or scans, EN 0 waits for no live deposit; JLOG2 and RESUME are ignored
while EN is 1, and so is EN 1 (log 39). -/
def State.jrnlCfg (s : State) (p v : Nat) : State :=
  let j := (s.part p).jrnl
  if j.en then
    if !bitAt v 0 && (s.liveOf p).isEmpty then s.modPart p fun x => { x with jrnl := { x.jrnl with en := false } } else s
  else
    let log2 := bitsAt v 12 8
    let on := bitAt v 0 && decide (10 ≤ log2) && decide (log2 ≤ 20)
    let s := s.modPart p fun x => { x with jrnl := { x.jrnl with jlog2 := BitVec.ofNat 5 log2, resume := bitAt v 1, en := on } }
    if !on then s
    else if bitAt v 1 then s.modPart p fun x => { x with jrnl := { x.jrnl with replaying := true } }
    else s.formatRings p

def State.jrnlWrite (s : State) (p r v : Nat) : State :=
  if r = 8 then s.jrnlCfg p v
  else if r < 8 && !(s.part p).jrnl.en then
    s.modPart p fun x => { x with jrnl := { x.jrnl with base := addrPair x.jrnl.base 12 (r / 4) v } }
  else s

/-- The block of one partition (Table 15.4). -/
def State.partWrite (s : State) (p r v : Nat) : State :=
  if r = 0x004 then s.modPart p fun x => { x with quotaCtx := BitVec.ofNat 20 v }
  else if r = 0x008 then
    s.modPart p fun x =>
      { x with liveMax := BitVec.ofNat 16 (v / 65536), codePages := BitVec.ofNat 6 (v / 256), ways := BitVec.ofNat 4 v }
  else if r = 0x010 then s.lockWrite p v
  else if 0x200 ≤ r ∧ r < 0x400 then
    let w := (r - 0x200) / 0x20
    s.modPart p fun x => { x with wins := NMap.put {} x.wins w ((x.win w).write (r % 0x20) v) }
  else if 0x400 ≤ r ∧ r < 0x500 then s.poolWrite p ((r - 0x400) / 0x10) (r % 0x10) v
  else if r = 0x600 ∨ r = 0x604 then s.modPart p fun x => { x with spill := addrPair x.spill 12 (r % 0x100 / 4) v }
  else if 0x700 ≤ r ∧ r < 0x70C then s.jrnlWrite p (r % 0x100) v
  else s

/-! ## Security, capture and till -/

/-- SEC_PROG (R404): the key first, nothing while BUSY. -/
def State.secProg (s : State) (v : Nat) : State :=
  if v / 65536 % 65536 ≠ 0xF05E ∨ s.sec.busy.isSome then s
  else
    let s := if bitAt v 14 then { s with sec := { s.sec with refused := false } } else s
    let slot := bitsAt v 9 8
    let others := (List.range 4).filter fun k => k != slot && !bitAt s.sensed.revoke.toNat k
    match v % 4 with
    | 1 => { s with sec := { s.sec with busy := some .dbgKill } }
    | 2 =>
      if slot = s.boot.image.keyIdx ∨ others.isEmpty then
        { s with sec := { s.sec with refused := true } }.security 4 unitInst noPart 0
      else { s with sec := { s.sec with busy := some (.revoke slot) } }
    | _ => s

/-- The capture registers of a partition (Table 14.12). -/
def Cap.write (c : Cap) (r v : Nat) : Cap :=
  match r with
  | 0x00 => { c with cut := c.cut && !bitAt v 3, memfail := c.memfail && !bitAt v 2, ovf := c.ovf && !bitAt v 1 }
  | 0x04 => { c with paced := bitAt v 0 }
  | 0x0C => { c with rd := BitVec.ofNat 32 v }
  | _ => c

/-- TIL_CTL (R417): EN 1 opens the intervals, EN 0 drops them (log 40). -/
def State.tillCtlWrite (s : State) (v : Nat) : State :=
  let was := s.tillCtl.en
  let s := { s with tillCtl := { s.tillCtl with irqEn := bitAt v 1 } }
  if bitAt v 0 then (if was then s else s.openTill)
  else if was then
    (List.range 32).foldl (fun (s : State) p => s.modPart p fun x => { x with till := none })
      { s with tillCtl := { s.tillCtl with en := false } }
  else s

/-- The till block (Table 14.13): PERIOD is ignored while EN is 1. -/
def State.tillWrite (s : State) (o v : Nat) : State :=
  if o = 0x00 then s.tillCtlWrite v
  else if o = 0x04 then (if s.tillCtl.en then s else { s with tillCtl := { s.tillCtl with period := BitVec.ofNat 32 v } })
  else if 0x104 ≤ o ∧ o % 0x80 = 0x04 ∧ o < 0x1100 ∧ bitAt v 31 then
    s.modPart ((o - 0x100) / 0x80) fun x => { x with snap := { x.snap with valid := false } }
  else s

/-! ## The cluster block -/

/-- MEM_PRE_CTL (R335, Table 11.8): FAIL first, then UNLOCK, then GO (log 41). -/
def State.preCtl (s : State) (m v : Nat) : State :=
  let ways := v / 65536 % 65536
  let part := bitsAt v 12 8
  let s := s.modCluster m fun c =>
    { c with preWays := BitVec.ofNat 16 ways, prePart := BitVec.ofNat 5 part, preFail := c.preFail && !bitAt v 7 }
  let s := if bitAt v 14 then s.preloadUnlock m ways else s
  if bitAt v 15 then s.preloadStart m part ways else s

/-- LDG_SLICE.ADMIT (R304). -/
def State.admitBits (s : State) (m v : Nat) : State :=
  (List.range 16).foldl (fun (s : State) i => if bitAt v (16 + i) then s.readmit (16 * m + i) else s) s

/-- LDG_SLICECTL.RETIRE (R293), slice by slice; a slice out of service stays as it is. Each retirement carries its own change
of memory. -/
def State.retireBits (s : State) (m v : Nat) : State :=
  (List.range 16).foldl (fun (s : State) i =>
    let n := 16 * m + i
    if bitAt v i && (s.slice n).st != .retired && (s.slice n).st != .untested then
      let base := s.beforeRetire n
      base.keep (base.retireSlice n 4)
    else s) s

/-- The block of one cluster (Table 15.6), but for LDG_SLICECTL. -/
def State.clusterWrite (s : State) (m r v : Nat) : State :=
  match r with
  | 0xA00 => s.modCluster m fun c => { c with preAddr := addrLo c.preAddr 6 v }
  | 0xA04 => s.modCluster m fun c => { c with preAddr := addrHi c.preAddr v }
  | 0xA08 => s.modCluster m fun c => { c with preLines := BitVec.ofNat 15 v }
  | 0xA0C => s.preCtl m v
  | 0xB00 => s.modCluster m fun c => { c with auditRate := BitVec.ofNat 5 v }
  | 0xB04 => s.admitBits m v
  | 0xC00 => s.modCluster m fun c => { c with holdCred := BitVec.ofNat 13 (v / 65536), stopPull := BitVec.ofNat 13 v }
  | 0xC04 => s.modCluster m fun c => { c with ibudget := BitVec.ofNat 32 v }
  | 0xC14 => if bitAt v 31 then s.modCluster m fun c => { c with flogValid := false } else s
  | 0xE00 => s.modCluster m fun c => { c with age := BitVec.ofNat 16 v }
  | 0xE04 =>
    s.modCluster m fun c => { c with xcluster := bitAt v 24, visitMax := BitVec.ofNat 8 (v / 65536)
                                     fwdLow := BitVec.ofNat 8 (v / 256), fwdHigh := BitVec.ofNat 8 v }
  | 0xE0C => s.modCluster m fun c => { c with waitMax := BitVec.ofNat 32 v }
  | _ => s

/-! ## Fabric ports and streams -/

/-- FAB_n_CTL (R243): EN 1 grants the ingress credits of Table 9.4; with EN 0 the port holds no credit and no flit. -/
def Port.ctlWrite (p : Port) (v : Nat) : Port :=
  if !bitAt v 0 then { badmsg := p.badmsg }
  else if p.en then p
  else { p with en := true, up := true, ingress := { ctrl := 32, work := 128, resp := 16, dlv := 0 } }

/-- Streams that are open or closing, of the 4,096 that may be (R252). -/
def State.openStreams (s : State) : Nat := (s.strms.filter fun e => e.2.en || e.2.closing).length

/-- Gate bits held for deposits of an earlier generation of a stream go; an EVENT that still waits is refused (R268, log 89). -/
def State.dropGates (s : State) (stream : Half) : State :=
  let mine := s.fab.heldGates.filter (·.stream == stream)
  let waiters := (mine.map (·.waiters)).flatten
  let s := if mine.isEmpty then s
    else { s with fab := { s.fab with heldGates := s.fab.heldGates.filter fun h => h.stream != stream } }
  waiters.foldl (fun (s : State) w => s.refuse 7 w.2 false rBusy 9) s

/-- FAB_STRM_CFG of the selected entry (R252). -/
def State.strmCfg (s : State) (v : Nat) : State :=
  let i := s.fab.idx.toNat
  let t := s.strm i
  let bound : Stream := { t with port := BitVec.ofNat 6 (v / 2 ^ 24), part := BitVec.ofNat 5 (v / 256), rights := BitVec.ofNat 8 v }
  if t.en then
    if bitAt v 31 then s
    else (s.modStrm i fun t => { t with en := false, closing := true }).settleStream s.fab.idx
  else if t.closing then s
  else if !bitAt v 31 then s.modStrm i fun _ => bound
  else if 4096 ≤ s.openStreams then { s with fab := { s.fab with strmFull := true } }
  else (s.dropGates s.fab.idx).modStrm i fun _ => { bound with en := true, gen := t.gen + 1, lastAcc := 0 }

/-- The FAB_ block (Tables 9.5 to 9.7, 9.17 to 9.20). -/
def State.fabWrite (s : State) (o v : Nat) : State :=
  if o < 0x4000 then
    if o % 0x40 = 0 ∧ o / 0x40 < s.nfports then s.modPort (o / 0x40) fun p => p.ctlWrite v else s
  else
    match o with
    | 0x4000 => { s with fab := { s.fab with idx := BitVec.ofNat 16 v } }
    | 0x4004 => s.strmCfg v
    | 0x4008 =>
      s.modStrm s.fab.idx.toNat fun t => if t.en || t.closing then t else { t with anysrc := bitAt v 31, owner := BitVec.ofNat 20 v }
    | 0x4010 => { s with fab := { s.fab with hEn := bitAt v 31, hPort := BitVec.ofNat 6 (v / 2 ^ 24), hEp := BitVec.ofNat 20 v } }
    | 0x4014 => if bitAt v 16 then { s with fab := { s.fab with strmFull := false } } else s
    | _ => s

/-! ## Memory ports, die links, mint -/

/-- MEM_n_CTL (R337): with EN 1 the waiting accesses go out in their order, as far as tags reach (R318). -/
def State.memCtl (s : State) (n v : Nat) : State :=
  let was := (s.mport n).en
  let s := s.modMport n fun p => { p with en := bitAt v 0 }
  if bitAt v 0 && !was then
    s.feedAll
  else s

/-- The memory-port registers and MEM_ILV, which is ignored while any port is on (Table 11.7). -/
def State.memWrite (s : State) (o v : Nat) : State :=
  if o = 0x1000 then (if s.mports.any fun e => e.2.en then s else { s with ilv := BitVec.ofNat 5 v })
  else if o % 0x40 = 0 ∧ o / 0x40 < s.nmports then s.memCtl (o / 0x40) v
  else s

/-- DLK_n_CTL (R157): EN 0 and RETRAIN take the link out of the active state. -/
def State.linkCtl (s : State) (l v : Nat) : State :=
  let s := s.modLink l fun k => { k with en := bitAt v 0, rate := bitAt v 1, pkgType := bitAt v 2 }
  if bitAt v 3 || !bitAt v 0 then s.linkLeaves l else s

/-- The DLK_ block (Tables 5.8, 5.9, 5.13, 5.14). -/
def State.linkWrite (s : State) (o v : Nat) : State :=
  if o < 0x400 then
    let l := o / 0x100
    if s.build.dlinks ≤ l then s
    else if o % 0x100 = 0 then s.linkCtl l v
    else if o % 0x100 = 4 ∧ bitAt v 2 then s.modLink l fun k => { k with downEvt := false }
    else s
  else if 0x800 ≤ o ∧ o < 0x840 then
    let k := (o - 0x800) / 4
    let routes := (List.range 8).foldl (fun (r : NMap (BitVec 4)) j => NMap.put 0 r (8 * k + j) (BitVec.ofNat 4 (v / 16 ^ j))) s.dom.routes
    { s with dom := { s.dom with routes := routes } }.dropStranded
  else if o = 0xA00 then { s with dom := { s.dom with fwdEn := bitAt v 0 } }
  else s

/-- The partition's mint ring goes off: the current command is aborted first, and one that a warm reset ended does not
start again (R239, Table 8.2). -/
def State.mintOff (s : State) (p : Nat) : State :=
  let mine := match s.mint.cur with | some c => c.part == p | none => false
  let redo := match s.mint.redo with | some (q, _) => q == p | none => false
  if mine then (s.modMint fun c => { c with stop := true }).mintAbort p
  else
    let s := s.modPart p fun x => { x with mring := { x.mring with en := false } }
    if redo then { s with mint := { s.mint with redo := none } }.releaseHeld else s

/-- MNT_Pp_CFG (R222, Table 8.2): SIZE_LOG2 is ignored while EN is 1; each write of EN 1 sets HEAD and TAIL to 0. -/
def State.mintCfg (s : State) (p v : Nat) : State :=
  let r := (s.part p).mring
  let size := if r.en then r.sizeLog2 else BitVec.ofNat 4 (v / 16)
  let s := s.modPart p fun x => { x with mring := { x.mring with irqEn := bitAt v 8, sizeLog2 := size } }
  if bitAt v 0 then
    (s.modPart p fun x => { x with mring := { x.mring with en := true, head := 0, tail := 0 } }).modMint fun c =>
      if c.part = p then { c with stop := false } else c
  else if r.en then s.mintOff p
  else s

/-- The MNT_ block (Tables 8.1 to 8.3, 8.9). -/
def State.mintWrites (s : State) (o v : Nat) : State :=
  if o < 0x400 then
    let p := o / 0x20
    match o % 0x20 with
    | 0x00 => s.modPart p fun x => { x with mring := { x.mring with base := addrLo x.mring.base 12 v } }
    | 0x04 => s.modPart p fun x => { x with mring := { x.mring with base := addrHi x.mring.base v } }
    | 0x08 => s.mintCfg p v
    | 0x0C => s.setTail p v
    | _ => s
  else if o = 0x1000 ∧ bitAt v 9 then { s with mint := { s.mint with doneEvt := false } }
  else s

/-! ## The aperture (R424) -/

/-- The offset of a register: address bits [1:0] are ignored (R13). -/
def wordOff (off : BitVec 24) : Nat := off.toNat / 4 * 4

/-- The cluster and the offset within its block, where the build holds it (R424). -/
def State.clusterAt (s : State) (o : Nat) : Option (Nat × Nat) :=
  if 0x100000 ≤ o ∧ o < 0x200000 ∧ (o - 0x100000) / 0x10000 < s.nclusters then
    some ((o - 0x100000) / 0x10000, o % 0x10000)
  else none

/-- A write of a register outside the GEN_ block, but for LDG_SLICECTL, which alone reaches memory. A write to an offset that
holds no register has no effect (R13). -/
def State.regWrite (s : State) (o v : Nat) : State :=
  if 0x010000 ≤ o ∧ o < 0x020000 then s.tbWrite (o - 0x010000) v
  else if 0x020000 ≤ o ∧ o < 0x030000 then s.pwrWrite (o - 0x020000) v
  else if 0x040000 ≤ o ∧ o < 0x060000 then s.partWrite ((o - 0x040000) / 0x1000) (o % 0x1000) v
  else if o = 0x080010 then s.secProg v
  else if 0x090000 ≤ o ∧ o < 0x090400 then s.modCap ((o - 0x090000) / 0x20) fun c => c.write (o % 0x20) v
  else if 0x098000 ≤ o ∧ o < 0x099100 then s.tillWrite (o - 0x098000) v
  else if 0x100000 ≤ o ∧ o < 0x200000 then
    (match s.clusterAt o with
     | some (m, r) => s.clusterWrite m r v
     | none => s)
  else if 0x200000 ≤ o ∧ o < 0x280000 then s.fabWrite (o - 0x200000) v
  else if 0x280000 ≤ o ∧ o < 0x2E0000 then s.memWrite (o - 0x280000) v
  else if 0x2E0000 ≤ o ∧ o < 0x300000 then s.linkWrite (o - 0x2E0000) v
  else if 0x300000 ≤ o ∧ o < 0x302000 then s.mintWrites (o - 0x300000) v
  else s

/-- A write of an aclk cycle, with what it orders against the messages of that cycle (R15). -/
def State.ordered (s : State) (aclk o v : Nat) (f : State → State) : State := f (s.noteOrder aclk o v)

/-- The cluster whose LDG_SLICECTL an offset names. -/
def State.slicectlAt (s : State) (o : Nat) : Option Nat :=
  match s.clusterAt o with
  | some (m, r) => if r = 0xB08 then some m else none
  | none => none

/-- MPORT_REGISTER_WRITE (R12, R13, R374, R427): any write; the rows below are the writes that have a name of their own. -/
def execMportRegisterWrite (aclk : Nat) (off : BitVec 24) (data : Word) (s : State) : Result :=
  let o := wordOff off
  if o < 0x010000 then
    (if o = 0x18 then
       whenOpen s (if data.getLsbD 0 then (let base := s.cutWrites; settle base base.warm) else .next s)
     else .next s)
  else
    whenOpen s
      (match s.slicectlAt o with
       | some m => (let t := s.retireBits m data.toNat; settle t t)
       | none => settle s (s.ordered aclk o data.toNat fun t => t.regWrite o data.toNat))

/-! ## APPLY (R373, R382) -/

/-- One REG_INIT entry: the GEN_ and SEC_ blocks are ignored, and no slice can be retired before BIST. -/
def State.regInit (s : State) (e : Word × Word) : State :=
  let o := wordOff (BitVec.ofNat 24 e.1.toNat)
  if o < 0x010000 ∨ (0x080000 ≤ o ∧ o < 0x090000) then s else s.regWrite o e.2.toNat

/-- APPLY_IMAGE (R373, R382): REG_INIT in order, then BIST; the power controller takes the V/F table (R341). -/
def execApplyImage (s : State) : Result :=
  whenDue s (s.boot.phase == .apply)
    (let t := s.boot.image.regInit.foldl State.regInit s
     settle s ({ t with boot := { t.boot with phase := .bist, ranSince := s.elapsed } }).retune)

/-! ## Writes that are rows of their own -/

/-- A write to a register of a unit; where the build does not hold the unit the offset holds no register and the write is ignored
(R13, R424). -/
def unitWrite (built : Bool) (s t : State) : Result := whenOpen s (if built then settle s t else .next s)

/-- FAB_PORT_ENABLE (R243). -/
def execFabPortEnable (port : Nat) (data : Word) (s : State) : Result :=
  unitWrite (decide (port < s.nfports)) s (s.modPort port fun p => p.ctlWrite data.toNat)

/-- STREAM_OPEN (R252). -/
def execStreamOpen (data : Word) (s : State) : Result := whenOpen s (settle s (s.strmCfg data.toNat))

/-- STREAM_CLOSE (R15, R252). -/
def execStreamClose (w : MpData) (s : State) : Result :=
  whenOpen s (settle s (s.ordered w.aclk 0x204004 w.data.toNat fun t => t.strmCfg w.data.toNat))

/-- LINK_RETRAIN (R157). -/
def execLinkRetrain (link : Nat) (data : Word) (s : State) : Result :=
  unitWrite (decide (link < s.build.dlinks)) s (s.linkCtl link data.toNat)

/-- SLICE_RETIRE_WRITE (R293). -/
def execSliceRetireWrite (cluster : Nat) (data : Word) (s : State) : Result :=
  whenOpen s (if cluster < s.nclusters then (let t := s.retireBits cluster data.toNat; goOn t t) else .next s)

/-- SLICE_READMIT (R304, R305). -/
def execSliceReadmit (cluster : Nat) (data : Word) (s : State) : Result :=
  unitWrite (decide (cluster < s.nclusters)) s (s.admitBits cluster data.toNat)

/-- JOURNAL_FORMAT (R278). -/
def execJournalFormat (part : Nat) (data : Word) (s : State) : Result := whenOpen s (settle s (s.jrnlCfg part data.toNat))

/-- JOURNAL_RESUME (R278, R308). -/
def execJournalResume (part : Nat) (data : Word) (s : State) : Result := whenOpen s (settle s (s.jrnlCfg part data.toNat))

/-- JOURNAL_DISABLE (R15, R278). -/
def execJournalDisable (part : Nat) (w : MpData) (s : State) : Result :=
  whenOpen s (settle s (s.ordered w.aclk (0x040708 + 0x1000 * part) w.data.toNat fun t => t.jrnlCfg part w.data.toNat))

/-- POOL_ENABLE (R103). -/
def execPoolEnable (part pool : Nat) (data : Word) (s : State) : Result := whenOpen s (settle s (s.poolWrite part pool 8 data.toNat))

/-- POOL_DISABLE (R15, R103). -/
def execPoolDisable (part pool : Nat) (w : MpData) (s : State) : Result :=
  whenOpen s (settle s (s.ordered w.aclk (0x040408 + 0x1000 * part + 0x10 * pool) w.data.toNat fun t =>
    t.poolWrite part pool 8 w.data.toNat))

/-- PRELOAD_GO (R335). -/
def execPreloadGo (cluster : Nat) (data : Word) (s : State) : Result :=
  unitWrite (decide (cluster < s.nclusters)) s (s.preCtl cluster data.toNat)

/-- PRELOAD_UNLOCK (R335). -/
def execPreloadUnlock (cluster : Nat) (data : Word) (s : State) : Result :=
  unitWrite (decide (cluster < s.nclusters)) s (s.preCtl cluster data.toNat)

/-- MINT_RING_ENABLE (R15, R222). -/
def execMintRingEnable (part : Nat) (w : MpData) (s : State) : Result :=
  whenOpen s (settle s (s.ordered w.aclk (0x300008 + 0x20 * part) w.data.toNat fun t => t.mintCfg part w.data.toNat))

/-- MINT_RING_DISABLE (R15, R239). -/
def execMintRingDisable (part : Nat) (w : MpData) (s : State) : Result :=
  whenOpen s (settle s (s.ordered w.aclk (0x300008 + 0x20 * part) w.data.toNat fun t => t.mintCfg part w.data.toNat))

/-- MINT_TAIL_WRITE (R15, R222). -/
def execMintTailWrite (part aclk : Nat) (data : Word) (s : State) : Result :=
  whenOpen s (settle s (s.ordered aclk (0x30000C + 0x20 * part) data.toNat fun t => t.setTail part data.toNat))

/-- FIXED_MODE_WRITE (R342). -/
def execFixedModeWrite (data : Word) (s : State) : Result := whenOpen s (settle s (s.pwrCtl data.toNat))

/-- TB_WALL_SET_LO (R366). -/
def execTbWallSetLo (data : Word) (s : State) : Result := whenOpen s (settle s (s.modTb fun t => { t with staged := data }))

/-- TB_WALL_SET_HI (R366, R418). -/
def execTbWallSetHi (data : Word) (s : State) : Result := whenOpen s (settle s (s.wallSet data.toNat))

/-- TILL_ENABLE (R417). -/
def execTillEnable (data : Word) (s : State) : Result := whenOpen s (settle s (s.tillCtlWrite data.toNat))

/-- PAIR_LOCK (R407). -/
def execPairLock (part : Nat) (data : Word) (s : State) : Result := whenOpen s (settle s (s.lockWrite part data.toNat))

/-- FUSE_BLOW_DBG_KILL (R404). -/
def execFuseBlowDbgKill (data : Word) (s : State) : Result := whenOpen s (settle s (s.secProg data.toNat))

/-- FUSE_REVOKE_KEY (R404). -/
def execFuseRevokeKey (data : Word) (s : State) : Result := whenOpen s (settle s (s.secProg data.toNat))

end Sys2Proof.Machine
end

