-- ==== Sys2Proof/Machine/Regs.lean ====
section
/-! DEFINITION. What MPORT reads (R5 to R7, R12 to R14, R374, R424), the interrupt output (R428), and COUNTER_LOW_WORD_READ. -/

namespace Sys2Proof.Machine

open Sys2Proof

/-! ## 64-bit counters (R14) -/

/-- The selected throttle-log entry (Table 12.6). -/
def State.tlogEntry (s : State) : TLog := NMap.get {} s.pwr.tlog s.pwr.tlogSel.toNat

/-- The till counters of a snapshot, by offset (Table 14.13). -/
def Snap.counter (p : Snap) (r : Nat) : Option Dword :=
  match r with
  | 0x10 => some p.start
  | 0x18 => some p.stop
  | 0x20 => some p.bound
  | 0x28 => some p.queries
  | 0x30 => some p.visits
  | 0x38 => some p.busy
  | 0x40 => some p.step
  | _ => none

/-- The counters of a cluster (Tables 4.6, 4.7, 6.13). -/
def Cluster.counter (c : Cluster) (r : Nat) : Option Dword :=
  match r with
  | 0xD00 => some c.macs
  | 0xF00 => some c.boxtests
  | 0xF08 => some c.primtests
  | _ => none

/-- The 64-bit value whose low word stands at an offset, when it is read under R14. -/
def State.counterAt (s : State) (o : Nat) : Option Dword :=
  if o = 0x010000 then some s.tbu.tb
  else if o = 0x010010 then some s.tbu.wall
  else if o = 0x020018 then some s.pwr.energy
  else if o = 0x020050 then some s.tlogEntry.start
  else if o = 0x020058 then some s.tlogEntry.stop
  else if 0x020088 ≤ o ∧ o < 0x0200C0 ∧ o % 8 = 0 then some (NMap.get 0 s.pwr.tcum ((o - 0x020080) / 8))
  else if 0x040000 ≤ o ∧ o < 0x060000 ∧ o % 0x1000 = 0x018 then some (s.part ((o - 0x040000) / 0x1000)).seed
  else if o = 0x098008 then some s.tillCtl.bhi
  else if 0x098100 ≤ o ∧ o < 0x099100 then (s.part ((o - 0x098100) / 0x80)).snap.counter (o % 0x80)
  else if o = 0x301008 then some s.mint.prims
  else match s.clusterAt o with
    | some (m, r) => (s.cluster m).counter r
    | none => none

/-! ## Plain registers -/

/-- A field of a register. -/
def fld (v lo : Nat) : Nat := v * 2 ^ lo

/-- A flag of a register. -/
def flg (b : Bool) (lo : Nat) : Nat := fld (bit b) lo

/-- Register `i` of a low and high pair of a base address. -/
def pairWord (a : Addr) (i : Nat) : Nat := if i = 0 then a.toNat % 2 ^ 32 else a.toNat / 2 ^ 32

/-- The GEN_ block (R5 to R7, R22, Table 13.13). -/
def State.genRead (s : State) (o : Nat) : Nat :=
  let b := s.boot
  match o with
  | 0x00 => genId
  | 0x04 => genRev
  | 0x08 => s.genCfg
  | 0x0C => s.genInst
  | 0x10 => fld b.failcode.toNat 16 + flg b.warm 11 + flg b.rolledBack 10 + flg b.trial 9 + fld b.slot 8 + b.phase.code
  | 0x14 => b.version.toNat
  | 0x1C => flg b.updRun 31 + flg b.verified.isSome 30 + fld (b.updQ.length - bit b.updRun) 16 + fld b.updResult.toNat 8
  | 0x20 => fld b.readMode 8 + b.sizeLog2
  | _ => 0

def State.tbRead (s : State) (o : Nat) : Nat :=
  let t := s.tbu
  if o = 0x08 then
    fld t.missed.toNat 24 + fld t.slips.toNat 8 + flg t.fault 4 + flg t.notick 3 + flg t.slew.isSome 2 + flg t.lock 0
  else 0

/-- The fused maximum code of a lead core, within 42 to 84 (R344); an unprogrammed one carries 84 (DESIGN CHOICE, log 1). -/
def State.leadCode (s : State) (i : Nat) : Nat := max 42 (min 84 (NMap.get 84 s.sensed.leadCodes i).toNat)

/-- The PWR_ block (Table 12.6). -/
def State.pwrRead (s : State) (o : Nat) : Nat :=
  let p := s.pwr
  if 0x100 ≤ o ∧ o < 0x140 then
    let m := (o - 0x100) / 4
    if m < s.nclusters then ((List.range 4).map fun j => fld (NMap.get 0 p.sensors (4 * m + j)).toNat (8 * j)).sum else 0
  else if 0x140 ≤ o ∧ o < 0x180 then (NMap.get 0 p.sq ((o - 0x140) / 4)).toNat
  else if 0x180 ≤ o ∧ o < 0x1A0 then
    ((List.range 4).map fun j => if o - 0x180 + j < 2 * s.nclusters then fld (s.leadCode (o - 0x180 + j)) (8 * j) else 0).sum
  else
    match o with
    | 0x00 => flg p.fixed 8 + p.fmax.toNat
    | 0x04 => fld p.code.toNat 25 + fld p.vid.toNat 17 + fld s.ladder 8 + s.reasonBits
    | 0x08 => p.cap.toNat
    | 0x0C => p.bcap.toNat
    | 0x10 => fld s.dpl 16 + min 0xFFFF s.p10
    | 0x20 => fld s.hot 8 + p.target.toNat
    | 0x24 => fld p.slope.toNat 8 + p.floor.toNat
    | 0x28 => fld p.hints.length 8 + p.lead.toNat
    | 0x2C => p.drzCount.toNat
    | 0x30 => fld p.worst.toNat 8 + p.trim.toNat
    | 0x40 => p.tlogSel.toNat
    | 0x44 => p.tlogHead.toNat
    | 0x48 => flg s.tlogEntry.isOpen 8 + s.tlogEntry.reason
    | _ => 0

/-- The codes of Table 14.1. -/
def PState.code : PState → Nat
  | .empty => 0
  | .loaded => 1
  | .draining => 2
  | .isolated => 3
  | .loading => 4

/-- A window register (Table 11.4). -/
def Win.read (w : Win) (r : Nat) : Nat :=
  if r < 0x08 then pairWord w.base (r / 4)
  else if r < 0x10 then pairWord w.limit (r / 4 - 2)
  else if r < 0x18 then pairWord w.tgt (r / 4 - 4)
  else if r = 0x18 then flg w.persist 3 + flg w.wr 2 + flg w.rd 1 + bit w.en
  else 0

/-- Buffers of a pool that are claimed. -/
def Pool.claimed (q : Pool) : Nat := (q.bufs.filter fun b => b.2.claim.isSome).length

/-- A pool register (Tables 3.13 to 3.16). -/
def Pool.read (q : Pool) (r : Nat) : Nat :=
  match r with
  | 0 => pairWord q.base 0
  | 4 => pairWord q.base 1
  | 8 => fld q.count.toNat 16 + fld q.sizeLog2.toNat 8 + flg q.draining 1 + bit q.en
  | _ => fld q.claimed 16 + (if q.en then q.count.toNat - q.claimed else 0)

/-- The block of one partition (Table 15.4). -/
def State.partRead (s : State) (p r : Nat) : Nat :=
  let x := s.part p
  if 0x200 ≤ r ∧ r < 0x400 then (x.win ((r - 0x200) / 0x20)).read (r % 0x20)
  else if 0x400 ≤ r ∧ r < 0x500 then (x.pool ((r - 0x400) / 0x10)).read (r % 0x10)
  else
    match r with
    | 0x000 => fld x.loadfail.toNat 24 + flg x.replay.isSome 4 + flg x.cap.active 3 + x.st.code
    | 0x004 => x.quotaCtx.toNat
    | 0x008 => fld x.liveMax.toNat 16 + fld x.codePages.toNat 8 + x.ways.toNat
    | 0x00C => fld x.pages 20 + s.partCtx p
    | 0x010 => flg x.lockEn 31 + flg x.lockRole 30 + x.lockPeer.toNat
    | 0x500 => x.dfree.toNat
    | 0x504 => x.ffree.toNat
    | 0x600 => pairWord x.spill 0
    | 0x604 => pairWord x.spill 1
    | 0x700 => pairWord x.jrnl.base 0
    | 0x704 => pairWord x.jrnl.base 1
    | 0x708 =>
      flg (s.stalled p) 18 + flg x.jrnl.replaying 17 + flg x.jrnl.formatting 16 + fld x.jrnl.jlog2.toNat 8 + flg x.jrnl.resume 1 +
        bit x.jrnl.en
    | 0x70C => (s.liveOf p).length
    | _ => 0

/-- The SEC_ block (Table 14.11). -/
def State.secRead (s : State) (o : Nat) : Nat :=
  let f := s.sensed
  if 0x100 ≤ o ∧ o < 0x200 then
    let j := o % 0x40 / 4
    if j < 12 then fieldAt (f.keyHash.getD ((o - 0x100) / 0x40) []) (4 * j) 4 else 0
  else
    match o with
    | 0x00 => fld f.svn 8 + fld f.revoke.toNat 4 + flg f.flashSlow 1 + bit f.dbgKill
    | 0x10 => flg s.sec.busy.isSome 15 + flg s.sec.refused 14
    | 0x14 => s.sec.events.toNat
    | _ => 0

def Cap.read (c : Cap) (r : Nat) : Nat :=
  match r with
  | 0x00 => flg c.cut 3 + flg c.memfail 2 + flg c.ovf 1 + bit c.active
  | 0x04 => bit c.paced
  | 0x08 => c.wr.toNat
  | 0x0C => c.rd.toNat
  | _ => 0

/-- The till block (Table 14.13). -/
def State.tillRead (s : State) (o : Nat) : Nat :=
  if 0x100 ≤ o then
    let p := (s.part ((o - 0x100) / 0x80)).snap
    match o % 0x80 with
    | 0x00 => p.seq.toNat
    | 0x04 => flg p.valid 31 + fld p.skipped 16 + flg p.missed 4 + flg p.reset 3 + flg p.fwd 2 + flg p.back 1
    | _ => 0
  else
    match o with
    | 0x00 => flg s.tillCtl.irqEn 1 + bit s.tillCtl.en
    | 0x04 => s.tillCtl.period.toNat
    | _ => 0

/-- Bit i for slice i of a cluster. -/
def State.sliceBits (s : State) (m : Nat) (f : SliceSt → Bool) : Nat :=
  ((List.range 16).map fun i => if f (s.slice (16 * m + i)).st then 2 ^ i else 0).sum

/-- A slice whose readmission runs. -/
def SliceSt.coming : SliceSt → Bool
  | .bist => true
  | .probation => true
  | .waiting => true
  | _ => false

/-- LDG_STAT (Table 10.14). -/
def State.ledgerStat (s : State) (m : Nat) : Nat :=
  let c := s.cluster m
  if c.retired then 1
  else
    fld (s.deps.filter (·.home == m)).length 12 +
      (match c.adopted with | some a => fld a 8 + flg true 3 | none => 0) + fld c.lead 2

/-- The block of one cluster (Table 15.6). -/
def State.clusterRead (s : State) (m r : Nat) : Nat :=
  let c := s.cluster m
  match r with
  | 0xA00 => pairWord c.preAddr 0
  | 0xA04 => pairWord c.preAddr 1
  | 0xA08 => c.preLines.toNat
  | 0xA0C => fld c.preWays.toNat 16 + flg c.preload.isSome 13 + fld c.prePart.toNat 8 + flg c.preFail 7
  | 0xA10 => fld ((c.locks.map fun e => 2 ^ e.1).sum) 16 + c.evbuf.length
  | 0xB00 => c.auditRate.toNat
  | 0xB04 => fld (s.sliceBits m SliceSt.coming) 16 + s.sliceBits m fun st => st == .retired || st.coming
  | 0xB0C => s.ledgerStat m
  | 0xB10 => c.rerun.toNat
  | 0xB14 => c.audits.toNat
  | 0xB18 => c.amiss.toNat
  | 0xB1C => c.replay.toNat
  | 0xB20 => c.cecc.toNat
  | 0xC00 => fld c.holdCred.toNat 16 + c.stopPull.toNat
  | 0xC04 => c.ibudget.toNat
  | 0xC08 => fld (s.ctxs.filter fun x => clusterOf x.slice == m).length 16 + s.tasks m
  | 0xC0C => fld c.deadlocks.toNat 16 + c.faults.toNat
  | 0xC10 => c.stalesig.toNat
  | 0xC14 => flg c.flogValid 31 + fld c.flogKind.toNat 16 + fld c.flogPart.toNat 8 + c.flogSlice.toNat
  | 0xC18 => fld c.flogKernel.toNat 16 + c.flogPc.toNat
  | 0xD08 => c.halo8.toNat
  | 0xD0C => c.halopair.toNat
  | 0xD10 => c.unres.toNat
  | 0xD14 => c.steplim.toNat
  | 0xD18 => c.nonfin.toNat
  | 0xE00 => c.age.toNat
  | 0xE04 => flg c.xcluster 24 + fld c.visitMax.toNat 16 + fld c.fwdLow.toNat 8 + c.fwdHigh.toNat
  | 0xE08 => fld c.nqs.length 16 + ((c.nqs.map (·.members.length)).sum + c.strag.length)
  | 0xE0C => c.waitMax.toNat
  | 0xE10 => c.fwdout.toNat
  | 0xE14 => c.fallback.toNat
  | 0xF10 => c.voidrec.toNat
  | _ => 0

/-- The FAB_ block (Tables 9.5 to 9.7, 9.17 to 9.20). -/
def State.fabRead (s : State) (o : Nat) : Nat :=
  if o < 0x4000 then
    let p := s.port (o / 0x40)
    if s.nfports ≤ o / 0x40 then 0
    else match o % 0x40 with
      | 0x00 => bit p.en
      | 0x04 => fld p.badmsg 16 + flg (!p.deferred.isEmpty) 1 + bit p.up
      | 0x08 => fld (min 255 p.egress.dlv) 24 + fld (min 255 p.egress.resp) 16 + min 255 p.egress.ctrl
      | _ => 0
  else if 0x4104 ≤ o ∧ o < 0x4120 then (NMap.get 0 s.fab.refuses ((o - 0x4100) / 4)).toNat
  else
    let t := s.strm s.fab.idx.toNat
    match o with
    | 0x4000 => s.fab.idx.toNat
    | 0x4004 => flg t.en 31 + flg t.closing 30 + fld t.port.toNat 24 + fld t.gen.toNat 16 + fld t.part.toNat 8 + t.rights.toNat
    | 0x4008 => flg t.anysrc 31 + t.owner.toNat
    | 0x400C => t.lastAcc.toNat
    | 0x4010 => flg s.fab.hEn 31 + fld s.fab.hPort.toNat 24 + s.fab.hEp.toNat
    | 0x4014 => flg s.fab.strmFull 16 + s.fab.hlost
    | _ => 0

/-- The memory-port registers (Table 11.7). -/
def State.memRead (s : State) (o : Nat) : Nat :=
  let n := o / 0x40
  if o = 0x1000 then s.ilv.toNat
  else if s.nmports ≤ n then 0
  else
    let p := s.mport n
    let out := fun (w : Bool) => (s.accs.filter fun a => a.port == n && a.write == w && a.st == .out).length +
      (s.lateTags.filter fun t => t.port == n && t.write == w).length
    match o % 0x40 with
    | 0x00 => bit p.en
    | 0x04 => fld p.errors.toNat 24 + fld p.poison.toNat 16 + fld p.timeouts.toNat 8 + p.late.toNat
    | 0x08 => fld (min 2047 (out true)) 16 + min 8191 (out false)
    | _ => 0

/-- The DLK_ block (Tables 5.8, 5.9, 5.13, 5.14). -/
def State.linkRead (s : State) (o : Nat) : Nat :=
  if 0x800 ≤ o ∧ o < 0x840 then
    ((List.range 8).map fun j => fld (NMap.get (0 : BitVec 4) s.dom.routes ((o - 0x800) / 4 * 8 + j)).toNat (4 * j)).sum
  else if o = 0xA00 then bit s.dom.fwdEn
  else if s.build.dlinks ≤ o / 0x100 then 0
  else
    let k := s.link (o / 0x100)
    match o % 0x100 with
    | 0 => flg k.pkgType 2 + flg k.rate 1 + bit k.en
    | 4 =>
      fld k.downs 24 + fld k.badpkt 16 + fld k.peerDie.toNat 8 + flg k.peerBad 4 + flg k.repaired 3 + flg k.downEvt 2 +
        flg (k.helloIn && k.helloOut) 1 + bit k.up
    | _ => 0

/-- The MNT_ block (Tables 8.1 to 8.3, 8.9). -/
def State.mintRead (s : State) (o : Nat) : Nat :=
  if o < 0x400 then
    let r := (s.part (o / 0x20)).mring
    match o % 0x20 with
    | 0x00 => pairWord r.base 0
    | 0x04 => pairWord r.base 1
    | 0x08 => flg r.irqEn 8 + fld r.sizeLog2.toNat 4 + bit r.en
    | 0x0C => r.tail.toNat
    | 0x10 => r.head.toNat
    | _ => 0
  else if o = 0x1000 then
    let drain := match s.mint.cur with | some c => c.drain | none => false
    flg s.mint.doneEvt 9 + flg drain 8 + flg s.mint.cur.isSome 7 + s.mint.part.toNat
  else 0

/-- A register that is no half of a 64-bit counter; 0 where no register lies (R13). -/
def State.plainRead (s : State) (o : Nat) : Nat :=
  if o < 0x010000 then s.genRead o
  else if o < 0x020000 then s.tbRead (o - 0x010000)
  else if o < 0x030000 then s.pwrRead (o - 0x020000)
  else if 0x040000 ≤ o ∧ o < 0x060000 then s.partRead ((o - 0x040000) / 0x1000) (o % 0x1000)
  else if 0x080000 ≤ o ∧ o < 0x080200 then s.secRead (o - 0x080000)
  else if 0x090000 ≤ o ∧ o < 0x090400 then (s.part ((o - 0x090000) / 0x20)).cap.read (o % 0x20)
  else if 0x098000 ≤ o ∧ o < 0x099100 then s.tillRead (o - 0x098000)
  else if 0x100000 ≤ o ∧ o < 0x200000 then
    (match s.clusterAt o with
     | some (m, r) => s.clusterRead m r
     | none => 0)
  else if 0x200000 ≤ o ∧ o < 0x280000 then s.fabRead (o - 0x200000)
  else if 0x280000 ≤ o ∧ o < 0x2E0000 then s.memRead (o - 0x280000)
  else if 0x2E0000 ≤ o ∧ o < 0x300000 then s.linkRead (o - 0x2E0000)
  else if 0x300000 ≤ o ∧ o < 0x302000 then s.mintRead (o - 0x300000)
  else 0

/-! ## Reads (R14, R374, R428) -/

/-- Offsets that answer before OPEN: the GEN_ block, PWR_THERM and PWR_TEMPm (R348, R374). -/
def earlyOffset (o : Nat) : Bool := decide (o < 0x010000) || o == 0x020020 || (decide (0x020100 ≤ o) && decide (o < 0x020140))

/-- What an MPORT read returns. The high word of a counter is its latch. -/
def State.mportRead (s : State) (off : BitVec 24) : Word :=
  let o := wordOff off
  if !s.isOpen && !earlyOffset o then 0
  else
    match s.counterAt o with
    | some c => BitVec.ofNat 32 c.toNat
    | none =>
      match (if 4 ≤ o then s.counterAt (o - 4) else none) with
      | some _ => NMap.get 0 s.latches (o - 4)
      | none => BitVec.ofNat 32 (s.plainRead o)

/-- COUNTER_LOW_WORD_READ (R14): the read of a counter's low word latches its high word. A read of another register changes
nothing but MPORT_RDATA. -/
def execCounterLowWordRead (off : BitVec 24) (s : State) : Result :=
  let o := wordOff off
  let t := { s with mportRdata := s.mportRead off }
  match s.counterAt o with
  | some c =>
    settle s (if s.isOpen then { t with latches := NMap.put 0 t.latches o (BitVec.ofNat 32 (c.toNat / 2 ^ 32)) } else t)
  | none => settle s t

/-- The interrupt output (R374, R428, Table 15.9). -/
def State.irq (s : State) : Bool :=
  s.boot.openedOnce &&
    (s.tbu.fault || (s.clusters.any fun e => decide (e.1 < s.nclusters) && e.2.flogValid) ||
      (s.links.any fun e => decide (e.1 < s.build.dlinks) && e.2.downEvt) || s.mint.doneEvt ||
      (s.tillCtl.irqEn && s.parts.any fun e => e.2.snap.valid))

end Sys2Proof.Machine
end

