-- ==== Sys2Proof/Machine/Dispatch.lean ====
section
/-! DEFINITION. One arm for each command; its meaning stands in the family file named by the import. -/

namespace Sys2Proof.Machine

open Sys2Proof

def exec (i : Instr) (s : State) : Host.Outcome State Fault Refusal :=
  match i with
  | .coldReset => Sys2Proof.Machine.execColdReset s
  | .porstNDeassert inst => Sys2Proof.Machine.execPorstNDeassert inst s
  | .warmReset => Sys2Proof.Machine.execWarmReset s
  | .genCtlWarm data => Sys2Proof.Machine.execGenCtlWarm data s
  | .thermalTrip cluster sensor reading => Sys2Proof.Machine.execThermalTrip cluster sensor reading s
  | .fuseSenseDone => Sys2Proof.Machine.execFuseSenseDone s
  | .sfdpDiscovery => Sys2Proof.Machine.execSfdpDiscovery s
  | .slotSelection => Sys2Proof.Machine.execSlotSelection s
  | .imageAuthentication => Sys2Proof.Machine.execImageAuthentication s
  | .applyImage => Sys2Proof.Machine.execApplyImage s
  | .bistDone badSlices badClusters => Sys2Proof.Machine.execBistDone badSlices badClusters s
  | .ringScanDone part fails => Sys2Proof.Machine.execRingScanDone part fails s
  | .mportRegisterWrite aclk off data => Sys2Proof.Machine.execMportRegisterWrite aclk off data s
  | .deposit m => Sys2Proof.Machine.execDeposit m s
  | .journalWriteAck port tag => Sys2Proof.Machine.execJournalWriteAck port tag s
  | .acceptBoundExpiry kind stream seq => Sys2Proof.Machine.execAcceptBoundExpiry kind stream seq s
  | .receiptAck m => Sys2Proof.Machine.execReceiptAck m s
  | .retireRecordAck port tag => Sys2Proof.Machine.execRetireRecordAck port tag s
  | .endpointRefuse m => Sys2Proof.Machine.execEndpointRefuse m s
  | .receiptSend dep => Sys2Proof.Machine.execReceiptSend dep s
  | .receiptTimeout dep => Sys2Proof.Machine.execReceiptTimeout dep s
  | .eventGate m => Sys2Proof.Machine.execEventGate m s
  | .eventMintTail m => Sys2Proof.Machine.execEventMintTail m s
  | .hint m => Sys2Proof.Machine.execHint m s
  | .budget m => Sys2Proof.Machine.execBudget m s
  | .treeFence m => Sys2Proof.Machine.execTreeFence m s
  | .status m => Sys2Proof.Machine.execStatus m s
  | .ident m => Sys2Proof.Machine.execIdent m s
  | .imageWriteErase m => Sys2Proof.Machine.execImageWriteErase m s
  | .imageWriteWrite m => Sys2Proof.Machine.execImageWriteWrite m s
  | .imageWriteVerify m => Sys2Proof.Machine.execImageWriteVerify m s
  | .imageWriteCommit m => Sys2Proof.Machine.execImageWriteCommit m s
  | .imageWriteConfirm m => Sys2Proof.Machine.execImageWriteConfirm m s
  | .imageOpStart => Sys2Proof.Machine.execImageOpStart s
  | .imageOpDone timedOut => Sys2Proof.Machine.execImageOpDone timedOut s
  | .partReloadBegin m => Sys2Proof.Machine.execPartReloadBegin m s
  | .partReloadEnd m => Sys2Proof.Machine.execPartReloadEnd m s
  | .partLoadDone part fails => Sys2Proof.Machine.execPartLoadDone part fails s
  | .captureStart m => Sys2Proof.Machine.execCaptureStart m s
  | .captureStop m => Sys2Proof.Machine.execCaptureStop m s
  | .replayStart m => Sys2Proof.Machine.execReplayStart m s
  | .replayStop m => Sys2Proof.Machine.execReplayStop m s
  | .captureRecordWrite part fails => Sys2Proof.Machine.execCaptureRecordWrite part fails s
  | .replayInject part => Sys2Proof.Machine.execReplayInject part s
  | .malformedFlitSequence type m headerWhole => Sys2Proof.Machine.execMalformedFlitSequence type m headerWhole s
  | .reservedMessage type m => Sys2Proof.Machine.execReservedMessage type m s
  | .egressCreditReturn port cls => Sys2Proof.Machine.execEgressCreditReturn port cls s
  | .fabPortEnable port data => Sys2Proof.Machine.execFabPortEnable port data s
  | .ingressCreditReturn port cls => Sys2Proof.Machine.execIngressCreditReturn port cls s
  | .streamOpen data => Sys2Proof.Machine.execStreamOpen data s
  | .streamClose write => Sys2Proof.Machine.execStreamClose write s
  | .healthSend => Sys2Proof.Machine.execHealthSend s
  | .releaseStampReached dep => Sys2Proof.Machine.execReleaseStampReached dep s
  | .queryRecordRead dep slice => Sys2Proof.Machine.execQueryRecordRead dep slice s
  | .imageHeaderRead dep => Sys2Proof.Machine.execImageHeaderRead dep s
  | .epochReread w => Sys2Proof.Machine.execEpochReread w s
  | .epochMissingTimeout w => Sys2Proof.Machine.execEpochMissingTimeout w s
  | .nodeQueueReady cluster queue => Sys2Proof.Machine.execNodeQueueReady cluster queue s
  | .queueRipe cluster queue => Sys2Proof.Machine.execQueueRipe cluster queue s
  | .batchRelease cluster => Sys2Proof.Machine.execBatchRelease cluster s
  | .clusterForward cluster => Sys2Proof.Machine.execClusterForward cluster s
  | .boxTestVisit slice => Sys2Proof.Machine.execBoxTestVisit slice s
  | .spillFill query => Sys2Proof.Machine.execSpillFill query s
  | .primitiveLeafTest slice => Sys2Proof.Machine.execPrimitiveLeafTest slice s
  | .neuralLeafVisit slice => Sys2Proof.Machine.execNeuralLeafVisit slice s
  | .marchTracking query => Sys2Proof.Machine.execMarchTracking query s
  | .kernelLeafLaunch slice core slot => Sys2Proof.Machine.execKernelLeafLaunch slice core slot s
  | .kernelTaskLaunch dep node core slot => Sys2Proof.Machine.execKernelTaskLaunch dep node core slot s
  | .gatherExpiry dep node core slot => Sys2Proof.Machine.execGatherExpiry dep node core slot s
  | .emitTask dep query => Sys2Proof.Machine.execEmitTask dep query s
  | .reduceTask dep => Sys2Proof.Machine.execReduceTask dep s
  | .deliverTask dep => Sys2Proof.Machine.execDeliverTask dep s
  | .bufferHeaderAck port tag => Sys2Proof.Machine.execBufferHeaderAck port tag s
  | .deadlockKill part => Sys2Proof.Machine.execDeadlockKill part s
  | .signalDelivery g => Sys2Proof.Machine.execSignalDelivery g s
  | .iadd pl => Sys2Proof.Machine.execIadd pl s
  | .isub pl => Sys2Proof.Machine.execIsub pl s
  | .imul pl => Sys2Proof.Machine.execImul pl s
  | .imulhi pl => Sys2Proof.Machine.execImulhi pl s
  | .umulhi pl => Sys2Proof.Machine.execUmulhi pl s
  | .imin pl => Sys2Proof.Machine.execImin pl s
  | .imax pl => Sys2Proof.Machine.execImax pl s
  | .umin pl => Sys2Proof.Machine.execUmin pl s
  | .umax pl => Sys2Proof.Machine.execUmax pl s
  | .bAnd pl => Sys2Proof.Machine.execBAnd pl s
  | .bOr pl => Sys2Proof.Machine.execBOr pl s
  | .bXor pl => Sys2Proof.Machine.execBXor pl s
  | .shl pl => Sys2Proof.Machine.execShl pl s
  | .shr pl => Sys2Proof.Machine.execShr pl s
  | .sar pl => Sys2Proof.Machine.execSar pl s
  | .isetp pl => Sys2Proof.Machine.execIsetp pl s
  | .sel pl => Sys2Proof.Machine.execSel pl s
  | .popc pl => Sys2Proof.Machine.execPopc pl s
  | .clz pl => Sys2Proof.Machine.execClz pl s
  | .mov pl => Sys2Proof.Machine.execMov pl s
  | .fadd pl => Sys2Proof.Machine.execFadd pl s
  | .fmul pl => Sys2Proof.Machine.execFmul pl s
  | .ffma pl => Sys2Proof.Machine.execFfma pl s
  | .fmin pl => Sys2Proof.Machine.execFmin pl s
  | .fmax pl => Sys2Proof.Machine.execFmax pl s
  | .fsetp pl => Sys2Proof.Machine.execFsetp pl s
  | .fsqrt pl => Sys2Proof.Machine.execFsqrt pl s
  | .fdiv pl => Sys2Proof.Machine.execFdiv pl s
  | .f2i pl => Sys2Proof.Machine.execF2i pl s
  | .i2f pl => Sys2Proof.Machine.execI2f pl s
  | .padd pl => Sys2Proof.Machine.execPadd pl s
  | .pfma pl => Sys2Proof.Machine.execPfma pl s
  | .ld pl fails => Sys2Proof.Machine.execLd pl fails s
  | .ld64 pl fails => Sys2Proof.Machine.execLd64 pl fails s
  | .st pl => Sys2Proof.Machine.execSt pl s
  | .st64 pl => Sys2Proof.Machine.execSt64 pl s
  | .lds pl => Sys2Proof.Machine.execLds pl s
  | .sts pl => Sys2Proof.Machine.execSts pl s
  | .atom pl => Sys2Proof.Machine.execAtom pl s
  | .atoms pl => Sys2Proof.Machine.execAtoms pl s
  | .fence pl => Sys2Proof.Machine.execFence pl s
  | .ldline pl => Sys2Proof.Machine.execLdline pl s
  | .bra pl => Sys2Proof.Machine.execBra pl s
  | .call pl => Sys2Proof.Machine.execCall pl s
  | .ret pl => Sys2Proof.Machine.execRet pl s
  | .exit pl => Sys2Proof.Machine.execExit pl s
  | .brx pl => Sys2Proof.Machine.execBrx pl s
  | .mma pl => Sys2Proof.Machine.execMma pl s
  | .cvt pl => Sys2Proof.Machine.execCvt pl s
  | .ldf pl => Sys2Proof.Machine.execLdf pl s
  | .stf pl => Sys2Proof.Machine.execStf pl s
  | .signal pl => Sys2Proof.Machine.execSignal pl s
  | .waitev pl => Sys2Proof.Machine.execWaitev pl s
  | .bar pl => Sys2Proof.Machine.execBar pl s
  | .getwork pl => Sys2Proof.Machine.execGetwork pl s
  | .gate pl => Sys2Proof.Machine.execGate pl s
  | .ldq pl => Sys2Proof.Machine.execLdq pl s
  | .rng pl => Sys2Proof.Machine.execRng pl s
  | .hitacc pl => Sys2Proof.Machine.execHitacc pl s
  | .nres pl => Sys2Proof.Machine.execNres pl s
  | .ldres pl => Sys2Proof.Machine.execLdres pl s
  | .wrx pl => Sys2Proof.Machine.execWrx pl s
  | .dropres pl => Sys2Proof.Machine.execDropres pl s
  | .emitq pl => Sys2Proof.Machine.execEmitq pl s
  | .setrv pl => Sys2Proof.Machine.execSetrv pl s
  | .s2r pl => Sys2Proof.Machine.execS2r pl s
  | .u2r pl => Sys2Proof.Machine.execU2r pl s
  | .moveToUniform pl => Sys2Proof.Machine.execMoveToUniform pl s
  | .vote pl => Sys2Proof.Machine.execVote pl s
  | .forwardRelease cluster die part => Sys2Proof.Machine.execForwardRelease cluster die part s
  | .forward p => Sys2Proof.Machine.execForward p s
  | .fwdAck p => Sys2Proof.Machine.execFwdAck p s
  | .fwdNack p => Sys2Proof.Machine.execFwdNack p s
  | .forwardResend xfer => Sys2Proof.Machine.execForwardResend xfer s
  | .fwdAckTimeout xfer => Sys2Proof.Machine.execFwdAckTimeout xfer s
  | .fwdReturn p => Sys2Proof.Machine.execFwdReturn p s
  | .retAck p => Sys2Proof.Machine.execRetAck p s
  | .routeDown p => Sys2Proof.Machine.execRouteDown p s
  | .fencePacket p => Sys2Proof.Machine.execFencePacket p s
  | .hello p => Sys2Proof.Machine.execHello p s
  | .packetRelay type p => Sys2Proof.Machine.execPacketRelay type p s
  | .reservedPacket type p => Sys2Proof.Machine.execReservedPacket type p s
  | .linkDown link => Sys2Proof.Machine.execLinkDown link s
  | .linkTrained link repaired => Sys2Proof.Machine.execLinkTrained link repaired s
  | .linkRetrain link data => Sys2Proof.Machine.execLinkRetrain link data s
  | .forwardingResume die => Sys2Proof.Machine.execForwardingResume die s
  | .sliceFault slice => Sys2Proof.Machine.execSliceFault slice s
  | .batchWatchdog slice => Sys2Proof.Machine.execBatchWatchdog slice s
  | .sliceRetireWrite cluster data => Sys2Proof.Machine.execSliceRetireWrite cluster data s
  | .eccCorrected cluster => Sys2Proof.Machine.execEccCorrected cluster s
  | .leadCoreFault core => Sys2Proof.Machine.execLeadCoreFault core s
  | .leadWatchdog core => Sys2Proof.Machine.execLeadWatchdog core s
  | .clusterFault cluster => Sys2Proof.Machine.execClusterFault cluster s
  | .recoveryOverrun => Sys2Proof.Machine.execRecoveryOverrun s
  | .auditCompare query => Sys2Proof.Machine.execAuditCompare query s
  | .auditVote query => Sys2Proof.Machine.execAuditVote query s
  | .sliceReadmit cluster data => Sys2Proof.Machine.execSliceReadmit cluster data s
  | .readmitBistDone slice pass => Sys2Proof.Machine.execReadmitBistDone slice pass s
  | .probationEnd slice => Sys2Proof.Machine.execProbationEnd slice s
  | .sliceAdmission slice => Sys2Proof.Machine.execSliceAdmission slice s
  | .lockCompare dep => Sys2Proof.Machine.execLockCompare dep s
  | .lockVote dep => Sys2Proof.Machine.execLockVote dep s
  | .memAccessFailure port tag write resp => Sys2Proof.Machine.execMemAccessFailure port tag write resp s
  | .memAccessTimeout port tag write => Sys2Proof.Machine.execMemAccessTimeout port tag write s
  | .memAccessRetry port tag write => Sys2Proof.Machine.execMemAccessRetry port tag write s
  | .lateResponse port tag write => Sys2Proof.Machine.execLateResponse port tag write s
  | .journalStallRetry port tag => Sys2Proof.Machine.execJournalStallRetry port tag s
  | .journalFormat part data => Sys2Proof.Machine.execJournalFormat part data s
  | .journalFormatDone part => Sys2Proof.Machine.execJournalFormatDone part s
  | .journalResume part data => Sys2Proof.Machine.execJournalResume part data s
  | .journalDisable part write => Sys2Proof.Machine.execJournalDisable part write s
  | .poolEnable part pool data => Sys2Proof.Machine.execPoolEnable part pool data s
  | .poolDisable part pool write => Sys2Proof.Machine.execPoolDisable part pool write s
  | .l1OwnRequest cluster line => Sys2Proof.Machine.execL1OwnRequest cluster line s
  | .ownGrant cluster line => Sys2Proof.Machine.execOwnGrant cluster line s
  | .recall cluster line => Sys2Proof.Machine.execRecall cluster line s
  | .recallResponse cluster line => Sys2Proof.Machine.execRecallResponse cluster line s
  | .l1Writeback cluster line => Sys2Proof.Machine.execL1Writeback cluster line s
  | .writebackAck cluster line => Sys2Proof.Machine.execWritebackAck cluster line s
  | .homeBankWrite port tag => Sys2Proof.Machine.execHomeBankWrite port tag s
  | .preloadGo cluster data => Sys2Proof.Machine.execPreloadGo cluster data s
  | .preloadUnlock cluster data => Sys2Proof.Machine.execPreloadUnlock cluster data s
  | .mintBuild part fails => Sys2Proof.Machine.execMintBuild part fails s
  | .mintRefit part fails => Sys2Proof.Machine.execMintRefit part fails s
  | .mintDrainEnd => Sys2Proof.Machine.execMintDrainEnd s
  | .mintComplete port tag => Sys2Proof.Machine.execMintComplete port tag s
  | .mintRingEnable part write => Sys2Proof.Machine.execMintRingEnable part write s
  | .mintRingDisable part write => Sys2Proof.Machine.execMintRingDisable part write s
  | .mintTailWrite part aclk data => Sys2Proof.Machine.execMintTailWrite part aclk data s
  | .wclkAck level => Sys2Proof.Machine.execWclkAck level s
  | .vidAck level => Sys2Proof.Machine.execVidAck level s
  | .wclkAckLate => Sys2Proof.Machine.execWclkAckLate s
  | .powerEstimateTick => Sys2Proof.Machine.execPowerEstimateTick s
  | .budgetReleaseTick => Sys2Proof.Machine.execBudgetReleaseTick s
  | .thermalStep readings => Sys2Proof.Machine.execThermalStep readings s
  | .marginSample reports => Sys2Proof.Machine.execMarginSample reports s
  | .fixedModeWrite data => Sys2Proof.Machine.execFixedModeWrite data s
  | .squallBegin slice => Sys2Proof.Machine.execSquallBegin slice s
  | .squallEnd slice => Sys2Proof.Machine.execSquallEnd slice s
  | .squallLogClose => Sys2Proof.Machine.execSquallLogClose s
  | .drizzleStart => Sys2Proof.Machine.execDrizzleStart s
  | .drizzleEnd => Sys2Proof.Machine.execDrizzleEnd s
  | .hintPreRamp index => Sys2Proof.Machine.execHintPreRamp index s
  | .hintTakeoverExpiry index => Sys2Proof.Machine.execHintTakeoverExpiry index s
  | .hintPhaseEnd index => Sys2Proof.Machine.execHintPhaseEnd index s
  | .budgetCapEffective => Sys2Proof.Machine.execBudgetCapEffective s
  | .tbTick => Sys2Proof.Machine.execTbTick s
  | .syncWord w => Sys2Proof.Machine.execSyncWord w s
  | .syncMissed => Sys2Proof.Machine.execSyncMissed s
  | .tbNotick => Sys2Proof.Machine.execTbNotick s
  | .tbWallSetLo data => Sys2Proof.Machine.execTbWallSetLo data s
  | .tbWallSetHi data => Sys2Proof.Machine.execTbWallSetHi data s
  | .tillEnable data => Sys2Proof.Machine.execTillEnable data s
  | .tillBoundaryClose => Sys2Proof.Machine.execTillBoundaryClose s
  | .pairLock part data => Sys2Proof.Machine.execPairLock part data s
  | .fuseBlowDbgKill data => Sys2Proof.Machine.execFuseBlowDbgKill data s
  | .fuseRevokeKey data => Sys2Proof.Machine.execFuseRevokeKey data s
  | .fuseProgramDone => Sys2Proof.Machine.execFuseProgramDone s
  | .counterLowWordRead off => Sys2Proof.Machine.execCounterLowWordRead off s
  | .tbAdvancesOnAclk => Sys2Proof.Machine.execTbAdvancesOnAclk s
  | .gateRecordAck port tag => Sys2Proof.Machine.execGateRecordAck port tag s
  | .preloadComplete cluster => Sys2Proof.Machine.execPreloadComplete cluster s
  | .tapInstruction code => Sys2Proof.Machine.execTapInstruction code s

end Sys2Proof.Machine
end

