-- ==== Sys2Proof/WellFormed.lean ====
section
/-! DEFINITION. Well-formed commands: every operand lies in the range the manual gives it for the largest build (Table
0.2). A command that names a unit beyond the build in hand is well formed and stops with `noSuchUnit`. -/

namespace Sys2Proof

/-- FP0 to FP63 and the payload limit of 4,096 bytes (Table 9.2). -/
def Msg.wf (m : Msg) : Bool := decide (m.port < 64) && decide (m.payload.length ≤ 4096)

/-- DL0 to DL3. -/
def Packet.wf (p : Packet) : Bool := decide (p.link < 4)

/-- S0 to S255, 16 context slots, 32 groups (R16, R205). -/
def Place.wf (p : Place) : Bool := decide (p.slice < 256) && decide (p.slot < 16) && decide (p.group < 32)

def okCluster (c : Nat) : Bool := decide (c < 16)
def okSlice (n : Nat) : Bool := decide (n < 256)
def okPart (p : Nat) : Bool := decide (p < 32)
def okFport (p : Nat) : Bool := decide (p < 64)
def okMport (p : Nat) : Bool := decide (p < 32)
def okLanes (l : Fails) : Bool := l.all fun i => decide (i.1 < 32)

/-- Every operand of the command lies in its range. -/
def Instr.wf : Instr → Bool
  | .coldReset | .porstNDeassert _ | .warmReset | .genCtlWarm _ | .fuseSenseDone | .sfdpDiscovery | .slotSelection
  | .imageAuthentication | .applyImage => true
  | .thermalTrip c n _ => okCluster c && decide (n < 4)
  | .bistDone sl cl => sl.all okSlice && cl.all okCluster
  | .ringScanDone p _ => (match p with | none => true | some q => okPart q)
  | .mportRegisterWrite _ _ _ => true
  | .deposit m | .receiptAck m | .endpointRefuse m | .eventGate m | .eventMintTail m | .hint m | .budget m
  | .treeFence m | .status m | .ident m | .imageWriteErase m | .imageWriteWrite m | .imageWriteVerify m
  | .imageWriteCommit m | .imageWriteConfirm m | .partReloadBegin m | .partReloadEnd m | .captureStart m
  | .captureStop m | .replayStart m | .replayStop m | .malformedFlitSequence _ m _ | .reservedMessage _ m => m.wf
  | .journalWriteAck p _ | .retireRecordAck p _ | .bufferHeaderAck p _ | .lateResponse p _ _ | .memAccessFailure p _ _ _
  | .memAccessTimeout p _ _ | .memAccessRetry p _ _ | .journalStallRetry p _ | .homeBankWrite p _ | .mintComplete p _
  | .gateRecordAck p _ => okMport p
  | .acceptBoundExpiry _ _ _ | .receiptSend _ | .receiptTimeout _ | .imageOpStart | .imageOpDone _ => true
  | .partLoadDone p _ | .captureRecordWrite p _ | .replayInject p | .deadlockKill p => okPart p
  | .egressCreditReturn p c | .ingressCreditReturn p c => okFport p && decide (c < 4)
  | .fabPortEnable p _ => okFport p
  | .streamOpen _ | .streamClose _ | .healthSend | .releaseStampReached _ | .imageHeaderRead _ | .epochReread _
  | .epochMissingTimeout _ => true
  | .queryRecordRead _ n | .boxTestVisit n | .primitiveLeafTest n | .neuralLeafVisit n | .sliceFault n
  | .batchWatchdog n | .readmitBistDone n _ | .probationEnd n | .sliceAdmission n | .squallBegin n | .squallEnd n
  | .kernelLeafLaunch n _ _ | .kernelTaskLaunch _ _ n _ | .gatherExpiry _ _ n _ => okSlice n
  | .nodeQueueReady c _ | .queueRipe c _ | .batchRelease c | .clusterForward c | .forwardRelease c _ _
  | .sliceRetireWrite c _ | .eccCorrected c | .sliceReadmit c _ | .l1OwnRequest c _ | .ownGrant c _
  | .recall c _ | .recallResponse c _ | .l1Writeback c _ | .writebackAck c _ | .preloadGo c _ | .preloadUnlock c _ => okCluster c
  | .clusterFault c | .preloadComplete c => okCluster c.it
  | .spillFill _ | .marchTracking _ | .emitTask _ _ | .reduceTask _ | .deliverTask _ => true
  | .signalDelivery g => (match g with | .hit _ => true | .lead n p _ _ => decide (n < 32) && okPart p)
  | .iadd pl | .isub pl | .imul pl | .imulhi pl | .umulhi pl | .imin pl | .imax pl | .umin pl | .umax pl | .bAnd pl
  | .bOr pl | .bXor pl | .shl pl | .shr pl | .sar pl | .isetp pl | .sel pl | .popc pl | .clz pl | .mov pl | .fadd pl
  | .fmul pl | .ffma pl | .fmin pl | .fmax pl | .fsetp pl | .fsqrt pl | .fdiv pl | .f2i pl | .i2f pl | .padd pl
  | .pfma pl | .lds pl | .sts pl | .atom pl | .atoms pl | .fence pl | .ldline pl | .bra pl
  | .call pl | .ret pl | .exit pl | .brx pl | .mma pl | .cvt pl | .ldf pl | .stf pl | .signal pl | .waitev pl | .bar pl
  | .getwork pl | .gate pl | .ldq pl | .rng pl | .hitacc pl | .nres pl | .ldres pl | .wrx pl | .dropres pl | .emitq pl
  | .setrv pl | .s2r pl | .u2r pl | .moveToUniform pl | .vote pl => pl.wf
  | .ld pl f | .ld64 pl f => pl.wf && okLanes f
  | .st pl | .st64 pl => pl.it.wf && okLanes pl.fails
  | .forward p | .fwdAck p | .fwdNack p | .fwdReturn p | .retAck p | .routeDown p | .fencePacket p | .hello p
  | .packetRelay _ p | .reservedPacket _ p => p.wf
  | .forwardResend _ | .fwdAckTimeout _ => true
  | .linkDown l | .linkTrained l _ | .linkRetrain l _ => decide (l < 4)
  | .forwardingResume d => decide (d < 128)
  | .leadCoreFault n | .leadWatchdog n => decide (n < 32)
  | .recoveryOverrun | .auditCompare _ | .auditVote _ | .lockCompare _ | .lockVote _ => true
  | .journalFormat p _ | .journalFormatDone p | .journalResume p _ | .journalDisable p _ | .mintBuild p _ | .mintRefit p _
  | .mintRingEnable p _ | .mintRingDisable p _ | .mintTailWrite p _ _ | .pairLock p _ => okPart p
  | .poolEnable p n _ | .poolDisable p n _ => okPart p && decide (n < 16)
  | .mintDrainEnd => true
  | .wclkAck _ | .vidAck _ | .wclkAckLate | .powerEstimateTick | .budgetReleaseTick | .fixedModeWrite _
  | .squallLogClose | .drizzleStart | .drizzleEnd | .hintPreRamp _ | .hintTakeoverExpiry _ | .hintPhaseEnd _
  | .budgetCapEffective | .tbTick | .syncWord _ | .syncMissed | .tbNotick | .tbWallSetLo _ | .tbWallSetHi _
  | .tillEnable _ | .tillBoundaryClose | .fuseBlowDbgKill _ | .fuseRevokeKey _ | .fuseProgramDone
  | .counterLowWordRead _ | .tbAdvancesOnAclk | .tapInstruction _ => true
  | .thermalStep rs => rs.all fun r => decide (r.1 < 64)
  | .marginSample rs => rs.all fun r => okSlice r.1

end Sys2Proof
end

