-- ==== Sys2Proof/Safety.lean ====
section
/-! DEFINITION. What claims use: a safe run, and the invariant of every reachable state. -/

namespace Sys2Proof.Machine

open Sys2Proof

/-- The builds of Table 0.2: 1, 4 or 16 clusters, with at most 1, 2 or 4 die links, and tree pseudo-LRU only in LW4-256
(R3, R7). -/
def Build.legal (b : Build) : Bool :=
  (b.clusters == 1 && decide (b.dlinks ≤ 1) && !b.plru) || (b.clusters == 4 && decide (b.dlinks ≤ 2) && !b.plru) ||
    (b.clusters == 16 && decide (b.dlinks ≤ 4) && b.plru)

/-- A state claims may start from: a legal build and memory in its canonical form. -/
def State.inv (s : State) : Bool := s.build.legal && s.mem.wf

/-- The messages that have left the engine or wait on an egress queue. -/
def State.out (s : State) : List OutMsg := s.fab.sent ++ s.fab.egressQ.map (·.1)

/-- The ACCEPT and the REFUSE that answer a message of a type (R256, R261). -/
def acceptOf (m : Msg) (dup : Bool) : OutMsg :=
  { port := m.port, cls := 2, type := 2, flags := if dup then 2 else 0, stream := m.stream, sgen := m.sgen, seq := m.seq
    peer := m.peer, payload := [] }
def refuseOf (m : Msg) (type : Byte) (reason check retry : Nat) : OutMsg :=
  { port := m.port, cls := 2, type := 3, flags := 0, stream := m.stream, sgen := m.sgen, seq := m.seq, peer := m.peer
    payload := [BitVec.ofNat 8 reason, type] ++ leBytes 2 check ++ leBytes 4 retry }

/-- A message other than STATUS, IDENT and the two acknowledgements passes checks 1 to 6 of Table 9.8 and loses no
arbitration; `right` is the bit of RIGHTS its type needs. Check 7 is that of its type. -/
def State.admits (s : State) (type : Byte) (right : Nat) (m : Msg) : Prop :=
  let t := s.strm m.stream.toNat
  m.port < s.nfports ∧ s.portTakes m.port = true ∧ s.boot.phase = .opened ∧ wellSized type m = true ∧ isAckType type = false ∧
    anyState type = false ∧ t.en = true ∧ t.closing = false ∧ t.lastAcc ≠ 0xFFFFFFFF ∧ m.sgen = t.gen ∧ t.port.toNat = m.port ∧
    t.rights.getLsbD right = true ∧ (t.anysrc = true ∨ t.owner.toNat = m.peer.toNat % 2 ^ 20) ∧
    (s.part t.part.toNat).lockEn = false ∧ s.reloading t.part.toNat type = false ∧
    ∀ b ∈ s.rivals m, s.fares (type, m) b ≠ some false

/-- What taking and answering a message may change whatever its effect: its flits and their credits, the messages of its
pclk, egress and its counts, the records a capture keeps, the activity count, free values. -/
def State.took (s : State) (m : Msg) (t : State) : Prop :=
  t = { s with ports := t.ports, fab := t.fab, parts := t.parts, pwr := t.pwr, free := t.free } ∧
    t.fab = { s.fab with arbPclk := t.fab.arbPclk, arbTaken := t.fab.arbTaken, egressQ := t.fab.egressQ, sent := t.fab.sent
                         flitsOut := t.fab.flitsOut, refuses := t.fab.refuses } ∧
    (∀ n, n ≠ m.port → t.port n = s.port n) ∧ (∀ p, t.part p = { s.part p with cap := (t.part p).cap }) ∧
    t.pwr = { s.pwr with activity := t.pwr.activity }

/-! ## Instructions -/

/-- A thread that issues at a pc, and its count of issued instructions after it (R186, R197). -/
def Thread.holds (t : Thread) (pc : BitVec 15) : Bool := t.ready && t.pc == pc
def Thread.counted (t : Thread) : Thread := { t with issued := min (2 ^ 32 - 1) (t.issued + 1) }

/-- The next instruction of a group issues as operation `op` of class `cls`: the core runs, its partition is not isolated, an
issue slot takes the instruction in this wclk, the word is listed, its register fields are legal, and no thread is over its
budget (R191, R197, R205, R217, R396). -/
def State.issues (s : State) (pl : Place) (cls op : Nat) (u : Uses) (c : Ctx) (g : Group) (pc : BitVec 15) (i : Ins) : Prop :=
  pl.slice < s.nslices ∧ s.coreRuns pl.slice = true ∧ s.bordered c.part = false ∧ s.ctx? pl.slice pl.slot = some c ∧
    c.groups[pl.group]? = some g ∧ s.nextPc c g = some pc ∧ s.code c pc = some i ∧ s.issueSlot pl i ≠ none ∧
    i.listed = true ∧ i.cls = cls ∧ i.op = op ∧ u.legal (s.kernelOf c).nreg i = true ∧
    ((s.cluster (clusterOf pl.slice)).ibudget = 0 ∨
      ∀ t ∈ g.threads, t.holds pc = true → t.issued < (s.cluster (clusterOf pl.slice)).ibudget.toNat) ∧
    ∀ q ∈ s.queries, q.uid < s.nextUid

/-- The slices after an issue: the core's slot is taken for this wclk, nothing else of them changes (R197, R205). -/
def State.slotted (s : State) (pl : Place) (c : Ctx) (i : Ins) (v : NMap Slice) : Prop :=
  ∀ a, s.issueSlot pl i = some a → v = (s.takeSlot pl c a).slices

/-- The context of a place has changed to `c`, with group `g` in the place's; no other context has changed. -/
def State.movedOn (s t : State) (pl : Place) (c : Ctx) (g : Group) : Prop :=
  t.ctx? pl.slice pl.slot = some { c with groups := c.groups.set pl.group g, blockedAt := none } ∧
    ∀ a b, a ≠ pl.slice ∨ b ≠ pl.slot → t.ctx? a b = s.ctx? a b

/-- What a thread of a group becomes: one that does not hold the pc is unchanged, one whose guard fails only moves on, any
other is as `rel` says (R191, R197). -/
def Group.ran (g g' : Group) (pc : BitVec 15) (i : Ins) (rel : Nat → Thread → Thread → Prop) : Prop :=
  g'.threads.length = g.threads.length ∧
    ∀ l th, g.threads[l]? = some th →
      ∃ th', g'.threads[l]? = some th' ∧ (th.holds pc = false → th' = th) ∧
        (th.holds pc = true → th.guard i = false → th' = th.counted.step) ∧
        (th.holds pc = true → th.guard i = true → rel l th.counted th')

/-- An instruction that changes nothing but the threads that execute it (and the slot it takes, and counts of activity). -/
def LaneOp (mk : Place → Instr) (cls op : Nat) (u : Uses) (fits : State → Place → Ins → Thread → Prop)
    (rel : State → Place → Group → Ins → Nat → Thread → Thread → Prop) : Prop :=
  ∀ (s : State) (pl : Place) (c : Ctx) (g : Group) (pc : BitVec 15) (i : Ins), s.issues pl cls op u c g pc i →
    (∀ th ∈ g.threads, th.holds pc = true → th.guard i = true → fits s pl i th) →
    ∃ t g', exec (mk pl) s = .next t ∧ s.movedOn t pl c g' ∧ g'.uregs = g.uregs ∧ g.ran g' pc i (rel s pl g i) ∧
      s.slotted pl c i t.slices ∧ t = { s with ctxs := t.ctxs, slices := t.slices, pwr := { s.pwr with activity := t.pwr.activity } }

/-- A register operation: each executing thread writes a word to DST. -/
def RegOp (mk : Place → Instr) (cls op : Nat) (u : Uses) (f : Ins → Thread → Word) : Prop :=
  LaneOp mk cls op u (fun _ _ _ _ => True) fun _ _ _ i _ t t' => t' = (t.put i.dst (f i t)).step

/-- The threads of a group that execute the instruction at a pc. -/
def Group.acting (g : Group) (pc : BitVec 15) (i : Ins) : List Thread := g.threads.filter fun t => t.holds pc && t.guard i

/-- A step goes on: it neither faults nor refuses. -/
def State.safe (s : State) : Prop := ∃ t, step s = .next t

end Sys2Proof.Machine
end

