-- ==== Sys2Proof/Certificates/Slice0/Obligations.lean ====
section
/-! DEFINITION. The statements about the model: what each family of commands does to the state, where it completes, and what it
leaves alone. -/

open Sys2Proof Sys2Proof.Machine

/-! ## The machine as a whole -/

/-- A step takes the command at the front of the queue and runs it with the rest of the queue. Where the manual leaves room it
follows the model's own choices, log 6. -/
def Obligations.StepRunsFrontCommand : Prop :=
  ∀ (c : Instr) (rest : List Instr) (s : State), step { s with pending := c :: rest } = exec c { s with pending := rest }

/-- A legal build and memory in its canonical form are kept by every step, and the queue loses exactly its front. Where the
manual leaves room it follows the model's own choices, log 2, 3. -/
def Obligations.StepKeepsInvariant : Prop :=
  ∀ s t : State, s.inv = true → step s = .next t → t.inv = true ∧ t.build = s.build ∧ t.pending = s.pending.tail

/-- The invariant holds when PORST_N is first held low. Where the manual leaves room it follows the model's own choices, log
2, 3. -/
def Obligations.ResetHoldsInvariant : Prop :=
  State.reset.inv = true

/-- What reset leaves, by the reset columns of Tables 5.8, 5.13, 8.1, 8.2, 9.5, 10.10, 11.7, 12.6, 12.7, 13.11 and 14.1: the
registers of every instance of a repeated block as the rules give them. -/
def Obligations.ResetRegisterValues : Prop :=
  let s := State.reset
  s.boot.porst = true ∧ s.boot.phase = .fuse ∧ s.boot.failcode = 0 ∧ s.tbu.tb = 0 ∧ s.tbu.lock = false ∧ s.tbu.wall = 0 ∧
    s.tbu.slips = 0 ∧ s.tbu.missed = 0 ∧ s.pwr.fixed = false ∧ s.pwr.fmax = 84 ∧ s.pwr.cap = 0xFFFFFFFF ∧
    s.pwr.bcap = 0xFFFFFFFF ∧ s.pwr.target = 100 ∧ s.pwr.slope = 20 ∧ s.pwr.floor = 60 ∧ s.pwr.lead = 20 ∧
    s.pwr.energy = 0 ∧ s.pwr.tlogHead = 0 ∧ s.ilv = 12 ∧ s.tillCtl.en = false ∧ s.tillCtl.period = 3600 ∧
    (∀ p, (s.part p).st = .empty ∧ (s.part p).jrnl.en = false ∧ (s.part p).mring.en = false ∧ (s.part p).lockEn = false ∧
      ∀ n, ((s.part p).pool n).en = false ∧ ((s.part p).win n).en = false) ∧
    (∀ n, (s.port n).en = false) ∧ (∀ n, (s.mport n).en = false) ∧ (∀ n, (s.strm n).en = false) ∧
    (∀ m, (s.cluster m).age = 256 ∧ (s.cluster m).visitMax = 25 ∧ (s.cluster m).fwdLow = 25 ∧ (s.cluster m).fwdHigh = 75 ∧
      (s.cluster m).holdCred = 7168 ∧ (s.cluster m).stopPull = 6144 ∧ (s.cluster m).auditRate = 12)

/-! ## Time base, wall clock and till -/

/-- TB_TICK, TB_NOTICK and TB_ADVANCES_ON_ACLK (R362 to R364, R366, R429): a tick adds 8 ns to TB, or 4 ns while the unit
slews, until the reference TB is reached; without ticks TB adds 10 ns per aclk cycle; the wall clock follows TB; nothing but
the time base, elapsed time, the times of throttle reasons, the till's busy counts and the slices' marks of being busy changes. The first sync word loads TB
whatever its value, and brings an engine that waits in SYNC with no deposit to replay to OPEN; a missed word is counted, and
the first of them reported (R362, R364, R373). On an empty queue one wclk cycle elapses and nothing else changes (the model's
own choice, log 4). Where the manual leaves room it follows the model's own choices, log 56. -/
def Obligations.TimeBaseTicksAndFirstWord : Prop :=
  (∀ s : State, s.boot.porst = false → s.tbu.slew = none →
    ∃ t, exec .tbTick s = .next t ∧ t.tbu.tb = s.tbu.tb + 8 ∧ t.tbu.wall = s.tbu.wall + 8 ∧ t.tbu.lock = s.tbu.lock ∧
      t.elapsed = s.elapsed + 8 ∧
      (∀ p, t.part p = { s.part p with till := (t.part p).till }) ∧
      (∀ n, t.slice n = { s.slice n with busy := (t.slice n).busy, idleAt := (t.slice n).idleAt }) ∧
      t = { s with tbu := t.tbu, elapsed := t.elapsed, parts := t.parts, slices := t.slices
                   pwr := { s.pwr with tcum := t.pwr.tcum } }) ∧
  (∀ (s : State) (r : Dword), s.boot.porst = false → s.tbu.slew = some r → r.toNat + 8 < 2 ^ 64 → s.tbu.tb.toNat + 4 < 2 ^ 64 →
    ∃ t, exec .tbTick s = .next t ∧ t.elapsed = s.elapsed + 8 ∧
      (r.toNat + 8 < s.tbu.tb.toNat + 4 → t.tbu.tb = s.tbu.tb + 4 ∧ t.tbu.slew = some (r + 8)) ∧
      (s.tbu.tb.toNat + 4 ≤ r.toNat + 8 → t.tbu.tb = r + 8 ∧ t.tbu.slew = none)) ∧
  (∀ s : State, s.boot.porst = false → s.tbu.notick = false →
    exec .tbNotick s = .next { s with
      tbu := { s.tbu with notick := true, ticksBack := false }
      fab := (s.health 0x0105 0 0xFF 2 (leBytes 8 s.tbu.tb.toNat)).fab }) ∧
  (∀ s : State, s.boot.porst = false → s.tbu.notick = true → s.tbu.ticksBack = false →
    ∃ t, exec .tbAdvancesOnAclk s = .next t ∧ t.tbu = { s.tbu with tb := s.tbu.tb + 10, wall := s.tbu.wall + 10 } ∧
      t.elapsed = s.elapsed + 10 ∧
      (∀ n, t.slice n = { s.slice n with busy := (t.slice n).busy, idleAt := (t.slice n).idleAt }) ∧
      t = { s with tbu := t.tbu, elapsed := t.elapsed, slices := t.slices, pwr := { s.pwr with tcum := t.pwr.tcum } }) ∧
  (∀ (s : State) (w : Dword), s.boot.porst = false → s.boot.phase ≠ .sync → s.tbu.taken = false →
    ∃ t, exec (.syncWord w) s = .next t ∧ t.tbu.tb = w ∧ t.tbu.lock = true ∧ t.tbu.taken = true ∧ t.tbu.notick = false ∧
      t.tbu.window = some s.elapsed ∧ t = { s with tbu := t.tbu }) ∧
  (∀ (s : State) (w : Nat), s.tbu.window = some w → w + 1000064 ≤ s.elapsed →
    ∃ t, exec .syncMissed s = .next t ∧ t.tbu.missed = satInc s.tbu.missed 1 ∧ t.tbu.window = some (w + 1000064) ∧
      t.tbu.tb = s.tbu.tb ∧ t = { s with tbu := t.tbu, fab := t.fab } ∧
      t.fab = if s.tbu.missRaised then s.fab else (s.health 0x0104 0 0xFF 1 (leBytes 8 s.tbu.lastGood.toNat)).fab) ∧
  (∀ (s : State) (w : Dword), s.boot.porst = false → s.boot.phase = .sync → s.tbu.taken = false → s.deps = [] →
    ∃ t, exec (.syncWord w) s = .next t ∧ t.boot = { s.boot with phase := .opened, openedOnce := true, warmUp := false } ∧
      t.tbu.tb = w ∧ t.tbu.lock = true ∧ t = { s with boot := t.boot, tbu := t.tbu, pwr := t.pwr }) ∧
  (∀ s : State, s.pending = [] → step s = .next { s with wclk := s.wclk + 1 })

/-- R363: a later sync word off the 1 ms grid, or more than 65,536 ns behind TB, is a fault, which clears LOCK; an equal one
changes nothing; one ahead steps TB and is counted; one behind has TB slew at 4 ns a tick until it meets the word plus 8 ns a
tick, SLEW reading 1; without LOCK only a word on the grid at or above TB is taken, and sets LOCK again. -/
def Obligations.SyncWords : Prop :=
  (∀ (s : State) (w : Dword), s.boot.porst = false → s.boot.phase ≠ .sync → s.tbu.taken = true →
    (s.tbu.lock = true →
      (w.toNat % 1000000 ≠ 0 ∨ w.toNat + 65536 < s.tbu.tb.toNat →
        ∃ t, exec (.syncWord w) s = .next t ∧ t.tbu.tb = s.tbu.tb ∧ t.tbu.fault = true ∧ t.tbu.lock = false ∧ t.tbu.slew = none ∧
          t.tbu.slips = s.tbu.slips ∧ t.tbu.lastGood = s.tbu.lastGood ∧ t = { s with tbu := t.tbu, fab := t.fab } ∧
          (s.fab.hq.length < 64 → ∃ h, t.fab = { s.fab with hq := s.fab.hq ++ [h] } ∧ h.code = 0x0103 ∧ h.severity = 2)) ∧
      (w.toNat % 1000000 = 0 → w = s.tbu.tb →
        ∃ t, exec (.syncWord w) s = .next t ∧ t.tbu.tb = s.tbu.tb ∧ t.tbu.lock = true ∧ t.tbu.slew = s.tbu.slew ∧
          t.tbu.slips = s.tbu.slips ∧ t.tbu.fault = s.tbu.fault ∧ t.tbu.lastGood = w ∧ t = { s with tbu := t.tbu }) ∧
      (w.toNat % 1000000 = 0 → s.tbu.tb.toNat < w.toNat →
        ∃ t, exec (.syncWord w) s = .next t ∧ t.tbu.tb = w ∧ t.tbu.lock = true ∧ t.tbu.slew = none ∧
          t.tbu.slips = satInc s.tbu.slips 1 ∧ t.tbu.lastGood = w ∧
          (s.fab.hq.length < 64 → ∃ h, t.fab = { s.fab with hq := s.fab.hq ++ [h] } ∧ h.code = 0x0102 ∧ h.severity = 1) ∧
          t = { s with tbu := t.tbu, fab := t.fab }) ∧
      (w.toNat % 1000000 = 0 → w.toNat < s.tbu.tb.toNat → s.tbu.tb.toNat ≤ w.toNat + 65536 →
        ∃ t, exec (.syncWord w) s = .next t ∧ t.tbu.tb = s.tbu.tb ∧ t.tbu.slew = some w ∧ t.tbu.lock = true ∧
          t.tbu.slips = s.tbu.slips ∧ t.tbu.lastGood = w ∧ t = { s with tbu := t.tbu })) ∧
    (s.tbu.lock = false →
      (w.toNat % 1000000 = 0 → s.tbu.tb.toNat ≤ w.toNat →
        ∃ t, exec (.syncWord w) s = .next t ∧ t.tbu.tb = w ∧ t.tbu.lock = true ∧ t.tbu.lastGood = w ∧ t = { s with tbu := t.tbu }) ∧
      (w.toNat % 1000000 ≠ 0 ∨ w.toNat < s.tbu.tb.toNat →
        ∃ t, exec (.syncWord w) s = .next t ∧ t.tbu.tb = s.tbu.tb ∧ t.tbu.lock = false ∧ t.tbu.lastGood = s.tbu.lastGood ∧
          t.tbu.slew = s.tbu.slew ∧ t = { s with tbu := t.tbu }))) ∧
  (∀ s : State, s.boot.porst = false → s.tbu.slew = none → ∃ t, exec .tbTick s = .next t ∧ t.tbu.tb = s.tbu.tb + 8) ∧
  (∀ (s : State) (r : Dword), s.boot.porst = false → s.tbu.slew = some r → r.toNat + 8 < 2 ^ 64 → s.tbu.tb.toNat + 4 < 2 ^ 64 →
    ∃ t, exec .tbTick s = .next t ∧
      (r.toNat + 8 < s.tbu.tb.toNat + 4 → t.tbu.tb = s.tbu.tb + 4 ∧ t.tbu.slew = some (r + 8)) ∧
      (s.tbu.tb.toNat + 4 ≤ r.toNat + 8 → t.tbu.tb = r + 8 ∧ t.tbu.slew = none)) ∧
  (∀ s : State, s.isOpen = true → (s.mportRead 0x010008).getLsbD 2 = s.tbu.slew.isSome)

/-- Wall clock and till (R366, R417, R418): the low word is staged, the high word sets the wall clock; an open interval notes
which way it was set and by how much; TIL_CTL.EN 1 opens an interval for every partition at the present TB. Where the manual
leaves room it follows the model's own choices, log 40, 56. -/
def Obligations.WallClockAndTill : Prop :=
  (∀ (s : State) (d : Word), s.isOpen = true → exec (.tbWallSetLo d) s = .next { s with tbu := { s.tbu with staged := d } }) ∧
  (∀ (s : State) (d : Word), s.isOpen = true →
    ∃ t, exec (.tbWallSetHi d) s = .next t ∧ t.tbu = { s.tbu with wall := BitVec.ofNat 64 (d.toNat * 2 ^ 32 + s.tbu.staged.toNat) } ∧
      t = { s with tbu := t.tbu, parts := t.parts, fab := t.fab } ∧
      ∀ p, p < 32 → ∀ i, (s.part p).till = some i →
        ∃ j, (t.part p).till = some j ∧ j.start = i.start ∧
          (t.tbu.wall.toNat < s.tbu.wall.toNat → j.back = true) ∧ (s.tbu.wall.toNat < t.tbu.wall.toNat → j.fwd = true) ∧
          j.step = i.step + (t.tbu.wall - s.tbu.wall)) ∧
  (∀ (s : State) (d : Word), s.isOpen = true → d.getLsbD 0 = true → s.tillCtl.en = false →
    ∃ t, exec (.tillEnable d) s = .next t ∧ t.tillCtl.en = true ∧ t.tillCtl.irqEn = d.getLsbD 1 ∧
      t.tillCtl.period = s.tillCtl.period ∧ t = { s with parts := t.parts, tillCtl := t.tillCtl } ∧
      ∀ p, p < 32 → (t.part p).till = some { start := s.tbu.tb } ∧ (t.part p).snap.seq = 0 ∧ (t.part p).wins = (s.part p).wins)

/-- R419: when the wall clock has passed a boundary, each open interval closes into the snapshot of its partition, VALID,
which carries MISSED when the one before was not acknowledged; a write of 1 to VALID acknowledges; a close raises IRQ while
IRQ_EN is 1. -/
def Obligations.TillSnapshots : Prop :=
  (∀ (s : State), s.tillCtl.en = true → s.tillCtl.next ≤ s.tbu.wall.toNat →
    ∃ t, exec .tillBoundaryClose s = .next t ∧ t = { s with parts := t.parts, tillCtl := { s.tillCtl with bhi := t.tillCtl.bhi } } ∧
      t.tillCtl.bhi.toNat = s.tbu.wall.toNat / s.tillCtl.ns * s.tillCtl.ns ∧
      (∀ p, p < 32 → ∀ i, (s.part p).till = some i →
        (t.part p).till = some { start := s.tbu.tb } ∧
        (t.part p).snap = { seq := (s.part p).snap.seq + 1, valid := true, skipped := (t.part p).snap.skipped
                            missed := (s.part p).snap.valid, reset := i.reset, fwd := i.fwd, back := i.back, start := i.start
                            stop := s.tbu.tb, bound := t.tillCtl.bhi, queries := i.queries, visits := i.visits, busy := i.busy
                            step := i.step }) ∧
      (s.tillCtl.irqEn = true → s.boot.openedOnce = true → (∃ p i, p < 32 ∧ (s.part p).till = some i) → t.irq = true)) ∧
  (∀ (s : State) (a p : Nat) (d : Word), s.isOpen = true → p < 32 → d.getLsbD 31 = true →
    ∃ t, exec (.mportRegisterWrite a (BitVec.ofNat 24 (0x098104 + 0x80 * p)) d) s = .next t ∧ t = { s with parts := t.parts } ∧
      ∀ q, t.part q = if q = p then { s.part p with snap := { (s.part p).snap with valid := false } } else s.part q)

/-! ## Power -/

/-- WCLK_ACK and VID_ACK bring the requested code and voltage into force and leave the other as it was; a handshake older than
2 µs without its acknowledgement is reported, and reason CLK_WAIT is active (R340, R355). Only the power controller and the
HEALTH queue change. The estimate of each µs enters P10 and the energy count, whose remainder is carried; while P10 exceeds Ce
and no handshake is pending the budget position moves one step, a step that lowers the wclk code only once no handshake is
pending any more; every 10 µs it moves back while P10 ≤ 0.9 × Ce (R349, R352).
Where the manual leaves room it follows the model's own choices, log 10, 43, 66. -/
def Obligations.PowerHandshakesAndTicks : Prop :=
  ((∀ (s : State) (level : Bool), s.pwr.shake = .clk → level = s.pwr.wclkReq →
    ∃ t, exec (.wclkAck level) s = .next t ∧ t.pwr.code = s.pwr.reqCode ∧ t.pwr.wclkAck = level ∧ t.pwr.vid = s.pwr.vid ∧
      t = { s with pwr := t.pwr }) ∧
  (∀ (s : State) (level : Bool), s.pwr.shake = .vidUp ∨ s.pwr.shake = .vidDown → level = s.pwr.vidReq →
    ∃ t, exec (.vidAck level) s = .next t ∧ t.pwr.vid = s.pwr.reqVid ∧ t.pwr.vidAck = level ∧ t.pwr.code = s.pwr.code ∧
      t = { s with pwr := t.pwr }) ∧
  (∀ s : State, s.pwr.shake ≠ .idle → s.pwr.shakeLate = false → s.pwr.shakeStart + 2000 < s.elapsed →
    ∃ t, exec .wclkAckLate s = .next t ∧ t.pwr.shakeLate = true ∧ t.reason 7 = true ∧ t.pwr.shake = s.pwr.shake ∧
      t.fab = (s.health 0x0106 0 0xFF 2 [BitVec.ofNat 8 s.pwr.reqCode.toNat, s.pwr.reqVid, if s.pwr.shake = .clk then 1 else 2]).fab ∧
      t = { s with pwr := t.pwr, fab := t.fab }) ∧
  (∀ (s : State) (c : Word) (at' : Dword), s.pwr.pendCap = some (c, at') → at'.toNat ≤ s.tbu.tb.toNat →
    exec .budgetCapEffective s = .next { s with pwr := { s.pwr with bcap := c, pendCap := none } })) ∧
  ((∀ s : State, s.powered = true → s.pwr.estAt + 1000 ≤ s.elapsed →
    ∃ t, exec .powerEstimateTick s = .next t ∧ t.pwr.ests = (s.pwr.ests ++ [s.estimate]).drop (s.pwr.ests.length + 1 - 10) ∧
      t.pwr.energy = s.pwr.energy + BitVec.ofNat 64 ((s.pwr.energyRem + s.estimate) / 8) ∧
      t.pwr.energyRem = (s.pwr.energyRem + s.estimate) % 8 ∧ t.pwr.estAt = s.elapsed ∧
      (t.p10 ≤ s.ce → t.pwr.budgetPos = s.pwr.budgetPos) ∧
      (s.ce < t.p10 → s.pwr.shake = .idle → clockStep (s.stepDown s.pwr.budgetPos) = false ∨ t.pwr.shake = .idle →
        t.pwr.budgetPos = s.stepDown s.pwr.budgetPos) ∧
      (s.ce < t.p10 → s.pwr.shake = .idle → clockStep (s.stepDown s.pwr.budgetPos) = true → t.pwr.shake ≠ .idle →
        t.pwr.budgetPos = s.pwr.budgetPos ∧ t.pwr.budgetNext = some (s.stepDown s.pwr.budgetPos)) ∧
      (s.pwr.shake ≠ .idle → t.pwr.budgetPos = s.pwr.budgetPos) ∧ t = { s with pwr := t.pwr, fab := t.fab }) ∧
  (∀ s : State, s.powered = true → s.pwr.relAt + 10000 ≤ s.elapsed →
    ∃ t, exec .budgetReleaseTick s = .next t ∧ t.pwr.relAt = s.elapsed ∧ t = { s with pwr := t.pwr } ∧
      t.pwr.budgetPos = if 10 * s.p10 ≤ 9 * s.ce then s.stepBack s.pwr.budgetPos else s.pwr.budgetPos) ∧
  (∀ (s : State) (n : Nat) (p : Nat), s.stepDown n ≤ max n 31 ∧ s.stepBack p ≤ max p 31))

/-- A sensor at 125 °C stops the engine and leaves the rest of it standing; below it the reading is recorded; over TARGET the
thermal position moves one step every 10 µs, 2 °C below it moves back every 100 µs (R347, R348). A margin sample never lowers
TRIM and changes nothing but the power controller; a write of FIXED and FMAX_CODE sets them (R342, R343). Where the manual
leaves room it follows the model's own choices, log 43. -/
def Obligations.ThermalMarginAndFixedMode : Prop :=
  ((∀ (s : State) (m j : Nat) (r : Byte), m < s.nclusters → j < 4 → 165 ≤ r.toNat → s.boot.porst = false →
    ∃ t, exec (.thermalTrip m j r) s = .next t ∧ t.boot = { s.boot with phase := .tripped } ∧
      NMap.get 0 t.pwr.sensors (4 * m + j) = r ∧ t = { s with boot := t.boot, pwr := t.pwr }) ∧
  (∀ (s : State) (n : Nat) (r : Byte), n < 4 * s.nclusters → r.toNat < 165 → s.powered = true →
    ∃ t, exec (.thermalStep [(n, r)]) s = .next t ∧ NMap.get 0 t.pwr.sensors n = r ∧ t.boot = s.boot ∧ t = { s with pwr := t.pwr } ∧
      (s.pwr.targetReading < t.hot → s.pwr.thermAt + 10000 ≤ s.elapsed →
        t.pwr.thermPos = s.stepDown s.pwr.thermPos ∧ t.pwr.thermAt = s.elapsed) ∧
      (t.hot + 2 ≤ s.pwr.targetReading → s.pwr.thermAt + 100000 ≤ s.elapsed →
        t.pwr.thermPos = s.stepBack s.pwr.thermPos ∧ t.pwr.thermAt = s.elapsed) ∧
      (s.elapsed < s.pwr.thermAt + 10000 → t.pwr.thermPos = s.pwr.thermPos))) ∧
  ((∀ (s : State) (rs : List (Nat × Byte)), s.powered = true → s.pwr.marginMs < s.tbu.tb.toNat / 1000000 →
    ∃ t, exec (.marginSample rs) s = .next t ∧ s.pwr.trim.toNat ≤ t.pwr.trim.toNat ∧ t = { s with pwr := t.pwr } ∧
      t.pwr.marginMs = s.tbu.tb.toNat / 1000000 ∧
      ∀ n v, (n, v) ∈ rs → n < s.nslices → (s.slice n).st = .admitted → v.toNat ≤ t.pwr.trim.toNat) ∧
  (∀ (s : State) (d : Word), s.isOpen = true →
    ∃ t, exec (.fixedModeWrite d) s = .next t ∧ t.pwr.fixed = d.getLsbD 8 ∧ t.pwr.fmax = d.setWidth 7 ∧ t.pwr.code = s.pwr.code ∧
      t = { s with pwr := t.pwr }))

/-- R346: a squall stretches its slice, increments PWR_SQ of its cluster and drives SAG_N low for its duration; reason SQUALL
is active from the first stretch, under one log entry, until 1 µs has passed with no slice stretched. -/
def Obligations.Squalls : Prop :=
  (∀ (s : State) (n : Nat), n < s.nslices → s.powered = true → (s.slice n).stretched = false →
    ∃ t, exec (.squallBegin n) s = .next t ∧ t.slice n = { s.slice n with stretched := true, stretchedAt := s.wclk } ∧
      (∀ k, k ≠ n → t.slice k = s.slice k) ∧ t.sagN (n / 16) = false ∧
      NMap.get 0 t.pwr.sq (n / 16) = satInc (NMap.get 0 s.pwr.sq (n / 16)) 1 ∧
      (∀ m, m ≠ n / 16 → NMap.get 0 t.pwr.sq m = NMap.get 0 s.pwr.sq m) ∧ t.reason 3 = true ∧
      (s.reason 3 = true → NMap.get 0 t.pwr.active 3 = NMap.get 0 s.pwr.active 3) ∧
      t = { s with slices := t.slices, pwr := t.pwr }) ∧
  (∀ (s : State) (n : Nat), n < s.nslices → (s.slice n).stretched = true → (s.slice n).stretchedAt + 256 ≤ s.wclk →
    ∃ t, exec (.squallEnd n) s = .next t ∧ t.slice n = { s.slice n with stretched := false } ∧ (∀ k, k ≠ n → t.slice k = s.slice k) ∧
      ((∀ k, k ≠ n → k / 16 = n / 16 → (s.slice k).stretched = false) → t.sagN (n / 16) = true) ∧
      t.pwr = { s.pwr with lastStretch := s.elapsed } ∧ t = { s with slices := t.slices, pwr := t.pwr }) ∧
  (∀ s : State, s.reason 3 = true →
    ((∀ e ∈ s.slices, e.2.stretched = false) → s.pwr.lastStretch + 1000 ≤ s.elapsed →
      ∃ t, exec .squallLogClose s = .next t ∧ t.reason 3 = false ∧ t = { s with pwr := t.pwr }) ∧
    ((∃ e ∈ s.slices, e.2.stretched = true) ∨ s.elapsed < s.pwr.lastStretch + 1000 → exec .squallLogClose s = .next s))

/-- Drizzle starts from P10 at FLOOR % once more than A / 2 slices have passed from busy to idle within 1 µs, is counted, and ends
once its floor has reached the power without drizzle; a pre-ramp of a hint starts at the last estimate, at most at its target,
and aims at the smaller of the hint's level and Ce; 2 µs after the phase start it ends, and where the power without drizzle is
below its target a floor falls from there; the end of the phase drops the hint (R358, R359). Where the manual leaves room it
follows the model's own choices, log 43, 92. -/
def Obligations.DrizzleAndHints : Prop :=
  (∀ s : State, s.powered = true → s.pwr.floor ≠ 0 → s.idleRush = true →
    ∃ t, exec .drizzleStart s = .next t ∧ t.pwr = { s.pwr with
        drizzle := some { p0 := s.p10, start := s.elapsed, floorPm := 10 * min 100 s.pwr.floor.toNat }
        drzCount := satInc s.pwr.drzCount 1 } ∧
      (∀ n, t.slice n = { s.slice n with busy := (t.slice n).busy, idleAt := (t.slice n).idleAt }) ∧
      t = { s with pwr := t.pwr, slices := t.slices }) ∧
  (∀ (s : State) (d : Drizzle), s.pwr.drizzle = some d → s.floorOf d ≤ s.pwr.bare →
    exec .drizzleEnd s = .next { s with pwr := { s.pwr with
      drizzle := none, falls := s.pwr.falls.filter fun x => decide (s.pwr.bare < s.floorOf x) } }) ∧
  (∀ (s : State) (i : Nat) (h : Hint), s.pwr.hints[i]? = some h → s.powered = true → h.ramp = none →
    h.start ≤ s.elapsed + 1000 * s.pwr.lead.toNat → 1 ≤ s.pwr.lead.toNat → s.elapsed < h.start + 2000 →
    ∃ t r, exec (.hintPreRamp i) s = .next t ∧ r.target = min s.ce (h.level * s.dpl / 255) ∧
      r.p0 = min r.target ((s.pwr.ests.getLast?).getD 0) ∧ r.start = s.elapsed ∧ r.stop = h.start ∧ (r.macs = true ↔ h.hclass = 1) ∧
      (∀ k, t.pwr.hints[k]? = if k = i then some { h with ramp := some r } else s.pwr.hints[k]?) ∧
      t = { s with pwr := { s.pwr with hints := t.pwr.hints } }) ∧
  (∀ (s : State) (i : Nat) (h : Hint) (r : PreRamp), s.pwr.hints[i]? = some h → h.ramp = some r → h.start + 2000 ≤ s.elapsed →
    ∃ t, exec (.hintTakeoverExpiry i) s = .next t ∧
      (∀ k, t.pwr.hints[k]? = if k = i then some { h with ramp := none } else s.pwr.hints[k]?) ∧
      t.pwr.falls = s.pwr.falls ++
        (if s.pwr.bare < r.target then [{ p0 := r.target, start := s.elapsed, floorPm := 1000 }] else []) ∧
      t = { s with pwr := { s.pwr with hints := t.pwr.hints, falls := t.pwr.falls } }) ∧
  (∀ (s : State) (i : Nat) (h : Hint), s.pwr.hints[i]? = some h → h.stop ≤ s.elapsed →
    exec (.hintPhaseEnd i) s = .next { s with pwr := { s.pwr with hints := s.pwr.hints.eraseIdx i } })

/-! ## Resets and start-up -/

/-- A cold reset in every state: every register takes its reset value; fuses and flash contents stay where nothing was being
programmed, and the queue of commands and the build are no registers (R370, R371). PORST_N deasserting samples INST_ID and
starts the cold bring-up in FUSE (R21, R373); the sensed fuses are those blown, and LOAD follows (R373, R403). A warm reset,
by WRST_N or by GEN_CTL.WARM in OPEN, after the first OPEN: deposits, queries, contexts, tasks' events, mint command and
outstanding accesses are gone and the engine is in APPLY; the image store, the fuses, the time base, the wall clock, the
streams and the routes stay (R306, R362, R370, R371, R391). Where the manual leaves room it follows the model's own choices,
log 1, 49, 58. -/
def Obligations.ResetsClearAndKeep : Prop :=
  ((∀ s : State, ∃ t, exec .coldReset s = .next t ∧
    t = { State.reset with build := s.build, pending := s.pending, sfdp := s.sfdp, fuses := t.fuses, flash := t.flash
                           mem := t.mem, free := t.free } ∧
    (s.sec.busy = none → t.fuses = s.fuses) ∧ (s.boot.updRun = false → s.boot.recOut = none → t.flash = s.flash)) ∧
  (∀ (s : State) (i : BitVec 23), s.boot.porst = true →
    exec (.porstNDeassert i) s = .next { s with boot := { s.boot with porst := false, inst := i, phase := .fuse } }) ∧
  (∀ s : State, s.boot.porst = false → s.boot.phase = .fuse →
    exec .fuseSenseDone s = .next { s with sensed := s.fuses, boot := { s.boot with phase := .load } })) ∧
  (∀ (c : Instr) (s : State), s.boot.openedOnce = true → s.boot.porst = false → s.boot.phase ≠ .tripped → s.boot.phase ≠ .failed →
    (c = .warmReset ∨ (∃ d : Word, c = .genCtlWarm d ∧ d.getLsbD 0 = true ∧ s.boot.phase = .opened)) →
    ∃ t, exec c s = .next t ∧ t.boot.phase = .apply ∧ t.boot.warm = true ∧ t.boot.image = s.boot.image ∧
      t.boot.slot = s.boot.slot ∧ t.boot.version = s.boot.version ∧ t.fuses = s.fuses ∧ t.sensed = s.sensed ∧
      t.tbu = s.tbu ∧ t.strms = s.strms ∧ t.dom.routes = s.dom.routes ∧ t.deps = [] ∧ t.queries = [] ∧ t.ctxs = [] ∧
      t.accs = [] ∧ t.signals = [] ∧ t.mint.cur = none ∧ t.fab.egressQ = [] ∧ t.pwr.cap = s.pwr.cap ∧ t.pwr.bcap = s.pwr.bcap ∧
      t.pwr.pendCap = s.pwr.pendCap ∧ t.pwr.energy = s.pwr.energy ∧ (s.boot.updRun = false → t.flash = s.flash))

/-- SFDP discovery fails with NO_SFDP without the signature, with FLASH_UNSUITABLE below 16 Mbit or without a 4 KiB erase
type, and otherwise takes the device's size, read mode and fast read, page size, quad requirement, and erase and program types
with their longest times, as the model reads the table (R377). Without a valid commit record the slot of the higher VERSION is
tried, A on a tie; with one that names no trial, its confirmed slot; with a trial of fewer than three attempts the programming
of an ATTEMPT record begins, of three that of a ROLLBACK record (R386). While a record is being programmed the command takes
its end: the record is appended, and the trial slot, or the confirmed one, is tried. Where the manual leaves room it follows
the model's own choices, log 46, 59, 75. -/
def Obligations.DiscoveryAndSlotSelection : Prop :=
  (∀ s : State, s.boot.phase = .load → s.boot.sfdpOk = false → bfptOf s.sfdp = none →
    exec .sfdpDiscovery s = .next { s with boot := { s.boot with phase := .failed, failcode := 1 } }) ∧
  (∀ (s : State) (b : List Nat), s.boot.phase = .load → s.boot.sfdpOk = false → bfptOf s.sfdp = some b →
    (bfptBits b < 2 ^ 24 ∨ 12 ∉ bfptSizes b) →
    exec .sfdpDiscovery s = .next { s with boot := { s.boot with phase := .failed, failcode := 2 } }) ∧
  (∀ (s : State) (b : List Nat), s.boot.phase = .load → s.boot.sfdpOk = false → bfptOf s.sfdp = some b →
    2 ^ 24 ≤ bfptBits b → 12 ∈ bfptSizes b →
    exec .sfdpDiscovery s = .next { s with boot := { s.boot with
      sfdpOk := true, sizeLog2 := Nat.log2 (bfptBits b / 8), readMode := bfptMode b, fastRead := bfptFast b, pageSize := bfptPage b
      quadReq := bfptQuad b, eraseTypes := bfptErase b, programMax := bfptProgramMax b } }) ∧
  (∀ s : State, s.boot.phase = .load → s.boot.sfdpOk = true → s.boot.trying = none → s.boot.recOut = none → s.newest = none →
    exec .slotSelection s = .next { s with boot := { s.boot with
      trying := some (if (s.slotVersion 0).toNat < (s.slotVersion 1).toNat then 1 else 0), tryTrial := false } }) ∧
  (∀ (s : State) (i : Nat) (c : Commit), s.boot.phase = .load → s.boot.sfdpOk = true → s.boot.trying = none →
    s.boot.recOut = none → s.newest = some (i, c) →
    exec .slotSelection s = .next { s with boot :=
      if c.trial = 0xFF then { s.boot with trying := some c.conf, tryTrial := false }
      else { s.boot with recOut := some (if c.attempts < 3 then 2 else 4) } }) ∧
  (∀ (s : State) (i : Nat) (c : Commit), s.boot.phase = .load → s.boot.sfdpOk = true → s.boot.trying = none →
    s.newest = some (i, c) →
    (s.boot.recOut = some 2 →
      let u := s.appendCommit 2 fun c => { c with attempts := c.attempts + 1 }
      exec .slotSelection s = .next { u with boot := { s.boot with recOut := none, trying := some c.trial, tryTrial := true } }) ∧
    (s.boot.recOut = some 4 →
      let u := s.appendCommit 4 fun c => { c with trial := 0xFF, attempts := 0, trialVersion := 0 }
      exec .slotSelection s = .next { u with boot := { s.boot with
        recOut := none, trying := some c.conf, tryTrial := false, withdrawn := some c.trialVersion, rolledBack := true } }))

/-- The read of a slot is followed by AUTH. There a slot that authenticates fills the image store and brings the engine to APPLY
with its VERSION, IMAGE_ROLLBACK or IMAGE_FALLBACK raised where a trial was withdrawn or the other slot was unusable; one that
does not is noted with the reason: a trial is withdrawn by a ROLLBACK record, the other slot is tried, and with none left the
engine fails with NO_IMAGE (R372, R383, R386). APPLY performs the image's register writes and is followed by BIST (R373, R382).
BIST admits a slice of a cluster in service that passed and retires the rest; without an admitted slice the engine fails with
NO_SLICE, else it is in ADMIT. From there a warm bring-up goes to REPLAY, a cold one to SYNC without LOCK, and with LOCK and no
deposit to OPEN (R293, R362, R373). A ring scan of an engine without an enabled journal goes on to SYNC without LOCK, and closes
streams and isolates partitions that only waited for deposits; no ring scan changes a byte of memory (R306, R362). Where the
manual leaves room it follows the model's own choices, log 47, 53. -/
def Obligations.AuthenticationToRingScan : Prop :=
  ((∀ (s : State) (k : Nat), s.boot.phase = .load → s.boot.trying = some k →
    exec .imageAuthentication s = .next { s with boot := { s.boot with phase := .auth } }) ∧
  (∀ (s : State) (k : Nat), s.boot.phase = .auth → s.boot.trying = some k → s.judgeSlot k = none →
    ∃ t, exec .imageAuthentication s = .next t ∧ t = { s with boot := t.boot, fab := t.fab } ∧
      t.boot = { s.boot with phase := .apply, image := s.storeOf k, slot := k, version := s.slotVersion k
                             trial := s.boot.tryTrial, trialBoot := s.boot.tryTrial } ∧
      (s.boot.withdrawn = none → s.boot.fellBack = false → t.fab = s.fab) ∧
      (∀ v, s.boot.withdrawn = some v → s.boot.fellBack = false →
        t.fab = (s.health 0x0121 0 0xFF 1 ([BitVec.ofNat 8 k, 0, 0, 0] ++ leBytes 4 v.toNat)).fab) ∧
      (∀ x, s.boot.withdrawn = none → s.boot.fellBack = true → s.boot.unusable.find? (·.1 == 1 - k) = some x →
        t.fab = (s.health 0x0122 0 0xFF 2 [BitVec.ofNat 8 k, BitVec.ofNat 8 (1 - k), x.2]).fab)) ∧
  (∀ (s : State) (k : Nat) (why : Byte), s.boot.phase = .auth → s.boot.trying = some k → s.judgeSlot k = some why →
    ∃ t, exec .imageAuthentication s = .next t ∧ t = { s with boot := t.boot } ∧ t.boot.unusable = s.boot.unusable ++ [(k, why)] ∧
      (s.boot.tryTrial = true → t.boot.phase = .load ∧ t.boot.trying = none ∧ t.boot.recOut = some 4) ∧
      (s.boot.tryTrial = false → (∃ x ∈ s.boot.unusable, x.1 = 1 - k) → t.boot.phase = .failed ∧ t.boot.failcode = 3) ∧
      (s.boot.tryTrial = false → (∀ x ∈ s.boot.unusable, x.1 ≠ 1 - k) → k ≠ 1 - k →
        t.boot.phase = .load ∧ t.boot.trying = some (1 - k) ∧ t.boot.tryTrial = false ∧
          (t.boot.fellBack = true ↔ s.newest ≠ none))) ∧
  (∀ s : State, s.boot.phase = .apply →
    let r := s.boot.image.regInit.foldl State.regInit s
    ∃ t, exec .applyImage s = .next t ∧ t.boot = { r.boot with phase := .bist, ranSince := s.elapsed } ∧
      t = { r with boot := t.boot, pwr := t.pwr, build := s.build, pending := s.pending, mem := s.mem })) ∧
  ((∀ (s : State) (bs bc : List Nat), s.boot.phase = .bist →
    ∃ t, exec (.bistDone bs bc) s = .next t ∧
      (∀ n, n < s.nslices → (t.slice n).st = if n ∉ bs ∧ n / 16 ∉ bc then .admitted else .retired) ∧
      ((∀ n, n < s.nslices → n ∈ bs ∨ n / 16 ∈ bc) → t.boot = { s.boot with phase := .failed, failcode := 4 }) ∧
      ((∃ n, n < s.nslices ∧ n ∉ bs ∧ n / 16 ∉ bc) → t.boot = { s.boot with phase := .admitting }) ∧
      t = { s with boot := t.boot, slices := t.slices, clusters := t.clusters, fab := t.fab }) ∧
  (∀ (s : State) (bs bc : List Nat), s.boot.phase = .admitting →
    (s.boot.warmUp = true → exec (.bistDone bs bc) s = .next { s with boot := { s.boot with phase := .replay } }) ∧
    (s.boot.warmUp = false → s.tbu.lock = false → exec (.bistDone bs bc) s = .next { s with boot := { s.boot with phase := .sync } }) ∧
    (s.boot.warmUp = false → s.tbu.lock = true → s.deps = [] →
      ∃ t, exec (.bistDone bs bc) s = .next t ∧ t.boot = { s.boot with phase := .opened, openedOnce := true } ∧
        t = { s with boot := t.boot, pwr := t.pwr })) ∧
  (∀ (s : State) (fails : Fails), s.boot.phase = .replay → (∀ p, p < 32 → (s.part p).jrnl.en = false) → s.tbu.lock = false →
    ∃ t, exec (.ringScanDone none fails) s = .next t ∧ t.boot = { s.boot with phase := .sync } ∧
      (∀ n, t.strm n = { s.strm n with closing := (t.strm n).closing }) ∧ (∀ p, t.part p = { s.part p with st := (t.part p).st }) ∧
      t = { s with boot := t.boot, parts := t.parts, strms := t.strms }) ∧
  (∀ (s : State) (p : Option Nat) (fails : Fails),
    ∃ t, exec (.ringScanDone p fails) s = .next t ∧ t.mem = s.mem))

/-! ## Registers, fuses and the TAP -/

/-- A write over MPORT ignores address bits [1:0]; every write goes on; in OPEN one outside the GEN_ block and LDG_SLICECTL
leaves memory alone, one to an offset that holds no register changes nothing, and a plain register takes its field and nothing
else changes (R13, R374, R424, R427). A write outside OPEN changes nothing (R374, in FAILED and TRIPPED by log 37). Reading
the low word of a 64-bit counter over MPORT latches its high word, which a read of the high word then gives although the
counter has gone on; a read changes MPORT_RDATA and latches only; before OPEN what R374 does not name reads 0 (R14, R374). -/
def Obligations.RegisterAccess : Prop :=
  ((∀ (a : Nat) (o o' : BitVec 24) (d : Word) (s : State), o.toNat / 4 = o'.toNat / 4 →
    exec (.mportRegisterWrite a o d) s = exec (.mportRegisterWrite a o' d) s) ∧
  (∀ (a : Nat) (o : BitVec 24) (d : Word) (s : State), ∃ t, exec (.mportRegisterWrite a o d) s = .next t ∧ t.build = s.build ∧
    (0x010000 ≤ o.toNat → s.slicectlAt (wordOff o) = none → t.mem = s.mem)) ∧
  (∀ (a : Nat) (o : BitVec 24) (d : Word) (s : State), s.isOpen = false → exec (.mportRegisterWrite a o d) s = .next s) ∧
  (∀ (a : Nat) (o : BitVec 24) (d : Word) (s : State), 0x302000 ≤ o.toNat → exec (.mportRegisterWrite a o d) s = .next s) ∧
  (∀ (a : Nat) (o : BitVec 24) (d : Word) (s : State), s.nclusters ≤ (o.toNat - 0x100000) / 0x10000 → 0x100000 ≤ o.toNat →
    o.toNat < 0x200000 → exec (.mportRegisterWrite a o d) s = .next s) ∧
  (∀ (a : Nat) (d : Word) (s : State), s.isOpen = true →
    exec (.mportRegisterWrite a 0x020008 d) s = .next { s with pwr := { s.pwr with cap := d } } ∧
    exec (.mportRegisterWrite a 0x204000 d) s = .next { s with fab := { s.fab with idx := d.setWidth 16 } } ∧
    exec (.mportRegisterWrite a 0x2E0A00 d) s = .next { s with dom := { s.dom with fwdEn := d.getLsbD 0 } } ∧
    exec (.mportRegisterWrite a 0x281000 d) s =
      .next { s with ilv := if s.mports.any (fun e => e.2.en) then s.ilv else d.setWidth 5 }) ∧
  (∀ (a p : Nat) (d : Word) (s : State), s.isOpen = true → p < 32 →
    ∃ t, exec (.mportRegisterWrite a (BitVec.ofNat 24 (0x040004 + 0x1000 * p)) d) s = .next t ∧ t = { s with parts := t.parts } ∧
      ∀ q, t.part q = if q = p then { s.part p with quotaCtx := d.setWidth 20 } else s.part q) ∧
  (∀ (a m : Nat) (d : Word) (s : State), s.isOpen = true → m < s.nclusters → m < 16 →
    ∃ t, exec (.mportRegisterWrite a (BitVec.ofNat 24 (0x100E00 + 0x10000 * m)) d) s = .next t ∧
      t = { s with clusters := t.clusters } ∧
      ∀ k, t.cluster k = if k = m then { s.cluster m with age := d.setWidth 16 } else s.cluster k)) ∧
  ((∀ (o : BitVec 24) (s : State), ∃ t, exec (.counterLowWordRead o) s = .next t ∧
    t = { s with mportRdata := t.mportRdata, latches := t.latches }) ∧
  (∀ s : State, s.isOpen = true → ∃ t, exec (.counterLowWordRead 0x010000) s = .next t ∧ t.mportRdata = s.tbu.tb.setWidth 32 ∧
    ∀ tb : Dword, ∃ u, exec (.counterLowWordRead 0x010004) { t with tbu := { t.tbu with tb := tb } } = .next u ∧
      u.mportRdata = (s.tbu.tb >>> 32).setWidth 32) ∧
  (∀ s : State, s.isOpen = true → ∃ t, exec (.counterLowWordRead 0x020018) s = .next t ∧ t.mportRdata = s.pwr.energy.setWidth 32 ∧
    ∀ e : Dword, ∃ u, exec (.counterLowWordRead 0x02001C) { t with pwr := { t.pwr with energy := e } } = .next u ∧
      u.mportRdata = (s.pwr.energy >>> 32).setWidth 32) ∧
  (∀ (o : BitVec 24) (s : State), s.isOpen = false → 0x010000 ≤ o.toNat → o.toNat / 4 ≠ 0x020020 / 4 →
    ¬ (0x020100 ≤ o.toNat ∧ o.toNat < 0x020140) →
    exec (.counterLowWordRead o) s = .next { s with mportRdata := 0 }))

/-- PRT_LOCK: two distinct unlocked partitions, each EMPTY or ISOLATED, become leader and follower; one that is neither, or a
locked peer, leaves the write ignored; EN 0 to the leader unlocks both (R407). Where the manual leaves room it follows the
model's own choices, log 38. -/
def Obligations.PairLocking : Prop :=
  (∀ (s : State) (p q : Nat) (d : Word), s.isOpen = true → p < 32 → d.toNat % 32 = q → p ≠ q → d.getLsbD 31 = true →
    ((s.part p).st = .empty ∨ (s.part p).st = .isolated) → ((s.part q).st = .empty ∨ (s.part q).st = .isolated) →
    (s.part p).lockEn = false → (s.part q).lockEn = false →
    ∃ t, exec (.pairLock p d) s = .next t ∧ t = { s with parts := t.parts } ∧
      t.part p = { s.part p with lockEn := true, lockRole := false, lockPeer := BitVec.ofNat 5 q } ∧
      t.part q = { s.part q with lockEn := true, lockRole := true, lockPeer := BitVec.ofNat 5 p } ∧
      ∀ k, k ≠ p → k ≠ q → t.part k = s.part k) ∧
  (∀ (s : State) (p : Nat) (d : Word), d.getLsbD 31 = true →
    (((s.part p).st ≠ .empty ∧ (s.part p).st ≠ .isolated) ∨ (s.part (d.toNat % 32)).lockEn = true) →
    exec (.pairLock p d) s = .next s) ∧
  (∀ (s : State) (p f : Nat) (d : Word), s.isOpen = true → d.getLsbD 31 = false → (s.part p).lockEn = true →
    (s.part p).lockRole = false → (s.part p).lockPeer.toNat = f → p ≠ f →
    ((s.part p).st = .empty ∨ (s.part p).st = .isolated) → ((s.part f).st = .empty ∨ (s.part f).st = .isolated) →
    ∃ t, exec (.pairLock p d) s = .next t ∧ t = { s with parts := t.parts } ∧ (t.part p).lockEn = false ∧
      (t.part f).lockEn = false ∧ ∀ k, k ≠ p → k ≠ f → t.part k = s.part k)

/-- SEC_PROG programs a fuse only with its key and while none is being programmed; CMD 1 blows DBG_KILL, CMD 2 revokes a key
slot unless it signed the running image or is the last unrevoked one, which is refused with a security event of cause 4; the
fuse reads as blown from the end of programming (R404, R406). The TAP selects BYPASS, SAMPLE/PRELOAD, EXTEST and IDCODE; a
code it does not list, and after DBG_KILL a debug one, selects BYPASS; no TAP instruction changes engine state. A debug
instruction before the kill stops: the manual does not describe it (R405). Where the manual leaves room it follows the model's
own choices, log 42, 49, 65. -/
def Obligations.FusesAndTap : Prop :=
  ((∀ (c : Word → Instr) (s : State) (d : Word), (c = .fuseBlowDbgKill ∨ c = .fuseRevokeKey) →
    (d.toNat / 65536 ≠ 0xF05E ∨ s.sec.busy.isSome = true ∨ s.isOpen = false) → exec (c d) s = .next s) ∧
  (∀ (c : Word → Instr) (s : State) (d : Word), (c = .fuseBlowDbgKill ∨ c = .fuseRevokeKey) → s.isOpen = true →
    d.toNat / 65536 = 0xF05E → s.sec.busy = none →
    (d.toNat % 4 = 1 → exec (c d) s = .next { s with sec := { s.sec with
      refused := s.sec.refused && !d.getLsbD 14, busy := some .dbgKill } }) ∧
    (d.toNat % 4 = 2 → d.toNat / 256 % 4 ≠ s.boot.image.keyIdx →
      (∃ k, k < 4 ∧ k ≠ d.toNat / 256 % 4 ∧ s.sensed.revoke.getLsbD k = false) →
      exec (c d) s = .next { s with sec := { s.sec with
        refused := s.sec.refused && !d.getLsbD 14, busy := some (.revoke (d.toNat / 256 % 4)) } }) ∧
    (d.toNat % 4 = 2 → (d.toNat / 256 % 4 = s.boot.image.keyIdx ∨
        ∀ k, k < 4 → k ≠ d.toNat / 256 % 4 → s.sensed.revoke.getLsbD k = true) →
      ∃ t, exec (c d) s = .next t ∧ t.sec.refused = true ∧ t.sec.busy = none ∧ t.sec.events = satInc s.sec.events 1 ∧
        t = { s with sec := t.sec, fab := t.fab } ∧ t.fab = (s.health 0x20 unitInst 0xFF 2 [4]).fab)) ∧
  (∀ (s : State) (f : FuseCmd), s.sec.busy = some f →
    ∃ t, exec .fuseProgramDone s = .next t ∧ t.sec = { s.sec with busy := none } ∧
      t = { s with sec := t.sec, fuses := t.fuses, sensed := t.sensed } ∧
      (f = .dbgKill → t.fuses = { s.fuses with dbgKill := true } ∧ t.sensed = { s.sensed with dbgKill := true }) ∧
      (∀ k, f = .revoke k → k < 4 → t.fuses.revoke.getLsbD k = true ∧ t.sensed.revoke.getLsbD k = true ∧
        t.fuses.dbgKill = s.fuses.dbgKill ∧ ∀ j, j ≠ k → t.sensed.revoke.getLsbD j = s.sensed.revoke.getLsbD j))) ∧
  (∀ (s : State) (n : Nat),
    (∀ i : TapInstr, (i = .bypass ∨ i = .samplePreload ∨ i = .extest ∨ i = .idcode) →
      exec (.tapInstruction i) s = .next { s with boot := { s.boot with tap := i } }) ∧
    exec (.tapInstruction (.other n)) s = .next { s with boot := { s.boot with tap := .bypass } } ∧
    (s.sensed.dbgKill = true → exec (.tapInstruction (.debug n)) s = .next { s with boot := { s.boot with tap := .bypass } }) ∧
    (s.sensed.dbgKill = false → exec (.tapInstruction (.debug n)) s = .refused .debugInstruction))

/-! ## Fabric ports, streams and HEALTH -/

/-- FAB_n_CTL and credits: enabling a port grants the ingress credits of Table 9.4, disabling it leaves neither credits nor
flits, and for a port that the build does not hold the write is ignored; a returned egress credit lets the waiting flits of its
port and class go out, loses no message and touches no other port, and after a thermal trip nothing goes out (R243, R248, R348,
R424). An ingress credit returns when its flit leaves the input buffer, the oldest of its class first; a WORK
credit of a cluster that is under back-pressure is deferred instead (R216, R243). Where the manual leaves room it follows the
model's own choices, log 28. -/
def Obligations.FabricPortsAndCredits : Prop :=
  ((∀ (s : State) (n : Nat) (d : Word), s.nfports ≤ n → exec (.fabPortEnable n d) s = .next s) ∧
  (∀ (s : State) (n c : Nat), n < s.nfports → s.boot.phase = .tripped → exec (.egressCreditReturn n c) s = .next s) ∧
  (∀ (s : State) (n : Nat) (d : Word), n < s.nfports → s.isOpen = true →
    ∃ t, exec (.fabPortEnable n d) s = .next t ∧ t = { s with ports := t.ports } ∧ (∀ k, k ≠ n → t.port k = s.port k) ∧
      (d.getLsbD 0 = false → t.port n = { badmsg := (s.port n).badmsg }) ∧
      (d.getLsbD 0 = true → (s.port n).en = true → t.port n = s.port n) ∧
      (d.getLsbD 0 = true → (s.port n).en = false →
        t.port n = { s.port n with en := true, up := true, ingress := { ctrl := 32, work := 128, resp := 16, dlv := 0 } })) ∧
  (∀ (s : State) (n c : Nat), n < s.nfports → c < 4 → (s.port n).en = true → s.boot.phase ≠ .tripped →
    ∃ t, exec (.egressCreditReturn n c) s = .next t ∧ t = { s with fab := t.fab, ports := t.ports } ∧ t.out.Perm s.out ∧
      (∀ k, k ≠ n → t.port k = s.port k) ∧ t.port n = { s.port n with egress := (t.port n).egress } ∧
      ((∀ e ∈ s.fab.egressQ, e.1.port = n → e.1.cls ≠ c) →
        t.fab = s.fab ∧ (t.port n).egress.get c = (s.port n).egress.get c + 1) ∧
      (∀ o rest, s.fab.egressQ = (o, 1) :: rest → o.port = n → o.cls = c → s.borderHolds (o, 1) = false →
        ∃ more, t.fab.sent = s.fab.sent ++ o :: more))) ∧
  ((∀ (s : State) (n c m : Nat) (xs ys : List (Nat × Nat)), n < s.nfports → (s.port n).en = true → c < 4 → c ≠ 1 →
    (s.port n).buf = xs ++ (c, m) :: ys → (∀ x ∈ xs, x.1 ≠ c) →
    ∃ t, exec (.ingressCreditReturn n c) s = .next t ∧ t = { s with ports := t.ports, clusters := t.clusters } ∧
      t.port n = { s.port n with buf := xs ++ ys, ingress := (s.port n).ingress.set c ((s.port n).ingress.get c + 1) } ∧
      ∀ k, k ≠ n → t.port k = s.port k) ∧
  (∀ (s : State) (n m : Nat) (xs ys : List (Nat × Nat)), n < s.nfports → (s.port n).en = true → (s.port n).deferred = [] →
    (s.port n).buf = xs ++ (1, m) :: ys → (∀ x ∈ xs, x.1 ≠ 1) →
    ∃ t, exec (.ingressCreditReturn n 1) s = .next t ∧ t = { s with ports := t.ports, clusters := t.clusters } ∧
      (∀ k, k ≠ n → t.port k = s.port k) ∧ (t.port n).buf = xs ++ ys ∧
      (stageNext (s.cluster m).bpHold (s.cluster m).holdCred.toNat (s.tasks m) = false →
        (t.port n).ingress = (s.port n).ingress.set 1 ((s.port n).ingress.get 1 + 1) ∧ (t.port n).deferred = []) ∧
      (stageNext (s.cluster m).bpHold (s.cluster m).holdCred.toNat (s.tasks m) = true →
        (t.port n).ingress = (s.port n).ingress ∧ (t.port n).deferred = [m])))

/-- FAB_STRM_CFG: opening a stream binds the selected entry and adds 1 to SGEN, unless 4,096 are open, which sets STRM_FULL;
clearing EN closes it at once when no deposit of it is live, and otherwise leaves it closing (R252). Gate bits held for the
entry's former generation go at the opening; without such bits nothing but the entry changes. Where the manual leaves room it
follows the model's own choices, log 60, 89, 93. -/
def Obligations.StreamsOpenAndClose : Prop :=
  (∀ (s : State) (d : Word), s.isOpen = true → d.getLsbD 31 = true → (s.strm s.fab.idx.toNat).en = false →
    (s.strm s.fab.idx.toNat).closing = false →
    (s.openStreams < 4096 →
      ∃ t, exec (.streamOpen d) s = .next t ∧ (∀ k, k ≠ s.fab.idx.toNat → t.strm k = s.strm k) ∧
        t.strm s.fab.idx.toNat = { s.strm s.fab.idx.toNat with
          en := true, gen := (s.strm s.fab.idx.toNat).gen + 1, lastAcc := 0, port := (d >>> 24).setWidth 6
          part := (d >>> 8).setWidth 5, rights := d.setWidth 8 } ∧
        t.fab.heldGates = s.fab.heldGates.filter (fun h => h.stream != s.fab.idx) ∧
        t = { s with strms := t.strms, fab := t.fab, ports := t.ports, parts := t.parts, free := t.free } ∧
        ((∀ h ∈ s.fab.heldGates, h.stream ≠ s.fab.idx) → t = { s with strms := t.strms })) ∧
    (4096 ≤ s.openStreams → exec (.streamOpen d) s = .next { s with fab := { s.fab with strmFull := true } })) ∧
  (∀ (s : State) (aclk : Nat) (d : Word), s.isOpen = true → d.getLsbD 31 = false → (s.strm s.fab.idx.toNat).en = true →
    ∃ t, exec (.streamClose ⟨aclk, d⟩) s = .next t ∧
      t = { s with strms := t.strms, fab := { s.fab with mportOrders := t.fab.mportOrders } } ∧
      (∀ k, k ≠ s.fab.idx.toNat → t.strm k = s.strm k) ∧
      t.strm s.fab.idx.toNat = { s.strm s.fab.idx.toNat with
        en := false, closing := s.deps.any fun x => x.stream == s.fab.idx })

/-- A HEALTH event joins a queue of 64, or is counted lost; while sending is on in OPEN and a CTRL credit is held the oldest
leaves with the next SEQ and its body, and without them it waits (R273, R374). STATUS and IDENT are answered in every state
but TRIPPED with the present status and identity, to the requester, with RESP set (R254, R272); a malformed flit sequence is
counted and, once its header came whole, refused under check 2, before OPEN as NOT_READY but for STATUS and IDENT, unless it is
an endpoint's REFUSE, which is never answered; a reserved type is refused as MALFORMED, outside OPEN as NOT_READY, and an
ACCEPT, HIT, RECEIPT or HEALTH on another class than its own is counted too (R245, R247, R254, R255). Where the manual leaves room it
follows the model's own choices, log 64. -/
def Obligations.StatusHealthAndDiscards : Prop :=
  ((∀ (s : State) (code unit part sev : Nat) (detail : List Byte),
    (s.fab.hq.length < 64 → ∃ h, (s.health code unit part sev detail).fab = { s.fab with hq := s.fab.hq ++ [h] } ∧
      h.code = BitVec.ofNat 16 code ∧ h.tb = s.tbu.tb ∧ h.severity = BitVec.ofNat 8 sev ∧ h.detail.length = 16) ∧
    (64 ≤ s.fab.hq.length →
      (s.health code unit part sev detail).fab = { s.fab with hlost := min 0xFFFF (s.fab.hlost + 1) })) ∧
  (∀ (s : State) (h : Health) (rest : List Health), s.fab.hq = h :: rest → s.isOpen = true → s.fab.hEn = true →
    (s.port s.fab.hPort.toNat).en = true → 0 < (s.port s.fab.hPort.toNat).egress.ctrl →
    ∃ t, exec .healthSend s = .next t ∧ t = { s with fab := t.fab, ports := t.ports } ∧ t.fab.hq = rest ∧
      t.fab.hseq = s.fab.hseq + 1 ∧
      t.out.Perm (s.out ++ [{ port := s.fab.hPort.toNat, cls := 0, type := 0x0E, flags := 0, stream := 0, sgen := 0,
                              seq := s.fab.hseq + 1, peer := s.fab.hEp.setWidth 32, payload := h.body }])) ∧
  (∀ s : State, (s.fab.hq = [] ∨ s.isOpen = false ∨ s.fab.hEn = false ∨ (s.port s.fab.hPort.toNat).en = false ∨
      (s.port s.fab.hPort.toNat).egress.ctrl = 0) → exec .healthSend s = .next s)) ∧
  ((∀ (s : State) (m : Msg), m.port < s.nfports → s.portTakes m.port = true → wellSized 0x0C m = true →
    ∃ t, exec (.status m) s = .next t ∧ t = { s with fab := t.fab, ports := t.ports, pwr := t.pwr } ∧
      t.out.Perm (s.out ++ [{ port := m.port, cls := 0, type := 0x0C, flags := 1, stream := m.stream, sgen := m.sgen
                              seq := m.seq, peer := m.peer, payload := s.statusBody }])) ∧
  (∀ (s : State) (m : Msg), m.port < s.nfports → s.portTakes m.port = true → wellSized 0x0D m = true →
    ∃ t, exec (.ident m) s = .next t ∧ t = { s with fab := t.fab, ports := t.ports, pwr := t.pwr } ∧
      t.out.Perm (s.out ++ [{ port := m.port, cls := 0, type := 0x0D, flags := 1, stream := m.stream, sgen := m.sgen
                              seq := m.seq, peer := m.peer, payload := s.identBody }])) ∧
  (∀ (s : State) (m : Msg) (ty : Byte) (whole : Bool), m.port < s.nfports → s.portTakes m.port = true →
    ∃ t, exec (.malformedFlitSequence ty m whole) s = .next t ∧
      t = { s with fab := t.fab, ports := t.ports, pwr := t.pwr, parts := t.parts } ∧
      (t.port m.port).badmsg = min 0xFFFF ((s.port m.port).badmsg + 1) ∧
      (whole = false ∨ ty = 0x03 → t.out = s.out) ∧
      (whole = true → ty ≠ 0x03 → s.isOpen = true ∨ anyState ty = true → t.out.Perm (s.out ++ [refuseOf m ty 5 2 0])) ∧
      (whole = true → ty ≠ 0x03 → s.isOpen = false → anyState ty = false → t.out.Perm (s.out ++ [refuseOf m ty 2 1 0]))) ∧
  (∀ (s : State) (m : Msg) (ty : Byte), m.port < s.nfports → s.portTakes m.port = true → ingressType ty = false →
    ∃ t, exec (.reservedMessage ty m) s = .next t ∧
      t = { s with fab := t.fab, ports := t.ports, pwr := t.pwr, parts := t.parts } ∧
      (t.port m.port).badmsg = min 0xFFFF ((s.port m.port).badmsg + bit (egressOnly ty && m.cls.toNat % 4 != classOfType ty)) ∧
      t.out.Perm (s.out ++ [if s.isOpen then refuseOf m ty 5 2 0 else refuseOf m ty 2 1 0])))

/-! ## Messages: checks, power, fences, mint tails -/

/-- The checks of Table 9.8, in their order, on a DEPOSIT: outside OPEN it is refused with NOT_READY, with a wrong length or
class with MALFORMED, on a stream that is not open or has another SGEN with STALE, on another port with MALFORMED, without the
right with NO_RIGHTS, while its partition is not loaded, where no message of its pclk beats it, with RELOADING; a refused
message leaves no other trace than its flits, its REFUSE and a capture record (R254 to R256, R393). Where the manual leaves
room it follows the model's own choices, log 57, 64. -/
def Obligations.MessageChecks : Prop :=
  ∀ (s : State) (m : Msg), m.port < s.nfports → s.portTakes m.port = true →
    let refused := fun (reason check : Nat) =>
      ∃ t, exec (.deposit m) s = .next t ∧ s.took m t ∧
        t.out.Perm (s.out ++ [refuseOf m 1 reason check 0])
    let e := s.strm m.stream.toNat
    (s.boot.phase ≠ .opened → refused 2 1) ∧
    (s.boot.phase = .opened → wellSized 1 m = false → refused 5 2) ∧
    (s.boot.phase = .opened → wellSized 1 m = true → ((e.en = false ∧ e.closing = false) ∨ m.sgen ≠ e.gen ∨ e.closing = true) →
      refused 3 3) ∧
    (s.boot.phase = .opened → wellSized 1 m = true → e.en = true → e.closing = false → e.lastAcc ≠ 0xFFFFFFFF → m.sgen = e.gen →
      (e.port.toNat ≠ m.port → refused 5 4) ∧
      (e.port.toNat = m.port → (e.rights.getLsbD 0 = false ∨ (e.anysrc = false ∧ e.owner.toNat ≠ m.peer.toNat % 2 ^ 20)) → refused 4 5) ∧
      (e.port.toNat = m.port → e.rights.getLsbD 0 = true → (e.anysrc = true ∨ e.owner.toNat = m.peer.toNat % 2 ^ 20) →
        (s.part e.part.toNat).lockEn = false → (∀ b ∈ s.rivals m, s.fares (0x01, m) b ≠ some false) →
        (s.part e.part.toNat).st ≠ .loaded → refused 6 6))

/-- HINT, BUDGET and EVENT MINT_TAIL that pass their checks are accepted: a hint joins those pending and replaces one of its
class it overlaps, a fifth is refused with BUSY; a BUDGET cap replaces the one in force at once or becomes pending until its
time, and cancels one pending; TAIL is set, unless an MPORT write of the same aclk cycle sets it to another value, which refuses
the message with BUSY (R15, R222, R267, R270, R350, R358). Where the manual leaves room it follows the
model's own choices, log 9, 43. -/
def Obligations.HintBudgetAndTail : Prop :=
  (∀ (s : State) (m : Msg), s.admits 8 2 m → hintOk m.payload = true →
    let h : Hint := { start := s.elapsed + fieldAt m.payload 0 4, stop := s.elapsed + fieldAt m.payload 0 4 + fieldAt m.payload 4 4,
                      arrived := s.elapsed, hclass := (byteAt m.payload 8).toNat, level := (byteAt m.payload 9).toNat }
    ((∃ x ∈ s.pwr.hints, x.overlaps h = true) ∨ s.pwr.hints.length < 4 →
      ∃ t, exec (.hint m) s = .next t ∧ t.pwr.hints = s.pwr.hints.filter (fun x => !x.overlaps h) ++ [h] ∧
        t.out.Perm (s.out ++ [acceptOf m false]) ∧
        s.took m { t with pwr := { t.pwr with hints := s.pwr.hints } }) ∧
    ((∀ x ∈ s.pwr.hints, x.overlaps h = false) → 4 ≤ s.pwr.hints.length →
      ∃ t n, exec (.hint m) s = .next t ∧ 1000 ≤ n ∧ n ≤ 65535 ∧ t.out.Perm (s.out ++ [refuseOf m 8 1 9 n]) ∧ s.took m t)) ∧
  (∀ (s : State) (m : Msg), s.admits 9 3 m → s.budgetOk m.payload = true →
    ∃ t, exec (.budget m) s = .next t ∧ t.out.Perm (s.out ++ [acceptOf m false]) ∧
      s.took m { t with pwr := { t.pwr with bcap := s.pwr.bcap, pendCap := s.pwr.pendCap } } ∧
      (fieldAt m.payload 8 8 ≤ s.tbu.tb.toNat →
        t.pwr.bcap = BitVec.ofNat 32 (fieldAt m.payload 0 4) ∧ t.pwr.pendCap = none) ∧
      (s.tbu.tb.toNat < fieldAt m.payload 8 8 → t.pwr.bcap = s.pwr.bcap ∧
        t.pwr.pendCap = some (BitVec.ofNat 32 (fieldAt m.payload 0 4), BitVec.ofNat 64 (fieldAt m.payload 8 8)))) ∧
  (∀ (s : State) (m : Msg), s.admits 7 1 m → byteAt m.payload 0 = 2 →
    let p := (s.strm m.stream.toNat).part.toNat
    (s.tailOverruled p (fieldAt m.payload 2 2) m.pclk = false →
      ∃ t, exec (.eventMintTail m) s = .next t ∧ t.out.Perm (s.out ++ [acceptOf m false]) ∧
        (t.part p).mring = { (s.part p).mring with tail := BitVec.ofNat 12 (fieldAt m.payload 2 2) } ∧
        (∀ q, q ≠ p → (t.part q).mring = (s.part q).mring) ∧
        t = { s with ports := t.ports, fab := t.fab, parts := t.parts, pwr := t.pwr }) ∧
    (s.tailOverruled p (fieldAt m.payload 2 2) m.pclk = true →
      ∃ t n, exec (.eventMintTail m) s = .next t ∧ 1000 ≤ n ∧ n ≤ 65535 ∧ t.out.Perm (s.out ++ [refuseOf m 7 1 0 n]) ∧ s.took m t))

/-- A TREE_FENCE that passes its checks is accepted; no line that its partition has cached and that the fenced range reaches
through one of its windows stays in L2, and memory changes only within lines of its partition that are cached (R49, R271). Where the manual leaves room it follows the model's own
choices, log 61. -/
def Obligations.TreeFences : Prop :=
  ∀ (s : State) (m : Msg), s.admits 0x0B 0 m → fenceOk m.payload = true →
    let p := (s.strm m.stream.toNat).part.toNat
    ∃ t, exec (.treeFence m) s = .next t ∧ t.out.Perm (s.out ++ [acceptOf m false]) ∧
      s.took m { t with mem := s.mem, clusters := s.clusters, slices := s.slices, dom := s.dom } ∧
      (∀ a, lineOf a ∉ s.cachedLines p → t.mem.read a = s.mem.read a) ∧
      (∀ l a, l ∈ s.cachedLines p → a ∈ (s.part p).seenAt l → fieldAt m.payload 0 8 ≤ a →
        a < fieldAt m.payload 0 8 + 64 * fieldAt m.payload 8 4 →
        ∀ x ∈ (t.cluster (s.bankOf l)).bank.l2.lines, x.line ≠ l)

/-! ## Die links -/

/-- A forward queue of 16 or aged queries leaves as a transit with the next XFER and CLR_FWDOUT counts it; with no way to the
die CLR_FALLBACK counts its queries' local run (R145, R146, R154). FWD_ACK marks the transit; FWD_NACK has it resent 2 µs
later, and the fourth ends it; a resend is sent again; a FORWARD unanswered for 10 µs is lost with HEALTH BATCH_LOST; RETURN
ends its transit and is acknowledged where the route back carries packets (R147, R148, R153). Where the manual leaves room it follows the model's own choices, log
29, 30. -/
def Obligations.ForwardingFromHome : Prop :=
  (∀ (s : State) (m die part : Nat) (f : FwdQueue), m < s.nclusters → s.isOpen = true →
    (s.cluster m).fqs.find? (fun f => f.die == die && f.part == part) = some f →
    (s.canForward die = true →
      16 ≤ f.members.length ∨ (∃ y, f.members.head? = some y ∧ y.arrived + (s.cluster m).ageLimit ≤ s.wclk) →
      ∃ t x, exec (.forwardRelease m die part) s = .next t ∧ t.dom.transits = s.dom.transits ++ [x] ∧ x.die = die ∧
        x.xfer = s.dom.nextXfer ∧ x.acked = false ∧ x.sentAt = s.elapsed ∧ t.dom.nextXfer = s.dom.nextXfer + 1 ∧
        (∀ u ∈ x.members, ∃ q ∈ t.queries, q.uid = u ∧ q.st = .transit s.dom.nextXfer) ∧
        (t.cluster m).fwdout = satInc (s.cluster m).fwdout 1 ∧ t.mem = s.mem) ∧
    (s.canForward die = false →
      ∃ t, exec (.forwardRelease m die part) s = .next t ∧ (t.cluster m).fallback = satInc (s.cluster m).fallback 1 ∧
        t.dom = s.dom ∧ t.mem = s.mem)) ∧
  (∀ (s : State) (p : Packet) (x : Transit), p.link < s.build.dlinks → s.takesPkt p = true → s.transit? p.xfer = some x →
    x.names p = true →
    (∃ t, exec (.fwdAck p) s = .next t ∧ t.transit? p.xfer = some { x with acked := true } ∧
      t = { s with dom := { s.dom with transits := t.dom.transits } }) ∧
    (x.nacks < 3 →
      ∃ t, exec (.fwdNack p) s = .next t ∧
        t.transit? p.xfer = some { x with nacks := x.nacks + 1, resendAt := some (s.elapsed + 2000) } ∧
        t = { s with dom := { s.dom with transits := t.dom.transits } }) ∧
    (3 ≤ x.nacks →
      ∃ t, exec (.fwdNack p) s = .next t ∧ t.transit? p.xfer = none ∧
        (t.cluster x.cluster).fallback = satInc (s.cluster x.cluster).fallback 1 ∧ t.mem = s.mem) ∧
    (∃ t, exec (.fwdReturn p) s = .next t ∧ t.transit? p.xfer = none ∧ t.mem = s.mem ∧
      ∀ l, s.liveRoute x.die = some l →
        ∃ o ∈ t.dom.sent, o.type = 5 ∧ o.link = l ∧ o.xfer = p.xfer)) ∧
  (∀ (s : State) (xf : Word) (x : Transit), s.isOpen = true → s.transit? xf = some x →
    (∀ at', x.resendAt = some at' → at' ≤ s.elapsed →
      ∃ t, exec (.forwardResend xf) s = .next t ∧ t.transit? xf =
          some { x with resendAt := none, sentAt := s.elapsed, link := (s.liveRoute x.die).getD x.link } ∧
        t = { s with dom := { s.dom with transits := t.dom.transits, sent := t.dom.sent }
                     pwr := { s.pwr with activity := t.pwr.activity } } ∧
        ∀ l, s.liveRoute x.die = some l →
          ∃ o, t.dom.sent = s.dom.sent ++ [o] ∧ o.type = 1 ∧ o.link = l ∧ o.xfer = x.xfer) ∧
    (x.acked = false → x.resendAt = none → x.sentAt + 10000 ≤ s.elapsed →
      ∃ t, exec (.fwdAckTimeout xf) s = .next t ∧ t.transit? xf = none ∧ t.mem = s.mem ∧
        (s.fab.hq.length < 64 → ∃ h ∈ t.fab.hq, h.code = 0x0B ∧ h.tb = s.tbu.tb)))

/-- A FORWARD for a partition that is not loaded is answered with FWD_NACK 2, and one whose members find room with FWD_ACK;
RET_ACK frees the visitors of its transit, ROUTE_DOWN those of a die that cannot be reached, with the transits to it; a fence
packet drops the L2 lines of its range; a packet for another die leaves on its route unchanged, or ROUTE_DOWN leaves to dies with a
route, and one of a reserved type is counted and goes nowhere (R49, R147, R148, R150, R152, R153, R155). Where the manual leaves room it follows the model's own choices, log 28,
30, 55, 61. -/
def Obligations.PacketsAtAnotherDie : Prop :=
  (∀ (s : State) (p : Packet) (l : Nat), p.link < s.build.dlinks → s.takesPkt p = true →
    s.liveRoute (p.src.toNat % 128) = some l →
    ((s.part (p.part.toNat % 32)).st ≠ .loaded →
      ∃ t o, exec (.forward p) s = .next t ∧ t = { s with dom := { s.dom with sent := s.dom.sent ++ [o] }
                                                          pwr := { s.pwr with activity := t.pwr.activity } } ∧ o.type = 3 ∧
        o.arg = 2 ∧ o.link = l ∧ o.xfer = p.xfer) ∧
    (∀ s1, s.takeVisitors p = .ok s1 →
      ∃ t, exec (.forward p) s = .next t ∧ t.mem = s.mem ∧ ∃ o ∈ t.dom.sent, o.type = 2 ∧ o.link = l ∧ o.xfer = p.xfer)) ∧
  (∀ (s : State) (p : Packet), p.link < s.build.dlinks → s.takesPkt p = true →
    (∃ t, exec (.retAck p) s = .next t ∧
      (∀ q ∈ t.queries, ¬ (q.visitor = some (p.src.toNat % 128, p.xfer) ∧ q.part = p.part.toNat % 32)) ∧
      (∀ q ∈ s.queries, (∀ v ∈ s.queries, v.visitor = some (p.src.toNat % 128, p.xfer) → v.part = p.part.toNat % 32 →
        v.uid ≠ q.uid ∧ q.shadowOf ≠ some v.uid) → q ∈ t.queries) ∧
      t.deps = s.deps ∧ t.mem = s.mem) ∧
    (∃ t, exec (.routeDown p) s = .next t ∧ (∀ x ∈ t.dom.transits, x.die ≠ p.arg.toNat % 128) ∧
      (∃ d ∈ t.dom.down, d = (p.arg.toNat % 128, s.tbu.tb)) ∧
      (∀ q ∈ t.queries, ∀ x, q.visitor ≠ some (p.arg.toNat % 128, x)) ∧ t.mem = s.mem) ∧
    (∃ t, exec (.fencePacket p) s = .next t ∧ t = { s with mem := t.mem, clusters := t.clusters, slices := t.slices } ∧
      (∀ a, lineOf a ∉ s.cachedLines (p.part.toNat % 32) → t.mem.read a = s.mem.read a) ∧
      (∀ l a, l ∈ s.cachedLines (p.part.toNat % 32) → a ∈ (s.part (p.part.toNat % 32)).seenAt l → fieldAt p.payload 0 8 ≤ a →
        a < fieldAt p.payload 0 8 + 64 * fieldAt p.payload 8 4 →
        ∀ x ∈ (t.cluster (s.bankOf l)).bank.l2.lines, x.line ≠ l))) ∧
  (∀ (s : State) (p : Packet) (ty : Byte), p.link < s.build.dlinks → s.linkOpen p.link = true → p.dst.toNat % 128 ≠ s.die →
    (∀ l, 1 ≤ ty.toNat → ty.toNat ≤ 7 → s.liveRoute (p.dst.toNat % 128) = some l →
      ∃ t, exec (.packetRelay ty p) s = .next t ∧ t.dom.sent = s.dom.sent ++
          [{ link := l, type := ty, nmemb := p.nmemb, src := p.src, dst := p.dst, part := p.part, arg := p.arg, xfer := p.xfer
             payload := p.payload }] ∧
        t = { s with dom := { s.dom with sent := t.dom.sent }, pwr := { s.pwr with activity := t.pwr.activity } }) ∧
    (1 ≤ ty.toNat → ty.toNat ≤ 7 → s.liveRoute (p.dst.toNat % 128) = none →
      ∃ t ps, exec (.packetRelay ty p) s = .next t ∧
        t = { s with dom := { s.dom with sent := s.dom.sent ++ ps }, pwr := { s.pwr with activity := t.pwr.activity } } ∧
        ∀ o, (∃ x ∈ ps, x = o) ↔ ∃ d l, d < 128 ∧ d ≠ s.die ∧ s.liveRoute d = some l ∧
          o = { link := l, type := 6, nmemb := 0, src := BitVec.ofNat 8 s.die, dst := BitVec.ofNat 8 d, part := 0
                arg := BitVec.ofNat 16 (p.dst.toNat % 128), xfer := 0, payload := [] }) ∧
    (ty = 0 ∨ 8 < ty.toNat →
      ∃ t, exec (.packetRelay ty p) s = .next t ∧ t = { s with links := t.links } ∧
        t.link p.link = { s.link p.link with badpkt := min 255 ((s.link p.link).badpkt + 1) } ∧
        ∀ k, k ≠ p.link → t.link k = s.link k) ∧
    (ty = 8 → exec (.packetRelay ty p) s = .next s))

/-- Links: training brings a link up and sends HELLO; a HELLO records the peer and whether it agrees, and ends what was under
way with its die; a link that breaks or retrains leaves the active state with its event and count, and its batches are lost; a
write for a link the build does not hold is ignored; forwarding resumes at the first 1 ms boundary of TB after both; a packet of reserved type is counted (R150, R153 to R155,
R157, R424). Where the manual leaves room it follows the model's own choices, log 28, 62. -/
def Obligations.LinkStates : Prop :=
  (∀ (s : State) (l : Nat) (rep : Bool), l < s.build.dlinks → (s.link l).en = true → (s.link l).up = false →
    ∃ t o, exec (.linkTrained l rep) s = .next t ∧
      t.link l = { s.link l with up := true, repaired := rep, helloIn := false, helloOut := true, peerBad := false } ∧
      (∀ k, k ≠ l → t.link k = s.link k) ∧ t.dom.sent = s.dom.sent ++ [o] ∧ o.type = 8 ∧ o.link = l ∧
      o.payload = leBytes 4 genId ++ leBytes 4 genRev ++ leBytes 4 s.genInst ++ [0, 0, 0, 0] ∧
      t = { s with links := t.links, dom := { s.dom with sent := t.dom.sent }, free := t.free }) ∧
  (∀ (s : State) (p : Packet), p.link < s.build.dlinks → (s.link p.link).up = true →
    ∃ t, exec (.hello p) s = .next t ∧ (∀ k, k ≠ p.link → t.link k = s.link k) ∧ t.mem = s.mem ∧
      t.link p.link = { s.link p.link with
        helloIn := true, peerDie := BitVec.ofNat 7 (fieldAt p.payload 8 4 % 128), helloTb := s.tbu.tb
        peerBad := fieldAt p.payload 8 4 / 128 % 2 ^ 16 != s.pkg || byteAt p.payload 6 != 0x01 } ∧
      (∀ x ∈ t.dom.transits, x.die ≠ fieldAt p.payload 8 4 % 128) ∧
      ∀ q ∈ t.queries, ∀ x, q.visitor ≠ some (fieldAt p.payload 8 4 % 128, x)) ∧
  (∀ (s : State) (l : Nat), l < s.build.dlinks → (s.link l).up = true →
    ∃ t, exec (.linkDown l) s = .next t ∧ (∀ k, k ≠ l → t.link k = s.link k) ∧ t.mem = s.mem ∧
      t.link l = { s.link l with up := false, helloIn := false, helloOut := false, downEvt := true, downs := min 255 ((s.link l).downs + 1) } ∧
      (∀ x ∈ t.dom.transits, x.link ≠ l) ∧ ∀ d, d < 128 → s.routeTo d = some l → ∃ e ∈ t.dom.down, e = (d, s.tbu.tb)) ∧
  (∀ (s : State) (l : Nat) (d : Word), s.build.dlinks ≤ l → exec (.linkRetrain l d) s = .next s) ∧
  (∀ (s : State) (l : Nat) (d : Word), l < s.build.dlinks → s.isOpen = true →
    ∃ t, exec (.linkRetrain l d) s = .next t ∧ (t.link l).en = d.getLsbD 0 ∧ (t.link l).rate = d.getLsbD 1 ∧
      (t.link l).pkgType = d.getLsbD 2 ∧ (∀ k, k ≠ l → t.link k = s.link k) ∧ t.mem = s.mem ∧
      ((d.getLsbD 3 = true ∨ d.getLsbD 0 = false) → (s.link l).up = true → (t.link l).up = false ∧ (t.link l).downEvt = true) ∧
      (d.getLsbD 3 = false → d.getLsbD 0 = true → t = { s with links := t.links } ∧ (t.link l).up = (s.link l).up)) ∧
  (∀ (s : State) (die l : Nat) (e : Nat × Dword), s.dom.down.find? (·.1 == die) = some e → s.routeTo die = some l →
    s.linkOpen l = true → max e.2.toNat (s.link l).helloTb.toNat / 1000000 < s.tbu.tb.toNat / 1000000 →
    exec (.forwardingResume die) s = .next { s with dom := { s.dom with down := s.dom.down.filter (·.1 != die) } }) ∧
  (∀ (s : State) (p : Packet) (ty : Byte), p.link < s.build.dlinks → (s.link p.link).up = true → (ty = 0 ∨ 8 < ty.toNat) →
    ∃ t, exec (.reservedPacket ty p) s = .next t ∧ t = { s with links := t.links } ∧
      t.link p.link = { s.link p.link with badpkt := min 255 ((s.link p.link).badpkt + 1) } ∧
      ∀ k, k ≠ p.link → t.link k = s.link k)

/-! ## IMAGE_WRITE, partitions, capture and replay -/

/-- The five IMAGE_WRITE operations that pass their checks are queued and accepted; a fifth waiting one is refused with
REFUSE(BUSY) and RETRY_NS 65,535; one taken leaves all but the start-up state and the flash as taking a message does, and an
ERASE or WRITE clears the verified mark when nothing waits before it (R387, R388). Where the manual leaves room it follows the
model's own choices, log 48. -/
def Obligations.ImageWritesQueue : Prop :=
  ∀ x ∈ [((1 : Nat), Instr.imageWriteErase), (2, .imageWriteWrite), (3, .imageWriteVerify), (4, .imageWriteCommit),
      (5, .imageWriteConfirm)], ∀ (s : State) (m : Msg), s.admits 0x0F 5 m → s.imageOk x.1 m.payload = true →
    (s.boot.updQ.length < 4 →
      ∃ t, exec (x.2 m) s = .next t ∧ t.boot.updQ = s.boot.updQ ++ [imageOpOf m.payload] ∧
        t.out.Perm (s.out ++ [acceptOf m false]) ∧ s.took m { t with boot := s.boot, flash := s.flash } ∧
        (3 ≤ x.1 → t.flash = s.flash ∧ t.boot = { s.boot with updQ := t.boot.updQ }) ∧
        (x.1 ≤ 2 → s.boot.updQ = [] → t.boot.verified = none)) ∧
    (4 ≤ s.boot.updQ.length →
      ∃ t, exec (x.2 m) s = .next t ∧ t.out.Perm (s.out ++ [refuseOf m 0x0F 1 9 65535]) ∧ s.took m t)

/-- The oldest operation starts when none runs; its end takes it off the queue, sets RESULT and raises HEALTH IMAGE_OP. ERASE
leaves every byte of its slot erased; WRITE programs erased bytes, and changes nothing with NOT_ERASED otherwise; VERIFY marks a
slot that authenticates, and gives the reason of one that does not; COMMIT needs the mark and its VERSION, CONFIRM a boot as a
trial, and each appends its record; CONFIRM raises the security version. One that has run 4 times the maximum time of its erase
or program ends with FLASH_ERROR (R377, R387, R388). Where the manual leaves room it follows the model's own choices, log 8, 42,
46, 48, 49. -/
def Obligations.ImageOperations : Prop :=
  (∀ (s : State) (o : ImgOp) (rest : List ImgOp), s.boot.updQ = o :: rest → s.isOpen = true → s.boot.updRun = false →
    ∃ t, exec .imageOpStart s = .next t ∧ t = { s with boot := t.boot, flash := t.flash } ∧ (3 ≤ o.op → t.flash = s.flash) ∧
      t.boot = { s.boot with updRun := true, updAt := s.elapsed
                             verified := if o.op = 1 ∨ o.op = 2 then none else s.boot.verified }) ∧
  (∀ (s : State) (o : ImgOp) (rest : List ImgOp) (late : Bool), s.boot.updQ = o :: rest → s.isOpen = true → s.boot.updRun = true →
    (late = true → s.boot.updAt + 4 * s.opMax o ≤ s.elapsed) →
    ∃ t, exec (.imageOpDone late) s = .next t ∧ t.boot.updQ = rest ∧ t.boot.updRun = false ∧
      t = { s with boot := t.boot, flash := t.flash, fab := t.fab, fuses := t.fuses, sensed := t.sensed, free := t.free } ∧
      t.fab = (s.health 0x0120 unitInst 0xFF (if t.boot.updResult = 0 then 0 else 2)
        ([BitVec.ofNat 8 o.op, BitVec.ofNat 8 o.slot, t.boot.updResult, 0] ++ leBytes 4 o.offset)).fab ∧
      (late = true ∨ o.op ≠ 5 → t.fuses = s.fuses ∧ t.sensed = s.sensed ∧ t.boot.trial = s.boot.trial) ∧
      (late = true → t.boot.updResult = 1) ∧
      (late = false → o.op = 1 → t.boot.updResult = 0 ∧ ∀ a, NMap.get 0xFF t.flash a =
        if slotBase o.slot ≤ a ∧ a < slotBase o.slot + slotSize then 0xFF else NMap.get 0xFF s.flash a) ∧
      (late = false → o.op = 2 →
        ((∀ i, i < o.data.length → NMap.get 0xFF s.flash (slotBase o.slot + o.offset + i) = 0xFF) →
          t.boot.updResult = 0 ∧ (∀ i, i < o.data.length → NMap.get 0xFF t.flash (slotBase o.slot + o.offset + i) = byteAt o.data i) ∧
          ∀ a, (a < slotBase o.slot + o.offset ∨ slotBase o.slot + o.offset + o.data.length ≤ a) →
            NMap.get 0xFF t.flash a = NMap.get 0xFF s.flash a) ∧
        ((∃ i, i < o.data.length ∧ NMap.get 0xFF s.flash (slotBase o.slot + o.offset + i) ≠ 0xFF) →
          t.boot.updResult = 2 ∧ t.flash = s.flash)) ∧
      (late = false → o.op = 3 → t.flash = s.flash ∧
        (s.judgeSlot o.slot = none → t.boot.updResult = 0 ∧ t.boot.verified = some (s.slotVersion o.slot)) ∧
        ∀ why, s.judgeSlot o.slot = some why → t.boot.updResult = why ∧ t.boot.verified = s.boot.verified) ∧
      (late = false → o.op = 4 →
        (s.boot.verified = none → t.boot.updResult = 6 ∧ t.flash = s.flash) ∧
        ∀ v, s.boot.verified = some v → (v ≠ o.version → t.boot.updResult = 7 ∧ t.flash = s.flash) ∧
          (v = o.version → t.boot.updResult = 0 ∧
            t.flash = (s.appendCommit 1 fun c => { c with trial := o.slot, attempts := 0, trialVersion := o.version }).flash)) ∧
      (late = false → o.op = 5 →
        (s.boot.trialBoot = false → t.boot.updResult = 8 ∧ t.flash = s.flash ∧ t.fuses = s.fuses) ∧
        (s.boot.trialBoot = true → t.boot.updResult = 0 ∧ t.boot.trial = false ∧ t.fuses.svn = max s.fuses.svn s.boot.image.svn ∧
          t.flash = (s.appendCommit 3 fun c => { c with trial := 0xFF, attempts := 0, trialVersion := 0, conf := s.boot.slot
                                                        confVersion := s.boot.version }).flash)))

/-- PART_RELOAD BEGIN that passes its checks drains its partition, which without a mint command of its own is ISOLATED at once
when it has no live deposit; END of an isolated one drops its load image and has the new one read; BEGIN without such a mint
command and END are accepted. The read, once its ports issue, ends with the partition LOADED as the load image says and HEALTH
PART_LOADED, or back in ISOLATED with LOADFAIL and, when no try of it failed, its HEALTH event (R395, R397, R399). Where the manual
leaves room it follows the model's own choices, log 54. -/
def Obligations.PartitionReload : Prop :=
  (∀ (s : State) (m : Msg), s.admits 0x10 4 m → s.reloadOk 1 m.payload = true →
    let p := (byteAt m.payload 0).toNat
    ∃ t, exec (.partReloadBegin m) s = .next t ∧ t.mem = s.mem ∧ ((t.part p).st = .isolated ∨ (t.part p).st = .draining) ∧
      ((∀ c, s.mint.cur = some c → c.part ≠ p) →
        t.out.Perm (s.out ++ [acceptOf m false]) ∧ (t.part p).st = (if s.liveOf p = [] then .isolated else .draining) ∧
        ∀ q, q ≠ p → t.part q = { s.part q with cap := (t.part q).cap })) ∧
  (∀ (s : State) (m : Msg), s.admits 0x10 4 m → s.reloadOk 2 m.payload = true →
    ∃ t, exec (.partReloadEnd m) s = .next t ∧ t.out.Perm (s.out ++ [acceptOf m false]) ∧ t.mem = s.mem ∧
      (let v := t.part (byteAt m.payload 0).toNat
       v.st = .loading ∧ v.kernels = [] ∧ v.graphs = [] ∧ v.code = [] ∧ v.pages = 0 ∧
         v.loadReq = some (fieldAt m.payload 4 8, fieldAt m.payload 12 4, (s.part (byteAt m.payload 0).toNat).wins)) ∧
      ∀ p, p ≠ (byteAt m.payload 0).toNat → t.part p = { s.part p with cap := (t.part p).cap }) ∧
  (∀ (s : State) (p : Nat) (fails : Fails) (b n : Nat) (ws : NMap Win), s.isOpen = true → (s.part p).st = .loading →
    (s.part p).loadReq = some (b, n, ws) →
    let seen := s.modPart p fun v => { v with wins := ws }
    seen.rangeReady p b n false = true →
    ∃ t, exec (.partLoadDone p fails) s = .next t ∧ t.mem = s.mem ∧ (∀ q, q ≠ p → t.part q = s.part q) ∧
      (((t.part p).st = .loaded ∧ (t.part p).loadfail = 0 ∧ (t.part p).loadReq = none ∧
          (∃ bs, seen.readPart p b n = some bs ∧ s.judgeLoad p bs = .ok (t.part p)) ∧
          (s.fab.hq.length < 64 → ∃ h ∈ t.fab.hq, h.code = 0x0140)) ∨
       ((t.part p).loadfail ≠ 0 ∧
          t.part p = { s.part p with st := .isolated, loadReq := none, loadfail := (t.part p).loadfail } ∧
          (fails = [] → s.fab.hq.length < 62 → ∃ h ∈ t.fab.hq, h.code = 0x0141))))

/-- CAPTURE_CTL operations that pass their checks are accepted: START makes the capture active with an empty ring, STOP queues
the END record of an active one, REPLAY_START and REPLAY_STOP begin and end a replay, whose end HEALTH reports (R409, R411,
R412). Where the manual leaves room it follows the model's own choices, log 51. -/
def Obligations.CaptureControl : Prop :=
  (∀ (s : State) (m : Msg), s.admits 0x11 6 m → s.captureOk 1 m.payload = true →
    ∃ t, exec (.captureStart m) s = .next t ∧ t.out.Perm (s.out ++ [acceptOf m false]) ∧
      (let c := (t.part (byteAt m.payload 0).toNat).cap
       c.active = true ∧ c.wr = 0 ∧ c.rd = 0 ∧ c.num = 0 ∧ c.queue = [] ∧ c.base = fieldAt m.payload 8 8 ∧
         c.log2 = (byteAt m.payload 16).toNat) ∧ s.took m t) ∧
  (∀ (s : State) (m : Msg), s.admits 0x11 6 m → s.captureOk 2 m.payload = true →
    ∃ t, exec (.captureStop m) s = .next t ∧ t.out.Perm (s.out ++ [acceptOf m false]) ∧ s.took m t ∧
      (let c := (s.part (byteAt m.payload 0).toNat).cap
       c.active = true → (∀ r ∈ c.queue, r.last = false) →
       ∃ r ∈ (t.part (byteAt m.payload 0).toNat).cap.queue, r.last = true ∧ r.tb = s.tbu.tb)) ∧
  (∀ (s : State) (m : Msg), s.admits 0x11 6 m → s.captureOk 3 m.payload = true →
    ∃ t r, exec (.replayStart m) s = .next t ∧ t.out.Perm (s.out ++ [acceptOf m false]) ∧
      (t.part (byteAt m.payload 0).toNat).replay = some r ∧ r.base = fieldAt m.payload 8 8 ∧ r.pos = 0 ∧ r.count = 0 ∧
      r.startTb = s.tbu.tb ∧ t = { s with ports := t.ports, fab := t.fab, parts := t.parts, pwr := t.pwr } ∧
      ∀ p, p ≠ (byteAt m.payload 0).toNat → (t.part p).replay = (s.part p).replay) ∧
  (∀ (s : State) (m : Msg), s.admits 0x11 6 m → s.captureOk 4 m.payload = true →
    ∃ t, exec (.replayStop m) s = .next t ∧ t.out.Perm (s.out ++ [acceptOf m false]) ∧
      (t.part (byteAt m.payload 0).toNat).replay = none ∧
      (∀ r, (s.part (byteAt m.payload 0).toNat).replay = some r →
        t.fab.hq = (s.health 0x0143 (unitPart (byteAt m.payload 0).toNat) (byteAt m.payload 0).toNat 0 (leBytes 4 r.count ++ [4])).fab.hq) ∧
      t = { s with ports := t.ports, fab := t.fab, parts := t.parts, pwr := t.pwr })

/-- The oldest decided record of an active capture goes into the ring and WR moves on behind it, and memory changes only within
the lines written; without room the capture ends with OVF, at a window miss or a write that fails finally with MEMFAIL (R410,
R411). A replay ends at a number that does not follow, at END and at the ring's end, skips PAD and refused records, and injects
a recorded BUDGET without an answer (R412 to R414). Where the manual leaves room it follows the model's own choices, log 51, 52,
73. -/
def Obligations.CaptureRecordsAndReplay : Prop :=
  (∀ (s : State) (p : Nat) (r : CapRec) (rest : List CapRec) (fails : List MemFail), s.boot.phase ≠ .tripped → s.bordered p = false →
    (s.part p).cap.active = true → (s.part p).cap.queue = r :: rest → r.answer.isSome = true →
    let c := (s.part p).cap
    ((c.place r.rlen).2.2 = false →
      ∃ t, exec (.captureRecordWrite p fails) s = .next t ∧ (t.part p).cap.active = false ∧ (t.part p).cap.ovf = true ∧
        (∀ q, q ≠ p → t.part q = s.part q) ∧ t.mem = s.mem) ∧
    ((c.place r.rlen).2.2 = true →
      (∀ w, ∃ ws, s.capWrites p (c.writes r w) = some ws ∧ ∀ x ∈ ws, s.portEn x.1 = true) →
      ∃ t w ws, exec (.captureRecordWrite p fails) s = .next t ∧ s.capWrites p (c.writes r w) = some ws ∧
        (∀ q, q ≠ p → t.part q = s.part q) ∧
        (∀ a, (∀ x ∈ ws, lineOf a ∉ linesOf x.1 x.2.length) → t.mem.read a = s.mem.read a) ∧
        (fails.length < 4 → (t.part p).cap = { c with
            wr := BitVec.ofNat 32 (((c.place r.rlen).1 + r.rlen) % 2 ^ c.log2), num := c.num + 1, queue := rest, active := !r.last } ∧
          ∀ x, ws.getLast? = some x → ∀ i, i < x.2.length → t.mem.read (x.1 + i) = byteAt x.2 i) ∧
        (4 ≤ fails.length → (t.part p).cap.active = false ∧ (t.part p).cap.memfail = true)) ∧
    ((c.place r.rlen).2.2 = true → (∀ w, s.capWrites p (c.writes r w) = none) →
      ∃ t, exec (.captureRecordWrite p fails) s = .next t ∧ (t.part p).cap.active = false ∧ (t.part p).cap.memfail = true ∧
        t.mem = s.mem)) ∧
  (∀ (s : State) (p : Nat) (r : Replay), s.isOpen = true → (s.part p).replay = some r →
    let ends := fun (why : Byte) => ∃ t, exec (.replayInject p) s = .next t ∧ (t.part p).replay = none ∧
      (∀ q, q ≠ p → t.part q = s.part q) ∧ t = { s with parts := t.parts, fab := t.fab } ∧
      t.fab = (s.health 0x0143 (unitPart p) p 0 (leBytes 4 r.count ++ [why])).fab
    (2 ^ r.log2 < r.pos + 32 → ends 2) ∧
    (∀ hd, r.pos + 32 ≤ 2 ^ r.log2 → s.readPart p (r.base + r.pos) 32 = some hd →
      (bitAt (byteAt hd 14).toNat 7 = true →
        ∃ t, exec (.replayInject p) s = .next t ∧ (t.part p).replay = some { r with pos := r.pos + fieldAt hd 12 2 } ∧
          t = { s with parts := t.parts }) ∧
      (bitAt (byteAt hd 14).toNat 7 = false → (∃ k, r.lastNum = some k ∧ fieldAt hd 8 4 ≠ (k + 1) % 2 ^ 32) → ends 3) ∧
      (bitAt (byteAt hd 14).toNat 7 = false → (∀ k, r.lastNum = some k → fieldAt hd 8 4 = (k + 1) % 2 ^ 32) →
        (bitAt (byteAt hd 14).toNat 6 = true → ends 1) ∧
        (bitAt (byteAt hd 14).toNat 6 = false → byteAt hd 15 ≠ 0 →
          ∃ t, exec (.replayInject p) s = .next t ∧ t = { s with parts := t.parts } ∧
            (t.part p).replay = some { r with pos := r.pos + fieldAt hd 12 2, lastNum := some (fieldAt hd 8 4) }) ∧
        (bitAt (byteAt hd 14).toNat 6 = false → byteAt hd 15 = 0 → (s.part p).cap.paced = false →
          (∀ bs, s.readPart p (r.base + r.pos) (fieldAt hd 12 2) = some bs → byteAt bs 16 = 0x09 →
            s.budgetOk (recordedMsg bs).2.payload = true → fieldAt (recordedMsg bs).2.payload 8 8 ≤ s.tbu.tb.toNat →
            ∃ t, exec (.replayInject p) s = .next t ∧ t.out = s.out ∧
              t.pwr.bcap = BitVec.ofNat 32 (fieldAt (recordedMsg bs).2.payload 0 4) ∧
              ∃ x, (t.part p).replay = some x ∧ x.count = r.count + 1 ∧ x.pos = r.pos + fieldAt hd 12 2)))))

/-! ## The ledger -/

/-- A DEPOSIT that passes its checks. A new one for which there is room joins the live deposits with its body's fields, claims
the buffer it names, whose GEN grows by 1, and has its DEPOSIT record written to its ring's next slot; it is not answered yet. A
resent one whose record is still being written waits for that; one whose SEQ is not above LAST_ACC is answered ACCEPT with DUP,
while the rings are formatted or scanned BUSY. With the journal off, beyond LIVE_MAX or for a claimed buffer it is refused with
QUOTA; without room or a window for its record, or while a locked pair is split, with BUSY; against an opposite MPORT write of
its aclk cycle with BUSY, check 0 (R15, R28, R104, R254, R257 to R259, R281, R287, R311). A refused one leaves no other trace than its flits, its
answer and a capture record, but that GEN stays where its buffer was claimed. Where the manual leaves room it follows the model's own choices, log 9, 93. -/
def Obligations.DepositsAreJournaled : Prop :=
  ∀ (s : State) (m : Msg), s.admits 1 0 m →
    let p := (s.strm m.stream.toNat).part.toNat
    let b := parseDeposit m.payload
    let ring := m.stream.toNat % s.nclusters
    let home := s.homeOf m.stream.toNat
    let j := (s.part p).jrnl
    let slot := s.translate p (j.slotAddr ring (j.written ring)) 64 true
    let buf := fun (t : State) => ((t.part p).pool (poolOf b.buffer)).buf (indexOf b.buffer)
    let answered := fun (reason check lo hi : Nat) =>
      ∃ t n, exec (.deposit m) s = .next t ∧ lo ≤ n ∧ n ≤ hi ∧ t.out.Perm (s.out ++ [refuseOf m 1 reason check n]) ∧ s.took m t
    (s.depositOverruled p m b = true → s.depositOk p false m = true → answered 1 0 1000 65535) ∧
    (s.depositOverruled p m b = false → s.depositOk p false m = true →
      ((s.part p).split = true → answered 1 9 1000 65535) ∧
      ((s.part p).split = false → j.en = false → answered 7 8 0 0) ∧
      ((s.part p).split = false → j.en = true → m.seq.toNat ≤ (s.strm m.stream.toNat).lastAcc.toNat →
        (j.formatting = true ∨ j.replaying = true → answered 1 9 1000 65535) ∧
        (j.formatting = false → j.replaying = false →
          ∃ t, exec (.deposit m) s = .next t ∧ t.out.Perm (s.out ++ [acceptOf m true]) ∧ s.took m t)) ∧
      ((s.part p).split = false → j.en = true → (s.strm m.stream.toNat).lastAcc.toNat < m.seq.toNat →
        (∀ d, s.pendingTwin m = some d → s.dep? d.id = some d →
          ∃ t, exec (.deposit m) s = .next t ∧ t.out = s.out ∧ s.took m { t with deps := s.deps } ∧
            t.dep? d.id = some { d with dupHeld := d.dupHeld ++ [(s.elapsed, m)] } ∧ ∀ i, i ≠ d.id → t.dep? i = s.dep? i) ∧
        (s.pendingTwin m = none →
          b.dmode = 0 ∨ (b.dmode = 1 ∧ ∀ i ∈ s.pending, (∀ port tag, i ≠ .retireRecordAck port tag) ∧ ∀ x, i ≠ .deposit x) →
          (s.quotaFault p b = true → answered 7 8 0 0) ∧
          (s.quotaFault p b = false → s.depositBusy p ring home b = true ∨ slot = none →
            (b.dmode = 0 → answered 1 9 1000 65535) ∧
            (b.dmode = 1 →
              ∃ t n, exec (.deposit m) s = .next t ∧ 1000 ≤ n ∧ n ≤ 65535 ∧ t.out.Perm (s.out ++ [refuseOf m 1 1 9 n]) ∧
                t.deps = s.deps ∧ t.accs = s.accs ∧ t.mem = s.mem ∧ buf t = { buf s with gen := (buf s).gen + 1 })) ∧
          (∀ sys, s.quotaFault p b = false → s.depositBusy p ring home b = false → slot = some sys →
            ∃ t d a, exec (.deposit m) s = .next t ∧ t.out = s.out ∧ t.deps = s.deps ++ [d] ∧ t.accs = s.accs ++ [a] ∧
              t.nextDep = s.nextDep + 1 ∧ d.id = s.nextDep ∧ d.part = p ∧ d.step = .journal ∧ d.answered = false ∧ d.home = home ∧
              d.ring = ring ∧ d.stream = m.stream ∧ d.sgen = m.sgen ∧ d.seq = m.seq ∧ d.peer = m.peer ∧ d.qbase = b.qbase ∧
              d.qcount = b.qcount ∧ d.graphId = b.graphId ∧ d.handle = b.handle ∧ d.dmode = b.dmode ∧ d.endpoint = b.endpoint ∧
              d.release = b.release ∧ a.write = true ∧ a.addr = sys ∧ a.part = p ∧ a.purpose = .depositRec d.id ∧
              a.data = journalRecord 1 (j.written ring / j.slots) d (depositBody d) ∧
              (b.dmode = 1 → (buf t).gen = (buf s).gen + 1 ∧ (buf t).claim = some d.id ∧ (buf t).owner = some (p, m.stream.toNat) ∧
                d.buffer = BitVec.ofNat 32 (((buf s).gen + 1).toNat * 2 ^ 24 + poolOf b.buffer * 2 ^ 20 + indexOf b.buffer)) ∧
              (b.dmode = 0 → (t.part p).pools = (s.part p).pools) ∧
              ((t.part p).jrnl = { j with rings := NMap.put 0 j.rings ring (j.written ring + 1) }) ∧
              (∀ q, q ≠ p → t.part q = s.part q) ∧
              t = { s with ports := t.ports, fab := t.fab, parts := t.parts, pwr := t.pwr, free := t.free, deps := t.deps, nextDep := t.nextDep
                           accs := t.accs }))))

/-- The acknowledgement of a DEPOSIT record accepts its deposit: LAST_ACC is its SEQ, ACCEPT leaves unless BUSY has gone, and what waited for
the record is answered: a resent DEPOSIT with ACCEPT and DUP or, of another body, MALFORMED, an EVENT with ACCEPT. That of a GATE record puts
its bits into the gate word and answers the EVENTs that waited; that of a RETIRE record retires the deposit and frees the buffer its list
names; that of a buffer header makes the deposit delivered. The record is in memory then, and no byte outside its lines has changed (R28,
R99, R104, R259, R268, R283, R287). Where the manual leaves room it follows the model's own choices, log 31. -/
def Obligations.RecordAcknowledgements : Prop :=
  ∀ (s : State) (port tag : Nat) (a : Acc), s.boot.phase ≠ .tripped → s.acc? port tag true = some a →
    let written := fun (t : State) => (a.applied = false → ∀ i, i < a.data.length → t.mem.read (a.addr + i) = byteAt a.data i) ∧
      ∀ x, lineOf x ∉ linesOf a.addr a.data.length → t.mem.read x = s.mem.read x
    (∀ dep d, a.purpose = .depositRec dep → s.dep? dep = some d → s.heldFor d.stream d.sgen d.seq = none →
      ∃ t d', exec (.journalWriteAck port tag) s = .next t ∧ (t.strm d.stream.toNat).lastAcc = d.seq ∧
        (∀ k, k ≠ d.stream.toNat → t.strm k = s.strm k) ∧
        t.out.Perm (s.out ++ (if d.answered || d.injected then [] else [acceptOf d.asMsg false]) ++
          (d.dupHeld.map fun x => if d.sameBody (parseDeposit x.2.payload) then acceptOf x.2 true else refuseOf x.2 1 5 7 0) ++
          d.gateWaiters.map fun x => acceptOf x.2 false) ∧
        t.dep? dep = some d' ∧ d'.answered = true ∧ d'.step ≠ .journal ∧ d'.dupHeld = [] ∧ d'.gateWaiters = [] ∧ d'.gate = d.gate ∧ written t) ∧
    (∀ dep bits ms d, a.purpose = .gateRec dep bits ms → s.dep? dep = some d →
      ∃ t d', exec (.gateRecordAck port tag) s = .next t ∧ t.dep? dep = some d' ∧ d'.gate = d.gate ||| bits ∧
        t.out.Perm (s.out ++ ms.map fun x => acceptOf x.2 false) ∧ written t) ∧
    (∀ dep d, a.purpose = .retireRec dep → s.dep? dep = some d →
      ∃ t, exec (.retireRecordAck port tag) s = .next t ∧ t.dep? dep = none ∧ t.queries = s.queries ∧ t.out = s.out ∧
        (∀ i, i ≠ dep → (s.dep? i).isSome = true → (t.dep? i).isSome = true) ∧ written t ∧
        ∀ h e, d.freeList = [h] → s.dep? ((((s.part d.part).pool (poolOf h)).buf (indexOf h)).claim.getD dep) = some e → e.receiptOut = true →
          (((s.part d.part).pool (poolOf h)).buf (indexOf h)).claim.isSome = true →
          (((s.part d.part).pool (poolOf h)).buf (indexOf h)).gen.toNat = h.toNat / 2 ^ 24 →
          (((s.part d.part).pool (poolOf h)).buf (indexOf h)).owner = some (d.part, d.stream.toNat) →
          (((t.part d.part).pool (poolOf h)).buf (indexOf h)).claim = none) ∧
    (∀ dep d, a.purpose = .resultHdr dep → s.dep? dep = some d →
      ∃ t, exec (.bufferHeaderAck port tag) s = .next t ∧ t.dep? dep = some { d with step := .delivered } ∧ t.out = s.out ∧ written t)

/-- The RECEIPT of a delivered deposit leaves when its turn in its stream has come, and again, up to three times, after each 1
ms without RECEIPT_ACK; the fourth time it goes to the source of the DEPOSIT with HEALTH ENDPOINT_REFUSED, and a redirected one
then is given up: the deposit is retired with HEALTH RECEIPT_UNACKED (R30, R263, R265, R284). RECEIPT_ACK
puts the deposit into retirement with its free list and gets no answer; while its partition replays it is discarded. An endpoint's REFUSE(STALE) of
the RECEIPT has it redirected, and one of the redirected RECEIPT retires the deposit; any other reason changes nothing (R255, R261, R265, R266,
R413). -/
def Obligations.ReceiptsAndTheirAnswers : Prop :=
  (∀ (s : State) (dep : Nat) (d : Dep), s.isOpen = true → s.dep? dep = some d →
    (d.step = .delivered → s.receiptTurn d = true →
      ∃ t, exec (.receiptSend dep) s = .next t ∧ t.out.Perm (s.out ++ [receiptMsg d]) ∧
        t.dep? dep = some { d with step := .receipt, receiptAt := s.elapsed } ∧ (∀ i, i ≠ dep → t.dep? i = s.dep? i) ∧
        t = { s with fab := t.fab, ports := t.ports, deps := t.deps }) ∧
    (d.step = .delivered → s.receiptTurn d = false → exec (.receiptSend dep) s = .next s) ∧
    (d.step = .receipt → d.receiptAt + 1000000 ≤ s.elapsed → d.resends < 3 →
      ∃ t, exec (.receiptTimeout dep) s = .next t ∧ t.out.Perm (s.out ++ [receiptMsg d]) ∧
        t.dep? dep = some { d with resends := d.resends + 1, receiptAt := s.elapsed } ∧ (∀ i, i ≠ dep → t.dep? i = s.dep? i) ∧
        t = { s with fab := t.fab, ports := t.ports, deps := t.deps }) ∧
    (d.step = .receipt → d.receiptAt + 1000000 ≤ s.elapsed → 3 ≤ d.resends → d.redirected = false →
      ∃ t, exec (.receiptTimeout dep) s = .next t ∧ (∃ o ∈ t.out, o = receiptMsg { d with redirected := true }) ∧
        t.dep? dep = some { d with redirected := true, stopDelivery := true, resends := 0, receiptAt := s.elapsed } ∧
        (∀ i, i ≠ dep → t.dep? i = s.dep? i) ∧ t = { s with fab := t.fab, ports := t.ports, deps := t.deps } ∧
        (s.fab.hq.length < 64 → ∃ h ∈ t.fab.hq, h.code = 0x14)) ∧
    (d.step = .receipt → d.receiptAt + 1000000 ≤ s.elapsed → 3 ≤ d.resends → d.redirected = true →
      ∃ t d', exec (.receiptTimeout dep) s = .next t ∧ t.dep? dep = some d' ∧ d'.step = .retiring ∧ d'.rreason = 1 ∧ d'.freeList = [] ∧
        t.out = s.out ∧ (s.fab.hq.length < 64 → ∃ h ∈ t.fab.hq, h.code = 0x15)) ∧
    (s.elapsed < d.receiptAt + 1000000 → exec (.receiptTimeout dep) s = .next s)) ∧
  (∀ (c : Msg → Instr) (ty : Byte) (s : State) (m : Msg) (d : Dep), ((c = .receiptAck ∧ ty = 5) ∨ (c = .endpointRefuse ∧ ty = 3)) →
    m.port < s.nfports → s.portTakes m.port = true → s.boot.phase = .opened → wellSized ty m = true →
    ((s.strm m.stream.toNat).en = true ∨ (s.strm m.stream.toNat).closing = true) → m.sgen = (s.strm m.stream.toNat).gen →
    s.depNamed m = some d → s.dep? d.id = some d → d.step = .receipt → d.dest.toNat % 2 ^ 20 = m.peer.toNat % 2 ^ 20 →
    ((s.part (s.strm m.stream.toNat).part.toNat).st = .loaded ∨ (s.part (s.strm m.stream.toNat).part.toNat).st = .draining) →
    (ty = 5 → (s.part (s.strm m.stream.toNat).part.toNat).replay = none →
      ∃ t d', exec (c m) s = .next t ∧ t.dep? d.id = some d' ∧ d'.step = .retiring ∧ d'.rreason = 0 ∧
        d'.freeList = handlesOf m.payload ∧ t.out = s.out ∧ t.mem = s.mem) ∧
    (ty = 5 → (s.part (s.strm m.stream.toNat).part.toNat).replay ≠ none → ∃ t, exec (c m) s = .next t ∧ s.took m t ∧ t.out = s.out) ∧
    (ty = 3 → byteAt m.payload 0 = 3 → byteAt m.payload 1 = 4 → d.redirected = false →
      ∃ t, exec (c m) s = .next t ∧ (∃ o ∈ t.out, o = receiptMsg { d with redirected := true }) ∧
        t.dep? d.id = some { d with redirected := true, stopDelivery := true, resends := 0, receiptAt := s.elapsed }) ∧
    (ty = 3 → byteAt m.payload 0 = 3 → byteAt m.payload 1 = 4 → d.redirected = true →
      ∃ t d', exec (c m) s = .next t ∧ t.dep? d.id = some d' ∧ d'.step = .retiring ∧ d'.rreason = 1 ∧ t.out = s.out) ∧
    (ty = 3 → byteAt m.payload 0 ≠ 3 → ∃ t, exec (c m) s = .next t ∧ s.took m t ∧ t.out = s.out))

/-- 1.5 µs after its arrival a DEPOSIT whose record is not acknowledged is refused with BUSY, while its record stays under
way; so are a resent DEPOSIT held behind it, an EVENT held for a deposit not yet accepted, and an EVENT whose GATE record is not acknowledged;
an earlier command changes nothing (R29, R256, R268, R287). Where the manual leaves room it follows the model's own choices, log 9. -/
def Obligations.AcceptBounds : Prop :=
  ∀ (s : State) (stream : Half) (seq : Word),
    let busy := fun (t : State) (n : Nat) (m : Msg) (ty : Byte) => 1000 ≤ n ∧ n ≤ 65535 ∧ t.out.Perm (s.out ++ [refuseOf m ty 1 9 n])
    (∀ d, s.deps.find? (fun d => d.stream == stream && d.seq == seq && d.step == .journal) = some d → s.dep? d.id = some d →
      (d.answered = false → d.injected = false → d.arrived + 1500 ≤ s.elapsed →
        ∃ t n, exec (.acceptBoundExpiry .journal stream seq) s = .next t ∧ busy t n d.asMsg 1 ∧
          t.dep? d.id = some { d with answered := true } ∧ t.accs = s.accs ∧ t.strms = s.strms) ∧
      (s.elapsed < d.arrived + 1500 → exec (.acceptBoundExpiry .journal stream seq) s = .next s) ∧
      (∀ at' m rest, d.dupHeld = (at', m) :: rest →
        (at' + 1500 ≤ s.elapsed →
          ∃ t n, exec (.acceptBoundExpiry .held stream seq) s = .next t ∧ busy t n m 1 ∧
            t.dep? d.id = some { d with dupHeld := rest } ∧ t.accs = s.accs) ∧
        (s.elapsed < at' + 1500 → exec (.acceptBoundExpiry .held stream seq) s = .next s))) ∧
    (∀ h at' m rest, s.gateWaits stream seq = [.held h] → s.heldFor h.stream h.sgen h.seq = some h → h.waiters = (at', m) :: rest →
      (at' + 1500 ≤ s.elapsed →
        ∃ t n, exec (.acceptBoundExpiry .gate stream seq) s = .next t ∧ busy t n m 7 ∧
          t.heldFor h.stream h.sgen h.seq = some { h with waiters := rest } ∧ t.deps = s.deps) ∧
      (s.elapsed < at' + 1500 → exec (.acceptBoundExpiry .gate stream seq) s = .next s)) ∧
    (∀ a dep bits at' m rest, s.gateWaits stream seq = [.acc a] → a ∈ s.accs → a.write = true → a.purpose = .gateRec dep bits ((at', m) :: rest) →
      (∀ x ∈ s.accs, x.port = a.port → x.tag = a.tag → x.write = true → x = a) →
      (at' + 1500 ≤ s.elapsed →
        ∃ t n, exec (.acceptBoundExpiry .gate stream seq) s = .next t ∧ busy t n m 7 ∧ t.deps = s.deps ∧
          { a with purpose := .gateRec dep bits rest } ∈ t.accs) ∧
      (s.elapsed < at' + 1500 → exec (.acceptBoundExpiry .gate stream seq) s = .next s))

/-- A GATE EVENT that passes its checks: for a deposit whose RECEIPT has gone, or one at or below LAST_ACC that is no longer
live, it is accepted without effect; for one of the next eight its bits are held and its answer waits; beyond them it is
refused with BUSY, and so it is while the rings are formatted or scanned; for a live accepted deposit a GATE record is written first, and with
no room for it, or no window, it is refused with BUSY (R267, R268). Where the manual leaves room it follows the model's own choices, log 9, 55. -/
def Obligations.GateEvents : Prop :=
  ∀ (s : State) (m : Msg), s.admits 7 0 m → byteAt m.payload 0 = 1 →
    let j := (s.part (s.strm m.stream.toNat).part.toNat).jrnl
    let last := (s.strm m.stream.toNat).lastAcc.toNat
    let accepted := ∃ t, exec (.eventGate m) s = .next t ∧ t.out.Perm (s.out ++ [acceptOf m false]) ∧ s.took m t
    let busy := ∃ t n, exec (.eventGate m) s = .next t ∧ 1000 ≤ n ∧ n ≤ 65535 ∧ t.out.Perm (s.out ++ [refuseOf m 7 1 9 n]) ∧ s.took m t
    (j.formatting = true ∨ j.replaying = true → busy) ∧
    (j.formatting = false → j.replaying = false →
      (∀ d, s.depNamed m = some d → (d.step = .receipt ∨ d.step = .retiring) → accepted) ∧
      (∀ d, s.depNamed m = some d → d.step ≠ .journal → d.step ≠ .receipt → d.step ≠ .retiring →
        let slot := (s.part d.part).jrnl.slotAddr d.ring ((s.part d.part).jrnl.written d.ring)
        (∀ sys, s.ringRoom d.part d.ring 0 = true → s.translate d.part slot 64 true = some sys →
          ∃ t x, exec (.eventGate m) s = .next t ∧ t.out = s.out ∧ t.accs = s.accs ++ [x] ∧ x.addr = sys ∧ x.write = true ∧
            x.data = journalRecord 2 ((s.part d.part).jrnl.written d.ring / (s.part d.part).jrnl.slots) d
              (gateBody d (BitVec.ofNat 16 (fieldAt m.payload 2 2))) ∧
            x.purpose = .gateRec d.id (BitVec.ofNat 16 (fieldAt m.payload 2 2)) [(s.elapsed, m)] ∧ t.deps = s.deps) ∧
        (s.ringRoom d.part d.ring 0 = false ∨ s.translate d.part slot 64 true = none → busy)) ∧
      ((∀ d, s.depNamed m = some d → d.step = .journal) →
        (m.seq.toNat ≤ last → accepted) ∧
        (last < m.seq.toNat → m.seq.toNat ≤ last + 8 → s.heldFor m.stream m.sgen m.seq = none →
          ∃ t h, exec (.eventGate m) s = .next t ∧ t.out = s.out ∧ t.heldFor m.stream m.sgen m.seq = some h ∧
            h.bits = BitVec.ofNat 16 (fieldAt m.payload 2 2) ∧ h.waiters = [(s.elapsed, m)] ∧ t.deps = s.deps) ∧
        (∀ h, last < m.seq.toNat → m.seq.toNat ≤ last + 8 → s.heldFor m.stream m.sgen m.seq = some h →
          ∃ t h', exec (.eventGate m) s = .next t ∧ t.out = s.out ∧ t.heldFor m.stream m.sgen m.seq = some h' ∧
            h'.bits = h.bits ||| BitVec.ofNat 16 (fieldAt m.payload 2 2) ∧ h'.waiters = h.waiters ++ [(s.elapsed, m)] ∧ t.deps = s.deps) ∧
        (last + 8 < m.seq.toNat → busy)))

/-! ## Pools, journal rings, memory ports -/

/-- A result pool goes on when its count and size are in range, and off at once when no buffer is claimed, else it drains
(R103). PRT_JRNL_CFG with EN 1 formats the rings, a write of zeros to every slot that a window lets it write, and FORMATTING until the last is
acknowledged, when every slot written reads 0; with RESUME it scans them instead; a JLOG2 out of range leaves it off, and EN 0 is ignored while a
deposit is live (R277, R278). Where the manual leaves room it follows the model's own choices, log 8, 39. -/
def Obligations.PoolsAndJournalRings : Prop :=
  ((∀ (s : State) (p n : Nat) (d : Word), s.isOpen = true → ((s.part p).pool n).en = false →
    ∃ t, exec (.poolEnable p n d) s = .next t ∧ t = { s with parts := t.parts } ∧ (∀ q, q ≠ p → t.part q = s.part q) ∧
      (∀ k, k ≠ n → (t.part p).pool k = (s.part p).pool k) ∧ t.part p = { s.part p with pools := (t.part p).pools } ∧
      (t.part p).pool n = { (s.part p).pool n with
        count := (d >>> 16).setWidth 16, sizeLog2 := (d >>> 8).setWidth 5
        draining := ((s.part p).pool n).draining && !((t.part p).pool n).en
        en := d.getLsbD 0 && decide (65536 ≤ d.toNat) && decide (12 ≤ d.toNat / 256 % 32) && decide (d.toNat / 256 % 32 ≤ 24) }) ∧
  (∀ (s : State) (p n aclk : Nat) (d : Word), s.isOpen = true → ((s.part p).pool n).en = true → d.getLsbD 0 = false →
    ∃ t, exec (.poolDisable p n ⟨aclk, d⟩) s = .next t ∧
      t = { s with parts := t.parts, fab := { s.fab with mportOrders := t.fab.mportOrders } } ∧ (∀ q, q ≠ p → t.part q = s.part q) ∧
      (∀ k, k ≠ n → (t.part p).pool k = (s.part p).pool k) ∧ t.part p = { s.part p with pools := (t.part p).pools } ∧
      ((∀ b ∈ ((s.part p).pool n).bufs, b.2.claim = none) →
        (t.part p).pool n = { (s.part p).pool n with en := false, draining := false }) ∧
      ((∃ b ∈ ((s.part p).pool n).bufs, b.2.claim ≠ none) → (t.part p).pool n = { (s.part p).pool n with draining := true }))) ∧
  ((∀ (s : State) (p : Nat) (d : Word), s.isOpen = true → (s.part p).jrnl.en = false → d.getLsbD 0 = true →
    10 ≤ d.toNat / 256 % 32 → d.toNat / 256 % 32 ≤ 20 →
    (d.getLsbD 1 = false →
      ∃ t, exec (.journalFormat p d) s = .next t ∧ t = { s with parts := t.parts, accs := t.accs, pwr := t.pwr } ∧
        t.part p = { s.part p with jrnl := { (s.part p).jrnl with
          jlog2 := BitVec.ofNat 5 (d.toNat / 256), resume := false, en := true, formatting := true, rings := [] } } ∧
        (∀ q, q ≠ p → t.part q = s.part q) ∧
        (∀ a ∈ t.accs, a ∈ s.accs ∨ (a.purpose = .format p ∧ a.write = true ∧ a.data = List.replicate 64 0)) ∧
        ∀ k sys, k < s.nclusters * 2 ^ (d.toNat / 256 % 32) → s.translate p ((s.part p).jrnl.base.toNat + 64 * k) 64 true = some sys →
          ∃ a ∈ t.accs, a.purpose = .format p ∧ a.addr = sys) ∧
    (d.getLsbD 1 = true →
      ∃ t, exec (.journalResume p d) s = .next t ∧ t = { s with parts := t.parts } ∧ (∀ q, q ≠ p → t.part q = s.part q) ∧
        t.part p = { s.part p with jrnl := { (s.part p).jrnl with
          jlog2 := BitVec.ofNat 5 (d.toNat / 256), resume := true, en := true, replaying := true } })) ∧
  (∀ (c : Nat → Word → Instr) (s : State) (p : Nat) (d : Word), (c = .journalFormat ∨ c = .journalResume) → s.isOpen = true →
    (s.part p).jrnl.en = false → (d.toNat / 256 % 32 < 10 ∨ 20 < d.toNat / 256 % 32) →
    ∃ t, exec (c p d) s = .next t ∧ t = { s with parts := t.parts } ∧ (∀ q, q ≠ p → t.part q = s.part q) ∧
      t.part p = { s.part p with jrnl := { (s.part p).jrnl with
        jlog2 := BitVec.ofNat 5 (d.toNat / 256), resume := d.getLsbD 1, en := false } }) ∧
  (∀ (s : State) (p aclk : Nat) (d : Word), s.isOpen = true → (s.part p).jrnl.en = true → d.getLsbD 0 = false →
    (s.liveOf p = [] →
      ∃ t, exec (.journalDisable p ⟨aclk, d⟩) s = .next t ∧
        t = { s with parts := t.parts, fab := { s.fab with mportOrders := t.fab.mportOrders } } ∧ (∀ q, q ≠ p → t.part q = s.part q) ∧
        t.part p = { s.part p with jrnl := { (s.part p).jrnl with en := false } }) ∧
    (s.liveOf p ≠ [] → exec (.journalDisable p ⟨aclk, d⟩) s = .next s)) ∧
  (∀ (s : State) (p : Nat), (s.part p).jrnl.formatting = true → s.boot.phase ≠ .tripped →
    ((∀ a ∈ s.accs, a.purpose = .format p →
        s.formatGoes a = true ∧ a.write = true ∧ a.applied = false ∧ a.data = List.replicate 64 0 ∧ a.addr % 64 = 0) →
      ∃ t, exec (.journalFormatDone p) s = .next t ∧
        t.part p = { s.part p with jrnl := { (s.part p).jrnl with formatting := false } } ∧
        (∀ q, q ≠ p → t.part q = s.part q) ∧ (∀ a ∈ t.accs, a.purpose ≠ .format p) ∧
        (∀ a ∈ s.accs, a.purpose = .format p → ∀ i, i < 64 → t.mem.read (a.addr + i) = 0) ∧
        ∀ x, (∀ a ∈ s.accs, a.purpose = .format p → lineOf x ≠ lineOf a.addr) → t.mem.read x = s.mem.read x) ∧
    ((∃ a ∈ s.accs, a.purpose = .format p ∧ s.formatGoes a = false) → exec (.journalFormatDone p) s = .next s)))

/-- A response with STATUS ERROR, a reserved STATUS, or POISON of the granule read is counted and the access, unless it writes a record to
a result buffer whose writing has failed, repeated 1 µs later, up to three times; so is one that 5 µs leave without a response, whose tag stays unused until its late response is counted. POISON of another granule is counted alone. A fourth
failure is final: HEALTH MEMPORT_FAULT is raised, and no byte of memory changes (R296, R319, R322, R432). Where the manual leaves room it follows the model's
own choices, log 55, 63, 66, 88. -/
def Obligations.MemoryPortFailures : Prop :=
  (∀ (s : State) (port tag : Nat) (w : Bool) (a : Acc), port < s.nmports → s.boot.phase ≠ .tripped → a.st = .out →
    s.accs.find? (fun a => a.port == port && a.tag == tag && a.write == w) = some a →
    let counted := fun (t : State) (v : MPort) => t.mport port = v ∧ ∀ k, k ≠ port → t.mport k = s.mport k
    (∀ pmask, exec (.memAccessFailure port tag w ⟨0, pmask⟩) s = .next s) ∧
    (∀ pmask : Byte, w = false → pmask.getLsbD 0 = false →
      ∃ t, exec (.memAccessFailure port tag w ⟨2, pmask⟩) s = .next t ∧ t = { s with mports := t.mports } ∧
        counted t { s.mport port with poison := satInc (s.mport port).poison 1 }) ∧
    (a.tries < 3 → s.voidWrite a = none →
      (∀ st pmask : Byte, st ≠ 0 → (st ≠ 2 ∨ w = true) →
        ∃ t, exec (.memAccessFailure port tag w ⟨st, pmask⟩) s = .next t ∧
          t = { s with mports := t.mports, accs := t.accs } ∧
          counted t { s.mport port with errors := satInc (s.mport port).errors 1 } ∧
          { a with tries := a.tries + 1, st := .retryAt (s.elapsed + 1000) } ∈ t.accs) ∧
      (∀ pmask : Byte, w = false → pmask.getLsbD 0 = true →
        ∃ t, exec (.memAccessFailure port tag w ⟨2, pmask⟩) s = .next t ∧ t = { s with mports := t.mports, accs := t.accs } ∧
          counted t { s.mport port with poison := satInc (s.mport port).poison 1 } ∧
          { a with tries := a.tries + 1, st := .retryAt (s.elapsed + 1000) } ∈ t.accs) ∧
      (a.issued + 5000 ≤ s.elapsed →
        ∃ t b, exec (.memAccessTimeout port tag w) s = .next t ∧
          t = { s with mports := t.mports, accs := t.accs, lateTags := t.lateTags } ∧
          counted t { s.mport port with timeouts := satInc (s.mport port).timeouts 1 } ∧
          t.lateTags = s.lateTags ++ [{ port := port, tag := tag, write := w, timedOut := true }] ∧ b ∈ t.accs ∧ b.tag ≠ tag ∧
          b = { a with tag := b.tag, tries := a.tries + 1, st := .retryAt (s.elapsed + 1000) }) ∧
      (s.elapsed < a.issued + 5000 → exec (.memAccessTimeout port tag w) s = .next s)) ∧
    (∀ st pmask : Byte, st ≠ 0 → (st = 2 → w = false → pmask.getLsbD 0 = true) → a.tries % 4 = 3 → s.voidWrite a = none →
      ∃ t, exec (.memAccessFailure port tag w ⟨st, pmask⟩) s = .next t ∧ t.mem = s.mem ∧
        (s.fab.hq.length < 64 → ∃ h ∈ t.fab.hq, h.code = 9 ∧ h.tb = s.tbu.tb ∧ h.part = BitVec.ofNat 8 a.part))) ∧
  (∀ (s : State) (port tag t0 : Nat) (w : Bool) (a : Acc), port < s.nmports → s.boot.phase ≠ .tripped →
    s.accs.find? (fun a => a.port == port && a.tag == tag && a.write == w) = some a → t0 ≤ s.elapsed → (s.mport port).en = true →
    tag < tagLimit w → s.bordered a.part = false →
    (a.st = .retryAt t0 →
      ∃ t, exec (.memAccessRetry port tag w) s = .next t ∧ t = { s with accs := t.accs } ∧
        t.acc? port tag w = some { a with st := .out, issued := s.elapsed }) ∧
    (a.st = .stalled t0 → w = true →
      ∃ t, exec (.journalStallRetry port tag) s = .next t ∧ t = { s with accs := t.accs } ∧
        t.acc? port tag w = some { a with st := .out, issued := s.elapsed })) ∧
  (∀ (s : State) (port tag : Nat) (w : Bool), port < s.nmports →
    (∀ x, s.lateTags.find? (fun t => t.port == port && t.tag == tag && t.write == w) = some x →
      ∃ t, exec (.lateResponse port tag w) s = .next t ∧ t.lateTags = s.lateTags.erase x ∧
        t = { s with lateTags := t.lateTags, accs := t.accs, mports := t.mports } ∧ (∀ k, k ≠ port → t.mport k = s.mport k) ∧
        (t.mport port) = if x.timedOut then { s.mport port with late := satInc (s.mport port).late 1 } else s.mport port) ∧
    (s.lateTags.find? (fun t => t.port == port && t.tag == tag && t.write == w) = none →
      exec (.lateResponse port tag w) s = .fault .unsolicited))

/-- A write of the engine reaches memory at its home bank: its bytes change and, no cache owning a line of it, no other byte
of memory; a write whose acknowledgement has a command of its own stays outstanding until then, any other ends. Behind a write-back or recall response
of one of its lines, or a grant not yet used, it waits (R330, R331, R333). Where the manual leaves room it follows the model's own choices, log 31. -/
def Obligations.HomeBankWrites : Prop :=
  ∀ (s : State) (port tag : Nat) (a : Acc), port < s.nmports → a.st = .out →
    s.accs.find? (fun a => a.port == port && a.tag == tag && a.write == true) = some a → a.applied = false → s.boot.phase ≠ .tripped →
    let granted := fun (l : Nat) => ∃ m, m < s.nclusters ∧ ∃ g ∈ (s.cluster m).grants, g.line = l
    (s.mergesFirst a = false → (∀ l ∈ linesOf a.addr a.data.length, ¬ granted l) →
      ∃ t, exec (.homeBankWrite port tag) s = .next t ∧
        (∀ i, i < a.data.length → t.mem.read (a.addr + i) = byteAt a.data i) ∧
        (∀ x, lineOf x ∉ linesOf a.addr a.data.length → t.mem.read x = s.mem.read x) ∧
        ((∀ l ∈ linesOf a.addr a.data.length, s.ownerOf l = none) → ∀ x, (x < a.addr ∨ a.addr + a.data.length ≤ x) →
          t.mem.read x = s.mem.read x) ∧
        (ownAck a.purpose = true →
          t = { s with mem := t.mem, clusters := t.clusters, slices := t.slices, accs := t.accs } ∧
          ∃ b, t.acc? port tag true = some b ∧ b = { a with applied := true }) ∧
        ∀ u, a.purpose = .spillWr u → t = { s with mem := t.mem, clusters := t.clusters, slices := t.slices, accs := t.accs } ∧
          t.accs = ({ s with accs := s.accs.filter fun x => !(x.port == port && x.tag == tag && x.write) }.feed port true).accs) ∧
    (s.mergesFirst a = true ∨ (∃ l ∈ linesOf a.addr a.data.length, granted l) → exec (.homeBankWrite port tag) s = .next s)

/-! ## Node caches -/

/-- OWN of a scratch line: the home bank recalls an owner, or grants the line with its memory contents, memory unchanged; an L1 takes a granted
line as owned; a recalled L1 gives its copy up and sends its data; the bank's merge of a response or a write-back puts them
into memory, and no other byte, or after a fourth failure of that write may leave the line as it was, with HEALTH MEMPORT_FAULT; an acknowledged
write-back leaves the eviction buffer (R296, R331 to R334). Messages between one L1 and one home bank are taken in their order. Where the manual leaves
room it follows the model's own choices, log 15, 73. -/
def Obligations.ScratchLineOwnership : Prop :=
  (∀ (s : State) (m line : Nat) (w : WaitingAtom) (fails : List MemFail), m < s.nclusters → s.isOpen = true → s.ownFor m line = some w →
    s.ownWaits m line = true → s.lineBusy line = false → s.recallOf line = none → s.granted line = false →
    (∀ k, k < m → s.ownWaits k line = false) → (∀ x ∈ (s.cluster m).up, s.bankOf x.2 ≠ s.bankOf line) →
    (∀ o l, s.ownerOf line = some (o, l) →
      ∃ t, exec (.l1OwnRequest m ⟨line, fails⟩) s = .next t ∧ t = { s with clusters := t.clusters } ∧ line ∈ (t.cluster o).recalls ∧
        (line, o, some m) ∈ (t.cluster (s.bankOf line)).bank.recalls) ∧
    (s.ownerOf line = none → (s.fillL2 line w.r.part []).2 = true →
      (s.missesL2 w.r.part line = false ∨ (s.portEn (64 * line) = true ∧ fails.length < 4)) →
      ∃ t g, exec (.l1OwnRequest m ⟨line, fails⟩) s = .next t ∧ t = { s with clusters := t.clusters, slices := t.slices, mports := t.mports } ∧
        g ∈ (t.cluster m).grants ∧ g.line = line ∧ g.owned = true ∧ g.part = w.r.part ∧ g.data = s.mem.readN (64 * line) 64)) ∧
  (∀ (s : State) (m line : Nat) (g : CLine), m < s.nclusters → s.boot.phase ≠ .tripped →
    (s.cluster m).grants.find? (·.line == line) = some g → (s.fillL1 m line g.part g.data (s.cluster m).unlockedWays).2 = true →
    s.downFirst m .grant line = true →
    ∃ t, exec (.ownGrant m line) s = .next t ∧ t.mem = s.mem ∧
      ((∀ x ∈ s.atomsOn m line, x.r.part ≠ g.part) → (∀ x ∈ (t.cluster m).grants, x.line ≠ line) ∧
        (∃ x ∈ (t.cluster m).l1.lines, x.line = line ∧ x.part = g.part ∧ x.owned = true) ∧
        t = { s with clusters := t.clusters, slices := t.slices })) ∧
  (∀ (s : State) (m line : Nat), m < s.nclusters → s.boot.phase ≠ .tripped → line ∈ (s.cluster m).recalls →
    (∀ g ∈ (s.cluster m).grants, g.line ≠ line) → s.downFirst m .recall line = true →
    (∀ k, k ≠ m → (s.cluster k).held? line = none) →
    ∃ t, exec (.recall m line) s = .next t ∧ t = { s with clusters := t.clusters, slices := t.slices } ∧
      line ∉ (t.cluster m).recalls ∧
      ∀ l, (s.cluster m).held? line = some l → (m, l) ∈ (t.cluster (s.bankOf line)).bank.q ∧ (t.cluster m).held? line = none) ∧
  (∀ (s : State) (m line : Nat) (x : Nat × CLine) (fails : List MemFail), m < s.nclusters → s.boot.phase ≠ .tripped →
    (s.cluster (s.bankOf line)).bank.q.find? (fun x => x.1 == m && x.2.line == line) = some x → s.upFirst m .response line = true →
    s.portEn (64 * line) = true →
    ∃ t, exec (.recallResponse m ⟨line, fails⟩) s = .next t ∧
      t = { s with mem := t.mem, clusters := t.clusters, slices := t.slices, mports := t.mports, fab := t.fab, free := t.free } ∧
      (∀ a, lineOf a ≠ line → t.mem.read a = s.mem.read a) ∧ (∀ y ∈ (t.cluster (s.bankOf line)).bank.q, y.2.line ≠ line) ∧
      ((∀ i, i < 64 → t.mem.read (64 * line + i) = byteAt x.2.data i) ∨
        (4 ≤ fails.length ∧ ∀ i, i < 64 → t.mem.read (64 * line + i) = s.mem.read (64 * line + i))) ∧
      (fails.length < 4 → t.fab = s.fab ∧ t.free = s.free) ∧
      (4 ≤ fails.length → s.fab.hq.length < 64 → ∃ h ∈ t.fab.hq, h.code = 9)) ∧
  (∀ (s : State) (m line : Nat) (l : CLine), m < s.nclusters → s.boot.phase ≠ .tripped →
    (s.cluster m).evbuf.find? (fun l => l.line == line) = some l →
    (∀ fails : List MemFail, line ∉ (s.cluster m).wbAcks → s.upFirst m .writeback line = true → (l.owned = true → s.portEn (64 * line) = true) →
      ∃ t, exec (.l1Writeback m ⟨line, fails⟩) s = .next t ∧
        t = { s with mem := t.mem, clusters := t.clusters, slices := t.slices, mports := t.mports, fab := t.fab, free := t.free } ∧
        line ∈ (t.cluster m).wbAcks ∧ (l.owned = false → t.mem = s.mem) ∧ (∀ a, lineOf a ≠ line → t.mem.read a = s.mem.read a) ∧
        (l.owned = true → (∀ i, i < 64 → t.mem.read (64 * line + i) = byteAt l.data i) ∨
          (4 ≤ fails.length ∧ ∀ i, i < 64 → t.mem.read (64 * line + i) = s.mem.read (64 * line + i)))) ∧
    (line ∈ (s.cluster m).wbAcks → s.downFirst m .ack line = true →
      ∃ t, exec (.writebackAck m line) s = .next t ∧ t = { s with clusters := t.clusters } ∧
        (∀ k, k ≠ m → t.cluster k = s.cluster k) ∧ line ∉ (t.cluster m).wbAcks ∧ ∀ x ∈ (t.cluster m).evbuf, x.line ≠ line))

/-- MEM_PRE_CTL: GO starts a preload of its ways for its partition unless the locking rules refuse it, which sets FAIL; UNLOCK
frees its ways; writes to a cluster the build does not hold are ignored. At a preload's end BUSY is clear: once every line of it is present its ways are locked for
the partition, else FAIL is set and no way is locked (R16, R335, R394). Where the
manual leaves room it follows the model's own choices, log 41, 44, 74. -/
def Obligations.PreloadsAndLockedWays : Prop :=
  (∀ (c : Nat → Word → Instr) (s : State) (m : Nat) (d : Word), (c = .preloadGo ∨ c = .preloadUnlock) → s.nclusters ≤ m →
    exec (c m d) s = .next s) ∧
  (∀ (s : State) (m : Nat) (d : Word), m < s.nclusters → s.isOpen = true → d.getLsbD 15 = true → d.getLsbD 14 = false →
    (s.cluster m).preload = none →
    ∃ t, exec (.preloadGo m d) s = .next t ∧ t = { s with clusters := t.clusters } ∧ (∀ k, k ≠ m → t.cluster k = s.cluster k) ∧
      (s.preloadRefused m (d.toNat / 256 % 32) (d.toNat / 65536) = false →
        t.cluster m = { s.cluster m with
          preload := some (d.toNat / 256 % 32, BitVec.ofNat 16 (d.toNat / 65536)), preFail := (s.cluster m).preFail && !d.getLsbD 7
          preWays := BitVec.ofNat 16 (d.toNat / 65536), prePart := BitVec.ofNat 5 (d.toNat / 256) }) ∧
      (s.preloadRefused m (d.toNat / 256 % 32) (d.toNat / 65536) = true → t.cluster m = { s.cluster m with
        preFail := true, preWays := BitVec.ofNat 16 (d.toNat / 65536), prePart := BitVec.ofNat 5 (d.toNat / 256) })) ∧
  (∀ (s : State) (m : Nat) (d : Word), m < s.nclusters → s.isOpen = true → d.getLsbD 15 = false → d.getLsbD 14 = true →
    (s.cluster m).preload = none →
    ∃ t, exec (.preloadUnlock m d) s = .next t ∧ t = { s with clusters := t.clusters } ∧ (∀ k, k ≠ m → t.cluster k = s.cluster k) ∧
      (∀ e ∈ (t.cluster m).locks, e.1 < 16 → d.getLsbD (16 + e.1) = false) ∧
      ∀ e ∈ (s.cluster m).locks, e.1 < 16 → d.getLsbD (16 + e.1) = false → e ∈ (t.cluster m).locks) ∧
  (∀ (s : State) (m part : Nat) (ways : Half) (fails : Fails), m < s.nclusters → s.boot.phase ≠ .tripped →
    (s.cluster m).preload = some (part, ways) → s.bordered part = false →
    let n := min (s.cluster m).preLines.toNat 24576
    s.preloadReady part (s.cluster m).preAddr.toNat n = true →
    let present := (s.preloadRun m part (waysIn ways.toNat) fails (s.cluster m).preAddr.toNat n).2
    ∃ t, exec (.preloadComplete ⟨m, fails⟩) s = .next t ∧ (t.cluster m).preload = none ∧
      t = { s with clusters := t.clusters, slices := t.slices, mem := t.mem, mports := t.mports, fab := t.fab } ∧
      (present = true →
        (∀ w, w < 16 → ways.getLsbD w = true → NMap.get 0 (t.cluster m).locks w = part + 1) ∧
        ∀ i, i < n → ∃ sys w, s.translate part ((s.cluster m).preAddr.toNat + 64 * i) 64 false = some sys ∧
          (lineOf sys, w, part) ∈ (t.cluster m).preloaded) ∧
      (present = false → (t.cluster m).preFail = true ∧ (t.cluster m).locks = (s.cluster m).locks) ∧
      ((s.cluster m).preLines = 0 → t.mem = s.mem ∧ present = true))

/-! ## Clearing -/

/-- A deposit whose release stamp has come leaves its wait unless the mint holds it: its header is asked for. A line of the header or of
its sharding run that comes is judged by its epoch tag first: one of a newer epoch completes every query with EPOCH_RETIRED and raises HEALTH; an
older one is dropped from the L2, read again 1 µs later and after 1 ms completes them with EPOCH_MISSING and HEALTH; a current one is followed by the
next, until a whole header that passes its checks lets the records be read, or a bad one completes every query with BAD_IMAGE. A line no window
covers completes them with MEM_ERROR (R44, R47, R75, R133, R238, R326). -/
def Obligations.DepositsStartAndReadHeaders : Prop :=
  ∀ (s : State) (dep : Nat) (d : Dep), s.isOpen = true → s.dep? dep = some d →
    let ended := fun (t : State) (st : Byte) => ∃ d', t.dep? dep = some d' ∧ d'.hdrStatus = some st ∧ d'.step = .running ∧
      d'.nextIdx = d.qcount ∧ t.queries = s.queries ∧ t.mem = s.mem ∧
      d'.done = d.done ++ ((s.runsFor d).map fun r => (List.range d.qcount).map fun i => doneAs st (BitVec.ofNat 32 i) 0 0 r false).flatten
    let asked := fun (t : State) (sys : Nat) => ∃ a ∈ t.accs, a.purpose = .header dep ∧ a.write = false ∧ a.addr = sys
    let raised := fun (t : State) (code : Half) => s.fab.hq.length < 64 → ∃ h ∈ t.fab.hq, h.code = code
    (d.step = .held → d.stampReached = false →
      (s.tbu.tb.toNat < d.release.toNat → exec (.releaseStampReached dep) s = .next s) ∧
      (d.release.toNat ≤ s.tbu.tb.toNat →
        (d.mintHeld = true → ∃ t, exec (.releaseStampReached dep) s = .next t ∧ t = { s with deps := t.deps } ∧
          t.dep? dep = some { d with stampReached := true }) ∧
        (d.mintHeld = false → ((s.part d.part).graph d.graphId).nodes ≠ [] →
          (∀ sys, s.translate d.part (d.handle.base.toNat + 64 * d.hdrNext) 64 false = some sys →
            ∃ t, exec (.releaseStampReached dep) s = .next t ∧ t.dep? dep = some { d with stampReached := true, step := .reading } ∧
              asked t sys ∧ t = { s with deps := t.deps, accs := t.accs, pwr := t.pwr }) ∧
          (s.translate d.part (d.handle.base.toNat + 64 * d.hdrNext) 64 false = none →
            ∃ t, exec (.releaseStampReached dep) s = .next t ∧ ended t 0x15)))) ∧
    (∀ a, d.id = dep → d.step = .reading → s.accFor (.header dep) = some a →
      let l := s.readSys a.addr 64
      let ls := d.hdrLines ++ [l]
      (epochAge (lineTag l) d.handle.epoch = .newer →
        ∃ t, exec (.imageHeaderRead dep) s = .next t ∧ ended t 0x13 ∧ raised t 0x11) ∧
      (epochAge (lineTag l) d.handle.epoch = .older →
        ∃ t, exec (.imageHeaderRead dep) s = .next t ∧ t.mem = s.mem ∧
          (∀ f x, d.hdrOlder = some (d.hdrNext, f, x) → t.dep? dep = some { d with hdrOlder := some (d.hdrNext, f, s.elapsed) }) ∧
          ((∀ k f x, d.hdrOlder = some (k, f, x) → k ≠ d.hdrNext) →
            t.dep? dep = some { d with hdrOlder := some (d.hdrNext, s.elapsed, s.elapsed) }) ∧
          (s.granted (lineOf a.addr) = false → ∀ x ∈ (t.cluster (s.bankOf (lineOf a.addr))).bank.l2.lines, x.line ≠ lineOf a.addr)) ∧
      (epochAge (lineTag l) d.handle.epoch = .current →
        (parseHeader d.handle.treeId (ls.headD []) = none → ∃ t, exec (.imageHeaderRead dep) s = .next t ∧ ended t 0x11) ∧
        ∀ h sr sl, parseHeader d.handle.treeId (ls.headD []) = some (h, sr, sl) →
          let next := { d with hdrLines := ls, hdrOlder := none }
          (ls.length ≤ sl →
            (∀ sys, s.translate d.part (d.handle.base.toNat + 64 * next.hdrNext) 64 false = some sys →
              ∃ t, exec (.imageHeaderRead dep) s = .next t ∧ t.dep? dep = some next ∧ asked t sys) ∧
            (s.translate d.part (d.handle.base.toNat + 64 * next.hdrNext) 64 false = none →
              ∃ t, exec (.imageHeaderRead dep) s = .next t ∧ ended t 0x15)) ∧
          (sl < ls.length →
            (∀ h', (if sl = 0 then some h else parseShard s.pkg h sr sl (ls.drop 1)) = some h' →
              ∃ t, exec (.imageHeaderRead dep) s = .next t ∧ t.dep? dep = some { next with hdr := some h', hdrRead := true } ∧
                t.queries = s.queries ∧ t.mem = s.mem) ∧
            (sl ≠ 0 → parseShard s.pkg h sr sl (ls.drop 1) = none → ∃ t, exec (.imageHeaderRead dep) s = .next t ∧ ended t 0x11)))) ∧
    (∀ k f x, d.hdrOlder = some (k, f, x) →
      (x + 1000 ≤ s.elapsed → (∀ a ∈ s.accs, a.purpose ≠ .header dep) →
        (∀ sys, s.translate d.part (d.handle.base.toNat + 64 * d.hdrNext) 64 false = some sys →
          ∃ t, exec (.epochReread (.header dep)) s = .next t ∧ asked t sys ∧ t = { s with accs := t.accs, pwr := t.pwr }) ∧
        (s.translate d.part (d.handle.base.toNat + 64 * d.hdrNext) 64 false = none →
          ∃ t, exec (.epochReread (.header dep)) s = .next t ∧ ended t 0x15)) ∧
      ((s.elapsed < x + 1000 ∨ ∃ a ∈ s.accs, a.purpose = .header dep) → exec (.epochReread (.header dep)) s = .next s) ∧
      (f + 1000000 ≤ s.elapsed → ∃ t, exec (.epochMissingTimeout (.header dep)) s = .next t ∧ ended t 0x12 ∧ raised t 0x10) ∧
      (s.elapsed < f + 1000000 → exec (.epochMissingTimeout (.header dep)) s = .next s))

/-- A query that waits for an older line has it read again 1 µs after its last read: still older it waits on, current it queues
again, of a newer epoch it ends with EPOCH_RETIRED, and with MEM_ERROR where no window covers the line; 1 ms after the first read it ends with EPOCH_MISSING; both
epoch statuses raise HEALTH (R47, R326). A query record is read only when its home cluster has a context for it, and one that comes is placed in the slice
named, or completes, and the next is asked for; one that no window covers completes with MEM_ERROR; one of a family that runs again is placed first and
counts as no new record (R132, R133, R292, R326). Where the manual leaves room it follows the model's own choices, log 16, 75. -/
def Obligations.OlderLinesAndQueryRecords : Prop :=
  (∀ (s : State) (u line f l : Nat) (q : Query), s.isOpen = true → s.query? u = some q → q.uid = u → q.st = .older line f l →
    (∀ y ∈ s.queries, y.uid < s.nextUid) → (∀ c ∈ s.ctxs, ∀ g ∈ c.groups, ∀ th ∈ g.threads, th.query ≠ some u) →
    let ended := fun (t : State) (st : Byte) => q.pin = none → q.visitor = none → t.query? u = none ∧
      ∀ d, s.dep? q.dep = some d → ∃ d' x, t.dep? q.dep = some d' ∧ d'.done = d.done ++ [x] ∧ x.qid = q.qid ∧ x.bounce = q.bounce ∧
        x.status = st ∧ x.held = []
    let raised := fun (t : State) (code : Half) => s.fab.hq.length < 64 → ∃ h ∈ t.fab.hq, h.code = code
    ((∀ a ∈ s.accs, a.purpose ≠ .reread u) → l + 1000 ≤ s.elapsed →
      (∀ sys, s.translate q.part (s.imgAddr q line) 64 false = some sys →
        ∃ t, exec (.epochReread (.query u)) s = .next t ∧ t = { s with accs := t.accs, pwr := t.pwr } ∧
          ∃ a ∈ t.accs, a.purpose = .reread u ∧ a.addr = sys ∧ a.write = false) ∧
      (s.translate q.part (s.imgAddr q line) 64 false = none → ∃ t, exec (.epochReread (.query u)) s = .next t ∧ t.mem = s.mem ∧ ended t 0x15)) ∧
    ((∀ a ∈ s.accs, a.purpose ≠ .reread u) → s.elapsed < l + 1000 → exec (.epochReread (.query u)) s = .next s) ∧
    (∀ a, s.accFor (.reread u) = some a →
      (epochAge (lineTag (s.readSys a.addr 64)) q.handle.epoch = .older → ∃ t, exec (.epochReread (.query u)) s = .next t ∧ t.mem = s.mem ∧
        t.query? u = some { q with st := .older line f s.elapsed }) ∧
      (epochAge (lineTag (s.readSys a.addr 64)) q.handle.epoch = .current → ∃ t, exec (.epochReread (.query u)) s = .next t ∧ t.mem = s.mem ∧
        t.query? u = some { q with st := .ready }) ∧
      (epochAge (lineTag (s.readSys a.addr 64)) q.handle.epoch = .newer → ∃ t, exec (.epochReread (.query u)) s = .next t ∧ t.mem = s.mem ∧
        ended t 0x13 ∧ raised t 0x11)) ∧
    (f + 1000000 ≤ s.elapsed → ∃ t, exec (.epochMissingTimeout (.query u)) s = .next t ∧ t.mem = s.mem ∧ ended t 0x12 ∧ raised t 0x10) ∧
    (s.elapsed < f + 1000000 → exec (.epochMissingTimeout (.query u)) s = .next s)) ∧
  (∀ (s : State) (dep n : Nat) (d : Dep) (h : ImgHdr), n < s.nslices → s.isOpen = true → s.dep? dep = some d → d.id = dep → d.hdr = some h →
    (∀ y ∈ s.queries, y.uid < s.nextUid) →
    (∀ a idx run fails, (d.step = .reading ∨ d.step = .running) → s.rerunHere d n = some (a, idx, run, fails) →
      ∃ t d', exec (.queryRecordRead dep n) s = .next t ∧ t.mem = s.mem ∧ t.dep? dep = some d' ∧ d'.nextIdx = d.nextIdx ∧
        s.nextUid < t.nextUid ∧ ∀ q, t.query? s.nextUid = some q → q.dep = dep ∧ q.qid = BitVec.ofNat 32 idx ∧ q.run = run ∧ q.rerun = true ∧
          q.slice = n ∧ q.bytes = s.readSys a.addr 64) ∧
    (s.rerunHere d n = none → d.step = .reading → d.nextIdx < d.qcount →
      let slot := s.translate d.part (d.qbase.toNat + 64 * d.nextIdx) 64 false
      ((∀ a ∈ s.accs, a.purpose ≠ .queryRec dep d.nextIdx) →
        (slot = none →
          ∃ t d', exec (.queryRecordRead dep n) s = .next t ∧ t.dep? dep = some d' ∧ d'.nextIdx = d.nextIdx + 1 ∧
            t.queries = s.queries ∧ t.mem = s.mem ∧
            d'.done = d.done ++ (s.liveRuns d).map fun r => doneAs 0x15 (BitVec.ofNat 32 d.nextIdx) 0 0 r false) ∧
        (∀ sys, slot = some sys → s.canPlace d = true →
          ∃ t, exec (.queryRecordRead dep n) s = .next t ∧ t = { s with accs := t.accs, pwr := t.pwr } ∧
            ∃ a ∈ t.accs, a.purpose = .queryRec dep d.nextIdx ∧ a.addr = sys ∧ a.write = false) ∧
        (slot ≠ none → s.canPlace d = false → exec (.queryRecordRead dep n) s = .next s)) ∧
      (∀ a, s.accs.find? (fun a => a.purpose == .queryRec dep d.nextIdx) = some a → a.st = .out →
        ((s.part d.part).lockEn = false → d.third = false → d.killed = [] → s.hasContext d.part 0 n = true → clusterOf n = d.home →
          ∃ t d', exec (.queryRecordRead dep n) s = .next t ∧ t.mem = s.mem ∧ t.dep? dep = some d' ∧ d'.nextIdx = d.nextIdx + 1 ∧
            s.nextUid < t.nextUid ∧ (t.cluster d.home).auditReads = (s.cluster d.home).auditReads + 1 ∧
            ((∃ q, t.query? s.nextUid = some q ∧ q.dep = dep ∧ q.qid = BitVec.ofNat 32 d.nextIdx ∧ q.slice = n ∧
                q.bytes = s.readSys a.addr 64) ∨ ∃ x ∈ d'.done, x.qid = BitVec.ofNat 32 d.nextIdx)) ∧
        (s.placesFor d n = none → exec (.queryRecordRead dep n) s = .next s))))

/-! ## Traversal -/

/-- A node queue whose head line has come has the lines after it asked for, and is ready once all are there; where no window covers its line its members end with
MEM_ERROR; AGE_LIMIT wclk after a ready queue's oldest member came it is ripe; a release, at most one in a wclk, gives each slice at most one batch of at
most 16 members, to an admitted slice or one on probation that is not gated and holds fewer than 4, and a ripe queue with room leaves; a
crowded cluster with XCLUSTER moves at most one batch in a wclk to a light one, a lower cluster first (R139, R140, R141, R144, R326). Where the manual leaves
room it follows the model's own choices, log 16, 26, 45, 79. -/
def Obligations.QueuesBatchesAndClusters : Prop :=
  (∀ (s : State) (m i : Nat) (v : QueueView) (q : Query), m < s.nclusters → s.isOpen = true →
    (s.cluster m).queue? i = some v → v.readyAt = none → (v.members.map (·.uid)).findSome? s.query? = some q →
    let mine := fun (a : Acc) => ∃ x ∈ v.members, a.purpose = .node x.uid
    ((∃ a ∈ s.accs, mine a ∧ a.st ≠ .out) → exec (.nodeQueueReady m i) s = .next s) ∧
    ((∀ a ∈ s.accs, mine a → a.st = .out) →
      (s.translate q.part (s.imgAddr q v.key.line) 64 false = none → (∀ a ∈ s.accs, mine a → a.paddr ≠ s.imgAddr q v.key.line) →
        ∃ t, exec (.nodeQueueReady m i) s = .next t ∧ t.mem = s.mem ∧
          (∀ n ∈ (t.cluster m).nqs, ∀ x ∈ n.members, ∀ y ∈ v.members, x.uid ≠ y.uid) ∧
          ∀ x ∈ v.members, ∀ y, s.query? x.uid = some y → y.pin = none → y.visitor = none → t.query? x.uid = none) ∧
      (∀ sys, (s.translate q.part (s.imgAddr q v.key.line) 64 false = some sys ∨
          ∃ a, s.accs.find? (fun a => (v.members.any fun x => a.purpose == .node x.uid) && a.paddr == s.imgAddr q v.key.line) = some a ∧ a.addr = sys) →
        (∀ a ∈ s.accs, mine a → a.paddr = s.imgAddr q v.key.line → a.addr = sys) →
        (∀ k, (s.cluster k).grants = []) → (s.cluster m).unlockedWays ≠ [] → (s.cluster m).preloaded = [] →
        q.cluster = m → (∀ l ∈ (s.cluster m).l1.lines, l.owned = false) →
        ∃ t, exec (.nodeQueueReady m i) s = .next t ∧
          t = { s with clusters := t.clusters, slices := t.slices, accs := t.accs, pwr := t.pwr } ∧
          ((moreLines q.hdr (v.key.cls == .leaf) v.key.line (s.bankLine (lineOf sys) q.part) = [] ∨ v.headIn = true) →
            (t.cluster m).queue? i = some { v with headIn := true, readyAt := some s.wclk } ∧ ∀ a ∈ t.accs, ¬ mine a) ∧
          (((t.cluster m).queue? i = some { v with headIn := true, readyAt := some s.wclk } ∧ ∀ a ∈ t.accs, ¬ mine a) ∨
            ((t.cluster m).queue? i = some { v with headIn := true, readyAt := none } ∧ (∃ a ∈ t.accs, mine a) ∧ ∀ a ∈ t.accs, mine a →
              ∃ k ∈ moreLines q.hdr (v.key.cls == .leaf) v.key.line (s.bankLine (lineOf sys) q.part), a.paddr = s.imgAddr q k))))) ∧
  (∀ (s : State) (m i r : Nat) (n : NQueue) (x : Member), m < s.nclusters → s.isOpen = true →
    (s.cluster m).nqs.find? (·.id == i) = some n → n.readyAt = some r → n.members.head? = some x → n.ripe = false →
    (max r x.arrived + (s.cluster m).ageLimit ≤ s.wclk →
      ∃ t, exec (.queueRipe m i) s = .next t ∧ t = { s with clusters := t.clusters } ∧ (∀ k, k ≠ m → t.cluster k = s.cluster k) ∧
        (t.cluster m).nqs.find? (·.id == i) = some { n with ripe := true }) ∧
    (s.wclk < max r x.arrived + (s.cluster m).ageLimit → exec (.queueRipe m i) s = .next s)) ∧
  (∀ (s : State) (m : Nat), m < s.nclusters → s.isOpen = true →
    ((s.cluster m).relAt = s.wclk + 1 → exec (.batchRelease m) s = .next s) ∧
    ((s.cluster m).relAt ≠ s.wclk + 1 →
      (∃ t, exec (.batchRelease m) s = .next t ∧ t = { s with clusters := t.clusters, slices := t.slices } ∧
        (∀ k, k ≠ m → t.cluster k = s.cluster k) ∧ (t.cluster m).relAt = s.wclk + 1 ∧
        ∀ n, t.slice n = { s.slice n with inQ := (t.slice n).inQ, busy := (t.slice n).busy } ∧
          ((t.slice n).inQ = (s.slice n).inQ ∨
            ∃ b, (t.slice n).inQ = (s.slice n).inQ ++ [b] ∧ b.members.length ≤ 16 ∧ b.released = s.wclk ∧ s.gated n = false ∧
              (s.slice n).inQ.length < 4 ∧ ((s.slice n).st = .admitted ∨ (s.slice n).st = .probation))) ∧
      (∀ (n : NQueue) (r k : Nat), (s.cluster m).nqs = [n] → (s.cluster m).strag = [] → n.readyAt = some r → n.ripe = true →
        n.members.length ≤ 16 →
        ((s.batchSlices m n.id n.key).find? fun k => !s.gated k && decide ((s.slice k).inQ.length < 4)) = some k →
        ∃ t, exec (.batchRelease m) s = .next t ∧ (t.cluster m).nqs = [] ∧
          (t.slice k).inQ = (s.slice k).inQ ++ [{ key := n.key, members := n.members.map (·.uid), released := s.wclk }]))) ∧
  (∀ (s : State) (m : Nat), m < s.nclusters → s.isOpen = true →
    ((s.cluster m).xcluster = false ∨ s.crowded m = false ∨ (s.cluster m).fwdAt = s.wclk + 1 → exec (.clusterForward m) s = .next s) ∧
    ∀ (k : Cand) (r : Nat), s.forwards m = some (k, r) →
      ((∃ j, j < m ∧ (s.forwards j).map Prod.snd = some r) → exec (.clusterForward m) s = .next s) ∧
      ((∀ j, j < m → (s.forwards j).map Prod.snd ≠ some r) →
        let b := (s.cluster m).takeBatch k.id s.wclk
        ∀ t0, (s.setCluster m { b.1 with fwdout := satInc (s.cluster m).fwdout 1, fwdAt := s.wclk + 1 }).moveTo r (b.2.map (·.uid)) = some t0 →
        ∃ t, exec (.clusterForward m) s = .next t ∧ t.mem = s.mem ∧ (t.cluster m).fwdout = satInc (s.cluster m).fwdout 1 ∧
          (t.cluster m).fwdAt = s.wclk + 1 ∧ (t.cluster m).nqs = b.1.nqs ∧
          ∀ x ∈ b.2, ∀ q, s.query? x.uid = some q →
            ∃ q', t.query? x.uid = some q' ∧ q'.cluster = r ∧ clusterOf q'.slice = r ∧ (s.slice q'.slice).st = .admitted ∧
              q' = { q with cluster := q'.cluster, slice := q'.slice }))

/-- A node batch is visited whole: every query takes the nearest child it admits next and stacks the others, its tests are
counted, and a query of 1,048,576 visits ends with VISIT_LIMIT; a spilled line comes back to the stack it left; a leaf unit
takes the members it serves: it tests primitives with their weight counted, traces a surface leaf with its multiply-accumulates counted, or adds a
brick or volume to a MARCH walk; tracking goes on where its last command left it and ends with its record, without a
volume with the escape record (R90, R113, R120, R134, R135, R137, R178, R433). Where the manual leaves room it follows the
model's own choices, log 12, 13, 18, 45, 71, 80. -/
def Obligations.NodesLeavesAndMarch : Prop :=
  let quiet := fun (s : State) => s.shadowsDue = [] ∧ ∀ y ∈ s.queries, y.uid < s.nextUid
  (∀ (s : State) (n : Nat) (b : Batch), n < s.nslices → s.works n = true → s.headBatch n = some b → b.key.cls ≠ .leaf →
    (∃ t, exec (.boxTestVisit n) s = .next t ∧ t.mem = s.mem ∧ (quiet s → (t.slice n).inQ = (s.slice n).inQ.drop 1)) ∧
    ∀ (u : Nat) (q : Query) (g : Geo), quiet s → b.members = [u] → s.query? u = some q → q.geo = some g →
      (1048576 ≤ q.visits → q.pin = none → q.visitor = none → ∀ d, s.dep? q.dep = some d →
        ∃ t d' x, exec (.boxTestVisit n) s = .next t ∧ t.query? u = none ∧ t.dep? q.dep = some d' ∧ d'.done = d.done ++ [x] ∧
          x.qid = q.qid ∧ x.bounce = q.bounce ∧ x.status = 0x14 ∧ x.held = []) ∧
      (∀ (ls : List (List Byte)) (node : Node) (h : Hit) (rest : List Hit), q.visits < 1048576 → (s.readNode q n).1 = .ok ls →
        parseNode q.hdr q.next.line ls = some node →
        (boxVisit node g (keyX q.next.key) (q.limit g) (q.bound g)).1 = h :: rest → q.admits g (fpWord h.key) = true →
        q.spilled = [] → q.stack.length + rest.length + 1 ≤ 8 →
        ∃ t q', exec (.boxTestVisit n) s = .next t ∧ t.query? u = some q' ∧
          q'.next = { line := h.line, key := fpWord h.key, tout := fpWord h.tout, leaf := decide (node.nint ≤ h.slot) } ∧
          q'.stack = (rest.map fun h =>
            { line := h.line, key := fpWord h.key, tout := fpWord h.tout, leaf := decide (node.nint ≤ h.slot) }) ++ q.stack ∧
          q'.visits = q.visits + 1 ∧ q'.held = q.held ∧
          (t.cluster (clusterOf n)).boxtests = addD (s.cluster (clusterOf n)).boxtests
            (boxVisit node g (keyX q.next.key) (q.limit g) (q.bound g)).2)) ∧
  (∀ (s : State) (u : Nat) (q : Query) (g : Geo) (a : Acc), quiet s → s.isOpen = true → s.query? u = some q →
    q.geo = some g → q.st = .spill → s.accFor (.spillRd u) = some a → (∀ x ∈ s.accs, x.purpose ≠ .spillWr u) →
    8 ≤ q.spilled.length → q.admits g (BitVec.ofNat 32 (fieldAt (s.readSys a.addr 64) 60 4)) = true →
    ∃ t q', exec (.spillFill u) s = .next t ∧ t.mem = s.mem ∧ t.query? u = some q' ∧
      q'.spilled = q.spilled.take (q.spilled.length - 8) ∧ q'.stack.length = 7 ∧
      q'.next.line = fieldAt (s.readSys a.addr 64) 56 4 ∧ q'.held = q.held ∧
      ∀ i, i < 7 → (q'.stack[i]?).map (·.line) = some (fieldAt (s.readSys a.addr 64) (8 * (6 - i)) 4)) ∧
  (∀ (s : State) (n : Nat) (b : Batch), quiet s → n < s.nslices → s.works n = true → s.headBatch n = some b → b.key.cls = .leaf →
    ((∀ u ∈ b.members, s.unitOf n u = 0) →
      ∃ t, exec (.primitiveLeafTest n) s = .next t ∧ t.mem = s.mem ∧ (t.slice n).inQ = (s.slice n).inQ.drop 1) ∧
    ((∀ u ∈ b.members, s.unitOf n u = 1) →
      ∃ t, exec (.neuralLeafVisit n) s = .next t ∧ t.mem = s.mem ∧ (t.slice n).inQ = (s.slice n).inQ.drop 1) ∧
    ∀ (u : Nat) (q : Query) (g : Geo) (f : Leaf) (s1 s2 : State) (ls : List (List Byte)) (c : Child) (st : List Child),
      b.members = [u] → s.query? u = some q → q.geo = some g → s.lookLeaf q n = (.leaf f, s1) →
      leafEnabled (s.graphOf q) g f.type = true → s1.readRecords q n f = some (.ok ls, s2) → q.stack = c :: st →
      (∀ (ps : List (Option Prim)) (q' : Query) (acc w void : Nat), f.type ≠ 7 → f.type ≠ 8 → f.type ≠ 9 →
        parseRecords q.hdr f ls = some ps → testPrims g f (keyX q.next.key) ps 0 q 0 0 0 = (q', acc, w, void) →
        g.anyMode = false → (q.visitor = none ∨ q'.fits g = true) → q'.admits g c.key = true →
        ∃ t q1, exec (.primitiveLeafTest n) s = .next t ∧ t.query? u = some q1 ∧ q1.held = q'.held ∧ q1.next = c ∧
          q1.stack = st ∧ (t.cluster (clusterOf n)).primtests = addD (s.cluster (clusterOf n)).primtests w ∧
          (t.cluster (clusterOf n)).voidrec = satInc (s.cluster (clusterOf n)).voidrec void) ∧
      (∀ (br : Brick) (v : Vol), f.type = 7 → parseBrick f ls = some br → q.vols.length < 1024 → q.admits g c.key = true →
        v = ⟨f.addr, fpWord ((brickSpan g br).getD (XR.zero, XR.zero)).1, fpWord ((brickSpan g br).getD (XR.zero, XR.zero)).2,
          f.prims.headD 0, false, payloadOf ls⟩ → v ∉ q.vols →
        ∃ t q1, exec (.primitiveLeafTest n) s = .next t ∧ t.query? u = some q1 ∧ q1.next = c ∧ q1.stack = st ∧ q1.vols = q.vols ++ [v]) ∧
      (∀ (bl : Blob), f.type = 8 → parseBlob f ls = some bl → bl.output ≠ 1 → g.kind ≠ .march →
        let k := (surfOf g f bl (keyX q.next.key) (keyX q.next.tout)).loop 4096 { t := keyX q.next.key, q := q }
        k.bad = false → (g.anyMode && k.accepted) = false → (q.visitor = none ∨ k.q.fits g = true) → k.q.admits g c.key = true →
        ∃ t q1, exec (.neuralLeafVisit n) s = .next t ∧ t.query? u = some q1 ∧ q1.held = k.q.held ∧ q1.next = c ∧ q1.stack = st ∧
          (t.cluster (clusterOf n)).macs = addD (s.cluster (clusterOf n)).macs ((k.first + k.halo8) * firstMacs bl + k.pairs * pairMacs bl) ∧
          (t.cluster (clusterOf n)).steplim = satInc (s.cluster (clusterOf n)).steplim (bit (k.n == 4096))) ∧
      (∀ (bl : Blob) (v : Vol), f.type = 8 → parseBlob f ls = some bl → bl.output = 1 → g.kind = .march → q.vols.length < 1024 →
        q.admits g c.key = true → v = ⟨f.addr, q.next.key, q.next.tout, f.prims.headD 0, true, payloadOf ls⟩ → v ∉ q.vols →
        ∃ t q1, exec (.neuralLeafVisit n) s = .next t ∧ t.query? u = some q1 ∧ q1.next = c ∧ q1.stack = st ∧ q1.vols = q.vols ++ [v])) ∧
  (∀ (s : State) (u : Nat) (q : Query) (g : Geo), quiet s → s.isOpen = true → s.query? u = some q → q.geo = some g → q.st = .march →
    g.kind = .march → q.visitor = none →
    let tk := q.track.getD { t := fpWord g.tmin }
    let k := marchLoop g q.vols (s.rngWord q) marchFuel { t := keyX tk.t, tr := tk.tr, n := tk.n, clamped := tk.clamped, drawn := 0 }
    (k.ended = none →
      ∃ t, exec (.marchTracking u) s = .next t ∧ t.mem = s.mem ∧ t.query? u = some { q with
        rngWord := q.rngWord + k.drawn, track := some { t := fpWord k.t, tr := k.tr, n := k.n, clamped := k.clamped } }) ∧
    (∀ h, k.ended = some (some h) →
      (q.pin.isSome = true →
        ∃ t q', exec (.marchTracking u) s = .next t ∧ t.mem = s.mem ∧ t.query? u = some q' ∧ q'.st = .ended ∧ q'.held = [h]) ∧
      (q.pin = none → q.staged = [] →
        (q.bits ||| (s.graphOf q).walkBits) &&& (s.graphOf q).queryBits = (s.graphOf q).queryBits → ∀ d, s.dep? q.dep = some d →
        ∃ t d' x, exec (.marchTracking u) s = .next t ∧ t.mem = s.mem ∧ t.query? u = none ∧ t.dep? q.dep = some d' ∧
          d'.done = d.done ++ [x] ∧ x.qid = q.qid ∧ x.status = 0x00 ∧ x.held = [h])) ∧
    (q.vols = [] → q.track = none → k.ended = some (some (marchEscape 0x3F800000 0 false))))

/-! ## Instructions of the hit cores -/

/-- INT and the special registers: each executing thread writes DST with the result Table 7.4 gives (sums wrap, or saturate
with IMM[0]; shifts use B[4:0]), compares write their predicate; S2R reads Table 7.2 and a reserved index stops; U2R and R2U
move uniform registers, VOTE gathers a predicate; no other thread, register or state changes (R186, R187, R191, R192). Where
the manual leaves room it follows the model's own choices, log 20. -/
def Obligations.IntegerAndSpecialInstructions : Prop :=
  let abd : Uses := { d := 1, a := 1, b := 1 }
  let sat := fun (v : Int) => (BitVec.ofInt 32 (max (-(2 ^ 31)) (min (2 ^ 31 - 1) v)) : Word)
  (RegOp .iadd 0 0 abd fun i t => if bitAt i.imm 0 then sat ((t.a i).toInt + (t.b i).toInt) else t.a i + t.b i) ∧
  (RegOp .isub 0 1 abd fun i t => if bitAt i.imm 0 then sat ((t.a i).toInt - (t.b i).toInt) else t.a i - t.b i) ∧
  (RegOp .imul 0 2 abd fun i t => BitVec.ofNat 32 ((t.a i).toNat * (t.b i).toNat)) ∧
  (RegOp .imulhi 0 3 abd fun i t => (((t.a i).signExtend 64 * (t.b i).signExtend 64) >>> 32).setWidth 32) ∧
  (RegOp .umulhi 0 4 abd fun i t => (((t.a i).setWidth 64 * (t.b i).setWidth 64) >>> 32).setWidth 32) ∧
  (RegOp .imin 0 5 abd fun i t => if (t.a i).slt (t.b i) then t.a i else t.b i) ∧
  (RegOp .imax 0 6 abd fun i t => if (t.a i).slt (t.b i) then t.b i else t.a i) ∧
  (RegOp .umin 0 7 abd fun i t => if (t.a i).ult (t.b i) then t.a i else t.b i) ∧
  (RegOp .umax 0 8 abd fun i t => if (t.a i).ult (t.b i) then t.b i else t.a i) ∧
  (RegOp .bAnd 0 9 abd fun i t => t.a i &&& t.b i) ∧
  (RegOp .bOr 0 10 abd fun i t => t.a i ||| t.b i) ∧
  (RegOp .bXor 0 11 abd fun i t => t.a i ^^^ t.b i) ∧
  (RegOp .shl 0 12 abd fun i t => t.a i <<< ((t.b i) &&& 31)) ∧
  (RegOp .shr 0 13 abd fun i t => t.a i >>> ((t.b i) &&& 31)) ∧
  (RegOp .sar 0 14 abd fun i t => (t.a i).sshiftRight' ((t.b i) &&& 31)) ∧
  (LaneOp .isetp 0 15 { a := 1, b := 1 } (fun _ _ _ _ => True) fun _ _ _ i _ t t' =>
    ∃ v, t' = (t.setPred (i.dst % 8) v).step ∧
      (i.sc % 8 = 0 → v = decide (t.a i = t.b i)) ∧ (i.sc % 8 = 1 → v = decide (t.a i ≠ t.b i)) ∧
      (i.sc % 8 = 2 → v = (t.a i).slt (t.b i)) ∧ (i.sc % 8 = 3 → v = (t.a i).sle (t.b i)) ∧
      (i.sc % 8 = 4 → v = (t.b i).slt (t.a i)) ∧ (i.sc % 8 = 5 → v = (t.b i).sle (t.a i)) ∧
      (i.sc % 8 = 6 → v = (t.a i).ult (t.b i)) ∧ (i.sc % 8 = 7 → v = (t.a i).ule (t.b i))) ∧
  (RegOp .sel 0 16 abd fun i t => if t.pred (i.sc % 8) then t.a i else t.b i) ∧
  (RegOp .popc 0 17 { d := 1, a := 1 } fun i t => BitVec.ofNat 32 ((List.range 32).countP fun k => (t.a i).getLsbD k)) ∧
  (LaneOp .clz 0 18 { d := 1, a := 1 } (fun _ _ _ _ => True) fun _ _ _ i _ t t' =>
    ∃ n, n ≤ 32 ∧ t' = (t.put i.dst (BitVec.ofNat 32 n)).step ∧ (t.a i).toNat < 2 ^ (32 - n) ∧
      (n < 32 → (t.a i).getLsbD (31 - n) = true)) ∧
  (RegOp .mov 0 19 { d := 1, b := 1 } fun i t => t.b i) ∧
  (LaneOp .s2r 7 0 { d := 1, b := 1, bImm := false } (fun _ _ i _ => i.imm ≤ 0x14) fun s pl _ i l t t' =>
    ∃ w : Nat, t' = (t.put i.dst (BitVec.ofNat 32 w)).step ∧ ∀ c, s.ctx? pl.slice pl.slot = some c →
      (i.imm = 0 → w = l) ∧ (i.imm = 1 → w = pl.group) ∧ (i.imm = 2 → w = bit t.query.isSome) ∧ (i.imm = 3 → w = t.qid.toNat) ∧
      (i.imm = 4 → w = t.bounce) ∧ (i.imm = 5 → w = c.node) ∧ (i.imm = 0x12 → w = t.key.toNat) ∧ (i.imm = 0x14 → w = c.nq) ∧
      (i.imm = 0x13 → w = pl.slice + 2 ^ 9 * pl.slot + 2 ^ 13 * c.gen.toNat) ∧
      (∀ f, c.leaf = some f → (i.imm = 6 → w = f.line) ∧ (i.imm = 7 → w = f.count) ∧ (i.imm = 0x10 → w = f.user.toNat % 2 ^ 32) ∧
        (i.imm = 0x11 → w = f.user.toNat / 2 ^ 32) ∧ ∀ k, k < 8 → i.imm = 8 + k → w = (f.prims.getD k 0).toNat) ∧
      (c.leaf = none → (6 ≤ i.imm → i.imm ≤ 0x0F → w = 0) ∧
        ∀ d, s.dep? c.dep = some d → c.node ≠ 255 →
          (i.imm = 0x10 → w = (((s.part c.part).graph d.graphId).node c.node).arg.toNat) ∧ (i.imm = 0x11 → w = 0))) ∧
  (LaneOp .u2r 7 1 { d := 1, b := 1, bImm := false } (fun _ _ _ _ => True) fun _ _ g i _ t t' =>
    t' = (t.put i.dst (NMap.get 0 g.uregs (i.imm % 16))).step) ∧
  (∀ (s : State) (pl : Place) (c : Ctx) (g : Group) (pc : BitVec 15) (i : Ins) (low : Thread), s.issues pl 7 2 { a := 1 } c g pc i →
    g.acting pc i ≠ [] → g.threads.find? (fun t => !t.exited) = some low →
    ∃ t g', exec (.moveToUniform pl) s = .next t ∧ s.movedOn t pl c g' ∧
      g'.uregs = NMap.put 0 g.uregs (i.imm % 16) (low.a i) ∧ g.ran g' pc i (fun _ t t' => t' = t.step) ∧
      s.slotted pl c i t.slices ∧ t = { s with ctxs := t.ctxs, slices := t.slices, pwr := { s.pwr with activity := t.pwr.activity } }) ∧
  (∀ (s : State) (pl : Place) (c : Ctx) (g : Group) (pc : BitVec 15) (i : Ins), s.issues pl 7 3 { d := 1 } c g pc i →
    g.threads.length ≤ 32 →
    ∃ t g' v, exec (.vote pl) s = .next t ∧ s.movedOn t pl c g' ∧ g'.uregs = g.uregs ∧
      (∀ l, l < 32 → (v : Word).getLsbD l =
        match g.threads[l]? with | some th => !th.exited && th.pred (i.sa % 8) | none => false) ∧
      g.ran g' pc i (fun _ t t' => t' = (t.put i.dst v).step) ∧
      s.slotted pl c i t.slices ∧ t = { s with ctxs := t.ctxs, slices := t.slices, pwr := { s.pwr with activity := t.pwr.activity } })

/-- FLT and BR: each executing thread writes DST with the FP32 result (rounded once to nearest even, correctly rounded roots
and quotients, F2I saturating with 0 for a NaN, pairs under R120), FSETP its predicate; branches move each thread's pc by
themselves, within the 15 bits of a program counter, CALL and RET over a stack of 8, and EXIT ends threads, the last one its context (R111, R120, R163, R186, R192, R197).
The minimum and maximum with a NaN operand are free values (log 14). Where the manual leaves room it follows the model's own
choices, log 13, 20, 82. -/
def Obligations.FloatAndBranchInstructions : Prop :=
  let abd : Uses := { d := 1, a := 1, b := 1 }
  (RegOp .fadd 1 0 abd fun i t => fvWord (fvAdd (fpVal (t.a i)) (fpVal (t.b i)))) ∧
  (RegOp .fmul 1 1 abd fun i t => fvWord (fvMul (fpVal (t.a i)) (fpVal (t.b i)))) ∧
  (RegOp .ffma 1 2 { d := 1, a := 1, b := 1, c := 1 } fun i t =>
    fvWord (fvAdd (fvMul (fpVal (t.a i)) (fpVal (t.b i))) (fpVal (t.c i)))) ∧
  (LaneOp .fmin 1 3 abd (fun _ _ _ _ => True) fun _ _ _ i _ t t' =>
    ∃ w, t' = (t.put i.dst w).step ∧
      ∀ x y, fpVal (t.a i) = some x → fpVal (t.b i) = some y → w = fpWord (if XR.lt y x then y else x)) ∧
  (LaneOp .fmax 1 4 abd (fun _ _ _ _ => True) fun _ _ _ i _ t t' =>
    ∃ w, t' = (t.put i.dst w).step ∧
      ∀ x y, fpVal (t.a i) = some x → fpVal (t.b i) = some y → w = fpWord (if XR.lt x y then y else x)) ∧
  (LaneOp .fsetp 1 5 { a := 1, b := 1 } (fun _ _ i _ => i.sc % 8 ≠ 7) fun _ _ _ i _ t t' =>
    ∃ v, t' = (t.setPred (i.dst % 8) v).step ∧
      (∀ x y, fpVal (t.a i) = some x → fpVal (t.b i) = some y →
        (i.sc % 8 = 0 → v = (!XR.lt x y && !XR.lt y x)) ∧ (i.sc % 8 = 1 → v = (XR.lt x y || XR.lt y x)) ∧
        (i.sc % 8 = 2 → v = XR.lt x y) ∧ (i.sc % 8 = 3 → v = XR.le x y) ∧ (i.sc % 8 = 4 → v = XR.lt y x) ∧
        (i.sc % 8 = 5 → v = XR.le y x) ∧ (i.sc % 8 = 6 → v = false)) ∧
      (fpVal (t.a i) = none ∨ fpVal (t.b i) = none → (i.sc % 8 = 6 → v = true))) ∧
  (RegOp .fsqrt 1 6 { d := 1, a := 1 } fun i t => fsqrtW (t.a i)) ∧
  (RegOp .fdiv 1 7 abd fun i t => fdivW (t.a i) (t.b i)) ∧
  (LaneOp .f2i 1 8 { d := 1, a := 1 } (fun _ _ _ _ => True) fun _ _ _ i _ t t' =>
    ∃ w : Word, t' = (t.put i.dst w).step ∧ (fpVal (t.a i) = none → w = 0) ∧ (fpVal (t.a i) = some .pinf → w = 0x7FFFFFFF) ∧
      (fpVal (t.a i) = some .ninf → w = 0x80000000) ∧
      ∀ q, fpVal (t.a i) = some (.fin q) → w.toInt = max (-(2 ^ 31)) (min (2 ^ 31 - 1) q.rne)) ∧
  (RegOp .i2f 1 9 { d := 1, a := 1 } fun i t => rneW (Q.ofInt (t.a i).toInt)) ∧
  (LaneOp .padd 1 10 { d := 2, a := 2, b := 2 } (fun _ _ _ _ => True) fun _ _ _ i _ t t' =>
    ∃ lo, t' = (t.put2 i.dst (paddW (t.reg i.sa) (t.reg (i.sa + 1)) (t.reg i.sb) (t.reg (i.sb + 1))).1 lo).step ∧
      ∀ v, (paddW (t.reg i.sa) (t.reg (i.sa + 1)) (t.reg i.sb) (t.reg (i.sb + 1))).2 = some v → lo = v) ∧
  (LaneOp .pfma 1 11 { d := 2, a := 1, b := 1, c := 2 } (fun _ _ _ _ => True) fun _ _ _ i _ t t' =>
    ∃ lo, t' = (t.put2 i.dst (pfmaW (t.a i) (t.b i) (t.reg i.sc) (t.reg (i.sc + 1))).1 lo).step ∧
      ∀ v, (pfmaW (t.a i) (t.b i) (t.reg i.sc) (t.reg (i.sc + 1))).2 = some v → lo = v) ∧
  (LaneOp .bra 3 0 {} (fun _ _ _ _ => True) fun _ _ _ i _ t t' => t' = { t with pc := BitVec.ofNat 15 i.imm }) ∧
  (LaneOp .call 3 1 {} (fun _ _ _ th => th.calls.length < 8) fun _ _ _ i _ t t' =>
    t' = { t with pc := BitVec.ofNat 15 i.imm, calls := (t.pc + 1) :: t.calls }) ∧
  (LaneOp .ret 3 2 {} (fun _ _ _ th => th.calls ≠ []) fun _ _ _ _ _ t t' => ∃ p ps, t.calls = p :: ps ∧ t' = { t with pc := p, calls := ps }) ∧
  (LaneOp .brx 3 4 { a := 1 } (fun _ _ _ _ => True) fun _ _ _ i _ t t' => t' = { t with pc := (t.a i).setWidth 15 }) ∧
  (∀ (s : State) (pl : Place) (c : Ctx) (g : Group) (pc : BitVec 15) (i : Ins), s.issues pl 3 3 {} c g pc i →
    ((∃ th ∈ g.threads, th.ready = true ∧ (th.holds pc && th.guard i) = false) →
      ∃ t g', exec (.exit pl) s = .next t ∧ s.movedOn t pl c g' ∧ g'.uregs = g.uregs ∧
        g.ran g' pc i (fun _ t t' => t' = { t with exited := true }) ∧
        s.slotted pl c i t.slices ∧ t = { s with ctxs := t.ctxs, slices := t.slices, pwr := { s.pwr with activity := t.pwr.activity } }) ∧
    ((∀ th ∈ g.threads, th.exited = false → (th.holds pc && th.guard i) = true) →
      (∀ k x, c.groups[k]? = some x → k ≠ pl.group → x.dead = true) →
      ∃ t, exec (.exit pl) s = .next t ∧ t.ctx? pl.slice pl.slot = none ∧ t.mem = s.mem ∧
        ∀ a b, a ≠ pl.slice ∨ b ≠ pl.slot → t.ctx? a b = s.ctx? a b))

/-- MEM: loads read the addressed bytes through the slice's data cache, which a miss fills from memory; stores put B into
memory and nowhere else, and one that fails finally leaves its bytes either as they were or written; LDS and STS read and
write local store; atomics leave the old word in DST and the new one in place (ATOM at a line the cluster owns for the
partition, else the thread waits for it); FENCE empties the data-cache view; LDLINE reads the tree of the thread's query
(R189, R192, R193, R196, R296, R328, R330, R331). Where the manual leaves room it follows the model's own choices, log 8, 15,
20, 21, 73. -/
def Obligations.MemoryInstructions : Prop :=
  (∀ (s : State) (pl : Place) (c : Ctx) (g : Group) (pc : BitVec 15) (i : Ins) (wide : Bool) (fails : Fails),
    (let n := if wide then 8 else 4
     let mk : Instr := if wide then .ld64 pl fails else .ld pl fails
     let word := fun (bs : List Byte) (t : Thread) =>
      if wide then t.put2 i.dst (wordOf (bs.take 4)) (wordOf (bs.drop 4)) else t.put i.dst (wordOf bs)
     s.issues pl 2 (bit wide) { d := n / 4, a := 2 } c g pc i →
     (∀ th ∈ g.acting pc i, th.gaddr i true % n = 0) →
     ((∀ th ∈ g.acting pc i, ∃ a l, s.translate c.part (th.gaddr i true) n false = some a ∧
        (s.slice pl.slice).dcache.find (lineOf a) c.part = some l) →
      ∃ t g', exec mk s = .next t ∧ s.movedOn t pl c g' ∧ g'.uregs = g.uregs ∧ t.mem = s.mem ∧
        t = { s with ctxs := t.ctxs, slices := t.slices, clusters := t.clusters, pwr := t.pwr } ∧
        g.ran g' pc i fun _ t t' => ∀ a l, s.translate c.part (t.gaddr i true) n false = some a →
          (s.slice pl.slice).dcache.find (lineOf a) c.part = some l → t' = (word ((l.data.drop (a % 64)).take n) t).step) ∧
     (∀ th a, g.acting pc i = [th] → s.translate c.part (th.gaddr i true) n false = some a → a % n = 0 →
      s.missesL1 pl.slice c.part (lineOf a) = true → s.missesL2 c.part (lineOf a) = true → (∀ x ∈ fails, x.2.length < 4) →
      ∃ t g', exec mk s = .next t ∧ s.movedOn t pl c g' ∧ g'.uregs = g.uregs ∧ t.mem = s.mem ∧
        t = { s with ctxs := t.ctxs, slices := t.slices, clusters := t.clusters, mports := t.mports, pwr := t.pwr } ∧
        g.ran g' pc i fun _ t t' => t' = (word ((List.range n).map fun k => s.mem.read (a + k)) t).step))) ∧
  (∀ (s : State) (pl : Place) (c : Ctx) (g : Group) (pc : BitVec 15) (i : Ins) (wide : Bool) (fails : Fails),
    (let n := if wide then 8 else 4
     let mk : Instr := if wide then .st64 ⟨pl, fails⟩ else .st ⟨pl, fails⟩
     let data := fun (t : Thread) (k : Nat) =>
      if wide then (if k < 4 then byteAt (leBytes 4 (t.reg i.sb).toNat) k else byteAt (leBytes 4 (t.reg (i.sb + 1)).toNat) (k - 4))
      else byteAt (leBytes 4 (t.b i).toNat) k
     let lands := fun (th : Thread) => s.translate c.part (th.gaddr i true) n true
     s.issues pl 2 (if wide then 3 else 2) (if wide then { a := 2, b := 2 } else { a := 2, b := 1 }) c g pc i →
     (∀ th ∈ g.acting pc i, th.gaddr i true % n = 0 ∧ (lands th).isSome = true) →
     ∃ t g', exec mk s = .next t ∧ s.movedOn t pl c g' ∧ g'.uregs = g.uregs ∧ g.ran g' pc i (fun _ t t' => t' = t.step) ∧
       t = { s with mem := t.mem, ctxs := t.ctxs, slices := t.slices, clusters := t.clusters, mports := t.mports
                    fab := { s.fab with hq := t.fab.hq, hlost := t.fab.hlost }, pwr := t.pwr, free := t.free } ∧
       ((∀ line, s.ownerOf line = none) →
        (∀ x, (∀ th ∈ g.acting pc i, ∀ a, lands th = some a → x < a ∨ a + n ≤ x) → t.mem.read x = s.mem.read x) ∧
        (∀ th a, g.acting pc i = [th] → lands th = some a →
          (∀ k, k < n → t.mem.read (a + k) = data th k) ∨ (∀ k, k < n → t.mem.read (a + k) = s.mem.read (a + k))) ∧
        ((∀ x ∈ fails, x.2.length < 4) → t.fab = s.fab ∧ t.free = s.free ∧
         ∀ (l : Nat) (th : Thread) (a k : Nat), g.threads[l]? = some th → (th.holds pc && th.guard i) = true → lands th = some a → k < n →
          (∀ (l' : Nat) (th' : Thread) (a' : Nat), l < l' → g.threads[l']? = some th' → (th'.holds pc && th'.guard i) = true → lands th' = some a' →
            a + k < a' ∨ a' + n ≤ a + k) → t.mem.read (a + k) = data th k)))) ∧
  (LaneOp .lds 2 4 { d := 1, a := 1 }
    (fun s pl i th => th.laddr i % 4 = 0 ∧ ∀ c, s.ctx? pl.slice pl.slot = some c → th.laddr i + 4 ≤ c.localBytes)
    fun s pl _ i _ t t' => ∃ w, t' = (t.put i.dst w).step ∧ ∀ c bs, s.ctx? pl.slice pl.slot = some c → bs.length = 4 →
      (∀ k, k < 4 → NMap.get none c.ls (t.laddr i + k) = bs[k]?) → w = wordOf bs) ∧
  (∀ (s : State) (pl : Place) (c : Ctx) (g : Group) (pc : BitVec 15) (i : Ins), s.issues pl 2 5 { a := 1, b := 1 } c g pc i →
    (∀ th ∈ g.acting pc i, th.laddr i % 4 = 0 ∧ th.laddr i + 4 ≤ c.localBytes) →
    ∃ t g', exec (.sts pl) s = .next t ∧ g'.uregs = g.uregs ∧ g.ran g' pc i (fun _ t t' => t' = t.step) ∧
      s.movedOn t pl { c with ls := (g.acting pc i).foldl (fun ls th => putLocal ls (th.laddr i) (leBytes 4 (th.b i).toNat)) c.ls } g' ∧
      s.slotted pl c i t.slices ∧ t = { s with ctxs := t.ctxs, slices := t.slices, pwr := { s.pwr with activity := t.pwr.activity } }) ∧
  (∀ (s : State) (pl : Place) (c : Ctx) (g : Group) (pc : BitVec 15) (i : Ins),
    s.issues pl 2 7 { d := 1, a := 1, b := 1, bImm := false } c g pc i → i.imm % 16 ≤ 9 →
    (i.imm % 16 = 9 → regOk (s.kernelOf c).nreg i.sc 1 = true) →
    (∀ th ∈ g.acting pc i, (th.a i).toNat % 4 = 0 ∧ (th.a i).toNat + 4 ≤ c.localBytes) →
    ∃ t g' ls, exec (.atoms pl) s = .next t ∧ g'.uregs = g.uregs ∧ s.movedOn t pl { c with ls := ls } g' ∧
      g.ran g' pc i (fun _ t t' => ∃ w, t' = (t.put i.dst w).step) ∧
      s.slotted pl c i t.slices ∧ t = { s with ctxs := t.ctxs, slices := t.slices, pwr := { s.pwr with activity := t.pwr.activity } } ∧
      ∀ th bs, g.acting pc i = [th] → bs.length = 4 → (∀ k, k < 4 → NMap.get none c.ls ((th.a i).toNat + k) = bs[k]?) →
        ls = putLocal c.ls (th.a i).toNat (leBytes 4 (atomW (i.imm % 16) (wordOf bs) (th.reg i.sb) (th.c i)).toNat) ∧
        g.ran g' pc i fun _ t t' => t' = (t.put i.dst (wordOf bs)).step) ∧
  (∀ old b c : Word, atomW 0 old b c = old + b ∧ atomW 1 old b c = (if old.slt b then old else b) ∧
    atomW 2 old b c = (if old.slt b then b else old) ∧ atomW 3 old b c = (if old.ult b then old else b) ∧
    atomW 4 old b c = (if old.ult b then b else old) ∧ atomW 5 old b c = old &&& b ∧ atomW 6 old b c = old ||| b ∧
    atomW 7 old b c = old ^^^ b ∧ atomW 8 old b c = b ∧ atomW 9 old b c = if old = b then c else old) ∧
  (∀ (s : State) (pl : Place) (c : Ctx) (g : Group) (pc : BitVec 15) (i : Ins) (th : Thread) (a : Nat),
    s.issues pl 2 6 { d := 1, a := 2, b := 1, bImm := false } c g pc i → i.imm % 16 ≤ 9 →
    (i.imm % 16 = 9 → regOk (s.kernelOf c).nreg i.sc 1 = true) → g.acting pc i = [th] → th.gaddr i false % 4 = 0 →
    s.translate c.part (th.gaddr i false) 4 true = some a →
    (∀ l, (s.cluster (clusterOf pl.slice)).l1.lines.find? (fun l => l.line == lineOf a && l.part == c.part && l.owned) = some l →
      ∃ t g' l', exec (.atom pl) s = .next t ∧ s.movedOn t pl c g' ∧ s.slotted pl c i t.slices ∧
        t = { s with ctxs := t.ctxs, slices := t.slices, clusters := t.clusters, pwr := { s.pwr with activity := t.pwr.activity } } ∧
        (t.cluster (clusterOf pl.slice)).l1.lines.find? (fun l => l.line == lineOf a && l.part == c.part && l.owned) = some l' ∧
        (∀ m, m ≠ clusterOf pl.slice → t.cluster m = s.cluster m) ∧
        (let old := wordOf ((l.data.drop (a % 64)).take 4)
         l'.data = overlay l.line l.data a (leBytes 4 (atomW (i.imm % 16) old (th.reg i.sb) (th.c i)).toNat) ∧
         g.ran g' pc i fun _ t t' => t' = (t.put i.dst old).step)) ∧
    ((s.cluster (clusterOf pl.slice)).l1.lines.find? (fun l => l.line == lineOf a && l.part == c.part && l.owned) = none →
      ∃ t g', exec (.atom pl) s = .next t ∧ s.movedOn t pl c g' ∧
        s.slotted pl c i t.slices ∧ t = { s with ctxs := t.ctxs, slices := t.slices, pwr := { s.pwr with activity := t.pwr.activity } } ∧
        g.ran g' pc i fun _ t t' => t' = { t with wait := .atomic ⟨a, t.gaddr i false, c.part, i.imm % 16, t.reg i.sb, t.c i, i.dst⟩ })) ∧
  (∀ (s : State) (pl : Place) (c : Ctx) (g : Group) (pc : BitVec 15) (i : Ins), s.issues pl 2 8 {} c g pc i → g.acting pc i ≠ [] →
    ∃ t g', exec (.fence pl) s = .next t ∧ s.movedOn t pl c g' ∧ g'.uregs = g.uregs ∧ g.ran g' pc i (fun _ t t' => t' = t.step) ∧
      (t.slice pl.slice).dcache.lines = [] ∧ (∀ n, n ≠ pl.slice → t.slice n = s.slice n) ∧
      t = { s with ctxs := t.ctxs, slices := t.slices, pwr := { s.pwr with activity := t.pwr.activity } }) ∧
  (∀ (s : State) (pl : Place) (c : Ctx) (g : Group) (pc : BitVec 15) (i : Ins), s.issues pl 2 9 { d := 1, a := 1 } c g pc i →
    ((∀ th ∈ g.acting pc i, th.query = none) →
      ∃ t g', exec (.ldline pl) s = .next t ∧ s.movedOn t pl c g' ∧ g.ran g' pc i (fun _ t t' => t' = (t.put i.dst 0).step) ∧
        s.slotted pl c i t.slices ∧ t = { s with ctxs := t.ctxs, slices := t.slices, pwr := { s.pwr with activity := t.pwr.activity } }) ∧
    (∀ th u q, g.acting pc i = [th] → th.query = some u → s.query? u = some q →
      (∀ ls, (s.readImg q pl.slice (th.a i).toNat).1 = .ok ls →
        ∃ t g' w, exec (.ldline pl) s = .next t ∧ s.movedOn t pl c g' ∧ t.mem = s.mem ∧ t.queries = s.queries ∧
          (i.imm % 64 ≤ 60 → w = BitVec.ofNat 32 (fieldAt (ls.headD []) (i.imm % 64) 4)) ∧
          g.ran g' pc i fun _ t t' => t' = (t.put i.dst w).step) ∧
      (∀ k, (s.readImg q pl.slice (th.a i).toNat).1 = .older k →
        ∃ t g', exec (.ldline pl) s = .next t ∧ s.movedOn t pl c g' ∧ t.mem = s.mem ∧ t.queries = s.queries ∧
          g.ran g' pc i fun _ t t' => t' = { t with wait := .line k i.dst (i.imm % 64) s.elapsed s.elapsed }) ∧
      (∀ k tag, (s.readImg q pl.slice (th.a i).toNat).1 = .newer k tag → q.pin = none → q.visitor = none →
        ∃ t, exec (.ldline pl) s = .next t ∧ t.mem = s.mem ∧ t.query? u = none ∧
          (s.fab.hq.length < 64 → ∃ h ∈ t.fab.hq, h.code = 0x11))))

/-- MMA, CVT, LDF and STF with every thread of the group executing: D(r, n) is the dot product of R166 (R168 for integers,
R171 with PAIR) of row r of A and column n of B on C(r, n); CVT converts the tile of SA with its scales, biases and limits and
marks saturated and invalid elements in p5 and p6; LDF and STF move a tile's words between local store and registers (R200 to
R203). Where the manual leaves room it follows the model's own choices, log 13, 14, 20. -/
def Obligations.MatrixInstructions : Prop :=
  (∀ (s : State) (pl : Place) (c : Ctx) (g : Group) (pc : BitVec 15) (i : Ins),
    (let af := bitsAt i.imm 3 0
     let bf := bitsAt i.imm 7 4
     let k := s.kernelOf c
     let dn := if mmaPair i then 1024 else 512
     let a := fun r => tileBlock af (wordBytes (g.tile i.sa (16 * fmtWidth af))) (uScale g.uregs 0) r
     let b := fun n => tileBlock bf (wordBytes (g.tile i.sb (32 * fmtWidth bf))) (uScale g.uregs 8) n
     s.issues pl 4 0 { b := 1, bImm := false } c g pc i → g.acting pc i = g.threads → g.threads.length = k.width →
     (k.width = 8 ∨ k.width = 16 ∨ k.width = 32) → k.nreg ≤ 255 → tileOk k i.sa (16 * fmtWidth af) false = true →
     tileOk k i.sb (32 * fmtWidth bf) false = true → tileOk k i.sc dn false = true → tileOk k i.dst dn false = true →
     mayMeet af bf = true →
     ∃ t g', exec (.mma pl) s = .next t ∧ s.movedOn t pl c g' ∧ g'.uregs = g.uregs ∧
       s.slotted pl c i t.slices ∧ t = { s with ctxs := t.ctxs, slices := t.slices, clusters := t.clusters, pwr := { s.pwr with activity := t.pwr.activity } } ∧
       (∀ m, m ≠ clusterOf pl.slice → t.cluster m = s.cluster m) ∧
       (t.cluster (clusterOf pl.slice)).macs = addD (s.cluster (clusterOf pl.slice)).macs 16384 ∧
       (∀ (l : Nat) (th : Thread), g.threads[l]? = some th → ∃ th' : Thread, g'.threads[l]? = some th' ∧ th' = { th.counted.step with regs := th'.regs } ∧
         ∀ r, r < i.dst ∨ i.dst + dn / k.width ≤ r → th'.reg r = th.reg r) ∧
       ∀ r n, r < 16 → n < 32 →
         (fmtInt af = true → (g'.tile i.dst 512)[32 * r + n]? = some (BitVec.ofInt 32
           (dotInt (bitAt i.imm 9) ((g.tile i.sc 512).getD (32 * r + n) 0).toInt [(a r).elems] [(b n).elems]))) ∧
         (fmtInt af = false → bitAt i.imm 8 = false → (g'.tile i.dst 512)[32 * r + n]? = some (fvWord
           (dotFp (fpVal ((g.tile i.sc 512).getD (32 * r + n) 0)) [a r] [b n]))) ∧
         (fmtInt af = false → bitAt i.imm 8 = true →
           let p := dotPair (fpairOf ((g.tile i.sc 1024).getD (32 * r + n) 0) ((g.tile i.sc 1024).getD (512 + (32 * r + n)) 0)) [a r] [b n]
           (g'.tile i.dst 1024)[32 * r + n]? = some (fvWord p.hi) ∧
           (p.hi.isSome = true → (g'.tile i.dst 1024)[512 + (32 * r + n)]? = some (rneW p.lo))))) ∧
  (∀ (s : State) (pl : Place) (c : Ctx) (g : Group) (pc : BitVec 15) (i : Ins) (low : Thread) (bs : List Byte),
    (let f := bitsAt i.imm 3 0
     let k := s.kernelOf c
     let w := if f = 0 then 32 else fmtWidth f
     let row := bitAt i.imm 4
     let par := (List.range (bs.length / 4)).map fun j => BitVec.ofNat 32 (fieldAt bs (4 * j) 4)
     let lo := some ((fpVal (low.reg i.sc)).getD .ninf)
     let hi := some ((fpVal (low.reg (i.sc + 1))).getD .pinf)
     let rows := cvtRows f (bitAt i.imm 5) (bitAt i.imm 6) row (g.tile i.sa 512) par lo hi
     let cs := (rows.map (·.2)).flatten
     s.issues pl 4 1 { b := 1, c := 2, bImm := false } c g pc i → g.acting pc i = g.threads → g.threads.length = k.width →
     (k.width = 8 ∨ k.width = 16 ∨ k.width = 32) → k.nreg ≤ 255 → f ≤ 10 → tileOk k i.sa 512 false = true →
     tileOk k i.dst (16 * w) false = true → g.threads.head? = some low → bs.length = (if row then 192 else 256) →
     (low.reg i.sb).toNat % 4 = 0 → (low.reg i.sb).toNat + bs.length ≤ c.localBytes →
     (∀ j, j < bs.length → NMap.get none c.ls ((low.reg i.sb).toNat + j) = bs[j]?) →
     ∃ t g', exec (.cvt pl) s = .next t ∧ s.movedOn t pl c g' ∧
       s.slotted pl c i t.slices ∧ t = { s with ctxs := t.ctxs, slices := t.slices, pwr := { s.pwr with activity := t.pwr.activity } } ∧
       (fmtMx f = true → g'.uregs = putScales g.uregs (rows.map (·.1))) ∧ (fmtMx f = false → g'.uregs = g.uregs) ∧
       g'.tile i.dst (16 * w) = (rows.map fun r => packRow w (r.2.map (·.code))).flatten ∧
       (∀ (l : Nat) (th : Thread), g.threads[l]? = some th → ∃ th' : Thread, g'.threads[l]? = some th' ∧ th'.pc = th.pc + 1 ∧
         th'.pred 5 = laneHolds k.width w l Conv.sat cs ∧ th'.pred 6 = laneHolds k.width w l Conv.inv cs ∧
         (∀ p, p < 8 → p ≠ 5 → p ≠ 6 → th'.pred p = th.pred p) ∧
         ∀ r, r < i.dst ∨ i.dst + 16 * w / k.width ≤ r → th'.reg r = th.reg r) ∧
       ∀ r n, f = 0 → r < 16 → n < 32 →
         (let acc := (g.tile i.sa 512).getD (32 * r + n) 0
          let v : FV := if bitAt i.imm 6 then some (.fin (Q.ofInt acc.toInt)) else fpVal acc
          (g'.tile i.dst 512)[32 * r + n]? = some (fvWord (fvRound (fused v (fpVal (par.getD (if row then r else n) 0))
            (fpVal (par.getD ((if row then 16 else 32) + n) 0)) lo hi)))))) ∧
  (∀ (s : State) (pl : Place) (c : Ctx) (g : Group) (pc : BitVec 15) (i : Ins) (low : Thread) (n : Nat) (store : Bool),
    (let k := s.kernelOf c
     let a := (low.a i).toNat
     s.issues pl 4 (if store then 3 else 2) { a := 1, b := 1, bImm := false } c g pc i → g.acting pc i = g.threads →
     g.threads.length = k.width → (k.width = 8 ∨ k.width = 16 ∨ k.width = 32) → k.nreg ≤ 255 →
     ((bitsAt i.imm 5 4 = 0 ∧ n = 16 * fmtWidth (bitsAt i.imm 3 0)) ∨ (bitsAt i.imm 5 4 = 1 ∧ n = 32 * fmtWidth (bitsAt i.imm 3 0)) ∨
       (bitsAt i.imm 5 4 = 2 ∧ n = 512)) → fragFmtOk i = true → g.threads.head? = some low → a % 4 = 0 → a + 4 * n ≤ c.localBytes →
     (store = false → tileOk k i.dst n false = true → ∀ bs : List Byte, bs.length = 4 * n →
       (∀ j, j < 4 * n → NMap.get none c.ls (a + j) = bs[j]?) →
       ∃ t g', exec (.ldf pl) s = .next t ∧ s.movedOn t pl c g' ∧ g'.uregs = g.uregs ∧
         g'.tile i.dst n = (List.range n).map (fun j => BitVec.ofNat 32 (fieldAt bs (4 * j) 4)) ∧
         (∀ (l : Nat) (th : Thread), g.threads[l]? = some th → ∃ th' : Thread, g'.threads[l]? = some th' ∧ th' = { th.counted.step with regs := th'.regs } ∧
           ∀ r, r < i.dst ∨ i.dst + n / k.width ≤ r → th'.reg r = th.reg r) ∧
         s.slotted pl c i t.slices ∧ t = { s with ctxs := t.ctxs, slices := t.slices, pwr := { s.pwr with activity := t.pwr.activity } }) ∧
     (store = true → tileOk k i.sb n false = true →
       ∃ t g', exec (.stf pl) s = .next t ∧ g'.uregs = g.uregs ∧ g.ran g' pc i (fun _ t t' => t' = t.step) ∧
         s.movedOn t pl { c with ls := putLocal c.ls a (wordBytes (g.tile i.sb n)) } g' ∧
         s.slotted pl c i t.slices ∧ t = { s with ctxs := t.ctxs, slices := t.slices, pwr := { s.pwr with activity := t.pwr.activity } })))

/-- EVT: SIGNAL sends its bits on their way, WAITEV takes the bits of its mask or blocks its group, BAR releases when every
live group has reached it, GATE sets gate bits of the deposit, GETWORK completes the node for the query served and takes the
next ready one, waits, or returns empty-handed, and answers a waiting thread when it comes again (R199, R207, R208, R212,
R215). Where the manual leaves room it follows the
model's own choices, log 20, 22. -/
def Obligations.SignalsEventsAndWork : Prop :=
  (∀ (s : State) (pl : Place) (c : Ctx) (g : Group) (pc : BitVec 15) (i : Ins), s.issues pl 5 0 { a := 1, b := 1 } c g pc i →
    ∃ t g', exec (.signal pl) s = .next t ∧ s.movedOn t pl c g' ∧ g'.uregs = g.uregs ∧ g.ran g' pc i (fun _ t t' => t' = t.step) ∧
      t.signals = s.signals ++ (g.acting pc i).map (fun th => ⟨c.part, clusterOf pl.slice, th.a i, th.b i⟩) ∧
      s.slotted pl c i t.slices ∧ t = { s with ctxs := t.ctxs, slices := t.slices, signals := t.signals, pwr := { s.pwr with activity := t.pwr.activity } }) ∧
  (∀ (s : State) (pl : Place) (c : Ctx) (g : Group) (pc : BitVec 15) (i : Ins) (low : Thread), s.issues pl 5 1 { b := 1 } c g pc i →
    g.acting pc i ≠ [] → g.threads.find? (fun t => !t.exited) = some low → (∀ th ∈ g.threads, th.exited = true → th.wait = .run) →
    (∀ (k : Nat) (x : Group), c.groups[k]? = some x → k ≠ pl.group → ∀ th ∈ x.threads, ∀ m, th.wait ≠ .event m) →
    (c.ev &&& low.b i = low.b i →
      ∃ t g', exec (.waitev pl) s = .next t ∧ s.movedOn t pl { c with ev := c.ev &&& ~~~(low.b i) } g' ∧
        g.ran g' pc i (fun _ t t' => t' = t.step) ∧
        s.slotted pl c i t.slices ∧ t = { s with ctxs := t.ctxs, slices := t.slices, pwr := { s.pwr with activity := t.pwr.activity } }) ∧
    (c.ev &&& low.b i ≠ low.b i →
      ∃ t g' b, exec (.waitev pl) s = .next t ∧
        t.ctx? pl.slice pl.slot = some { c with groups := c.groups.set pl.group g', blockedAt := b } ∧
        (c.groups.length = 1 → b = some (c.blockedAt.getD s.wclk)) ∧
        (∀ (l : Nat) (th : Thread), g.threads[l]? = some th → g'.threads[l]? =
          some (if th.holds pc then { th.counted with wait := .event (low.b i) } else th)) ∧
        s.slotted pl c i t.slices ∧ t = { s with ctxs := t.ctxs, slices := t.slices, pwr := { s.pwr with activity := t.pwr.activity } })) ∧
  (∀ (s : State) (pl : Place) (c : Ctx) (g : Group) (pc : BitVec 15) (i : Ins), s.issues pl 5 2 {} c g pc i → g.acting pc i ≠ [] →
    (∀ th ∈ g.threads, th.exited = true → th.wait = .run) →
    ((∀ (k : Nat) (x : Group), c.groups[k]? = some x → k ≠ pl.group → ∀ th ∈ x.threads, th.exited = true ∨ th.wait = .barrier) →
      ∃ t x, exec (.bar pl) s = .next t ∧ t.ctx? pl.slice pl.slot = some x ∧ x = { c with groups := x.groups, blockedAt := none } ∧
        (∀ (k : Nat) (y : Group), c.groups[k]? = some y → ∃ y' : Group, x.groups[k]? = some y' ∧ y'.uregs = y.uregs ∧
          y'.threads = if k = pl.group then y.threads.map fun th => if th.holds pc then th.counted.step else th
            else y.threads.map fun th => if th.wait = .barrier then { th with wait := .run, pc := th.pc + 1 } else th) ∧
        s.slotted pl c i t.slices ∧ t = { s with ctxs := t.ctxs, slices := t.slices, pwr := { s.pwr with activity := t.pwr.activity } }) ∧
    ((∃ (k : Nat) (x : Group), c.groups[k]? = some x ∧ k ≠ pl.group ∧ ∃ th ∈ x.threads, th.ready = true) →
      ∃ t g', exec (.bar pl) s = .next t ∧ s.movedOn t pl c g' ∧
        (∀ (l : Nat) (th : Thread), g.threads[l]? = some th → g'.threads[l]? =
          some (if th.holds pc then { th.counted with wait := .barrier } else th)) ∧
        s.slotted pl c i t.slices ∧ t = { s with ctxs := t.ctxs, slices := t.slices, pwr := { s.pwr with activity := t.pwr.activity } })) ∧
  (∀ (s : State) (pl : Place) (c : Ctx) (g : Group) (pc : BitVec 15) (i : Ins) (d : Dep), s.issues pl 5 4 { a := 1 } c g pc i →
    s.dep? c.dep = some d →
    ∃ t g' d', exec (.gate pl) s = .next t ∧ s.movedOn t pl c g' ∧ g'.uregs = g.uregs ∧
      g.ran g' pc i (fun _ t t' => t' = t.step) ∧ t.mem = s.mem ∧ t.dep? c.dep = some d' ∧
      d'.gate = (g.acting pc i).foldl (fun w th => w ||| (th.a i).setWidth 16) d.gate) ∧
  (let staged := fun (s t : State) =>
     ∀ m, t.cluster m = { s.cluster m with
       bpHold := (t.cluster m).bpHold, bpPull := (t.cluster m).bpPull, bpBusy := (t.cluster m).bpBusy }
   let takes := fun (th : Thread) (q : Query) (p : Nat) =>
     (({ th with query := some q.uid, qid := q.qid, bounce := q.bounce, wait := .run } : Thread).setPred p true).step
   (∀ (s : State) (pl : Place) (c : Ctx) (g : Group) (pc : BitVec 15) (i : Ins) (th : Thread), s.issues pl 5 3 {} c g pc i →
     s.worksWait pl = false → bitAt (s.kernelOf c).flags.toNat 1 = true → g.acting pc i = [th] →
     (let leaves := fun (rel : Thread → Thread → Prop) =>
        ∃ t g', exec (.getwork pl) s = .next t ∧ s.movedOn t pl c g' ∧ g'.uregs = g.uregs ∧ g.ran g' pc i (fun _ t t' => rel t t') ∧
          s.slotted pl c i t.slices ∧ staged s t ∧
          t = { s with ctxs := t.ctxs, slices := t.slices, clusters := t.clusters, pwr := { s.pwr with activity := t.pwr.activity } }
      (th.query = none → c.node = 255 → leaves fun t t' => t' = (t.setPred (i.dst % 8) false).step) ∧
      (th.query = none → c.node < 16 →
        (∀ q, (s.readyAtNode c.dep c.run c.node).head? = some q → leaves fun t t' => t' = takes t q (i.dst % 8)) ∧
        (s.readyAtNode c.dep c.run c.node = [] → s.moreWork c.dep c.run c.node = false →
          leaves fun t t' => t' = (t.setPred (i.dst % 8) false).step) ∧
        (s.readyAtNode c.dep c.run c.node = [] → s.moreWork c.dep c.run c.node = true →
          leaves fun t t' => t' = { t with wait := .work (i.dst % 8) }))) ∧
     (∀ u q, c.node < 16 → th.query = some u → s.query? u = some q →
       ∃ t, exec (.getwork pl) s = .next t ∧ t.mem = s.mem ∧ ∀ q', t.query? u = some q' → q'.bits.getLsbD c.node = true)) ∧
   ∀ (s : State) (pl : Place) (c : Ctx) (g : Group) (l p : Nat) (th : Thread), pl.slice < s.nslices → s.coreRuns pl.slice = true →
     s.bordered c.part = false → s.ctx? pl.slice pl.slot = some c → c.groups[pl.group]? = some g → c.node < 16 →
     g.threads[l]? = some th → th.exited = false → th.wait = .work p →
     (∀ (k : Nat) (x : Thread), g.threads[k]? = some x → k ≠ l → ∀ r, x.wait ≠ .work r) → (∀ q ∈ s.queries, q.uid < s.nextUid) →
     (let answers := fun (th' : Thread) =>
        ∃ t, exec (.getwork pl) s = .next t ∧ s.movedOn t pl c { g with threads := g.threads.set l th' } ∧ staged s t ∧
          t = { s with ctxs := t.ctxs, clusters := t.clusters }
      (∀ q, (s.readyAtNode c.dep c.run c.node).head? = some q → answers (takes th q p)) ∧
      (s.readyAtNode c.dep c.run c.node = [] → s.moreWork c.dep c.run c.node = false →
        answers ((({ th with query := none, wait := .run } : Thread).setPred p false).step)) ∧
      (s.readyAtNode c.dep c.run c.node = [] → s.moreWork c.dep c.run c.node = true → answers { th with query := none })))

/-- QRY: LDQ, NRES and LDRES read the query a thread serves, RNG draws its next random word, HITACC offers a candidate under
R86 and R115, WRX and DROPRES change its held results, EMITQ stages a secondary query, SETRV sets its reduce value; a thread
without a query reads 0 and changes nothing (R84, R194). Where the manual leaves room it follows the model's own choices, log
8, 20. -/
def Obligations.QueryInstructions : Prop :=
  let reads := fun (w : Option Word) (i : Ins) (t t' : Thread) =>
    ∃ v, t' = (t.put i.dst v).step ∧ (t.query = none → v = 0) ∧ ∀ x, w = some x → v = x
  let served := fun (s : State) (t : Thread) => t.query.bind s.query?
  (LaneOp .ldq 6 0 { d := 1 } (fun _ _ _ _ => True) fun s _ _ i _ t t' =>
    reads ((served s t).bind fun q => if i.imm + 4 ≤ 48 then some (BitVec.ofNat 32 (fieldAt q.bytes i.imm 4)) else none) i t t') ∧
  (LaneOp .nres 6 3 { d := 1 } (fun _ _ _ _ => True) fun s _ _ i _ t t' =>
    reads ((served s t).map fun q => BitVec.ofNat 32 q.held.length) i t t') ∧
  (LaneOp .ldres 6 4 { d := 1, a := 1 } (fun _ _ _ _ => True) fun s _ _ i _ t t' =>
    reads ((served s t).bind fun q => q.held[(t.a i).toNat]?.map fun h =>
      BitVec.ofNat 32 (fieldAt (recordOf q.qid q.bounce (t.a i).toNat h) (4 * (i.imm % 8)) 4)) i t t') ∧
  (LaneOp .rng 6 1 { d := 1 } (fun _ _ _ th => th.query = none) fun _ _ _ i _ t t' => t' = (t.put i.dst 0).step) ∧
  (LaneOp .hitacc 6 2 { a := 1, c := 2 } (fun _ _ _ th => th.query = none) fun _ _ _ _ _ t t' => t' = t.step) ∧
  (LaneOp .wrx 6 5 { a := 1, b := 1 } (fun _ _ i th => th.query = none ∧ i.imm % 4 ≠ 3) fun _ _ _ _ _ t t' => t' = t.step) ∧
  (LaneOp .dropres 6 6 { a := 1 } (fun _ _ _ th => th.query = none) fun _ _ _ _ _ t t' => t' = t.step) ∧
  (LaneOp .setrv 6 8 { a := 1 } (fun _ _ _ th => th.query = none) fun _ _ _ _ _ t t' => t' = t.step) ∧
  (∀ (s : State) (pl : Place) (c : Ctx) (g : Group) (pc : BitVec 15) (i : Ins) (th : Thread) (u : Nat) (q : Query),
    g.acting pc i = [th] → th.query = some u → s.query? u = some q →
    (let becomes := fun (mk : Instr) (q' : Query) (rel : Thread → Thread → Prop) =>
      ∃ t g', exec mk s = .next t ∧ s.movedOn t pl c g' ∧ g'.uregs = g.uregs ∧ g.ran g' pc i (fun _ t t' => rel t t') ∧
        t.query? u = some q' ∧ (∀ v, v ≠ u → t.query? v = s.query? v) ∧
        s.slotted pl c i t.slices ∧ t = { s with ctxs := t.ctxs, slices := t.slices, queries := t.queries, pwr := { s.pwr with activity := t.pwr.activity } }
     (s.issues pl 6 1 { d := 1 } c g pc i →
       becomes (.rng pl) { q with rngWord := q.rngWord + 1 } fun t t' => t' = (t.put i.dst (s.rngWord q 0)).step) ∧
     (∀ f geo, c.leaf = some f → q.geo = some geo → s.issues pl 6 2 { a := 1, c := 2 } c g pc i →
       becomes (.hitacc pl) (candidate geo q f th.key (th.a i) (th.reg i.sc) (th.reg (i.sc + 1)) (i.imm % 8)).1 fun t t' =>
         t' = (t.setPred (i.dst % 8) (candidate geo q f th.key (th.a i) (th.reg i.sc) (th.reg (i.sc + 1)) (i.imm % 8)).2).step) ∧
     (s.issues pl 6 5 { a := 1, b := 1 } c g pc i → i.imm % 4 ≠ 3 →
       becomes (.wrx pl) { q with held := q.held.modify (th.a i).toNat fun h =>
         if i.imm % 4 = 0 then { h with x0 := th.b i } else if i.imm % 4 = 1 then { h with x1 := th.b i } else { h with x2 := th.b i } }
         fun t t' => t' = t.step) ∧
     (s.issues pl 6 6 { a := 1 } c g pc i →
       becomes (.dropres pl) { q with held := q.held.eraseIdx (th.a i).toNat } fun t t' => t' = t.step) ∧
     (s.issues pl 6 8 { a := 1 } c g pc i → becomes (.setrv pl) { q with rv := th.a i } fun t t' => t' = t.step) ∧
     (∀ bs : List Byte, s.issues pl 6 7 { a := 1 } c g pc i → bitAt (s.kernelOf c).flags.toNat 2 = true → (th.a i).toNat % 4 = 0 →
       (th.a i).toNat + 48 ≤ c.localBytes → bs.length = 48 → (∀ k, k < 48 → NMap.get none c.ls ((th.a i).toNat + k) = bs[k]?) →
       becomes (.emitq pl) { q with staged := q.staged ++ [bs] } fun t t' => t' = t.step)))

/-- A fault of Table 7.9 kills the context: every context of its deposit's run stops, the run's queries end with KERNEL_FAULT,
so does the run, HIT_FAULTS counts and HIT_FLOG keeps the first fault since VALID was clear. Reserved words and a pc out of
range fault whatever the command; so do the budget and illegal registers (shown on IADD), CALL_DEPTH, ALIGN and WINDOW (on LD
and ST), MEM_POISON (on LD), LOCAL_RANGE (on LDS), a line outside the windows, a reserved compare, a forbidden pairing, a tile
operation beside an exited thread, EMITQ and GETWORK without their flags (R191, R192, R196, R198, R217, R218, R297). Where the
manual leaves room it follows the model's own choices, log 20, 21, 83. -/
def Obligations.ThreadFaultsKillContexts : Prop :=
  ∀ (s : State) (pl : Place) (c : Ctx) (g : Group) (pc : BitVec 15) (d : Dep), pl.slice < s.nslices → s.coreRuns pl.slice = true →
    s.ctx? pl.slice pl.slot = some c → c.groups[pl.group]? = some g →
    s.bordered c.part = false → s.nextPc c g = some pc → s.issueSlot pl ((s.code c pc).getD (insOf 0)) ≠ none →
    s.dep? c.dep = some d → d.killedIn c.run = none → (∀ q ∈ s.queries, q.uid < s.nextUid) →
    (let m := clusterOf pl.slice
     let kills := fun (mk : Instr) (kind : Nat) =>
      ∃ t d', exec mk s = .next t ∧ t.mem = s.mem ∧ (t.cluster m).faults = satInc (s.cluster m).faults 1 ∧
        (t.cluster m).flogValid = true ∧
        ((s.cluster m).flogValid = false → (t.cluster m).flogKind = BitVec.ofNat 8 kind ∧
          (t.cluster m).flogPart = BitVec.ofNat 5 c.part ∧ (t.cluster m).flogSlice = BitVec.ofNat 8 pl.slice ∧
          (t.cluster m).flogKernel = BitVec.ofNat 16 c.kernel ∧ (t.cluster m).flogPc = pc) ∧
        ((s.cluster m).flogValid = true → (s.cluster m).flogAt ≠ s.wclk → (t.cluster m).flogKind = (s.cluster m).flogKind ∧
          (t.cluster m).flogPc = (s.cluster m).flogPc) ∧
        t.ctxs = s.ctxs.filter (fun x => !(x.dep == c.dep && x.run == c.run)) ∧
        (∀ u q, s.query? u = some q → q.dep = c.dep → q.run = c.run → t.query? u = none) ∧
        t.dep? c.dep = some d' ∧ d'.killed = d.killed ++ [(c.run, 0x10)] ∧ ∀ x ∈ d'.done, x.run = c.run → x.status = 0x17
     let reserved := fun (mk : Place → Instr) =>
       (s.code c pc = none → kills (mk pl) 7) ∧ (∀ i, s.code c pc = some i → i.listed = false → kills (mk pl) 1)
     (∀ mk ∈ ([.iadd, .isub, .imul, .imulhi, .umulhi, .imin, .imax, .umin, .umax, .bAnd, .bOr, .bXor, .shl, .shr, .sar, .isetp, .sel,
         .popc, .clz, .mov, .fadd, .fmul, .ffma, .fmin, .fmax, .fsetp, .fsqrt, .fdiv, .f2i, .i2f, .padd, .pfma, .lds, .sts,
         .atom, .atoms, .fence, .ldline, .bra, .call, .ret, .exit, .brx, .mma, .cvt, .ldf, .stf, .signal, .waitev, .bar, .gate, .ldq,
         .rng, .hitacc, .nres, .ldres, .wrx, .dropres, .emitq, .setrv, .s2r, .u2r, .moveToUniform, .vote] : List (Place → Instr)),
       reserved mk) ∧
     (∀ fails, ∀ mk ∈ ([fun p => .ld p fails, fun p => .ld64 p fails, fun p => .st ⟨p, fails⟩, fun p => .st64 ⟨p, fails⟩] :
       List (Place → Instr)), reserved mk) ∧
     (s.worksWait pl = false → reserved .getwork) ∧
     ∀ i, s.code c pc = some i →
       (∀ th ∈ g.threads, th.holds pc = true → i.listed = true → i.cls = 0 → i.op = 0 →
         (s.cluster m).ibudget ≠ 0 → (s.cluster m).ibudget.toNat ≤ th.issued → kills (.iadd pl) 10) ∧
       (i.listed = true → i.cls = 0 → i.op = 0 → (s.cluster m).ibudget = 0 →
         (i.sa = 255 ∨ (s.kernelOf c).nreg ≤ i.sa) → kills (.iadd pl) 1) ∧
       (∀ th, g.acting pc i = [th] →
         (s.issues pl 3 1 {} c g pc i → 8 ≤ th.calls.length → kills (.call pl) 8) ∧
         (s.issues pl 3 2 {} c g pc i → th.calls = [] → kills (.ret pl) 8) ∧
         (∀ fails, s.issues pl 2 0 { d := 1, a := 2 } c g pc i →
           (th.gaddr i true % 4 ≠ 0 → kills (.ld pl fails) 4) ∧
           (th.gaddr i true % 4 = 0 → s.translate c.part (th.gaddr i true) 4 false = none → kills (.ld pl fails) 3) ∧
           (∀ a, th.gaddr i true % 4 = 0 → s.translate c.part (th.gaddr i true) 4 false = some a →
             s.missesL1 pl.slice c.part (lineOf a) = true → s.missesL2 c.part (lineOf a) = true →
             (∀ l, g.threads[l]? = some th → 4 ≤ (triesOf fails l).length) → kills (.ld pl fails) 6)) ∧
         (∀ fails, s.issues pl 2 2 { a := 2, b := 1 } c g pc i →
           (th.gaddr i true % 4 ≠ 0 → kills (.st ⟨pl, fails⟩) 4) ∧
           (th.gaddr i true % 4 = 0 → s.translate c.part (th.gaddr i true) 4 true = none → kills (.st ⟨pl, fails⟩) 3)) ∧
         (∀ u q, s.issues pl 2 9 { d := 1, a := 1 } c g pc i → th.query = some u → s.query? u = some q →
           (s.readImg q pl.slice (th.a i).toNat).1 = .miss → kills (.ldline pl) 3) ∧
         (s.issues pl 2 4 { d := 1, a := 1 } c g pc i →
           (th.laddr i % 4 ≠ 0 → kills (.lds pl) 4) ∧
           (th.laddr i % 4 = 0 → c.localBytes < th.laddr i + 4 → kills (.lds pl) 5)) ∧
         (s.issues pl 1 5 { a := 1, b := 1 } c g pc i → i.sc % 8 = 7 → kills (.fsetp pl) 1)) ∧
       (s.issues pl 4 2 { a := 1, b := 1, bImm := false } c g pc i → fragWords i = some 512 →
         tileOk (s.kernelOf c) i.dst 512 true = true → (∃ th ∈ g.threads, th.exited = true) → kills (.ldf pl) 9) ∧
       (s.issues pl 4 2 { a := 1, b := 1, bImm := false } c g pc i → fragWords i = none → kills (.ldf pl) 1) ∧
       (s.issues pl 4 0 { b := 1, bImm := false } c g pc i → mayMeet (bitsAt i.imm 3 0) (bitsAt i.imm 7 4) = false →
         (∀ th ∈ g.threads, th.exited = false) → g.acting pc i ≠ [] →
         (let dn := if mmaPair i then 1024 else 512
          tileOk (s.kernelOf c) i.sa (16 * fmtWidth (bitsAt i.imm 3 0)) false = true →
          tileOk (s.kernelOf c) i.sb (32 * fmtWidth (bitsAt i.imm 7 4)) false = true → tileOk (s.kernelOf c) i.sc dn false = true →
          tileOk (s.kernelOf c) i.dst dn true = true → kills (.mma pl) 2)) ∧
       (s.issues pl 6 7 { a := 1 } c g pc i → bitAt (s.kernelOf c).flags.toNat 2 = false → kills (.emitq pl) 1) ∧
       (s.worksWait pl = false → s.issues pl 5 3 {} c g pc i → bitAt (s.kernelOf c).flags.toNat 1 = false → kills (.getwork pl) 1))

/-! ## Task graphs -/

/-- A kernel task launches when no task that the core slot could take comes before it, and it is full or its oldest query has
waited GATHER wclk: a new context in the slot under the next generation, its threads at pc 0 with nothing but the task's
queries, in the order of R92; where another task comes first the command changes nothing. A leaf task takes the queries of a
leaf batch from it; a KERNEL leaf whose kernel is absent or emits is BAD_IMAGE (R33, R185 to R187, R189, R190, R195, R206,
R214). Where the manual leaves room it follows the model's own choices, log 7, 76. -/
def Obligations.KernelLaunches : Prop :=
  (∀ (s : State) (dep node core slot : Nat) (d : Dep) (t0 : Task) (mk : Instr),
    (let gr := (s.part d.part).graph d.graphId
     let k := (s.part t0.part).kernel t0.kernel
     let qs := ((s.readyAtNode dep t0.run node).drop (k.threads * t0.rank)).take k.threads
     core < s.nslices → s.isOpen = true → s.dep? dep = some d → t0 ∈ s.taskList (clusterOf core) →
     s.mayTake core slot t0 = true →
     (∀ x ∈ s.taskList (clusterOf core), s.mayTake core slot x = true → x = t0 ∨ t0.before x = true) →
     (t0.kind = .kernel → t0.dep = dep → t0.node = node → 1 ≤ k.threads → qs ≠ [] →
      ((mk = .kernelTaskLaunch dep node core slot ∧ k.threads ≤ qs.length) ∨
       (mk = .gatherExpiry dep node core slot ∧ ∃ q ∈ qs, NMap.get 0 q.readyAt node - 1 + gr.gather ≤ s.wclk)) →
      ∃ t c, exec mk s = .next t ∧ t.ctxs = s.ctxs ++ [c] ∧
        t = { s with ctxs := t.ctxs, slices := t.slices, clusters := t.clusters, nextLaunch := s.nextLaunch + 1 } ∧
        (∀ m, t.cluster m = { s.cluster m with
          bpHold := (t.cluster m).bpHold, bpPull := (t.cluster m).bpPull, bpBusy := (t.cluster m).bpBusy }) ∧
        (∀ n, n ≠ core → t.slice n = s.slice n) ∧ (t.slice core).inQ = (s.slice core).inQ ∧ (t.slice core).lsplit = k.lsplit ∧
        ((s.slice core).lsplit ≠ k.lsplit → (t.slice core).splitReady = s.wclk + 64 ∧ (t.slice core).dcache = {}) ∧
        c.slice = core ∧ c.slot = slot ∧ c.gen = NMap.get 0 (s.slice core).gens slot + 1 ∧
        NMap.get 0 (t.slice core).gens slot = c.gen ∧ c.part = t0.part ∧ c.dep = dep ∧ c.kernel = t0.kernel ∧ c.node = node ∧
        c.run = t0.run ∧ c.leaf = none ∧ c.ev = 0 ∧ c.ls = [] ∧ c.nq = qs.length ∧ c.groups.length = k.ngroups ∧
        ∀ gi l, gi < k.ngroups → l < k.width → ∃ g th, c.groups[gi]? = some g ∧ g.uregs = [] ∧ g.threads.length = k.width ∧
          g.threads[l]? = some th ∧ th.query = (qs[gi * k.width + l]?).map (·.uid) ∧ th.regs = [] ∧
          th.preds = 0 ∧ th.pc = 0 ∧ th.calls = [] ∧ th.issued = 0 ∧ th.exited = false ∧ th.wait = .run) ∧
     (t0.kind ≠ .kernel ∨ t0.dep ≠ dep ∨ t0.node ≠ node →
      exec (.kernelTaskLaunch dep node core slot) s = .next s ∧ exec (.gatherExpiry dep node core slot) s = .next s))) ∧
  (∀ (s : State) (dep node core slot : Nat), core < s.nslices →
    (∀ x ∈ s.taskList (clusterOf core), s.mayTake core slot x = false) →
    exec (.kernelTaskLaunch dep node core slot) s = .next s ∧ exec (.gatherExpiry dep node core slot) s = .next s) ∧
  (∀ (s s1 s2 : State) (n core slot u : Nat) (b : Batch) (q : Query) (f : Leaf), n < s.nslices → core < s.nslices →
    s.works n = true → s.headBatch n = some b → b.key.cls = .leaf → b.members = [u] → s.unitOf n u = 2 → s.query? u = some q →
    u < s.nextUid → q.pin = none → s.lookLeaf q n = (.leaf f, s1) →
    (let k := (s.part q.part).kernel f.kernel
     (∀ ls, k.codeLen ≠ 0 → bitAt k.flags.toNat 2 = false → s1.readRecords q n f = some (.ok ls, s2) → kernelRun ls = true →
       1 ≤ k.threads → s.bordered q.part = false → s.coreFor q.part q.run n core = true → s.coreTakes core slot k = true →
       (∀ x ∈ (s2.takeMembers n []).offered core slot, ∀ y, (s2.takeMembers n []).leafTaskAt n = some y → x.before y = false) →
       ∃ t c q', exec (.kernelLeafLaunch n core slot) s = .next t ∧ t.ctxs = s.ctxs ++ [c] ∧ t.mem = s.mem ∧
         (t.slice n).inQ = (s.slice n).inQ.drop 1 ∧ t.query? u = some q' ∧ q'.st = .leafKernel ∧ q'.held = q.held ∧
         c.slice = core ∧ c.slot = slot ∧ c.node = 255 ∧ c.batch = [u] ∧ c.nq = 1 ∧ c.part = q.part ∧ c.dep = q.dep ∧
         c.kernel = f.kernel ∧ c.leaf = some { line := f.addr, count := f.count, prims := f.prims, user := f.user,
                                               recBase := f.recBase, recLines := f.recLines }) ∧
     (k.codeLen = 0 ∨ bitAt k.flags.toNat 2 = true → q.visitor = none →
       ∃ t, exec (.kernelLeafLaunch n core slot) s = .next t ∧ t.ctxs = s.ctxs ∧ t.mem = s.mem ∧
         (t.slice n).inQ = (s.slice n).inQ.drop 1 ∧ t.query? u = none)))

/-- EMIT creates what a query staged, or ends it with EMIT_LIMIT; REDUCE folds the reduce values in the order of R92 by Table
7.8 and writes 8 bytes, a window miss being MEM_ERROR; DELIVER sends the record stream in HITs or writes it to the buffer, and
sets the receipt; a signal of a context or a lead core sets its bits, counts as stale, is refused to another partition, or is lost; a partition
whose contexts have all been blocked for 4,096 wclk, with none running in that time, has them killed (R34, R83, R98, R99,
R206 to R208, R210, R213, R219). Where the manual leaves room it follows the model's own choices, log 14, 23, 55, 85. -/
def Obligations.DispatcherTasks : Prop :=
  (∀ (s : State) (dep u j : Nat) (q : Query), s.isOpen = true → s.query? u = some q → q.dep = dep → q.pin = none →
    q.visitor = none → q.st = .tasks → q.bits &&& (s.graphOf q).queryBits ≠ (s.graphOf q).queryBits →
    ((s.graphOf q).indices (· == opEmit)).find? (fun j => nodeReady (s.graphOf q) j q.bits (s.gateOf dep)) = some j →
    (∀ y ∈ s.queries, y.uid < s.nextUid) →
    ((∃ k, k < q.staged.length ∧ emitOk q (q.created + k) = false) → ∀ d, s.dep? dep = some d →
      ∃ t d' x, exec (.emitTask dep u) s = .next t ∧ t.query? u = none ∧ t.dep? dep = some d' ∧ d'.done = d.done ++ [x] ∧
        x.qid = q.qid ∧ x.status = 0x16 ∧ (s.shadowsDue = [] → t.nextUid = s.nextUid) ∧ t.mem = s.mem) ∧
    ((∀ k, k < q.staged.length → emitOk q (q.created + k) = true) →
      ((s.placeSecondaries q q.created q.staged).isNone = true → exec (.emitTask dep u) s = .next s) ∧
      ((s.placeSecondaries q q.created q.staged).isSome = true →
        ∃ t, exec (.emitTask dep u) s = .next t ∧ t.mem = s.mem ∧ s.nextUid + q.staged.length ≤ t.nextUid ∧
          ∀ q', t.query? u = some q' → j < 16 → q'.bits.getLsbD j = true ∧ q'.staged = [] ∧
            q'.created = q.created + q.staged.length))) ∧
  (∀ (s : State) (dep j : Nat) (d : Dep), s.isOpen = true → s.dep? dep = some d → d.killedIn 0 = none → s.nextReduce d = some j →
    (let gn := ((s.part d.part).graph d.graphId).node j
     let out := reduceFold (gn.arg.toNat % 16) ((d.ordered 0).map (·.rv))
     (∀ sys, s.translate d.part gn.addr.toNat 8 true = some sys →
       ∃ t a lo, exec (.reduceTask dep) s = .next t ∧ t.accs = s.accs ++ [a] ∧ a.write = true ∧ a.addr = sys ∧
         a.purpose = .reduce dep j ∧ a.data = leBytes 4 out.1.toNat ++ leBytes 4 (lo : Word).toNat ∧
         (∀ v, out.2 = some v → lo = v) ∧ t = { s with accs := t.accs, pwr := { s.pwr with activity := t.pwr.activity } }) ∧
     (s.translate d.part gn.addr.toNat 8 true = none →
       ∃ t d', exec (.reduceTask dep) s = .next t ∧ t.dep? dep = some d' ∧ t.mem = s.mem ∧ (∀ x ∈ d'.done, x.status = 0x15) ∧
         d'.done.length = d.done.length ∧ (j < 16 → d'.depBits.getLsbD j = true)))) ∧
  (∀ vs : List Word, (reduceFold 0 vs).1 = vs.foldl faddW 0 ∧ (reduceFold 4 vs).1 = vs.foldl (· + ·) 0 ∧
    (reduceFold 6 vs).1 = BitVec.ofNat 32 (vs.countP fun v => v != 0) ∧
    (reduceFold 3 vs).1.toInt = vs.foldl (fun a v => max (-(2 ^ 31)) (min (2 ^ 31 - 1) (a + v.toInt))) 0) ∧
  (∀ (s : State) (dep : Nat) (d : Dep), s.dep? dep = some d → s.deliverDue d = true → (s.part d.part).lockEn = false →
    (d.dmode = 0 →
      ∃ t d', exec (.deliverTask dep) s = .next t ∧ t.dep? dep = some d' ∧ d'.step = .delivered ∧
        d'.receipt = s.receiptOf d 0 ∧ t.mem = s.mem ∧ t.accs = s.accs ∧
        List.Perm t.out (s.out ++ if d.stopDelivery then [] else hitMessages d (d.stream? 0))) ∧
    (d.dmode = 1 → (let lines := bufLines ((d.stream? 0).take (s.bufRoom d))
      lines ≠ [] → (∀ x ∈ lines, (s.translate d.part (s.bufAddr d + x.1) x.2.length true).isSome = true) →
      ∃ t d', exec (.deliverTask dep) s = .next t ∧ t.dep? dep = some d' ∧ d'.step = .writing ∧
        d'.receipt = s.receiptOf d 0 ∧ t.mem = s.mem ∧ t.fab = s.fab ∧
        ∀ x ∈ lines, ∃ a ∈ t.accs, a.write = true ∧ a.purpose = .resultRec dep ∧ a.data = x.2 ∧
          s.translate d.part (s.bufAddr d + x.1) x.2.length true = some a.addr))) ∧
  (∀ (s : State) (dep : Nat) (d : Dep), s.dep? dep = some d → s.deliverDue d = true → (s.part d.part).lockEn = true →
    ∃ t d', exec (.deliverTask dep) s = .next t ∧ t.dep? dep = some d' ∧ d'.runs = [s.runOut d 0, s.runOut d 1] ∧
      d'.step = d.step ∧ t.fab = s.fab ∧ t.mem = s.mem) ∧
  (∀ (s s0 : State) (src : SigSource) (g : Sig), s.isOpen = true →
    ((∃ i, src = .hit i ∧ s.signals[i]? = some g ∧ s0 = { s with signals := s.signals.eraseIdx i }) ∨
     (∃ n p a b, src = .lead n p a b ∧ n < 2 * s.nclusters ∧ (s.lead n).faulted = false ∧ (s.cluster (n / 2)).retired = false ∧
       g = ⟨p, n / 2, a, b⟩ ∧ s0 = s)) →
    (let u := sigUnit g.addr
     let k := sigSlot g.addr
     (sigLead g.addr = true → u < 2 * s.nclusters →
       ∃ t, exec (.signalDelivery src) s = .next t ∧ t = { s0 with leads := t.leads } ∧
         t.lead u = { s.lead u with ev := (s.lead u).ev ||| g.bits } ∧ ∀ x, x ≠ u → t.lead x = s.lead x) ∧
     ((if sigLead g.addr then 2 * s.nclusters else s.nslices) ≤ u → exec (.signalDelivery src) s = .next s0) ∧
     (sigLead g.addr = false → u < s.nslices →
       (∀ c, s.ctx? u k = some c → c.part ≠ g.fromPart →
         ∃ t, exec (.signalDelivery src) s = .next t ∧ t.sec.events = satInc s.sec.events 1 ∧
           t.ctx? u k = some { c with blockedAt := if c.gen = sigGen g.addr then c.blockedAt.map (max · s.wclk) else c.blockedAt } ∧
           (∀ a b, a ≠ u ∨ b ≠ k → t.ctx? a b = s.ctx? a b) ∧
           (s.fab.hq.length < 64 → ∃ h, t.fab.hq = s.fab.hq ++ [h] ∧ h.code = 0x20 ∧ h.detail.headD 0 = 2) ∧
           t = { s0 with ctxs := t.ctxs, sec := { s.sec with events := t.sec.events }
                         fab := { s.fab with hq := t.fab.hq, hlost := t.fab.hlost } }) ∧
       ((∀ c, s.ctx? u k = some c → c.part = g.fromPart) →
         (NMap.get 0 (s.slice u).gens k ≠ sigGen g.addr →
           ∃ t, exec (.signalDelivery src) s = .next t ∧ t = { s0 with clusters := t.clusters } ∧
             t.cluster g.fromCluster = { s.cluster g.fromCluster with stalesig := satInc (s.cluster g.fromCluster).stalesig 1 } ∧
             ∀ m, m ≠ g.fromCluster → t.cluster m = s.cluster m) ∧
         (NMap.get 0 (s.slice u).gens k = sigGen g.addr →
           (s.ctx? u k = none → exec (.signalDelivery src) s = .next s0) ∧
           ∀ c, s.ctx? u k = some c →
             (let arrives := fun (c' : Ctx) =>
                ∃ t, exec (.signalDelivery src) s = .next t ∧ t = { s0 with ctxs := t.ctxs } ∧ t.ctx? u k = some c' ∧
                  ∀ a b, a ≠ u ∨ b ≠ k → t.ctx? a b = s.ctx? a b
              ((∃ x ∈ c.groups, ∃ th ∈ x.threads, th.ready = true) → (∀ x ∈ c.groups, ∀ th ∈ x.threads, ∀ m, th.wait ≠ .event m) →
                arrives { c with ev := c.ev ||| g.bits, blockedAt := none }) ∧
              (∀ (x : Group) (m : Word), c.groups = [x] → x.threads ≠ [] → (∀ th ∈ x.threads, th.exited = false ∧ th.wait = .event m) →
                ((c.ev ||| g.bits) &&& m = m →
                  arrives { c with ev := (c.ev ||| g.bits) &&& ~~~m, blockedAt := none
                                   groups := [{ x with threads := x.threads.map fun th =>
                                     { th with wait := .run, pc := th.pc + 1 } }] }) ∧
                ((c.ev ||| g.bits) &&& m ≠ m →
                  arrives { c with ev := c.ev ||| g.bits, blockedAt := some s.wclk })))))))) ∧
  (∀ (s : State) (p b : Nat) (c : Ctx) (d : Dep), s.isOpen = true → s.ctxs.filter (·.part == p) = [c] →
    c.blockedAt = some b → s.ctx? c.slice c.slot = some c → s.dep? c.dep = some d → d.killedIn c.run = none →
    (∀ y ∈ s.queries, y.uid < s.nextUid) →
    (b + 4096 ≤ s.wclk → (s.part p).ranAt + 4096 ≤ s.wclk → s.unsignalled c = true →
      ∃ t d', exec (.deadlockKill p) s = .next t ∧ t.ctxs = s.ctxs.filter (fun x => !(x.dep == c.dep && x.run == c.run)) ∧
        t.dep? c.dep = some d' ∧ d'.killed = d.killed ++ [(c.run, 0x11)] ∧ t.mem = s.mem ∧
        (t.cluster (clusterOf c.slice)).deadlocks = satInc (s.cluster (clusterOf c.slice)).deadlocks 1 ∧
        (∀ u q, s.query? u = some q → q.dep = c.dep → q.run = c.run → t.query? u = none)) ∧
    (s.wclk < b + 4096 ∨ s.wclk < (s.part p).ranAt + 4096 → exec (.deadlockKill p) s = .next s))

/-! ## Mint -/

/-- The mint takes the next ring's command: a command rejected or without result only writes its completion record, one with a
result issues its writes (in place all but the header), or first waits for older deposits of its target; a read that fails
finally is MEM_ERROR with HEALTH; while a port it reads through issues nothing the command waits; a BUILD whose records are
all void is ALL_VOID (R221, R224 to R226, R237, R238, R296, R322, R337). Where the manual leaves room it follows the model's
own choices, log 35, 36, 54. -/
def Obligations.MintCommands : Prop :=
  (∀ (s : State) (part : Nat) (refit : Bool) (desc : List Byte) (fails : Fails),
    (let r := (s.part part).mring
     let idx := r.head.toNat % r.size
     let entry := r.entry idx
     let c := parseMint desc
     let mk := if refit then Instr.mintRefit part fails else Instr.mintBuild part fails
     let m : Minted :=
       if s.mintBad part c then { status := 0x01 }
       else if refit then (match s.mintSource part c with | .error st => { status := st } | .ok h => s.mintRefitted part c h)
       else s.mintBuilt part c
     let inputs := (c.inputs.map fun x => granules x.1 x.2).flatten
     let reads := granules entry 64 ++
       if s.mintBad part c then []
       else if refit then granules c.src 64 ++
         (match s.mintSource part c with | .error _ => [] | .ok h => (granules c.src (64 * h.lineCount)).drop 1 ++ inputs)
       else inputs
     let ready := s.rangeReady part entry 64 false = true ∧ (∀ x ∈ c.inputs, s.rangeReady part x.1 x.2 false = true) ∧
       (refit = true → s.rangeReady part c.src (64 * c.outLines) false = true)
     let ws := mintWrites c m
     let now := if c.inPlace then ws.take (ws.length - 1) else ws
     let ended := fun (st : Byte) (more : State → Prop) =>
      ∃ t c' a, exec mk s = .next t ∧ t.mint.cur = some c' ∧ c'.part = part ∧ c'.index = idx ∧ c'.status = st ∧ c'.completing = true ∧
        c'.drain = false ∧ t.accs = s.accs ++ [a] ∧ a.write = true ∧ a.purpose = .mintRec ∧ a.data.length = 64 ∧
        byteAt a.data 0 = st ∧ (∀ k, 1 ≤ k → k < 32 → byteAt a.data k = 0) ∧ s.translate part (entry + 64) 64 true = some a.addr ∧
        t.mem = s.mem ∧ more t
     s.isOpen = true → s.readPart part entry 64 = some desc → ((c.op = 2) ↔ refit = true) →
     (s.mint.cur = none → s.mintNext = some part → ready →
      (∀ x ∈ fails, (∃ g ∈ reads, g.1 / 64 = x.1) → 4 ≤ x.2.length → (s.translate part (entry + 64) 64 true).isSome = true →
        ended 0x05 fun t => (∀ y ∈ fails, (s.translate part (64 * y.1) 1 false).isSome = true) → s.fab.hq.length < 64 →
          ∃ h ∈ t.fab.hq, h.code = 0x09) ∧
      ((∀ x ∈ fails, x.2.length < 4) →
       (m.status ≠ 0 → (s.translate part (entry + 64) 64 true).isSome = true → ended m.status fun t => t.fab = s.fab) ∧
       (m.status = 0 → now ≠ [] → (∀ d ∈ s.deps, d.part = part → d.handle.base = BitVec.ofNat 64 c.outBase →
           d.handle.epoch = c.written ∨ d.step = .receipt ∨ d.step = .retiring) →
         (∀ x ∈ now, (s.translate part x.1 x.2.length true).isSome = true) →
         ∃ t c', exec mk s = .next t ∧ t.mint.cur = some c' ∧ c'.part = part ∧ c'.index = idx ∧ c'.status = 0 ∧
           c'.drain = false ∧ c'.completing = false ∧ c'.target = BitVec.ofNat 64 c.outBase ∧ c'.epoch = c.written ∧
           c'.tbStart = s.tbu.tb ∧ c'.writes = ws.drop now.length ∧ t.mem = s.mem ∧
           ∀ x ∈ now, ∃ a ∈ t.accs, a.write = true ∧ a.purpose = .mintLine ∧ a.data = x.2 ∧
             s.translate part x.1 x.2.length true = some a.addr) ∧
       (m.status = 0 → (∃ d ∈ s.deps, d.part = part ∧ d.handle.base = BitVec.ofNat 64 c.outBase ∧ d.handle.epoch ≠ c.written ∧
           d.step ≠ .receipt ∧ d.step ≠ .retiring) →
         ∃ t c', exec mk s = .next t ∧ t = { s with mint := t.mint, mports := t.mports } ∧ t.mint.cur = some c' ∧ c'.drain = true ∧
           c'.writes = ws ∧ c'.status = 0))) ∧
     (s.mint.cur ≠ none ∨ s.mintNext ≠ some part ∨ ¬ ready → exec mk s = .next s))) ∧
  (∀ (c : MintDesc) (recs : List (List Byte)) (ids : List Word) (masks : List Byte),
    (∀ r ∈ recs, recordPrim c.lt c.dims r = none) → (buildImage c recs ids masks).status = 0x07) ∧
  (∀ (s : State) (c : MintCmd), s.isOpen = true → s.mint.cur = some c → c.drain = true →
    (s.mintBlocked c = true → exec .mintDrainEnd s = .next s) ∧
    (s.mintBlocked c = false → (parseMint c.desc).inPlace = false → c.writes ≠ [] →
      (∀ x ∈ c.writes, (s.translate c.part x.1 x.2.length true).isSome = true) →
      ∃ t, exec .mintDrainEnd s = .next t ∧ t.mem = s.mem ∧
        t.mint.cur = some { c with drain := false, tbStart := s.tbu.tb, writes := [] } ∧
        ∀ x ∈ c.writes, ∃ a ∈ t.accs, a.write = true ∧ a.purpose = .mintLine ∧ a.data = x.2))

/-- A mint command's record acknowledged, its image range leaves the caches, HEAD moves on, DONE_EVT and the counter are set,
NOTIFY gets its EVENT, and the deposits held are released. A write of EN 1 starts a ring at HEAD and TAIL 0, with its size taken while it was off; EN 0 stops
it, aborting the partition's current command; TAIL is set by its register; what these writes order against the messages of
their aclk cycle is noted (R15, R222, R225, R238, R239). Where the manual leaves
room it follows the model's own choices, log 31, 35, 36, 93. -/
def Obligations.MintCompletionAndRings : Prop :=
  (∀ (s : State) (port tag : Nat) (a : Acc) (c : MintCmd), s.boot.phase ≠ .tripped → s.acc? port tag true = some a →
    a.purpose = .mintRec → s.mint.cur = some c →
    ∃ t, exec (.mintComplete port tag) s = .next t ∧ t.mint.cur = none ∧ t.mint.lastPart = BitVec.ofNat 5 c.part ∧
      t.mint.doneEvt = (s.mint.doneEvt || (s.part c.part).mring.irqEn) ∧
      t.mint.prims = (if c.status = 0 then s.mint.prims + BitVec.ofNat 64 c.prims else s.mint.prims) ∧
      (t.part c.part).mring = { (s.part c.part).mring with
        head := BitVec.ofNat 12 ((c.index + 1) % (s.part c.part).mring.size), en := (s.part c.part).mring.en && !c.stop } ∧
      (∀ p, p ≠ c.part → (t.part p).mring = (s.part p).mring) ∧
      (∀ i d, s.dep? i = some d → ∃ d', t.dep? i = some d' ∧ d'.mintHeld = false ∧
        ((s.deps.map (·.id)).Nodup → d.mintHeld = false → d' = d)) ∧
      List.Perm t.out (s.out ++ if c.notify.getLsbD 31 then [{
        port := s.fab.hPort.toNat, cls := 3, type := 7, flags := 0, stream := 0, sgen := 0, seq := 0,
        peer := BitVec.ofNat 32 (c.notify.toNat % 2 ^ 28),
        payload := [3, 0] ++ leBytes 2 c.index ++ [BitVec.ofNat 8 c.part, c.status, 0, 0] }] else []) ∧
      (∀ l, ((s.part c.part).seenAt l).any (fun x => decide (c.target.toNat ≤ x) && decide (x < c.target.toNat + 64 * c.lines)) = true →
        s.granted l = false → (t.cluster (s.bankOf l)).bank.l2.find l c.part = none) ∧
      (a.applied = false → (∀ line, s.ownerOf line = none) →
        (∀ k, k < a.data.length → t.mem.read (a.addr + k) = byteAt a.data k) ∧
        ∀ x, x < a.addr ∨ a.addr + a.data.length ≤ x → t.mem.read x = s.mem.read x)) ∧
  (∀ (s : State) (p aclk : Nat) (d : Word), s.isOpen = true →
    (d.getLsbD 0 = true →
      ∃ t, exec (.mintRingEnable p ⟨aclk, d⟩) s = .next t ∧ t = { s with parts := t.parts, mint := t.mint, fab := { s.fab with mportOrders := t.fab.mportOrders } } ∧
        (∀ q, q ≠ p → t.part q = s.part q) ∧
        t.part p = { s.part p with mring := { (s.part p).mring with
          en := true, head := 0, tail := 0, irqEn := d.getLsbD 8
          sizeLog2 := if (s.part p).mring.en then (s.part p).mring.sizeLog2 else BitVec.ofNat 4 (d.toNat / 16) } }) ∧
    (d.getLsbD 0 = false → (∀ c, s.mint.cur = some c → c.part ≠ p) → (∀ x, s.mint.redo = some x → x.1 ≠ p) →
      ∃ t, exec (.mintRingDisable p ⟨aclk, d⟩) s = .next t ∧
        t = { s with parts := t.parts, fab := { s.fab with mportOrders := t.fab.mportOrders } } ∧ (∀ q, q ≠ p → t.part q = s.part q) ∧
        (t.part p).mring.en = false ∧ (t.part p).mring.irqEn = d.getLsbD 8 ∧
        (t.part p).mring.head = (s.part p).mring.head ∧ (t.part p).mring.tail = (s.part p).mring.tail) ∧
    (∀ c, d.getLsbD 0 = false → (s.part p).mring.en = true → s.mint.cur = some c → c.part = p → c.completing = false →
      (s.translate p ((s.part p).mring.entry c.index + 64) 64 true).isSome = true →
      ∃ t c', exec (.mintRingDisable p ⟨aclk, d⟩) s = .next t ∧ t.mint.cur = some c' ∧ c'.status = 0x06 ∧ c'.stop = true ∧
        c'.completing = true ∧ c'.writes = [] ∧ t.mem = s.mem ∧ (∀ a ∈ t.accs, a.purpose ≠ .mintLine ∧ a.purpose ≠ .mintHeader) ∧
        ((s.deps.map (·.id)).Nodup → ∀ d ∈ t.deps, d.mintHeld = false) ∧
        ∃ a ∈ t.accs, a.write = true ∧ a.purpose = .mintRec ∧ byteAt a.data 0 = 0x06)) ∧
  (∀ (s : State) (p aclk : Nat) (d : Word), s.isOpen = true →
    ∃ t, exec (.mintTailWrite p aclk d) s = .next t ∧ t = { s with parts := t.parts, fab := t.fab } ∧
      t.fab = { s.fab with mportOrders := t.fab.mportOrders } ∧ (∀ q, q ≠ p → t.part q = s.part q) ∧
      t.part p = { s.part p with mring := { (s.part p).mring with tail := BitVec.ofNat 12 d.toNat } })

/-! ## Faults, audits and locked pairs -/

/-- A slice fault, its batch watchdog or its RETIRE retires a slice with HEALTH SLICE_RETIRED and its cause; a corrected error
counts; a lead core's fault, or its watchdog 10 µs after the cores began to run, passes its cluster to the standby, and the
second one faults the cluster; a cluster fault passes the cluster to its adopter with HEALTH; a recovery that outlasts 200 µs,
or the third at a time, is reported FATAL once (R290, R291, R293 to R295). Where the manual leaves room it follows the model's
own choices, log 32, 42, 67. -/
def Obligations.UnitFaults : Prop :=
  (∀ (s : State) (n : Nat) (c : Instr) (cause : Byte), n < s.nslices → s.isOpen = true → s.inService n = true →
    (∃ k, k ≠ n ∧ clusterOf k = clusterOf n ∧ k < s.nslices ∧ (s.slice k).st = .admitted) →
    ((c = .sliceFault n ∧ cause = 1) ∨
     (c = .batchWatchdog n ∧ cause = 2 ∧ ∃ b, s.headBatch n = some b ∧ b.released + 65536 ≤ s.wclk)) →
    ∃ t, exec c s = .next t ∧ t.mem = s.mem ∧ (t.slice n).st = .retired ∧ (t.slice n).inQ = [] ∧ (t.slice n).l0.lines = [] ∧
      (t.slice n).dcache.lines = [] ∧ (∀ x ∈ t.ctxs, x.slice ≠ n) ∧ (∀ k, k ≠ n → (t.slice k).st = (s.slice k).st) ∧
      (s.fab.hq.length < 64 → ∃ h ∈ t.fab.hq, h.code = 0x01 ∧ h.unit = BitVec.ofNat 16 (0x1000 + n) ∧ byteAt h.detail 0 = cause)) ∧
  (∀ (s : State) (n : Nat) (b : Batch), n < s.nslices → s.headBatch n = some b → s.wclk < b.released + 65536 →
    exec (.batchWatchdog n) s = .next s) ∧
  (∀ (s : State) (n : Nat) (d : Word), s.isOpen = true → n < s.nslices → d = BitVec.ofNat 32 (2 ^ (n % 16)) → s.inService n = true →
    (∃ k, k ≠ n ∧ clusterOf k = clusterOf n ∧ k < s.nslices ∧ (s.slice k).st = .admitted) →
    ∃ t, exec (.sliceRetireWrite (clusterOf n) d) s = .next t ∧ t.mem = s.mem ∧ (t.slice n).st = .retired ∧
      (s.fab.hq.length < 64 → ∃ h ∈ t.fab.hq, h.code = 0x01 ∧ h.unit = BitVec.ofNat 16 (0x1000 + n))) ∧
  (∀ (s : State) (m : Nat), m < s.nclusters →
    ∃ t, exec (.eccCorrected m) s = .next t ∧ t = { s with clusters := t.clusters } ∧ (∀ k, k ≠ m → t.cluster k = s.cluster k) ∧
      t.cluster m = { s.cluster m with cecc := satInc (s.cluster m).cecc 1 }) ∧
  (∀ (s : State) (core : Nat) (c : Instr), core < 2 * s.nclusters → s.isOpen = true →
    c = .leadCoreFault core ∨ (c = .leadWatchdog core ∧ s.boot.ranSince + 10000 ≤ s.elapsed) →
    ((s.lead core).faulted = true → exec c s = .next s) ∧
    ((s.lead core).faulted = false → (s.lead (2 * (core / 2) + (1 - core % 2))).faulted = false →
      ∃ t, exec c s = .next t ∧ (t.lead core).faulted = true ∧ (∀ k, k ≠ core → t.lead k = s.lead k) ∧ t.mem = s.mem ∧
        ((s.cluster (core / 2)).lead ≠ core % 2 → (t.cluster (core / 2)).lead = (s.cluster (core / 2)).lead ∧ t.fab = s.fab) ∧
        ((s.cluster (core / 2)).lead = core % 2 → (t.cluster (core / 2)).lead = 1 - core % 2 ∧
          (s.fab.hq.length < 64 → ∃ h ∈ t.fab.hq, h.code = 0x07 ∧ h.unit = BitVec.ofNat 16 (0x3000 + core) ∧
            byteAt h.detail 0 = BitVec.ofNat 8 (1 - core % 2)))) ∧
    ((s.lead core).faulted = false → (s.lead (2 * (core / 2) + (1 - core % 2))).faulted = true →
      ∃ t, exec c s = .next t ∧ (t.lead core).faulted = true ∧ (t.cluster (core / 2)).retired = true)) ∧
  (∀ (s : State) (core : Nat), core < 2 * s.nclusters → s.elapsed < s.boot.ranSince + 10000 → exec (.leadWatchdog core) s = .next s) ∧
  (∀ (s : State) (m : Nat) (fails : Fails), m < s.nclusters → s.isOpen = true →
    ((s.cluster m).retired = true → exec (.clusterFault ⟨m, fails⟩) s = .next s) ∧
    ((s.cluster m).retired = false →
      (∀ a, (s.clustersAfter m).head? = some a →
        ∃ t, exec (.clusterFault ⟨m, fails⟩) s = .next t ∧ (t.cluster m).retired = true ∧ (t.cluster m).adopter = some a ∧
          (t.cluster a).adopted = some m ∧ (t.cluster m).bank.takenBy = some a ∧ (t.cluster m).bank.l2.lines = [] ∧
          (∀ n, clusterOf n = m → n < s.nslices → (t.slice n).st = .retired) ∧ (∀ x ∈ t.ctxs, clusterOf x.slice ≠ m) ∧
          ((∀ e ∈ s.deps, e.id < s.nextDep) →
            ∀ i d d', s.dep? i = some d → t.dep? i = some d' → d.home = m → d'.home = a) ∧
          (s.fab.hq.length < 64 → ∃ h ∈ t.fab.hq, h.code = 0x08 ∧ h.unit = BitVec.ofNat 16 (0x2000 + m) ∧
            byteAt h.detail 0 = BitVec.ofNat 8 a)) ∧
      ((s.clustersAfter m).head? = none →
        ∃ t, exec (.clusterFault ⟨m, fails⟩) s = .next t ∧ (t.cluster m).retired = true ∧
          (s.fab.hq.length < 64 → ∃ h ∈ t.fab.hq, h.code = 0x0D ∧ h.severity = 3)))) ∧
  (∀ s : State, s.isOpen = true →
    ((∃ x ∈ s.recovs, x.reported = false ∧ (x.third = true ∨ (s.recovering x = true ∧ x.start + 200000 < s.elapsed))) →
      ∃ t, exec .recoveryOverrun s = .next t ∧ t = { s with fab := t.fab, recovs := t.recovs } ∧
        t.recovs.countP s.overruns + 1 = s.recovs.countP s.overruns ∧
        (s.fab.hq.length < 64 → ∃ h, t.fab = { s.fab with hq := s.fab.hq ++ [h] } ∧ h.code = 0x0D ∧ h.severity = 3 ∧
          byteAt h.detail 0 = BitVec.ofNat 8 s.recoveries)) ∧
    ((∀ x ∈ s.recovs, x.reported = true ∨ (x.third = false ∧ (s.recovering x = false ∨ s.elapsed ≤ x.start + 200000))) →
      exec .recoveryOverrun s = .next s))

/-- R305: an ADMIT write changes no slice that has failed three times or is not retired, whatever its data; a failed BIST and
a failed probation each count one failure and leave the slice retired. -/
def Obligations.AdmitWritesAreLimited : Prop :=
  (∀ (s : State) (m : Nat) (d : Word), s.isOpen = true → m < s.nclusters →
    ∃ t, exec (.sliceReadmit m d) s = .next t ∧ t = { s with slices := t.slices } ∧
      ∀ n, 3 ≤ (s.slice n).fails ∨ (s.slice n).st ≠ .retired → t.slice n = s.slice n) ∧
  (∀ (s : State) (n : Nat), n < s.nslices → s.isOpen = true →
    ((s.slice n).st = .bist →
      ∃ t, exec (.readmitBistDone n false) s = .next t ∧ (t.slice n).st = .retired ∧ (t.slice n).fails = (s.slice n).fails + 1) ∧
    ((s.slice n).st = .probation → (s.slice n).mismatch = true →
      ∃ t, exec (.probationEnd n) s = .next t ∧ (t.slice n).st = .retired ∧ (t.slice n).fails = (s.slice n).fails + 1))

/-- A shadow and its original are compared: counted, the match noted, a mismatch starts a third copy once a slice for it has
room, and its vote names a slice and retires it; a failed access of either leaves them uncompared; readmission passes BIST,
probation and the next 1 ms boundary, or fails with PROBATION_FAILED; the two runs of a locked pair are delivered when they
agree, else a third decides; without any two alike the deposit is split, or a memory failure of the first two is reported and
the run without one delivered (R297, R300 to R305, R309 to R311). Where the manual leaves room it follows the model's own
choices, log 17, 32, 84, 86. -/
def Obligations.AuditsReadmissionAndLocks : Prop :=
  (∀ (s : State) (u o pin : Nat) (c orig : Query) (ost st : Byte), s.query? u = some c → c.shadowOf = some o →
    s.snapOf o = some (orig, ost) → c.status = some st → c.pin = some pin → s.isOpen = true → c.st = .ended → c.voteWith = none →
    (s.queries.any (·.voteWith == some u)) = false → (∀ y ∈ s.queries, y.uid < s.nextUid) →
    (let home := (s.origin orig).1
     let room := fun (n : Nat) => s.sliceCtx n < 2048 ∧ s.partCtx orig.part < (s.part orig.part).quotaCtx.toNat
     let counted := fun (t : State) (miss : Bool) => exec (.auditCompare u) s = .next t ∧ t.mem = s.mem ∧
       (t.cluster home).audits = satInc (s.cluster home).audits 1 ∧
       (t.cluster home).amiss = if miss then satInc (s.cluster home).amiss 1 else (s.cluster home).amiss
     (c.memEvent = true ∨ orig.memEvent = true → ∃ t, exec (.auditCompare u) s = .next t ∧ t.query? u = none ∧ t.mem = s.mem ∧
       (t.cluster home).audits = (s.cluster home).audits ∧ t.fab = s.fab) ∧
     (c.memEvent = false → orig.memEvent = false →
      (sameEnd orig ost c st = true → ∃ t, counted t false ∧ t.query? u = none ∧
        ((s.slice pin).st = .probation → (t.slice pin).compared = (s.slice pin).compared + 1) ∧
        ((s.slice pin).st ≠ .probation → (t.slice pin).lastMatch = s.wclk + 1)) ∧
      (sameEnd orig ost c st = false →
        ((s.slice pin).st = .probation → ∃ t, counted t true ∧ (t.slice pin).mismatch = true ∧ t.query? u = none) ∧
        ((s.slice pin).st ≠ .probation →
          (s.thirdSlices orig c = [] → ∃ t, counted t true ∧ t.query? u = none ∧
            (s.fab.hq.length < 64 → ∃ h ∈ t.fab.hq, h.code = 0x05)) ∧
          (s.thirdSlices orig c ≠ [] → (∀ n ∈ s.thirdSlices orig c, ¬ room n) → exec (.auditCompare u) s = .next s) ∧
          ∀ l n r, s.thirdSlices orig c = l ++ n :: r → (∀ k ∈ l, ¬ room k) → room n →
            ∃ t q, counted t true ∧ t.query? s.nextUid = some q ∧ q.pin = some n ∧ q.voteWith = some u ∧
              q.shadowOf = some orig.uid ∧ q.qid = orig.qid))))) ∧
  (∀ (s : State) (u v o : Nat) (x c orig : Query) (ost st : Byte), s.query? u = some x → x.voteWith = some v →
    s.query? v = some c → x.shadowOf = some o → s.snapOf o = some (orig, ost) → x.status = some st → x.st = .ended →
    s.isOpen = true → x.memEvent = false → c.memEvent = false → orig.memEvent = false →
    (sameEnd x st orig ost = false → sameEnd x st c (c.status.getD 0) = false →
      ∃ t, exec (.auditVote u) s = .next t ∧ t.mem = s.mem ∧ t.query? u = none ∧ t.query? v = none ∧
        (s.fab.hq.length < 64 → ∃ h ∈ t.fab.hq, h.code = 0x05)) ∧
    (∀ n, (sameEnd x st orig ost = true ∧ n = c.pin.getD 0) ∨ (sameEnd x st orig ost = false ∧
        sameEnd x st c (c.status.getD 0) = true ∧ n = (departs orig.trace c.trace).getD orig.slice) → n < s.nslices →
      ∃ t, exec (.auditVote u) s = .next t ∧ (t.slice n).st = .retired ∧
        (s.fab.hq.length < 64 → ∃ h ∈ t.fab.hq, h.code = 0x04))) ∧
  (∀ (s : State) (m : Nat) (d : Word) (n : Nat), s.isOpen = true → n < s.nslices → clusterOf n = m →
    d = BitVec.ofNat 32 (2 ^ (16 + n % 16)) →
    ((s.slice n).st = .retired → (s.slice n).fails < 3 → (s.cluster m).retired = false →
      ∃ t, exec (.sliceReadmit m d) s = .next t ∧ t = { s with slices := t.slices } ∧ (∀ k, k ≠ n → t.slice k = s.slice k) ∧
        t.slice n = { s.slice n with st := .bist, compared := 0, mismatch := false }) ∧
    ((s.slice n).st ≠ .retired ∨ 3 ≤ (s.slice n).fails → exec (.sliceReadmit m d) s = .next s)) ∧
  (∀ (s : State) (n : Nat), n < s.nslices → s.isOpen = true →
    ((s.slice n).st = .bist →
      (∃ t, exec (.readmitBistDone n true) s = .next t ∧ t.slice n = { s.slice n with st := .probation } ∧ t.fab = s.fab) ∧
      ∃ t, exec (.readmitBistDone n false) s = .next t ∧ (t.slice n).st = .retired ∧ (t.slice n).fails = (s.slice n).fails + 1 ∧
        (s.fab.hq.length < 64 → ∃ h ∈ t.fab.hq, h.code = 0x03 ∧ byteAt h.detail 0 = 1)) ∧
    ((s.slice n).st = .probation → (s.slice n).mismatch = true →
      ∃ t, exec (.probationEnd n) s = .next t ∧ (t.slice n).st = .retired ∧ (t.slice n).fails = (s.slice n).fails + 1 ∧
        (s.fab.hq.length < 64 → ∃ h ∈ t.fab.hq, h.code = 0x03 ∧ byteAt h.detail 0 = 2) ∧
        (s.fab.hq.length < 63 → ∃ h ∈ t.fab.hq, h.code = 0x01 ∧ byteAt h.detail 0 = 5)) ∧
    ((s.slice n).st = .probation → (s.slice n).mismatch = false →
      (65536 ≤ (s.slice n).compared →
        ∃ t, exec (.probationEnd n) s = .next t ∧ (t.slice n).st = .waiting ∧ (t.slice n).since = s.tbu.tb) ∧
      ((s.slice n).compared < 65536 → exec (.probationEnd n) s = .next s)) ∧
    ((s.slice n).st = .waiting →
      ((s.slice n).since.toNat / 1000000 < s.tbu.tb.toNat / 1000000 →
        ∃ t, exec (.sliceAdmission n) s = .next t ∧ t.slice n = { s.slice n with st := .admitted } ∧
          (s.fab.hq.length < 64 → ∃ h ∈ t.fab.hq, h.code = 0x02)) ∧
      (s.tbu.tb.toNat / 1000000 ≤ (s.slice n).since.toNat / 1000000 → exec (.sliceAdmission n) s = .next s))) ∧
  (∀ (s : State) (dep : Nat) (d : Dep) (a b : RunOut), s.dep? dep = some d → d.runs = [a, b] → s.isOpen = true →
    d.step = .running →
    (d.third = false →
      (a.records = b.records → a.receipt = b.receipt → d.dmode = 0 →
        ∃ t d', exec (.lockCompare dep) s = .next t ∧ t.dep? dep = some d' ∧ d'.step = .delivered ∧ d'.receipt = a.receipt ∧
          List.Perm t.out (s.out ++ if d.stopDelivery then [] else hitMessages d a.records)) ∧
      (a.agrees b = false →
        ∃ t d', exec (.lockCompare dep) s = .next t ∧ t.dep? dep = some d' ∧ d'.third = true ∧ d'.killed = [] ∧
          t.fab.sent = s.fab.sent ∧ (s.fab.hq.length < 64 → ∃ h ∈ t.fab.hq, h.code = 0x0E))) ∧
    (d.third = true → (d.killedIn 2).isSome = true ∨ s.allQueriesDone d = true →
      (let c := s.runOut d 2
       (∀ maj minr, (a.agrees c = true ∧ maj = c ∧ minr = b) ∨ (a.agrees c = false ∧ b.agrees c = true ∧ maj = c ∧ minr = a) →
         (minoritySlice minr.traces maj.traces = none ∨ a.memEvent = true ∨ b.memEvent = true) → d.dmode = 0 →
         ∃ t d', exec (.lockVote dep) s = .next t ∧ t.dep? dep = some d' ∧ d'.step = .delivered ∧ d'.receipt = maj.receipt ∧
           List.Perm t.out (s.out ++ if d.stopDelivery then [] else hitMessages d maj.records)) ∧
       (∀ maj minr n, (a.agrees c = true ∧ maj = c ∧ minr = b) ∨ (a.agrees c = false ∧ b.agrees c = true ∧ maj = c ∧ minr = a) →
         minoritySlice minr.traces maj.traces = some n → a.memEvent = false → b.memEvent = false → n < s.nslices →
         ∃ t, exec (.lockVote dep) s = .next t ∧ (t.slice n).st = .retired) ∧
       (∀ best, a.agrees c = false → b.agrees c = false → a.memEvent = true ∨ b.memEvent = true → d.dmode = 0 →
         [a, b, c].find? (fun x => !x.memEvent) = some best →
         ∃ t d', exec (.lockVote dep) s = .next t ∧ t.dep? dep = some d' ∧ d'.step = .delivered ∧ d'.receipt = best.receipt ∧
           List.Perm t.out (s.out ++ if d.stopDelivery then [] else hitMessages d best.records) ∧
           ∀ f, d.memFault = some f → s.fab.hq.length < 64 → ∃ h ∈ t.fab.hq, h.code = 0x09 ∧
             h.unit = BitVec.ofNat 16 (unitMport f.1) ∧ byteAt h.detail 8 = BitVec.ofNat 8 f.2.2) ∧
       (a.agrees c = false → b.agrees c = false → a.memEvent = false → b.memEvent = false →
         ∃ t d', exec (.lockVote dep) s = .next t ∧ t.dep? dep = some d' ∧ d'.step = .split ∧ (t.part d.part).split = true ∧
           t.out = s.out ∧ (s.fab.hq.length < 64 → ∃ h ∈ t.fab.hq, h.code = 0x0F)))))
end

