-- ==== Sys2Proof/Laws/Maps.lean ====
section
/-! SUPPORT. The sparse maps and memory: reads after writes, and the canonical form that every write keeps. -/

namespace Sys2Proof.Machine

variable {β : Type} {d : β}

/-- Every key of a list is above `i`. -/
def NMap.above (i : Nat) (m : NMap β) : Prop := ∀ e ∈ m, i < e.1

theorem NMap.get_ins {m : NMap β} {i : Nat} (h : ∀ e ∈ m, e.1 ≠ i) (v : β) (j : Nat) :
    NMap.get d (NMap.ins m i v) j = if j = i then v else NMap.get d m j := by
  induction m with
  | nil => simp [NMap.ins, NMap.get]
  | cons e t ih =>
    obtain ⟨k, w⟩ := e
    have hk : k ≠ i := h (k, w) (by simp)
    have ht := ih fun e he => h e (by simp [he])
    simp only [NMap.ins]
    split
    · simp only [NMap.get]
    · simp only [NMap.get]
      by_cases hj : j = k
      · rw [if_pos hj, if_pos hj, if_neg (by omega)]
      · rw [if_neg hj, if_neg hj]; exact ht

theorem NMap.get_filter_ne (m : NMap β) {i j : Nat} (hj : j ≠ i) :
    NMap.get d (m.filter fun e => e.1 != i) j = NMap.get d m j := by
  induction m with
  | nil => rfl
  | cons e t ih =>
    obtain ⟨k, v⟩ := e
    by_cases hk : k = i
    · rw [List.filter_cons_of_neg (by simp [hk])]
      simp only [NMap.get]
      rw [if_neg (by omega)]; exact ih
    · rw [List.filter_cons_of_pos (by simp [hk])]
      simp only [NMap.get]
      rw [ih]

theorem NMap.get_filter_self (m : NMap β) (i : Nat) : NMap.get d (m.filter fun e => e.1 != i) i = d := by
  induction m with
  | nil => rfl
  | cons e t ih =>
    obtain ⟨k, v⟩ := e
    by_cases hk : k = i
    · rw [List.filter_cons_of_neg (by simp [hk])]; exact ih
    · rw [List.filter_cons_of_pos (by simp [hk])]
      simp only [NMap.get]
      rw [if_neg (by omega)]; exact ih

section
variable [DecidableEq β]

/-- A read after a write. -/
theorem NMap.get_put (m : NMap β) (i : Nat) (v : β) (j : Nat) :
    NMap.get d (NMap.put d m i v) j = if j = i then v else NMap.get d m j := by
  simp only [NMap.put]
  split
  · rename_i hv
    by_cases hj : j = i
    · rw [if_pos hj, hj, hv]; exact NMap.get_filter_self m i
    · rw [if_neg hj]; exact NMap.get_filter_ne m hj
  · rw [NMap.get_ins (by intro e he; simpa using (List.mem_filter.mp he).2)]
    by_cases hj : j = i
    · simp [hj]
    · rw [if_neg hj, if_neg hj]; exact NMap.get_filter_ne m hj

@[simp] theorem NMap.get_put_self (m : NMap β) (i : Nat) (v : β) : NMap.get d (NMap.put d m i v) i = v := by
  rw [NMap.get_put]; simp

theorem NMap.get_put_ne (m : NMap β) {i j : Nat} (hj : j ≠ i) (v : β) :
    NMap.get d (NMap.put d m i v) j = NMap.get d m j := by
  rw [NMap.get_put]; simp [hj]

/-! ## The canonical form -/

theorem NMap.wf_cons {k : Nat} {v : β} {t : NMap β} :
    NMap.wf d ((k, v) :: t) = true ↔ v ≠ d ∧ NMap.above k t ∧ NMap.wf d t = true := by
  induction t generalizing k v with
  | nil => simp [NMap.wf, NMap.above]
  | cons e t ih =>
    obtain ⟨k', v'⟩ := e
    rw [NMap.wf]
    simp only [Bool.and_eq_true, decide_eq_true_eq]
    constructor
    · rintro ⟨⟨h1, h2⟩, h3⟩
      refine ⟨h1, ?_, h3⟩
      intro e he
      rcases List.mem_cons.mp he with rfl | he
      · exact h2
      · exact Nat.lt_trans h2 ((ih.mp h3).2.1 e he)
    · rintro ⟨h1, h2, h3⟩
      exact ⟨⟨h1, h2 (k', v') (by simp)⟩, h3⟩

@[simp] theorem NMap.wf_nil : NMap.wf d ([] : NMap β) = true := rfl

theorem NMap.filter_wf {m : NMap β} (h : NMap.wf d m = true) (p : Nat × β → Bool) : NMap.wf d (m.filter p) = true := by
  induction m with
  | nil => rfl
  | cons e t ih =>
    obtain ⟨k, v⟩ := e
    obtain ⟨hv, ha, ht⟩ := NMap.wf_cons.mp h
    by_cases hp : p (k, v) = true
    · rw [List.filter_cons_of_pos hp]
      exact NMap.wf_cons.mpr ⟨hv, fun e he => ha e (List.mem_filter.mp he).1, ih ht⟩
    · rw [List.filter_cons_of_neg hp]; exact ih ht

theorem NMap.ins_mem {m : NMap β} {i : Nat} {v : β} {e : Nat × β} (he : e ∈ NMap.ins m i v) : e = (i, v) ∨ e ∈ m := by
  induction m with
  | nil => simp [NMap.ins] at he; exact .inl he
  | cons x t ih =>
    simp only [NMap.ins] at he
    split at he
    · rcases List.mem_cons.mp he with h | h
      · exact .inl h
      · exact .inr h
    · rcases List.mem_cons.mp he with h | h
      · exact .inr (by simp [h])
      · rcases ih h with h | h
        · exact .inl h
        · exact .inr (by simp [h])

theorem NMap.ins_wf {m : NMap β} (h : NMap.wf d m = true) {i : Nat} (hi : ∀ e ∈ m, e.1 ≠ i) {v : β} (hv : v ≠ d) :
    NMap.wf d (NMap.ins m i v) = true := by
  induction m with
  | nil => exact NMap.wf_cons.mpr ⟨hv, (fun e he => absurd he (by simp)), rfl⟩
  | cons e t ih =>
    obtain ⟨k, w⟩ := e
    obtain ⟨hw, ha, ht⟩ := NMap.wf_cons.mp h
    simp only [NMap.ins]
    split
    · rename_i hik
      refine NMap.wf_cons.mpr ⟨hv, ?_, h⟩
      intro e he
      rcases List.mem_cons.mp he with rfl | he
      · exact hik
      · exact Nat.lt_trans hik (ha e he)
    · rename_i hik
      have hne : k ≠ i := hi (k, w) (by simp)
      refine NMap.wf_cons.mpr ⟨hw, ?_, ih ht fun e he => hi e (by simp [he])⟩
      intro e he
      rcases NMap.ins_mem he with rfl | he
      · simp only; omega
      · exact ha e he

/-- A write keeps the canonical form. -/
theorem NMap.put_wf {m : NMap β} (h : NMap.wf d m = true) (i : Nat) (v : β) : NMap.wf d (NMap.put d m i v) = true := by
  simp only [NMap.put]
  split
  · exact NMap.filter_wf h _
  · rename_i hv
    exact NMap.ins_wf (NMap.filter_wf h _) (by intro e he; simpa using (List.mem_filter.mp he).2) hv

end

/-! ## Memory -/

theorem Memory.write_wf {m : Memory} (h : m.wf = true) (a : Nat) (b : Byte) : (m.write a b).wf = true := NMap.put_wf h a b

theorem Memory.read_write (m : Memory) (a : Nat) (b : Byte) (x : Nat) :
    (m.write a b).read x = if x = a then b else m.read x := NMap.get_put m a b x

theorem Memory.writeN_wf {m : Memory} (h : m.wf = true) (a : Nat) (bs : List Byte) : (m.writeN a bs).wf = true := by
  induction bs generalizing m a with
  | nil => exact h
  | cons b bs ih => exact ih (Memory.write_wf h a b) (a + 1)

/-- A read after a write of several bytes. -/
theorem Memory.read_writeN (m : Memory) (a : Nat) (bs : List Byte) (x : Nat) :
    (m.writeN a bs).read x = if a ≤ x ∧ x < a + bs.length then bs.getD (x - a) 0 else m.read x := by
  induction bs generalizing m a with
  | nil => simp [Memory.writeN] <;> omega
  | cons b bs ih =>
    simp only [Memory.writeN]
    rw [ih, Memory.read_write]
    by_cases hx : x = a
    · subst hx
      rw [if_neg (by omega), if_pos rfl, if_pos (by simp)]
      simp
    · by_cases hr : a + 1 ≤ x ∧ x < a + 1 + bs.length
      · rw [if_pos hr, if_pos (by simp only [List.length_cons]; omega)]
        have : x - a = (x - (a + 1)) + 1 := by omega
        rw [this]; simp
      · rw [if_neg hr, if_neg hx, if_neg (by simp only [List.length_cons]; omega)]

/-- Bytes outside a write read as before. -/
theorem Memory.read_writeN_out (m : Memory) {a x : Nat} {bs : List Byte} (h : x < a ∨ a + bs.length ≤ x) :
    (m.writeN a bs).read x = m.read x := by
  rw [Memory.read_writeN, if_neg (by omega)]

/-! ## Bit fields -/

@[simp] theorem bitAt_toNat {w : Nat} (v : BitVec w) (i : Nat) : bitAt v.toNat i = v.getLsbD i := by
  simp [bitAt, BitVec.getLsbD, Nat.testBit_eq_decide_div_mod_eq]

end Sys2Proof.Machine
end

