-- ==== Sys2Proof/Laws/State.lean ====
section
/-! SUPPORT. What each named update of the state leaves: one lemma for each field, so that no proof unfolds an update. -/

namespace Sys2Proof.Machine

variable (s : State)

/-! ## setPart -/

@[simp] theorem State.setPart_build (p : Nat) (v : Part) : (s.setPart p v).build = s.build := rfl
@[simp] theorem State.setPart_boot (p : Nat) (v : Part) : (s.setPart p v).boot = s.boot := rfl
@[simp] theorem State.setPart_flash (p : Nat) (v : Part) : (s.setPart p v).flash = s.flash := rfl
@[simp] theorem State.setPart_sfdp (p : Nat) (v : Part) : (s.setPart p v).sfdp = s.sfdp := rfl
@[simp] theorem State.setPart_fuses (p : Nat) (v : Part) : (s.setPart p v).fuses = s.fuses := rfl
@[simp] theorem State.setPart_sensed (p : Nat) (v : Part) : (s.setPart p v).sensed = s.sensed := rfl
@[simp] theorem State.setPart_sec (p : Nat) (v : Part) : (s.setPart p v).sec = s.sec := rfl
@[simp] theorem State.setPart_tbu (p : Nat) (v : Part) : (s.setPart p v).tbu = s.tbu := rfl
@[simp] theorem State.setPart_pwr (p : Nat) (v : Part) : (s.setPart p v).pwr = s.pwr := rfl
@[simp] theorem State.setPart_ports (p : Nat) (v : Part) : (s.setPart p v).ports = s.ports := rfl
@[simp] theorem State.setPart_strms (p : Nat) (v : Part) : (s.setPart p v).strms = s.strms := rfl
@[simp] theorem State.setPart_fab (p : Nat) (v : Part) : (s.setPart p v).fab = s.fab := rfl
@[simp] theorem State.setPart_mports (p : Nat) (v : Part) : (s.setPart p v).mports = s.mports := rfl
@[simp] theorem State.setPart_ilv (p : Nat) (v : Part) : (s.setPart p v).ilv = s.ilv := rfl
@[simp] theorem State.setPart_mem (p : Nat) (v : Part) : (s.setPart p v).mem = s.mem := rfl
@[simp] theorem State.setPart_accs (p : Nat) (v : Part) : (s.setPart p v).accs = s.accs := rfl
@[simp] theorem State.setPart_lateTags (p : Nat) (v : Part) : (s.setPart p v).lateTags = s.lateTags := rfl
@[simp] theorem State.setPart_clusters (p : Nat) (v : Part) : (s.setPart p v).clusters = s.clusters := rfl
@[simp] theorem State.setPart_slices (p : Nat) (v : Part) : (s.setPart p v).slices = s.slices := rfl
@[simp] theorem State.setPart_leads (p : Nat) (v : Part) : (s.setPart p v).leads = s.leads := rfl
@[simp] theorem State.setPart_deps (p : Nat) (v : Part) : (s.setPart p v).deps = s.deps := rfl
@[simp] theorem State.setPart_queries (p : Nat) (v : Part) : (s.setPart p v).queries = s.queries := rfl
@[simp] theorem State.setPart_snaps (p : Nat) (v : Part) : (s.setPart p v).snaps = s.snaps := rfl
@[simp] theorem State.setPart_shadowsDue (p : Nat) (v : Part) : (s.setPart p v).shadowsDue = s.shadowsDue := rfl
@[simp] theorem State.setPart_recovs (p : Nat) (v : Part) : (s.setPart p v).recovs = s.recovs := rfl
@[simp] theorem State.setPart_delivered (p : Nat) (v : Part) : (s.setPart p v).delivered = s.delivered := rfl
@[simp] theorem State.setPart_ctxs (p : Nat) (v : Part) : (s.setPart p v).ctxs = s.ctxs := rfl
@[simp] theorem State.setPart_signals (p : Nat) (v : Part) : (s.setPart p v).signals = s.signals := rfl
@[simp] theorem State.setPart_links (p : Nat) (v : Part) : (s.setPart p v).links = s.links := rfl
@[simp] theorem State.setPart_dom (p : Nat) (v : Part) : (s.setPart p v).dom = s.dom := rfl
@[simp] theorem State.setPart_mint (p : Nat) (v : Part) : (s.setPart p v).mint = s.mint := rfl
@[simp] theorem State.setPart_tillCtl (p : Nat) (v : Part) : (s.setPart p v).tillCtl = s.tillCtl := rfl
@[simp] theorem State.setPart_latches (p : Nat) (v : Part) : (s.setPart p v).latches = s.latches := rfl
@[simp] theorem State.setPart_mportRdata (p : Nat) (v : Part) : (s.setPart p v).mportRdata = s.mportRdata := rfl
@[simp] theorem State.setPart_elapsed (p : Nat) (v : Part) : (s.setPart p v).elapsed = s.elapsed := rfl
@[simp] theorem State.setPart_wclk (p : Nat) (v : Part) : (s.setPart p v).wclk = s.wclk := rfl
@[simp] theorem State.setPart_nextDep (p : Nat) (v : Part) : (s.setPart p v).nextDep = s.nextDep := rfl
@[simp] theorem State.setPart_nextUid (p : Nat) (v : Part) : (s.setPart p v).nextUid = s.nextUid := rfl
@[simp] theorem State.setPart_nextLaunch (p : Nat) (v : Part) : (s.setPart p v).nextLaunch = s.nextLaunch := rfl
@[simp] theorem State.setPart_free (p : Nat) (v : Part) : (s.setPart p v).free = s.free := rfl
@[simp] theorem State.setPart_pending (p : Nat) (v : Part) : (s.setPart p v).pending = s.pending := rfl

/-! ## modPart -/

@[simp] theorem State.modPart_build (p : Nat) (f : Part → Part) : (s.modPart p f).build = s.build := rfl
@[simp] theorem State.modPart_boot (p : Nat) (f : Part → Part) : (s.modPart p f).boot = s.boot := rfl
@[simp] theorem State.modPart_flash (p : Nat) (f : Part → Part) : (s.modPart p f).flash = s.flash := rfl
@[simp] theorem State.modPart_sfdp (p : Nat) (f : Part → Part) : (s.modPart p f).sfdp = s.sfdp := rfl
@[simp] theorem State.modPart_fuses (p : Nat) (f : Part → Part) : (s.modPart p f).fuses = s.fuses := rfl
@[simp] theorem State.modPart_sensed (p : Nat) (f : Part → Part) : (s.modPart p f).sensed = s.sensed := rfl
@[simp] theorem State.modPart_sec (p : Nat) (f : Part → Part) : (s.modPart p f).sec = s.sec := rfl
@[simp] theorem State.modPart_tbu (p : Nat) (f : Part → Part) : (s.modPart p f).tbu = s.tbu := rfl
@[simp] theorem State.modPart_pwr (p : Nat) (f : Part → Part) : (s.modPart p f).pwr = s.pwr := rfl
@[simp] theorem State.modPart_ports (p : Nat) (f : Part → Part) : (s.modPart p f).ports = s.ports := rfl
@[simp] theorem State.modPart_strms (p : Nat) (f : Part → Part) : (s.modPart p f).strms = s.strms := rfl
@[simp] theorem State.modPart_fab (p : Nat) (f : Part → Part) : (s.modPart p f).fab = s.fab := rfl
@[simp] theorem State.modPart_mports (p : Nat) (f : Part → Part) : (s.modPart p f).mports = s.mports := rfl
@[simp] theorem State.modPart_ilv (p : Nat) (f : Part → Part) : (s.modPart p f).ilv = s.ilv := rfl
@[simp] theorem State.modPart_mem (p : Nat) (f : Part → Part) : (s.modPart p f).mem = s.mem := rfl
@[simp] theorem State.modPart_accs (p : Nat) (f : Part → Part) : (s.modPart p f).accs = s.accs := rfl
@[simp] theorem State.modPart_lateTags (p : Nat) (f : Part → Part) : (s.modPart p f).lateTags = s.lateTags := rfl
@[simp] theorem State.modPart_clusters (p : Nat) (f : Part → Part) : (s.modPart p f).clusters = s.clusters := rfl
@[simp] theorem State.modPart_slices (p : Nat) (f : Part → Part) : (s.modPart p f).slices = s.slices := rfl
@[simp] theorem State.modPart_leads (p : Nat) (f : Part → Part) : (s.modPart p f).leads = s.leads := rfl
@[simp] theorem State.modPart_deps (p : Nat) (f : Part → Part) : (s.modPart p f).deps = s.deps := rfl
@[simp] theorem State.modPart_queries (p : Nat) (f : Part → Part) : (s.modPart p f).queries = s.queries := rfl
@[simp] theorem State.modPart_snaps (p : Nat) (f : Part → Part) : (s.modPart p f).snaps = s.snaps := rfl
@[simp] theorem State.modPart_shadowsDue (p : Nat) (f : Part → Part) : (s.modPart p f).shadowsDue = s.shadowsDue := rfl
@[simp] theorem State.modPart_recovs (p : Nat) (f : Part → Part) : (s.modPart p f).recovs = s.recovs := rfl
@[simp] theorem State.modPart_delivered (p : Nat) (f : Part → Part) : (s.modPart p f).delivered = s.delivered := rfl
@[simp] theorem State.modPart_ctxs (p : Nat) (f : Part → Part) : (s.modPart p f).ctxs = s.ctxs := rfl
@[simp] theorem State.modPart_signals (p : Nat) (f : Part → Part) : (s.modPart p f).signals = s.signals := rfl
@[simp] theorem State.modPart_links (p : Nat) (f : Part → Part) : (s.modPart p f).links = s.links := rfl
@[simp] theorem State.modPart_dom (p : Nat) (f : Part → Part) : (s.modPart p f).dom = s.dom := rfl
@[simp] theorem State.modPart_mint (p : Nat) (f : Part → Part) : (s.modPart p f).mint = s.mint := rfl
@[simp] theorem State.modPart_tillCtl (p : Nat) (f : Part → Part) : (s.modPart p f).tillCtl = s.tillCtl := rfl
@[simp] theorem State.modPart_latches (p : Nat) (f : Part → Part) : (s.modPart p f).latches = s.latches := rfl
@[simp] theorem State.modPart_mportRdata (p : Nat) (f : Part → Part) : (s.modPart p f).mportRdata = s.mportRdata := rfl
@[simp] theorem State.modPart_elapsed (p : Nat) (f : Part → Part) : (s.modPart p f).elapsed = s.elapsed := rfl
@[simp] theorem State.modPart_wclk (p : Nat) (f : Part → Part) : (s.modPart p f).wclk = s.wclk := rfl
@[simp] theorem State.modPart_nextDep (p : Nat) (f : Part → Part) : (s.modPart p f).nextDep = s.nextDep := rfl
@[simp] theorem State.modPart_nextUid (p : Nat) (f : Part → Part) : (s.modPart p f).nextUid = s.nextUid := rfl
@[simp] theorem State.modPart_nextLaunch (p : Nat) (f : Part → Part) : (s.modPart p f).nextLaunch = s.nextLaunch := rfl
@[simp] theorem State.modPart_free (p : Nat) (f : Part → Part) : (s.modPart p f).free = s.free := rfl
@[simp] theorem State.modPart_pending (p : Nat) (f : Part → Part) : (s.modPart p f).pending = s.pending := rfl

/-! ## setCluster -/

@[simp] theorem State.setCluster_build (m : Nat) (v : Cluster) : (s.setCluster m v).build = s.build := rfl
@[simp] theorem State.setCluster_boot (m : Nat) (v : Cluster) : (s.setCluster m v).boot = s.boot := rfl
@[simp] theorem State.setCluster_flash (m : Nat) (v : Cluster) : (s.setCluster m v).flash = s.flash := rfl
@[simp] theorem State.setCluster_sfdp (m : Nat) (v : Cluster) : (s.setCluster m v).sfdp = s.sfdp := rfl
@[simp] theorem State.setCluster_fuses (m : Nat) (v : Cluster) : (s.setCluster m v).fuses = s.fuses := rfl
@[simp] theorem State.setCluster_sensed (m : Nat) (v : Cluster) : (s.setCluster m v).sensed = s.sensed := rfl
@[simp] theorem State.setCluster_sec (m : Nat) (v : Cluster) : (s.setCluster m v).sec = s.sec := rfl
@[simp] theorem State.setCluster_tbu (m : Nat) (v : Cluster) : (s.setCluster m v).tbu = s.tbu := rfl
@[simp] theorem State.setCluster_pwr (m : Nat) (v : Cluster) : (s.setCluster m v).pwr = s.pwr := rfl
@[simp] theorem State.setCluster_ports (m : Nat) (v : Cluster) : (s.setCluster m v).ports = s.ports := rfl
@[simp] theorem State.setCluster_strms (m : Nat) (v : Cluster) : (s.setCluster m v).strms = s.strms := rfl
@[simp] theorem State.setCluster_fab (m : Nat) (v : Cluster) : (s.setCluster m v).fab = s.fab := rfl
@[simp] theorem State.setCluster_mports (m : Nat) (v : Cluster) : (s.setCluster m v).mports = s.mports := rfl
@[simp] theorem State.setCluster_ilv (m : Nat) (v : Cluster) : (s.setCluster m v).ilv = s.ilv := rfl
@[simp] theorem State.setCluster_mem (m : Nat) (v : Cluster) : (s.setCluster m v).mem = s.mem := rfl
@[simp] theorem State.setCluster_accs (m : Nat) (v : Cluster) : (s.setCluster m v).accs = s.accs := rfl
@[simp] theorem State.setCluster_lateTags (m : Nat) (v : Cluster) : (s.setCluster m v).lateTags = s.lateTags := rfl
@[simp] theorem State.setCluster_parts (m : Nat) (v : Cluster) : (s.setCluster m v).parts = s.parts := rfl
@[simp] theorem State.setCluster_slices (m : Nat) (v : Cluster) : (s.setCluster m v).slices = s.slices := rfl
@[simp] theorem State.setCluster_leads (m : Nat) (v : Cluster) : (s.setCluster m v).leads = s.leads := rfl
@[simp] theorem State.setCluster_deps (m : Nat) (v : Cluster) : (s.setCluster m v).deps = s.deps := rfl
@[simp] theorem State.setCluster_queries (m : Nat) (v : Cluster) : (s.setCluster m v).queries = s.queries := rfl
@[simp] theorem State.setCluster_snaps (m : Nat) (v : Cluster) : (s.setCluster m v).snaps = s.snaps := rfl
@[simp] theorem State.setCluster_shadowsDue (m : Nat) (v : Cluster) : (s.setCluster m v).shadowsDue = s.shadowsDue := rfl
@[simp] theorem State.setCluster_recovs (m : Nat) (v : Cluster) : (s.setCluster m v).recovs = s.recovs := rfl
@[simp] theorem State.setCluster_delivered (m : Nat) (v : Cluster) : (s.setCluster m v).delivered = s.delivered := rfl
@[simp] theorem State.setCluster_ctxs (m : Nat) (v : Cluster) : (s.setCluster m v).ctxs = s.ctxs := rfl
@[simp] theorem State.setCluster_signals (m : Nat) (v : Cluster) : (s.setCluster m v).signals = s.signals := rfl
@[simp] theorem State.setCluster_links (m : Nat) (v : Cluster) : (s.setCluster m v).links = s.links := rfl
@[simp] theorem State.setCluster_dom (m : Nat) (v : Cluster) : (s.setCluster m v).dom = s.dom := rfl
@[simp] theorem State.setCluster_mint (m : Nat) (v : Cluster) : (s.setCluster m v).mint = s.mint := rfl
@[simp] theorem State.setCluster_tillCtl (m : Nat) (v : Cluster) : (s.setCluster m v).tillCtl = s.tillCtl := rfl
@[simp] theorem State.setCluster_latches (m : Nat) (v : Cluster) : (s.setCluster m v).latches = s.latches := rfl
@[simp] theorem State.setCluster_mportRdata (m : Nat) (v : Cluster) : (s.setCluster m v).mportRdata = s.mportRdata := rfl
@[simp] theorem State.setCluster_elapsed (m : Nat) (v : Cluster) : (s.setCluster m v).elapsed = s.elapsed := rfl
@[simp] theorem State.setCluster_wclk (m : Nat) (v : Cluster) : (s.setCluster m v).wclk = s.wclk := rfl
@[simp] theorem State.setCluster_nextDep (m : Nat) (v : Cluster) : (s.setCluster m v).nextDep = s.nextDep := rfl
@[simp] theorem State.setCluster_nextUid (m : Nat) (v : Cluster) : (s.setCluster m v).nextUid = s.nextUid := rfl
@[simp] theorem State.setCluster_nextLaunch (m : Nat) (v : Cluster) : (s.setCluster m v).nextLaunch = s.nextLaunch := rfl
@[simp] theorem State.setCluster_free (m : Nat) (v : Cluster) : (s.setCluster m v).free = s.free := rfl
@[simp] theorem State.setCluster_pending (m : Nat) (v : Cluster) : (s.setCluster m v).pending = s.pending := rfl

/-! ## modCluster -/

@[simp] theorem State.modCluster_build (m : Nat) (f : Cluster → Cluster) : (s.modCluster m f).build = s.build := rfl
@[simp] theorem State.modCluster_boot (m : Nat) (f : Cluster → Cluster) : (s.modCluster m f).boot = s.boot := rfl
@[simp] theorem State.modCluster_flash (m : Nat) (f : Cluster → Cluster) : (s.modCluster m f).flash = s.flash := rfl
@[simp] theorem State.modCluster_sfdp (m : Nat) (f : Cluster → Cluster) : (s.modCluster m f).sfdp = s.sfdp := rfl
@[simp] theorem State.modCluster_fuses (m : Nat) (f : Cluster → Cluster) : (s.modCluster m f).fuses = s.fuses := rfl
@[simp] theorem State.modCluster_sensed (m : Nat) (f : Cluster → Cluster) : (s.modCluster m f).sensed = s.sensed := rfl
@[simp] theorem State.modCluster_sec (m : Nat) (f : Cluster → Cluster) : (s.modCluster m f).sec = s.sec := rfl
@[simp] theorem State.modCluster_tbu (m : Nat) (f : Cluster → Cluster) : (s.modCluster m f).tbu = s.tbu := rfl
@[simp] theorem State.modCluster_pwr (m : Nat) (f : Cluster → Cluster) : (s.modCluster m f).pwr = s.pwr := rfl
@[simp] theorem State.modCluster_ports (m : Nat) (f : Cluster → Cluster) : (s.modCluster m f).ports = s.ports := rfl
@[simp] theorem State.modCluster_strms (m : Nat) (f : Cluster → Cluster) : (s.modCluster m f).strms = s.strms := rfl
@[simp] theorem State.modCluster_fab (m : Nat) (f : Cluster → Cluster) : (s.modCluster m f).fab = s.fab := rfl
@[simp] theorem State.modCluster_mports (m : Nat) (f : Cluster → Cluster) : (s.modCluster m f).mports = s.mports := rfl
@[simp] theorem State.modCluster_ilv (m : Nat) (f : Cluster → Cluster) : (s.modCluster m f).ilv = s.ilv := rfl
@[simp] theorem State.modCluster_mem (m : Nat) (f : Cluster → Cluster) : (s.modCluster m f).mem = s.mem := rfl
@[simp] theorem State.modCluster_accs (m : Nat) (f : Cluster → Cluster) : (s.modCluster m f).accs = s.accs := rfl
@[simp] theorem State.modCluster_lateTags (m : Nat) (f : Cluster → Cluster) : (s.modCluster m f).lateTags = s.lateTags := rfl
@[simp] theorem State.modCluster_parts (m : Nat) (f : Cluster → Cluster) : (s.modCluster m f).parts = s.parts := rfl
@[simp] theorem State.modCluster_slices (m : Nat) (f : Cluster → Cluster) : (s.modCluster m f).slices = s.slices := rfl
@[simp] theorem State.modCluster_leads (m : Nat) (f : Cluster → Cluster) : (s.modCluster m f).leads = s.leads := rfl
@[simp] theorem State.modCluster_deps (m : Nat) (f : Cluster → Cluster) : (s.modCluster m f).deps = s.deps := rfl
@[simp] theorem State.modCluster_queries (m : Nat) (f : Cluster → Cluster) : (s.modCluster m f).queries = s.queries := rfl
@[simp] theorem State.modCluster_snaps (m : Nat) (f : Cluster → Cluster) : (s.modCluster m f).snaps = s.snaps := rfl
@[simp] theorem State.modCluster_shadowsDue (m : Nat) (f : Cluster → Cluster) : (s.modCluster m f).shadowsDue = s.shadowsDue := rfl
@[simp] theorem State.modCluster_recovs (m : Nat) (f : Cluster → Cluster) : (s.modCluster m f).recovs = s.recovs := rfl
@[simp] theorem State.modCluster_delivered (m : Nat) (f : Cluster → Cluster) : (s.modCluster m f).delivered = s.delivered := rfl
@[simp] theorem State.modCluster_ctxs (m : Nat) (f : Cluster → Cluster) : (s.modCluster m f).ctxs = s.ctxs := rfl
@[simp] theorem State.modCluster_signals (m : Nat) (f : Cluster → Cluster) : (s.modCluster m f).signals = s.signals := rfl
@[simp] theorem State.modCluster_links (m : Nat) (f : Cluster → Cluster) : (s.modCluster m f).links = s.links := rfl
@[simp] theorem State.modCluster_dom (m : Nat) (f : Cluster → Cluster) : (s.modCluster m f).dom = s.dom := rfl
@[simp] theorem State.modCluster_mint (m : Nat) (f : Cluster → Cluster) : (s.modCluster m f).mint = s.mint := rfl
@[simp] theorem State.modCluster_tillCtl (m : Nat) (f : Cluster → Cluster) : (s.modCluster m f).tillCtl = s.tillCtl := rfl
@[simp] theorem State.modCluster_latches (m : Nat) (f : Cluster → Cluster) : (s.modCluster m f).latches = s.latches := rfl
@[simp] theorem State.modCluster_mportRdata (m : Nat) (f : Cluster → Cluster) : (s.modCluster m f).mportRdata = s.mportRdata := rfl
@[simp] theorem State.modCluster_elapsed (m : Nat) (f : Cluster → Cluster) : (s.modCluster m f).elapsed = s.elapsed := rfl
@[simp] theorem State.modCluster_wclk (m : Nat) (f : Cluster → Cluster) : (s.modCluster m f).wclk = s.wclk := rfl
@[simp] theorem State.modCluster_nextDep (m : Nat) (f : Cluster → Cluster) : (s.modCluster m f).nextDep = s.nextDep := rfl
@[simp] theorem State.modCluster_nextUid (m : Nat) (f : Cluster → Cluster) : (s.modCluster m f).nextUid = s.nextUid := rfl
@[simp] theorem State.modCluster_nextLaunch (m : Nat) (f : Cluster → Cluster) : (s.modCluster m f).nextLaunch = s.nextLaunch := rfl
@[simp] theorem State.modCluster_free (m : Nat) (f : Cluster → Cluster) : (s.modCluster m f).free = s.free := rfl
@[simp] theorem State.modCluster_pending (m : Nat) (f : Cluster → Cluster) : (s.modCluster m f).pending = s.pending := rfl

/-! ## setSlice -/

@[simp] theorem State.setSlice_build (n : Nat) (v : Slice) : (s.setSlice n v).build = s.build := rfl
@[simp] theorem State.setSlice_boot (n : Nat) (v : Slice) : (s.setSlice n v).boot = s.boot := rfl
@[simp] theorem State.setSlice_flash (n : Nat) (v : Slice) : (s.setSlice n v).flash = s.flash := rfl
@[simp] theorem State.setSlice_sfdp (n : Nat) (v : Slice) : (s.setSlice n v).sfdp = s.sfdp := rfl
@[simp] theorem State.setSlice_fuses (n : Nat) (v : Slice) : (s.setSlice n v).fuses = s.fuses := rfl
@[simp] theorem State.setSlice_sensed (n : Nat) (v : Slice) : (s.setSlice n v).sensed = s.sensed := rfl
@[simp] theorem State.setSlice_sec (n : Nat) (v : Slice) : (s.setSlice n v).sec = s.sec := rfl
@[simp] theorem State.setSlice_tbu (n : Nat) (v : Slice) : (s.setSlice n v).tbu = s.tbu := rfl
@[simp] theorem State.setSlice_pwr (n : Nat) (v : Slice) : (s.setSlice n v).pwr = s.pwr := rfl
@[simp] theorem State.setSlice_ports (n : Nat) (v : Slice) : (s.setSlice n v).ports = s.ports := rfl
@[simp] theorem State.setSlice_strms (n : Nat) (v : Slice) : (s.setSlice n v).strms = s.strms := rfl
@[simp] theorem State.setSlice_fab (n : Nat) (v : Slice) : (s.setSlice n v).fab = s.fab := rfl
@[simp] theorem State.setSlice_mports (n : Nat) (v : Slice) : (s.setSlice n v).mports = s.mports := rfl
@[simp] theorem State.setSlice_ilv (n : Nat) (v : Slice) : (s.setSlice n v).ilv = s.ilv := rfl
@[simp] theorem State.setSlice_mem (n : Nat) (v : Slice) : (s.setSlice n v).mem = s.mem := rfl
@[simp] theorem State.setSlice_accs (n : Nat) (v : Slice) : (s.setSlice n v).accs = s.accs := rfl
@[simp] theorem State.setSlice_lateTags (n : Nat) (v : Slice) : (s.setSlice n v).lateTags = s.lateTags := rfl
@[simp] theorem State.setSlice_parts (n : Nat) (v : Slice) : (s.setSlice n v).parts = s.parts := rfl
@[simp] theorem State.setSlice_clusters (n : Nat) (v : Slice) : (s.setSlice n v).clusters = s.clusters := rfl
@[simp] theorem State.setSlice_leads (n : Nat) (v : Slice) : (s.setSlice n v).leads = s.leads := rfl
@[simp] theorem State.setSlice_deps (n : Nat) (v : Slice) : (s.setSlice n v).deps = s.deps := rfl
@[simp] theorem State.setSlice_queries (n : Nat) (v : Slice) : (s.setSlice n v).queries = s.queries := rfl
@[simp] theorem State.setSlice_snaps (n : Nat) (v : Slice) : (s.setSlice n v).snaps = s.snaps := rfl
@[simp] theorem State.setSlice_shadowsDue (n : Nat) (v : Slice) : (s.setSlice n v).shadowsDue = s.shadowsDue := rfl
@[simp] theorem State.setSlice_recovs (n : Nat) (v : Slice) : (s.setSlice n v).recovs = s.recovs := rfl
@[simp] theorem State.setSlice_delivered (n : Nat) (v : Slice) : (s.setSlice n v).delivered = s.delivered := rfl
@[simp] theorem State.setSlice_ctxs (n : Nat) (v : Slice) : (s.setSlice n v).ctxs = s.ctxs := rfl
@[simp] theorem State.setSlice_signals (n : Nat) (v : Slice) : (s.setSlice n v).signals = s.signals := rfl
@[simp] theorem State.setSlice_links (n : Nat) (v : Slice) : (s.setSlice n v).links = s.links := rfl
@[simp] theorem State.setSlice_dom (n : Nat) (v : Slice) : (s.setSlice n v).dom = s.dom := rfl
@[simp] theorem State.setSlice_mint (n : Nat) (v : Slice) : (s.setSlice n v).mint = s.mint := rfl
@[simp] theorem State.setSlice_tillCtl (n : Nat) (v : Slice) : (s.setSlice n v).tillCtl = s.tillCtl := rfl
@[simp] theorem State.setSlice_latches (n : Nat) (v : Slice) : (s.setSlice n v).latches = s.latches := rfl
@[simp] theorem State.setSlice_mportRdata (n : Nat) (v : Slice) : (s.setSlice n v).mportRdata = s.mportRdata := rfl
@[simp] theorem State.setSlice_elapsed (n : Nat) (v : Slice) : (s.setSlice n v).elapsed = s.elapsed := rfl
@[simp] theorem State.setSlice_wclk (n : Nat) (v : Slice) : (s.setSlice n v).wclk = s.wclk := rfl
@[simp] theorem State.setSlice_nextDep (n : Nat) (v : Slice) : (s.setSlice n v).nextDep = s.nextDep := rfl
@[simp] theorem State.setSlice_nextUid (n : Nat) (v : Slice) : (s.setSlice n v).nextUid = s.nextUid := rfl
@[simp] theorem State.setSlice_nextLaunch (n : Nat) (v : Slice) : (s.setSlice n v).nextLaunch = s.nextLaunch := rfl
@[simp] theorem State.setSlice_free (n : Nat) (v : Slice) : (s.setSlice n v).free = s.free := rfl
@[simp] theorem State.setSlice_pending (n : Nat) (v : Slice) : (s.setSlice n v).pending = s.pending := rfl

/-! ## modSlice -/

@[simp] theorem State.modSlice_build (n : Nat) (f : Slice → Slice) : (s.modSlice n f).build = s.build := rfl
@[simp] theorem State.modSlice_boot (n : Nat) (f : Slice → Slice) : (s.modSlice n f).boot = s.boot := rfl
@[simp] theorem State.modSlice_flash (n : Nat) (f : Slice → Slice) : (s.modSlice n f).flash = s.flash := rfl
@[simp] theorem State.modSlice_sfdp (n : Nat) (f : Slice → Slice) : (s.modSlice n f).sfdp = s.sfdp := rfl
@[simp] theorem State.modSlice_fuses (n : Nat) (f : Slice → Slice) : (s.modSlice n f).fuses = s.fuses := rfl
@[simp] theorem State.modSlice_sensed (n : Nat) (f : Slice → Slice) : (s.modSlice n f).sensed = s.sensed := rfl
@[simp] theorem State.modSlice_sec (n : Nat) (f : Slice → Slice) : (s.modSlice n f).sec = s.sec := rfl
@[simp] theorem State.modSlice_tbu (n : Nat) (f : Slice → Slice) : (s.modSlice n f).tbu = s.tbu := rfl
@[simp] theorem State.modSlice_pwr (n : Nat) (f : Slice → Slice) : (s.modSlice n f).pwr = s.pwr := rfl
@[simp] theorem State.modSlice_ports (n : Nat) (f : Slice → Slice) : (s.modSlice n f).ports = s.ports := rfl
@[simp] theorem State.modSlice_strms (n : Nat) (f : Slice → Slice) : (s.modSlice n f).strms = s.strms := rfl
@[simp] theorem State.modSlice_fab (n : Nat) (f : Slice → Slice) : (s.modSlice n f).fab = s.fab := rfl
@[simp] theorem State.modSlice_mports (n : Nat) (f : Slice → Slice) : (s.modSlice n f).mports = s.mports := rfl
@[simp] theorem State.modSlice_ilv (n : Nat) (f : Slice → Slice) : (s.modSlice n f).ilv = s.ilv := rfl
@[simp] theorem State.modSlice_mem (n : Nat) (f : Slice → Slice) : (s.modSlice n f).mem = s.mem := rfl
@[simp] theorem State.modSlice_accs (n : Nat) (f : Slice → Slice) : (s.modSlice n f).accs = s.accs := rfl
@[simp] theorem State.modSlice_lateTags (n : Nat) (f : Slice → Slice) : (s.modSlice n f).lateTags = s.lateTags := rfl
@[simp] theorem State.modSlice_parts (n : Nat) (f : Slice → Slice) : (s.modSlice n f).parts = s.parts := rfl
@[simp] theorem State.modSlice_clusters (n : Nat) (f : Slice → Slice) : (s.modSlice n f).clusters = s.clusters := rfl
@[simp] theorem State.modSlice_leads (n : Nat) (f : Slice → Slice) : (s.modSlice n f).leads = s.leads := rfl
@[simp] theorem State.modSlice_deps (n : Nat) (f : Slice → Slice) : (s.modSlice n f).deps = s.deps := rfl
@[simp] theorem State.modSlice_queries (n : Nat) (f : Slice → Slice) : (s.modSlice n f).queries = s.queries := rfl
@[simp] theorem State.modSlice_snaps (n : Nat) (f : Slice → Slice) : (s.modSlice n f).snaps = s.snaps := rfl
@[simp] theorem State.modSlice_shadowsDue (n : Nat) (f : Slice → Slice) : (s.modSlice n f).shadowsDue = s.shadowsDue := rfl
@[simp] theorem State.modSlice_recovs (n : Nat) (f : Slice → Slice) : (s.modSlice n f).recovs = s.recovs := rfl
@[simp] theorem State.modSlice_delivered (n : Nat) (f : Slice → Slice) : (s.modSlice n f).delivered = s.delivered := rfl
@[simp] theorem State.modSlice_ctxs (n : Nat) (f : Slice → Slice) : (s.modSlice n f).ctxs = s.ctxs := rfl
@[simp] theorem State.modSlice_signals (n : Nat) (f : Slice → Slice) : (s.modSlice n f).signals = s.signals := rfl
@[simp] theorem State.modSlice_links (n : Nat) (f : Slice → Slice) : (s.modSlice n f).links = s.links := rfl
@[simp] theorem State.modSlice_dom (n : Nat) (f : Slice → Slice) : (s.modSlice n f).dom = s.dom := rfl
@[simp] theorem State.modSlice_mint (n : Nat) (f : Slice → Slice) : (s.modSlice n f).mint = s.mint := rfl
@[simp] theorem State.modSlice_tillCtl (n : Nat) (f : Slice → Slice) : (s.modSlice n f).tillCtl = s.tillCtl := rfl
@[simp] theorem State.modSlice_latches (n : Nat) (f : Slice → Slice) : (s.modSlice n f).latches = s.latches := rfl
@[simp] theorem State.modSlice_mportRdata (n : Nat) (f : Slice → Slice) : (s.modSlice n f).mportRdata = s.mportRdata := rfl
@[simp] theorem State.modSlice_elapsed (n : Nat) (f : Slice → Slice) : (s.modSlice n f).elapsed = s.elapsed := rfl
@[simp] theorem State.modSlice_wclk (n : Nat) (f : Slice → Slice) : (s.modSlice n f).wclk = s.wclk := rfl
@[simp] theorem State.modSlice_nextDep (n : Nat) (f : Slice → Slice) : (s.modSlice n f).nextDep = s.nextDep := rfl
@[simp] theorem State.modSlice_nextUid (n : Nat) (f : Slice → Slice) : (s.modSlice n f).nextUid = s.nextUid := rfl
@[simp] theorem State.modSlice_nextLaunch (n : Nat) (f : Slice → Slice) : (s.modSlice n f).nextLaunch = s.nextLaunch := rfl
@[simp] theorem State.modSlice_free (n : Nat) (f : Slice → Slice) : (s.modSlice n f).free = s.free := rfl
@[simp] theorem State.modSlice_pending (n : Nat) (f : Slice → Slice) : (s.modSlice n f).pending = s.pending := rfl

/-! ## modLead -/

@[simp] theorem State.modLead_build (n : Nat) (f : Lead → Lead) : (s.modLead n f).build = s.build := rfl
@[simp] theorem State.modLead_boot (n : Nat) (f : Lead → Lead) : (s.modLead n f).boot = s.boot := rfl
@[simp] theorem State.modLead_flash (n : Nat) (f : Lead → Lead) : (s.modLead n f).flash = s.flash := rfl
@[simp] theorem State.modLead_sfdp (n : Nat) (f : Lead → Lead) : (s.modLead n f).sfdp = s.sfdp := rfl
@[simp] theorem State.modLead_fuses (n : Nat) (f : Lead → Lead) : (s.modLead n f).fuses = s.fuses := rfl
@[simp] theorem State.modLead_sensed (n : Nat) (f : Lead → Lead) : (s.modLead n f).sensed = s.sensed := rfl
@[simp] theorem State.modLead_sec (n : Nat) (f : Lead → Lead) : (s.modLead n f).sec = s.sec := rfl
@[simp] theorem State.modLead_tbu (n : Nat) (f : Lead → Lead) : (s.modLead n f).tbu = s.tbu := rfl
@[simp] theorem State.modLead_pwr (n : Nat) (f : Lead → Lead) : (s.modLead n f).pwr = s.pwr := rfl
@[simp] theorem State.modLead_ports (n : Nat) (f : Lead → Lead) : (s.modLead n f).ports = s.ports := rfl
@[simp] theorem State.modLead_strms (n : Nat) (f : Lead → Lead) : (s.modLead n f).strms = s.strms := rfl
@[simp] theorem State.modLead_fab (n : Nat) (f : Lead → Lead) : (s.modLead n f).fab = s.fab := rfl
@[simp] theorem State.modLead_mports (n : Nat) (f : Lead → Lead) : (s.modLead n f).mports = s.mports := rfl
@[simp] theorem State.modLead_ilv (n : Nat) (f : Lead → Lead) : (s.modLead n f).ilv = s.ilv := rfl
@[simp] theorem State.modLead_mem (n : Nat) (f : Lead → Lead) : (s.modLead n f).mem = s.mem := rfl
@[simp] theorem State.modLead_accs (n : Nat) (f : Lead → Lead) : (s.modLead n f).accs = s.accs := rfl
@[simp] theorem State.modLead_lateTags (n : Nat) (f : Lead → Lead) : (s.modLead n f).lateTags = s.lateTags := rfl
@[simp] theorem State.modLead_parts (n : Nat) (f : Lead → Lead) : (s.modLead n f).parts = s.parts := rfl
@[simp] theorem State.modLead_clusters (n : Nat) (f : Lead → Lead) : (s.modLead n f).clusters = s.clusters := rfl
@[simp] theorem State.modLead_slices (n : Nat) (f : Lead → Lead) : (s.modLead n f).slices = s.slices := rfl
@[simp] theorem State.modLead_deps (n : Nat) (f : Lead → Lead) : (s.modLead n f).deps = s.deps := rfl
@[simp] theorem State.modLead_queries (n : Nat) (f : Lead → Lead) : (s.modLead n f).queries = s.queries := rfl
@[simp] theorem State.modLead_snaps (n : Nat) (f : Lead → Lead) : (s.modLead n f).snaps = s.snaps := rfl
@[simp] theorem State.modLead_shadowsDue (n : Nat) (f : Lead → Lead) : (s.modLead n f).shadowsDue = s.shadowsDue := rfl
@[simp] theorem State.modLead_recovs (n : Nat) (f : Lead → Lead) : (s.modLead n f).recovs = s.recovs := rfl
@[simp] theorem State.modLead_delivered (n : Nat) (f : Lead → Lead) : (s.modLead n f).delivered = s.delivered := rfl
@[simp] theorem State.modLead_ctxs (n : Nat) (f : Lead → Lead) : (s.modLead n f).ctxs = s.ctxs := rfl
@[simp] theorem State.modLead_signals (n : Nat) (f : Lead → Lead) : (s.modLead n f).signals = s.signals := rfl
@[simp] theorem State.modLead_links (n : Nat) (f : Lead → Lead) : (s.modLead n f).links = s.links := rfl
@[simp] theorem State.modLead_dom (n : Nat) (f : Lead → Lead) : (s.modLead n f).dom = s.dom := rfl
@[simp] theorem State.modLead_mint (n : Nat) (f : Lead → Lead) : (s.modLead n f).mint = s.mint := rfl
@[simp] theorem State.modLead_tillCtl (n : Nat) (f : Lead → Lead) : (s.modLead n f).tillCtl = s.tillCtl := rfl
@[simp] theorem State.modLead_latches (n : Nat) (f : Lead → Lead) : (s.modLead n f).latches = s.latches := rfl
@[simp] theorem State.modLead_mportRdata (n : Nat) (f : Lead → Lead) : (s.modLead n f).mportRdata = s.mportRdata := rfl
@[simp] theorem State.modLead_elapsed (n : Nat) (f : Lead → Lead) : (s.modLead n f).elapsed = s.elapsed := rfl
@[simp] theorem State.modLead_wclk (n : Nat) (f : Lead → Lead) : (s.modLead n f).wclk = s.wclk := rfl
@[simp] theorem State.modLead_nextDep (n : Nat) (f : Lead → Lead) : (s.modLead n f).nextDep = s.nextDep := rfl
@[simp] theorem State.modLead_nextUid (n : Nat) (f : Lead → Lead) : (s.modLead n f).nextUid = s.nextUid := rfl
@[simp] theorem State.modLead_nextLaunch (n : Nat) (f : Lead → Lead) : (s.modLead n f).nextLaunch = s.nextLaunch := rfl
@[simp] theorem State.modLead_free (n : Nat) (f : Lead → Lead) : (s.modLead n f).free = s.free := rfl
@[simp] theorem State.modLead_pending (n : Nat) (f : Lead → Lead) : (s.modLead n f).pending = s.pending := rfl

/-! ## modPort -/

@[simp] theorem State.modPort_build (n : Nat) (f : Port → Port) : (s.modPort n f).build = s.build := rfl
@[simp] theorem State.modPort_boot (n : Nat) (f : Port → Port) : (s.modPort n f).boot = s.boot := rfl
@[simp] theorem State.modPort_flash (n : Nat) (f : Port → Port) : (s.modPort n f).flash = s.flash := rfl
@[simp] theorem State.modPort_sfdp (n : Nat) (f : Port → Port) : (s.modPort n f).sfdp = s.sfdp := rfl
@[simp] theorem State.modPort_fuses (n : Nat) (f : Port → Port) : (s.modPort n f).fuses = s.fuses := rfl
@[simp] theorem State.modPort_sensed (n : Nat) (f : Port → Port) : (s.modPort n f).sensed = s.sensed := rfl
@[simp] theorem State.modPort_sec (n : Nat) (f : Port → Port) : (s.modPort n f).sec = s.sec := rfl
@[simp] theorem State.modPort_tbu (n : Nat) (f : Port → Port) : (s.modPort n f).tbu = s.tbu := rfl
@[simp] theorem State.modPort_pwr (n : Nat) (f : Port → Port) : (s.modPort n f).pwr = s.pwr := rfl
@[simp] theorem State.modPort_strms (n : Nat) (f : Port → Port) : (s.modPort n f).strms = s.strms := rfl
@[simp] theorem State.modPort_fab (n : Nat) (f : Port → Port) : (s.modPort n f).fab = s.fab := rfl
@[simp] theorem State.modPort_mports (n : Nat) (f : Port → Port) : (s.modPort n f).mports = s.mports := rfl
@[simp] theorem State.modPort_ilv (n : Nat) (f : Port → Port) : (s.modPort n f).ilv = s.ilv := rfl
@[simp] theorem State.modPort_mem (n : Nat) (f : Port → Port) : (s.modPort n f).mem = s.mem := rfl
@[simp] theorem State.modPort_accs (n : Nat) (f : Port → Port) : (s.modPort n f).accs = s.accs := rfl
@[simp] theorem State.modPort_lateTags (n : Nat) (f : Port → Port) : (s.modPort n f).lateTags = s.lateTags := rfl
@[simp] theorem State.modPort_parts (n : Nat) (f : Port → Port) : (s.modPort n f).parts = s.parts := rfl
@[simp] theorem State.modPort_clusters (n : Nat) (f : Port → Port) : (s.modPort n f).clusters = s.clusters := rfl
@[simp] theorem State.modPort_slices (n : Nat) (f : Port → Port) : (s.modPort n f).slices = s.slices := rfl
@[simp] theorem State.modPort_leads (n : Nat) (f : Port → Port) : (s.modPort n f).leads = s.leads := rfl
@[simp] theorem State.modPort_deps (n : Nat) (f : Port → Port) : (s.modPort n f).deps = s.deps := rfl
@[simp] theorem State.modPort_queries (n : Nat) (f : Port → Port) : (s.modPort n f).queries = s.queries := rfl
@[simp] theorem State.modPort_snaps (n : Nat) (f : Port → Port) : (s.modPort n f).snaps = s.snaps := rfl
@[simp] theorem State.modPort_shadowsDue (n : Nat) (f : Port → Port) : (s.modPort n f).shadowsDue = s.shadowsDue := rfl
@[simp] theorem State.modPort_recovs (n : Nat) (f : Port → Port) : (s.modPort n f).recovs = s.recovs := rfl
@[simp] theorem State.modPort_delivered (n : Nat) (f : Port → Port) : (s.modPort n f).delivered = s.delivered := rfl
@[simp] theorem State.modPort_ctxs (n : Nat) (f : Port → Port) : (s.modPort n f).ctxs = s.ctxs := rfl
@[simp] theorem State.modPort_signals (n : Nat) (f : Port → Port) : (s.modPort n f).signals = s.signals := rfl
@[simp] theorem State.modPort_links (n : Nat) (f : Port → Port) : (s.modPort n f).links = s.links := rfl
@[simp] theorem State.modPort_dom (n : Nat) (f : Port → Port) : (s.modPort n f).dom = s.dom := rfl
@[simp] theorem State.modPort_mint (n : Nat) (f : Port → Port) : (s.modPort n f).mint = s.mint := rfl
@[simp] theorem State.modPort_tillCtl (n : Nat) (f : Port → Port) : (s.modPort n f).tillCtl = s.tillCtl := rfl
@[simp] theorem State.modPort_latches (n : Nat) (f : Port → Port) : (s.modPort n f).latches = s.latches := rfl
@[simp] theorem State.modPort_mportRdata (n : Nat) (f : Port → Port) : (s.modPort n f).mportRdata = s.mportRdata := rfl
@[simp] theorem State.modPort_elapsed (n : Nat) (f : Port → Port) : (s.modPort n f).elapsed = s.elapsed := rfl
@[simp] theorem State.modPort_wclk (n : Nat) (f : Port → Port) : (s.modPort n f).wclk = s.wclk := rfl
@[simp] theorem State.modPort_nextDep (n : Nat) (f : Port → Port) : (s.modPort n f).nextDep = s.nextDep := rfl
@[simp] theorem State.modPort_nextUid (n : Nat) (f : Port → Port) : (s.modPort n f).nextUid = s.nextUid := rfl
@[simp] theorem State.modPort_nextLaunch (n : Nat) (f : Port → Port) : (s.modPort n f).nextLaunch = s.nextLaunch := rfl
@[simp] theorem State.modPort_free (n : Nat) (f : Port → Port) : (s.modPort n f).free = s.free := rfl
@[simp] theorem State.modPort_pending (n : Nat) (f : Port → Port) : (s.modPort n f).pending = s.pending := rfl

/-! ## modStrm -/

@[simp] theorem State.modStrm_build (n : Nat) (f : Stream → Stream) : (s.modStrm n f).build = s.build := rfl
@[simp] theorem State.modStrm_boot (n : Nat) (f : Stream → Stream) : (s.modStrm n f).boot = s.boot := rfl
@[simp] theorem State.modStrm_flash (n : Nat) (f : Stream → Stream) : (s.modStrm n f).flash = s.flash := rfl
@[simp] theorem State.modStrm_sfdp (n : Nat) (f : Stream → Stream) : (s.modStrm n f).sfdp = s.sfdp := rfl
@[simp] theorem State.modStrm_fuses (n : Nat) (f : Stream → Stream) : (s.modStrm n f).fuses = s.fuses := rfl
@[simp] theorem State.modStrm_sensed (n : Nat) (f : Stream → Stream) : (s.modStrm n f).sensed = s.sensed := rfl
@[simp] theorem State.modStrm_sec (n : Nat) (f : Stream → Stream) : (s.modStrm n f).sec = s.sec := rfl
@[simp] theorem State.modStrm_tbu (n : Nat) (f : Stream → Stream) : (s.modStrm n f).tbu = s.tbu := rfl
@[simp] theorem State.modStrm_pwr (n : Nat) (f : Stream → Stream) : (s.modStrm n f).pwr = s.pwr := rfl
@[simp] theorem State.modStrm_ports (n : Nat) (f : Stream → Stream) : (s.modStrm n f).ports = s.ports := rfl
@[simp] theorem State.modStrm_fab (n : Nat) (f : Stream → Stream) : (s.modStrm n f).fab = s.fab := rfl
@[simp] theorem State.modStrm_mports (n : Nat) (f : Stream → Stream) : (s.modStrm n f).mports = s.mports := rfl
@[simp] theorem State.modStrm_ilv (n : Nat) (f : Stream → Stream) : (s.modStrm n f).ilv = s.ilv := rfl
@[simp] theorem State.modStrm_mem (n : Nat) (f : Stream → Stream) : (s.modStrm n f).mem = s.mem := rfl
@[simp] theorem State.modStrm_accs (n : Nat) (f : Stream → Stream) : (s.modStrm n f).accs = s.accs := rfl
@[simp] theorem State.modStrm_lateTags (n : Nat) (f : Stream → Stream) : (s.modStrm n f).lateTags = s.lateTags := rfl
@[simp] theorem State.modStrm_parts (n : Nat) (f : Stream → Stream) : (s.modStrm n f).parts = s.parts := rfl
@[simp] theorem State.modStrm_clusters (n : Nat) (f : Stream → Stream) : (s.modStrm n f).clusters = s.clusters := rfl
@[simp] theorem State.modStrm_slices (n : Nat) (f : Stream → Stream) : (s.modStrm n f).slices = s.slices := rfl
@[simp] theorem State.modStrm_leads (n : Nat) (f : Stream → Stream) : (s.modStrm n f).leads = s.leads := rfl
@[simp] theorem State.modStrm_deps (n : Nat) (f : Stream → Stream) : (s.modStrm n f).deps = s.deps := rfl
@[simp] theorem State.modStrm_queries (n : Nat) (f : Stream → Stream) : (s.modStrm n f).queries = s.queries := rfl
@[simp] theorem State.modStrm_snaps (n : Nat) (f : Stream → Stream) : (s.modStrm n f).snaps = s.snaps := rfl
@[simp] theorem State.modStrm_shadowsDue (n : Nat) (f : Stream → Stream) : (s.modStrm n f).shadowsDue = s.shadowsDue := rfl
@[simp] theorem State.modStrm_recovs (n : Nat) (f : Stream → Stream) : (s.modStrm n f).recovs = s.recovs := rfl
@[simp] theorem State.modStrm_delivered (n : Nat) (f : Stream → Stream) : (s.modStrm n f).delivered = s.delivered := rfl
@[simp] theorem State.modStrm_ctxs (n : Nat) (f : Stream → Stream) : (s.modStrm n f).ctxs = s.ctxs := rfl
@[simp] theorem State.modStrm_signals (n : Nat) (f : Stream → Stream) : (s.modStrm n f).signals = s.signals := rfl
@[simp] theorem State.modStrm_links (n : Nat) (f : Stream → Stream) : (s.modStrm n f).links = s.links := rfl
@[simp] theorem State.modStrm_dom (n : Nat) (f : Stream → Stream) : (s.modStrm n f).dom = s.dom := rfl
@[simp] theorem State.modStrm_mint (n : Nat) (f : Stream → Stream) : (s.modStrm n f).mint = s.mint := rfl
@[simp] theorem State.modStrm_tillCtl (n : Nat) (f : Stream → Stream) : (s.modStrm n f).tillCtl = s.tillCtl := rfl
@[simp] theorem State.modStrm_latches (n : Nat) (f : Stream → Stream) : (s.modStrm n f).latches = s.latches := rfl
@[simp] theorem State.modStrm_mportRdata (n : Nat) (f : Stream → Stream) : (s.modStrm n f).mportRdata = s.mportRdata := rfl
@[simp] theorem State.modStrm_elapsed (n : Nat) (f : Stream → Stream) : (s.modStrm n f).elapsed = s.elapsed := rfl
@[simp] theorem State.modStrm_wclk (n : Nat) (f : Stream → Stream) : (s.modStrm n f).wclk = s.wclk := rfl
@[simp] theorem State.modStrm_nextDep (n : Nat) (f : Stream → Stream) : (s.modStrm n f).nextDep = s.nextDep := rfl
@[simp] theorem State.modStrm_nextUid (n : Nat) (f : Stream → Stream) : (s.modStrm n f).nextUid = s.nextUid := rfl
@[simp] theorem State.modStrm_nextLaunch (n : Nat) (f : Stream → Stream) : (s.modStrm n f).nextLaunch = s.nextLaunch := rfl
@[simp] theorem State.modStrm_free (n : Nat) (f : Stream → Stream) : (s.modStrm n f).free = s.free := rfl
@[simp] theorem State.modStrm_pending (n : Nat) (f : Stream → Stream) : (s.modStrm n f).pending = s.pending := rfl

/-! ## modMport -/

@[simp] theorem State.modMport_build (n : Nat) (f : MPort → MPort) : (s.modMport n f).build = s.build := rfl
@[simp] theorem State.modMport_boot (n : Nat) (f : MPort → MPort) : (s.modMport n f).boot = s.boot := rfl
@[simp] theorem State.modMport_flash (n : Nat) (f : MPort → MPort) : (s.modMport n f).flash = s.flash := rfl
@[simp] theorem State.modMport_sfdp (n : Nat) (f : MPort → MPort) : (s.modMport n f).sfdp = s.sfdp := rfl
@[simp] theorem State.modMport_fuses (n : Nat) (f : MPort → MPort) : (s.modMport n f).fuses = s.fuses := rfl
@[simp] theorem State.modMport_sensed (n : Nat) (f : MPort → MPort) : (s.modMport n f).sensed = s.sensed := rfl
@[simp] theorem State.modMport_sec (n : Nat) (f : MPort → MPort) : (s.modMport n f).sec = s.sec := rfl
@[simp] theorem State.modMport_tbu (n : Nat) (f : MPort → MPort) : (s.modMport n f).tbu = s.tbu := rfl
@[simp] theorem State.modMport_pwr (n : Nat) (f : MPort → MPort) : (s.modMport n f).pwr = s.pwr := rfl
@[simp] theorem State.modMport_ports (n : Nat) (f : MPort → MPort) : (s.modMport n f).ports = s.ports := rfl
@[simp] theorem State.modMport_strms (n : Nat) (f : MPort → MPort) : (s.modMport n f).strms = s.strms := rfl
@[simp] theorem State.modMport_fab (n : Nat) (f : MPort → MPort) : (s.modMport n f).fab = s.fab := rfl
@[simp] theorem State.modMport_ilv (n : Nat) (f : MPort → MPort) : (s.modMport n f).ilv = s.ilv := rfl
@[simp] theorem State.modMport_mem (n : Nat) (f : MPort → MPort) : (s.modMport n f).mem = s.mem := rfl
@[simp] theorem State.modMport_accs (n : Nat) (f : MPort → MPort) : (s.modMport n f).accs = s.accs := rfl
@[simp] theorem State.modMport_lateTags (n : Nat) (f : MPort → MPort) : (s.modMport n f).lateTags = s.lateTags := rfl
@[simp] theorem State.modMport_parts (n : Nat) (f : MPort → MPort) : (s.modMport n f).parts = s.parts := rfl
@[simp] theorem State.modMport_clusters (n : Nat) (f : MPort → MPort) : (s.modMport n f).clusters = s.clusters := rfl
@[simp] theorem State.modMport_slices (n : Nat) (f : MPort → MPort) : (s.modMport n f).slices = s.slices := rfl
@[simp] theorem State.modMport_leads (n : Nat) (f : MPort → MPort) : (s.modMport n f).leads = s.leads := rfl
@[simp] theorem State.modMport_deps (n : Nat) (f : MPort → MPort) : (s.modMport n f).deps = s.deps := rfl
@[simp] theorem State.modMport_queries (n : Nat) (f : MPort → MPort) : (s.modMport n f).queries = s.queries := rfl
@[simp] theorem State.modMport_snaps (n : Nat) (f : MPort → MPort) : (s.modMport n f).snaps = s.snaps := rfl
@[simp] theorem State.modMport_shadowsDue (n : Nat) (f : MPort → MPort) : (s.modMport n f).shadowsDue = s.shadowsDue := rfl
@[simp] theorem State.modMport_recovs (n : Nat) (f : MPort → MPort) : (s.modMport n f).recovs = s.recovs := rfl
@[simp] theorem State.modMport_delivered (n : Nat) (f : MPort → MPort) : (s.modMport n f).delivered = s.delivered := rfl
@[simp] theorem State.modMport_ctxs (n : Nat) (f : MPort → MPort) : (s.modMport n f).ctxs = s.ctxs := rfl
@[simp] theorem State.modMport_signals (n : Nat) (f : MPort → MPort) : (s.modMport n f).signals = s.signals := rfl
@[simp] theorem State.modMport_links (n : Nat) (f : MPort → MPort) : (s.modMport n f).links = s.links := rfl
@[simp] theorem State.modMport_dom (n : Nat) (f : MPort → MPort) : (s.modMport n f).dom = s.dom := rfl
@[simp] theorem State.modMport_mint (n : Nat) (f : MPort → MPort) : (s.modMport n f).mint = s.mint := rfl
@[simp] theorem State.modMport_tillCtl (n : Nat) (f : MPort → MPort) : (s.modMport n f).tillCtl = s.tillCtl := rfl
@[simp] theorem State.modMport_latches (n : Nat) (f : MPort → MPort) : (s.modMport n f).latches = s.latches := rfl
@[simp] theorem State.modMport_mportRdata (n : Nat) (f : MPort → MPort) : (s.modMport n f).mportRdata = s.mportRdata := rfl
@[simp] theorem State.modMport_elapsed (n : Nat) (f : MPort → MPort) : (s.modMport n f).elapsed = s.elapsed := rfl
@[simp] theorem State.modMport_wclk (n : Nat) (f : MPort → MPort) : (s.modMport n f).wclk = s.wclk := rfl
@[simp] theorem State.modMport_nextDep (n : Nat) (f : MPort → MPort) : (s.modMport n f).nextDep = s.nextDep := rfl
@[simp] theorem State.modMport_nextUid (n : Nat) (f : MPort → MPort) : (s.modMport n f).nextUid = s.nextUid := rfl
@[simp] theorem State.modMport_nextLaunch (n : Nat) (f : MPort → MPort) : (s.modMport n f).nextLaunch = s.nextLaunch := rfl
@[simp] theorem State.modMport_free (n : Nat) (f : MPort → MPort) : (s.modMport n f).free = s.free := rfl
@[simp] theorem State.modMport_pending (n : Nat) (f : MPort → MPort) : (s.modMport n f).pending = s.pending := rfl

/-! ## modLink -/

@[simp] theorem State.modLink_build (n : Nat) (f : Link → Link) : (s.modLink n f).build = s.build := rfl
@[simp] theorem State.modLink_boot (n : Nat) (f : Link → Link) : (s.modLink n f).boot = s.boot := rfl
@[simp] theorem State.modLink_flash (n : Nat) (f : Link → Link) : (s.modLink n f).flash = s.flash := rfl
@[simp] theorem State.modLink_sfdp (n : Nat) (f : Link → Link) : (s.modLink n f).sfdp = s.sfdp := rfl
@[simp] theorem State.modLink_fuses (n : Nat) (f : Link → Link) : (s.modLink n f).fuses = s.fuses := rfl
@[simp] theorem State.modLink_sensed (n : Nat) (f : Link → Link) : (s.modLink n f).sensed = s.sensed := rfl
@[simp] theorem State.modLink_sec (n : Nat) (f : Link → Link) : (s.modLink n f).sec = s.sec := rfl
@[simp] theorem State.modLink_tbu (n : Nat) (f : Link → Link) : (s.modLink n f).tbu = s.tbu := rfl
@[simp] theorem State.modLink_pwr (n : Nat) (f : Link → Link) : (s.modLink n f).pwr = s.pwr := rfl
@[simp] theorem State.modLink_ports (n : Nat) (f : Link → Link) : (s.modLink n f).ports = s.ports := rfl
@[simp] theorem State.modLink_strms (n : Nat) (f : Link → Link) : (s.modLink n f).strms = s.strms := rfl
@[simp] theorem State.modLink_fab (n : Nat) (f : Link → Link) : (s.modLink n f).fab = s.fab := rfl
@[simp] theorem State.modLink_mports (n : Nat) (f : Link → Link) : (s.modLink n f).mports = s.mports := rfl
@[simp] theorem State.modLink_ilv (n : Nat) (f : Link → Link) : (s.modLink n f).ilv = s.ilv := rfl
@[simp] theorem State.modLink_mem (n : Nat) (f : Link → Link) : (s.modLink n f).mem = s.mem := rfl
@[simp] theorem State.modLink_accs (n : Nat) (f : Link → Link) : (s.modLink n f).accs = s.accs := rfl
@[simp] theorem State.modLink_lateTags (n : Nat) (f : Link → Link) : (s.modLink n f).lateTags = s.lateTags := rfl
@[simp] theorem State.modLink_parts (n : Nat) (f : Link → Link) : (s.modLink n f).parts = s.parts := rfl
@[simp] theorem State.modLink_clusters (n : Nat) (f : Link → Link) : (s.modLink n f).clusters = s.clusters := rfl
@[simp] theorem State.modLink_slices (n : Nat) (f : Link → Link) : (s.modLink n f).slices = s.slices := rfl
@[simp] theorem State.modLink_leads (n : Nat) (f : Link → Link) : (s.modLink n f).leads = s.leads := rfl
@[simp] theorem State.modLink_deps (n : Nat) (f : Link → Link) : (s.modLink n f).deps = s.deps := rfl
@[simp] theorem State.modLink_queries (n : Nat) (f : Link → Link) : (s.modLink n f).queries = s.queries := rfl
@[simp] theorem State.modLink_snaps (n : Nat) (f : Link → Link) : (s.modLink n f).snaps = s.snaps := rfl
@[simp] theorem State.modLink_shadowsDue (n : Nat) (f : Link → Link) : (s.modLink n f).shadowsDue = s.shadowsDue := rfl
@[simp] theorem State.modLink_recovs (n : Nat) (f : Link → Link) : (s.modLink n f).recovs = s.recovs := rfl
@[simp] theorem State.modLink_delivered (n : Nat) (f : Link → Link) : (s.modLink n f).delivered = s.delivered := rfl
@[simp] theorem State.modLink_ctxs (n : Nat) (f : Link → Link) : (s.modLink n f).ctxs = s.ctxs := rfl
@[simp] theorem State.modLink_signals (n : Nat) (f : Link → Link) : (s.modLink n f).signals = s.signals := rfl
@[simp] theorem State.modLink_dom (n : Nat) (f : Link → Link) : (s.modLink n f).dom = s.dom := rfl
@[simp] theorem State.modLink_mint (n : Nat) (f : Link → Link) : (s.modLink n f).mint = s.mint := rfl
@[simp] theorem State.modLink_tillCtl (n : Nat) (f : Link → Link) : (s.modLink n f).tillCtl = s.tillCtl := rfl
@[simp] theorem State.modLink_latches (n : Nat) (f : Link → Link) : (s.modLink n f).latches = s.latches := rfl
@[simp] theorem State.modLink_mportRdata (n : Nat) (f : Link → Link) : (s.modLink n f).mportRdata = s.mportRdata := rfl
@[simp] theorem State.modLink_elapsed (n : Nat) (f : Link → Link) : (s.modLink n f).elapsed = s.elapsed := rfl
@[simp] theorem State.modLink_wclk (n : Nat) (f : Link → Link) : (s.modLink n f).wclk = s.wclk := rfl
@[simp] theorem State.modLink_nextDep (n : Nat) (f : Link → Link) : (s.modLink n f).nextDep = s.nextDep := rfl
@[simp] theorem State.modLink_nextUid (n : Nat) (f : Link → Link) : (s.modLink n f).nextUid = s.nextUid := rfl
@[simp] theorem State.modLink_nextLaunch (n : Nat) (f : Link → Link) : (s.modLink n f).nextLaunch = s.nextLaunch := rfl
@[simp] theorem State.modLink_free (n : Nat) (f : Link → Link) : (s.modLink n f).free = s.free := rfl
@[simp] theorem State.modLink_pending (n : Nat) (f : Link → Link) : (s.modLink n f).pending = s.pending := rfl

/-! ## modDep -/

@[simp] theorem State.modDep_build (n : Nat) (f : Dep → Dep) : (s.modDep n f).build = s.build := rfl
@[simp] theorem State.modDep_boot (n : Nat) (f : Dep → Dep) : (s.modDep n f).boot = s.boot := rfl
@[simp] theorem State.modDep_flash (n : Nat) (f : Dep → Dep) : (s.modDep n f).flash = s.flash := rfl
@[simp] theorem State.modDep_sfdp (n : Nat) (f : Dep → Dep) : (s.modDep n f).sfdp = s.sfdp := rfl
@[simp] theorem State.modDep_fuses (n : Nat) (f : Dep → Dep) : (s.modDep n f).fuses = s.fuses := rfl
@[simp] theorem State.modDep_sensed (n : Nat) (f : Dep → Dep) : (s.modDep n f).sensed = s.sensed := rfl
@[simp] theorem State.modDep_sec (n : Nat) (f : Dep → Dep) : (s.modDep n f).sec = s.sec := rfl
@[simp] theorem State.modDep_tbu (n : Nat) (f : Dep → Dep) : (s.modDep n f).tbu = s.tbu := rfl
@[simp] theorem State.modDep_pwr (n : Nat) (f : Dep → Dep) : (s.modDep n f).pwr = s.pwr := rfl
@[simp] theorem State.modDep_ports (n : Nat) (f : Dep → Dep) : (s.modDep n f).ports = s.ports := rfl
@[simp] theorem State.modDep_strms (n : Nat) (f : Dep → Dep) : (s.modDep n f).strms = s.strms := rfl
@[simp] theorem State.modDep_fab (n : Nat) (f : Dep → Dep) : (s.modDep n f).fab = s.fab := rfl
@[simp] theorem State.modDep_mports (n : Nat) (f : Dep → Dep) : (s.modDep n f).mports = s.mports := rfl
@[simp] theorem State.modDep_ilv (n : Nat) (f : Dep → Dep) : (s.modDep n f).ilv = s.ilv := rfl
@[simp] theorem State.modDep_mem (n : Nat) (f : Dep → Dep) : (s.modDep n f).mem = s.mem := rfl
@[simp] theorem State.modDep_accs (n : Nat) (f : Dep → Dep) : (s.modDep n f).accs = s.accs := rfl
@[simp] theorem State.modDep_lateTags (n : Nat) (f : Dep → Dep) : (s.modDep n f).lateTags = s.lateTags := rfl
@[simp] theorem State.modDep_parts (n : Nat) (f : Dep → Dep) : (s.modDep n f).parts = s.parts := rfl
@[simp] theorem State.modDep_clusters (n : Nat) (f : Dep → Dep) : (s.modDep n f).clusters = s.clusters := rfl
@[simp] theorem State.modDep_slices (n : Nat) (f : Dep → Dep) : (s.modDep n f).slices = s.slices := rfl
@[simp] theorem State.modDep_leads (n : Nat) (f : Dep → Dep) : (s.modDep n f).leads = s.leads := rfl
@[simp] theorem State.modDep_queries (n : Nat) (f : Dep → Dep) : (s.modDep n f).queries = s.queries := rfl
@[simp] theorem State.modDep_snaps (n : Nat) (f : Dep → Dep) : (s.modDep n f).snaps = s.snaps := rfl
@[simp] theorem State.modDep_shadowsDue (n : Nat) (f : Dep → Dep) : (s.modDep n f).shadowsDue = s.shadowsDue := rfl
@[simp] theorem State.modDep_recovs (n : Nat) (f : Dep → Dep) : (s.modDep n f).recovs = s.recovs := rfl
@[simp] theorem State.modDep_delivered (n : Nat) (f : Dep → Dep) : (s.modDep n f).delivered = s.delivered := rfl
@[simp] theorem State.modDep_ctxs (n : Nat) (f : Dep → Dep) : (s.modDep n f).ctxs = s.ctxs := rfl
@[simp] theorem State.modDep_signals (n : Nat) (f : Dep → Dep) : (s.modDep n f).signals = s.signals := rfl
@[simp] theorem State.modDep_links (n : Nat) (f : Dep → Dep) : (s.modDep n f).links = s.links := rfl
@[simp] theorem State.modDep_dom (n : Nat) (f : Dep → Dep) : (s.modDep n f).dom = s.dom := rfl
@[simp] theorem State.modDep_mint (n : Nat) (f : Dep → Dep) : (s.modDep n f).mint = s.mint := rfl
@[simp] theorem State.modDep_tillCtl (n : Nat) (f : Dep → Dep) : (s.modDep n f).tillCtl = s.tillCtl := rfl
@[simp] theorem State.modDep_latches (n : Nat) (f : Dep → Dep) : (s.modDep n f).latches = s.latches := rfl
@[simp] theorem State.modDep_mportRdata (n : Nat) (f : Dep → Dep) : (s.modDep n f).mportRdata = s.mportRdata := rfl
@[simp] theorem State.modDep_elapsed (n : Nat) (f : Dep → Dep) : (s.modDep n f).elapsed = s.elapsed := rfl
@[simp] theorem State.modDep_wclk (n : Nat) (f : Dep → Dep) : (s.modDep n f).wclk = s.wclk := rfl
@[simp] theorem State.modDep_nextDep (n : Nat) (f : Dep → Dep) : (s.modDep n f).nextDep = s.nextDep := rfl
@[simp] theorem State.modDep_nextUid (n : Nat) (f : Dep → Dep) : (s.modDep n f).nextUid = s.nextUid := rfl
@[simp] theorem State.modDep_nextLaunch (n : Nat) (f : Dep → Dep) : (s.modDep n f).nextLaunch = s.nextLaunch := rfl
@[simp] theorem State.modDep_free (n : Nat) (f : Dep → Dep) : (s.modDep n f).free = s.free := rfl
@[simp] theorem State.modDep_pending (n : Nat) (f : Dep → Dep) : (s.modDep n f).pending = s.pending := rfl

/-! ## dropDep -/

@[simp] theorem State.dropDep_build (n : Nat) : (s.dropDep n).build = s.build := rfl
@[simp] theorem State.dropDep_boot (n : Nat) : (s.dropDep n).boot = s.boot := rfl
@[simp] theorem State.dropDep_flash (n : Nat) : (s.dropDep n).flash = s.flash := rfl
@[simp] theorem State.dropDep_sfdp (n : Nat) : (s.dropDep n).sfdp = s.sfdp := rfl
@[simp] theorem State.dropDep_fuses (n : Nat) : (s.dropDep n).fuses = s.fuses := rfl
@[simp] theorem State.dropDep_sensed (n : Nat) : (s.dropDep n).sensed = s.sensed := rfl
@[simp] theorem State.dropDep_sec (n : Nat) : (s.dropDep n).sec = s.sec := rfl
@[simp] theorem State.dropDep_tbu (n : Nat) : (s.dropDep n).tbu = s.tbu := rfl
@[simp] theorem State.dropDep_pwr (n : Nat) : (s.dropDep n).pwr = s.pwr := rfl
@[simp] theorem State.dropDep_ports (n : Nat) : (s.dropDep n).ports = s.ports := rfl
@[simp] theorem State.dropDep_strms (n : Nat) : (s.dropDep n).strms = s.strms := rfl
@[simp] theorem State.dropDep_fab (n : Nat) : (s.dropDep n).fab = s.fab := rfl
@[simp] theorem State.dropDep_mports (n : Nat) : (s.dropDep n).mports = s.mports := rfl
@[simp] theorem State.dropDep_ilv (n : Nat) : (s.dropDep n).ilv = s.ilv := rfl
@[simp] theorem State.dropDep_mem (n : Nat) : (s.dropDep n).mem = s.mem := rfl
@[simp] theorem State.dropDep_accs (n : Nat) : (s.dropDep n).accs = s.accs := rfl
@[simp] theorem State.dropDep_lateTags (n : Nat) : (s.dropDep n).lateTags = s.lateTags := rfl
@[simp] theorem State.dropDep_parts (n : Nat) : (s.dropDep n).parts = s.parts := rfl
@[simp] theorem State.dropDep_clusters (n : Nat) : (s.dropDep n).clusters = s.clusters := rfl
@[simp] theorem State.dropDep_slices (n : Nat) : (s.dropDep n).slices = s.slices := rfl
@[simp] theorem State.dropDep_leads (n : Nat) : (s.dropDep n).leads = s.leads := rfl
@[simp] theorem State.dropDep_queries (n : Nat) : (s.dropDep n).queries = s.queries := rfl
@[simp] theorem State.dropDep_snaps (n : Nat) : (s.dropDep n).snaps = s.snaps := rfl
@[simp] theorem State.dropDep_shadowsDue (n : Nat) : (s.dropDep n).shadowsDue = s.shadowsDue := rfl
@[simp] theorem State.dropDep_recovs (n : Nat) : (s.dropDep n).recovs = s.recovs := rfl
@[simp] theorem State.dropDep_delivered (n : Nat) : (s.dropDep n).delivered = s.delivered := rfl
@[simp] theorem State.dropDep_ctxs (n : Nat) : (s.dropDep n).ctxs = s.ctxs := rfl
@[simp] theorem State.dropDep_signals (n : Nat) : (s.dropDep n).signals = s.signals := rfl
@[simp] theorem State.dropDep_links (n : Nat) : (s.dropDep n).links = s.links := rfl
@[simp] theorem State.dropDep_dom (n : Nat) : (s.dropDep n).dom = s.dom := rfl
@[simp] theorem State.dropDep_mint (n : Nat) : (s.dropDep n).mint = s.mint := rfl
@[simp] theorem State.dropDep_tillCtl (n : Nat) : (s.dropDep n).tillCtl = s.tillCtl := rfl
@[simp] theorem State.dropDep_latches (n : Nat) : (s.dropDep n).latches = s.latches := rfl
@[simp] theorem State.dropDep_mportRdata (n : Nat) : (s.dropDep n).mportRdata = s.mportRdata := rfl
@[simp] theorem State.dropDep_elapsed (n : Nat) : (s.dropDep n).elapsed = s.elapsed := rfl
@[simp] theorem State.dropDep_wclk (n : Nat) : (s.dropDep n).wclk = s.wclk := rfl
@[simp] theorem State.dropDep_nextDep (n : Nat) : (s.dropDep n).nextDep = s.nextDep := rfl
@[simp] theorem State.dropDep_nextUid (n : Nat) : (s.dropDep n).nextUid = s.nextUid := rfl
@[simp] theorem State.dropDep_nextLaunch (n : Nat) : (s.dropDep n).nextLaunch = s.nextLaunch := rfl
@[simp] theorem State.dropDep_free (n : Nat) : (s.dropDep n).free = s.free := rfl
@[simp] theorem State.dropDep_pending (n : Nat) : (s.dropDep n).pending = s.pending := rfl

/-! ## modQuery -/

@[simp] theorem State.modQuery_build (n : Nat) (f : Query → Query) : (s.modQuery n f).build = s.build := rfl
@[simp] theorem State.modQuery_boot (n : Nat) (f : Query → Query) : (s.modQuery n f).boot = s.boot := rfl
@[simp] theorem State.modQuery_flash (n : Nat) (f : Query → Query) : (s.modQuery n f).flash = s.flash := rfl
@[simp] theorem State.modQuery_sfdp (n : Nat) (f : Query → Query) : (s.modQuery n f).sfdp = s.sfdp := rfl
@[simp] theorem State.modQuery_fuses (n : Nat) (f : Query → Query) : (s.modQuery n f).fuses = s.fuses := rfl
@[simp] theorem State.modQuery_sensed (n : Nat) (f : Query → Query) : (s.modQuery n f).sensed = s.sensed := rfl
@[simp] theorem State.modQuery_sec (n : Nat) (f : Query → Query) : (s.modQuery n f).sec = s.sec := rfl
@[simp] theorem State.modQuery_tbu (n : Nat) (f : Query → Query) : (s.modQuery n f).tbu = s.tbu := rfl
@[simp] theorem State.modQuery_pwr (n : Nat) (f : Query → Query) : (s.modQuery n f).pwr = s.pwr := rfl
@[simp] theorem State.modQuery_ports (n : Nat) (f : Query → Query) : (s.modQuery n f).ports = s.ports := rfl
@[simp] theorem State.modQuery_strms (n : Nat) (f : Query → Query) : (s.modQuery n f).strms = s.strms := rfl
@[simp] theorem State.modQuery_fab (n : Nat) (f : Query → Query) : (s.modQuery n f).fab = s.fab := rfl
@[simp] theorem State.modQuery_mports (n : Nat) (f : Query → Query) : (s.modQuery n f).mports = s.mports := rfl
@[simp] theorem State.modQuery_ilv (n : Nat) (f : Query → Query) : (s.modQuery n f).ilv = s.ilv := rfl
@[simp] theorem State.modQuery_mem (n : Nat) (f : Query → Query) : (s.modQuery n f).mem = s.mem := rfl
@[simp] theorem State.modQuery_accs (n : Nat) (f : Query → Query) : (s.modQuery n f).accs = s.accs := rfl
@[simp] theorem State.modQuery_lateTags (n : Nat) (f : Query → Query) : (s.modQuery n f).lateTags = s.lateTags := rfl
@[simp] theorem State.modQuery_parts (n : Nat) (f : Query → Query) : (s.modQuery n f).parts = s.parts := rfl
@[simp] theorem State.modQuery_clusters (n : Nat) (f : Query → Query) : (s.modQuery n f).clusters = s.clusters := rfl
@[simp] theorem State.modQuery_slices (n : Nat) (f : Query → Query) : (s.modQuery n f).slices = s.slices := rfl
@[simp] theorem State.modQuery_leads (n : Nat) (f : Query → Query) : (s.modQuery n f).leads = s.leads := rfl
@[simp] theorem State.modQuery_deps (n : Nat) (f : Query → Query) : (s.modQuery n f).deps = s.deps := rfl
@[simp] theorem State.modQuery_snaps (n : Nat) (f : Query → Query) : (s.modQuery n f).snaps = s.snaps := rfl
@[simp] theorem State.modQuery_shadowsDue (n : Nat) (f : Query → Query) : (s.modQuery n f).shadowsDue = s.shadowsDue := rfl
@[simp] theorem State.modQuery_recovs (n : Nat) (f : Query → Query) : (s.modQuery n f).recovs = s.recovs := rfl
@[simp] theorem State.modQuery_delivered (n : Nat) (f : Query → Query) : (s.modQuery n f).delivered = s.delivered := rfl
@[simp] theorem State.modQuery_ctxs (n : Nat) (f : Query → Query) : (s.modQuery n f).ctxs = s.ctxs := rfl
@[simp] theorem State.modQuery_signals (n : Nat) (f : Query → Query) : (s.modQuery n f).signals = s.signals := rfl
@[simp] theorem State.modQuery_links (n : Nat) (f : Query → Query) : (s.modQuery n f).links = s.links := rfl
@[simp] theorem State.modQuery_dom (n : Nat) (f : Query → Query) : (s.modQuery n f).dom = s.dom := rfl
@[simp] theorem State.modQuery_mint (n : Nat) (f : Query → Query) : (s.modQuery n f).mint = s.mint := rfl
@[simp] theorem State.modQuery_tillCtl (n : Nat) (f : Query → Query) : (s.modQuery n f).tillCtl = s.tillCtl := rfl
@[simp] theorem State.modQuery_latches (n : Nat) (f : Query → Query) : (s.modQuery n f).latches = s.latches := rfl
@[simp] theorem State.modQuery_mportRdata (n : Nat) (f : Query → Query) : (s.modQuery n f).mportRdata = s.mportRdata := rfl
@[simp] theorem State.modQuery_elapsed (n : Nat) (f : Query → Query) : (s.modQuery n f).elapsed = s.elapsed := rfl
@[simp] theorem State.modQuery_wclk (n : Nat) (f : Query → Query) : (s.modQuery n f).wclk = s.wclk := rfl
@[simp] theorem State.modQuery_nextDep (n : Nat) (f : Query → Query) : (s.modQuery n f).nextDep = s.nextDep := rfl
@[simp] theorem State.modQuery_nextUid (n : Nat) (f : Query → Query) : (s.modQuery n f).nextUid = s.nextUid := rfl
@[simp] theorem State.modQuery_nextLaunch (n : Nat) (f : Query → Query) : (s.modQuery n f).nextLaunch = s.nextLaunch := rfl
@[simp] theorem State.modQuery_free (n : Nat) (f : Query → Query) : (s.modQuery n f).free = s.free := rfl
@[simp] theorem State.modQuery_pending (n : Nat) (f : Query → Query) : (s.modQuery n f).pending = s.pending := rfl

/-! ## feed, cancelAccs, dropQuery -/

/-- Feeding a queue touches the accesses only. -/
theorem State.feed_eq (port : Nat) (write : Bool) : s.feed port write = { s with accs := (s.feed port write).accs } := by
  unfold State.feed; dsimp only; split
  · rfl
  · split <;> split <;> rfl

theorem State.feeds_eq (l : List Acc) : ∀ s : State, l.foldl (fun (s : State) (a : Acc) => s.feed a.port a.write) s =
    { s with accs := (l.foldl (fun (s : State) (a : Acc) => s.feed a.port a.write) s).accs } := by
  induction l with
  | nil => intro s; rfl
  | cons a l ih => intro s; rw [List.foldl_cons, ih, State.feed_eq]

/-- Giving accesses up touches the accesses and the tags that stay unused. -/
theorem State.cancelAccs_eq (gone : Acc → Bool) : s.cancelAccs gone =
    { s with accs := (s.cancelAccs gone).accs, lateTags := (s.cancelAccs gone).lateTags } := by
  unfold State.cancelAccs; dsimp only; rw [State.feeds_eq]

/-- A query that gives up its context leaves the queries, the accesses and the unused tags changed, nothing else. -/
theorem State.dropQuery_eq (u : Nat) : s.dropQuery u = { s with
    queries := s.queries.filter (·.uid != u), accs := (s.dropQuery u).accs, lateTags := (s.dropQuery u).lateTags } := by
  unfold State.dropQuery; rw [State.cancelAccs_eq]

@[simp] theorem State.dropQuery_build (n : Nat) : (s.dropQuery n).build = s.build := by rw [State.dropQuery_eq]
@[simp] theorem State.dropQuery_boot (n : Nat) : (s.dropQuery n).boot = s.boot := by rw [State.dropQuery_eq]
@[simp] theorem State.dropQuery_flash (n : Nat) : (s.dropQuery n).flash = s.flash := by rw [State.dropQuery_eq]
@[simp] theorem State.dropQuery_sfdp (n : Nat) : (s.dropQuery n).sfdp = s.sfdp := by rw [State.dropQuery_eq]
@[simp] theorem State.dropQuery_fuses (n : Nat) : (s.dropQuery n).fuses = s.fuses := by rw [State.dropQuery_eq]
@[simp] theorem State.dropQuery_sensed (n : Nat) : (s.dropQuery n).sensed = s.sensed := by rw [State.dropQuery_eq]
@[simp] theorem State.dropQuery_sec (n : Nat) : (s.dropQuery n).sec = s.sec := by rw [State.dropQuery_eq]
@[simp] theorem State.dropQuery_tbu (n : Nat) : (s.dropQuery n).tbu = s.tbu := by rw [State.dropQuery_eq]
@[simp] theorem State.dropQuery_pwr (n : Nat) : (s.dropQuery n).pwr = s.pwr := by rw [State.dropQuery_eq]
@[simp] theorem State.dropQuery_ports (n : Nat) : (s.dropQuery n).ports = s.ports := by rw [State.dropQuery_eq]
@[simp] theorem State.dropQuery_strms (n : Nat) : (s.dropQuery n).strms = s.strms := by rw [State.dropQuery_eq]
@[simp] theorem State.dropQuery_fab (n : Nat) : (s.dropQuery n).fab = s.fab := by rw [State.dropQuery_eq]
@[simp] theorem State.dropQuery_mports (n : Nat) : (s.dropQuery n).mports = s.mports := by rw [State.dropQuery_eq]
@[simp] theorem State.dropQuery_ilv (n : Nat) : (s.dropQuery n).ilv = s.ilv := by rw [State.dropQuery_eq]
@[simp] theorem State.dropQuery_mem (n : Nat) : (s.dropQuery n).mem = s.mem := by rw [State.dropQuery_eq]
@[simp] theorem State.dropQuery_parts (n : Nat) : (s.dropQuery n).parts = s.parts := by rw [State.dropQuery_eq]
@[simp] theorem State.dropQuery_clusters (n : Nat) : (s.dropQuery n).clusters = s.clusters := by rw [State.dropQuery_eq]
@[simp] theorem State.dropQuery_slices (n : Nat) : (s.dropQuery n).slices = s.slices := by rw [State.dropQuery_eq]
@[simp] theorem State.dropQuery_leads (n : Nat) : (s.dropQuery n).leads = s.leads := by rw [State.dropQuery_eq]
@[simp] theorem State.dropQuery_deps (n : Nat) : (s.dropQuery n).deps = s.deps := by rw [State.dropQuery_eq]
@[simp] theorem State.dropQuery_snaps (n : Nat) : (s.dropQuery n).snaps = s.snaps := by rw [State.dropQuery_eq]
@[simp] theorem State.dropQuery_shadowsDue (n : Nat) : (s.dropQuery n).shadowsDue = s.shadowsDue := by rw [State.dropQuery_eq]
@[simp] theorem State.dropQuery_recovs (n : Nat) : (s.dropQuery n).recovs = s.recovs := by rw [State.dropQuery_eq]
@[simp] theorem State.dropQuery_delivered (n : Nat) : (s.dropQuery n).delivered = s.delivered := by rw [State.dropQuery_eq]
@[simp] theorem State.dropQuery_ctxs (n : Nat) : (s.dropQuery n).ctxs = s.ctxs := by rw [State.dropQuery_eq]
@[simp] theorem State.dropQuery_signals (n : Nat) : (s.dropQuery n).signals = s.signals := by rw [State.dropQuery_eq]
@[simp] theorem State.dropQuery_links (n : Nat) : (s.dropQuery n).links = s.links := by rw [State.dropQuery_eq]
@[simp] theorem State.dropQuery_dom (n : Nat) : (s.dropQuery n).dom = s.dom := by rw [State.dropQuery_eq]
@[simp] theorem State.dropQuery_mint (n : Nat) : (s.dropQuery n).mint = s.mint := by rw [State.dropQuery_eq]
@[simp] theorem State.dropQuery_tillCtl (n : Nat) : (s.dropQuery n).tillCtl = s.tillCtl := by rw [State.dropQuery_eq]
@[simp] theorem State.dropQuery_latches (n : Nat) : (s.dropQuery n).latches = s.latches := by rw [State.dropQuery_eq]
@[simp] theorem State.dropQuery_mportRdata (n : Nat) : (s.dropQuery n).mportRdata = s.mportRdata := by rw [State.dropQuery_eq]
@[simp] theorem State.dropQuery_elapsed (n : Nat) : (s.dropQuery n).elapsed = s.elapsed := by rw [State.dropQuery_eq]
@[simp] theorem State.dropQuery_wclk (n : Nat) : (s.dropQuery n).wclk = s.wclk := by rw [State.dropQuery_eq]
@[simp] theorem State.dropQuery_nextDep (n : Nat) : (s.dropQuery n).nextDep = s.nextDep := by rw [State.dropQuery_eq]
@[simp] theorem State.dropQuery_nextUid (n : Nat) : (s.dropQuery n).nextUid = s.nextUid := by rw [State.dropQuery_eq]
@[simp] theorem State.dropQuery_nextLaunch (n : Nat) : (s.dropQuery n).nextLaunch = s.nextLaunch := by rw [State.dropQuery_eq]
@[simp] theorem State.dropQuery_free (n : Nat) : (s.dropQuery n).free = s.free := by rw [State.dropQuery_eq]
@[simp] theorem State.dropQuery_pending (n : Nat) : (s.dropQuery n).pending = s.pending := by rw [State.dropQuery_eq]
@[simp] theorem State.dropQuery_queries (n : Nat) : (s.dropQuery n).queries = s.queries.filter (·.uid != n) := by rw [State.dropQuery_eq]

/-! ## modCtx -/

@[simp] theorem State.modCtx_build (n k : Nat) (f : Ctx → Ctx) : (s.modCtx n k f).build = s.build := rfl
@[simp] theorem State.modCtx_boot (n k : Nat) (f : Ctx → Ctx) : (s.modCtx n k f).boot = s.boot := rfl
@[simp] theorem State.modCtx_flash (n k : Nat) (f : Ctx → Ctx) : (s.modCtx n k f).flash = s.flash := rfl
@[simp] theorem State.modCtx_sfdp (n k : Nat) (f : Ctx → Ctx) : (s.modCtx n k f).sfdp = s.sfdp := rfl
@[simp] theorem State.modCtx_fuses (n k : Nat) (f : Ctx → Ctx) : (s.modCtx n k f).fuses = s.fuses := rfl
@[simp] theorem State.modCtx_sensed (n k : Nat) (f : Ctx → Ctx) : (s.modCtx n k f).sensed = s.sensed := rfl
@[simp] theorem State.modCtx_sec (n k : Nat) (f : Ctx → Ctx) : (s.modCtx n k f).sec = s.sec := rfl
@[simp] theorem State.modCtx_tbu (n k : Nat) (f : Ctx → Ctx) : (s.modCtx n k f).tbu = s.tbu := rfl
@[simp] theorem State.modCtx_pwr (n k : Nat) (f : Ctx → Ctx) : (s.modCtx n k f).pwr = s.pwr := rfl
@[simp] theorem State.modCtx_ports (n k : Nat) (f : Ctx → Ctx) : (s.modCtx n k f).ports = s.ports := rfl
@[simp] theorem State.modCtx_strms (n k : Nat) (f : Ctx → Ctx) : (s.modCtx n k f).strms = s.strms := rfl
@[simp] theorem State.modCtx_fab (n k : Nat) (f : Ctx → Ctx) : (s.modCtx n k f).fab = s.fab := rfl
@[simp] theorem State.modCtx_mports (n k : Nat) (f : Ctx → Ctx) : (s.modCtx n k f).mports = s.mports := rfl
@[simp] theorem State.modCtx_ilv (n k : Nat) (f : Ctx → Ctx) : (s.modCtx n k f).ilv = s.ilv := rfl
@[simp] theorem State.modCtx_mem (n k : Nat) (f : Ctx → Ctx) : (s.modCtx n k f).mem = s.mem := rfl
@[simp] theorem State.modCtx_accs (n k : Nat) (f : Ctx → Ctx) : (s.modCtx n k f).accs = s.accs := rfl
@[simp] theorem State.modCtx_lateTags (n k : Nat) (f : Ctx → Ctx) : (s.modCtx n k f).lateTags = s.lateTags := rfl
@[simp] theorem State.modCtx_parts (n k : Nat) (f : Ctx → Ctx) : (s.modCtx n k f).parts = s.parts := rfl
@[simp] theorem State.modCtx_clusters (n k : Nat) (f : Ctx → Ctx) : (s.modCtx n k f).clusters = s.clusters := rfl
@[simp] theorem State.modCtx_slices (n k : Nat) (f : Ctx → Ctx) : (s.modCtx n k f).slices = s.slices := rfl
@[simp] theorem State.modCtx_leads (n k : Nat) (f : Ctx → Ctx) : (s.modCtx n k f).leads = s.leads := rfl
@[simp] theorem State.modCtx_deps (n k : Nat) (f : Ctx → Ctx) : (s.modCtx n k f).deps = s.deps := rfl
@[simp] theorem State.modCtx_queries (n k : Nat) (f : Ctx → Ctx) : (s.modCtx n k f).queries = s.queries := rfl
@[simp] theorem State.modCtx_snaps (n k : Nat) (f : Ctx → Ctx) : (s.modCtx n k f).snaps = s.snaps := rfl
@[simp] theorem State.modCtx_shadowsDue (n k : Nat) (f : Ctx → Ctx) : (s.modCtx n k f).shadowsDue = s.shadowsDue := rfl
@[simp] theorem State.modCtx_recovs (n k : Nat) (f : Ctx → Ctx) : (s.modCtx n k f).recovs = s.recovs := rfl
@[simp] theorem State.modCtx_delivered (n k : Nat) (f : Ctx → Ctx) : (s.modCtx n k f).delivered = s.delivered := rfl
@[simp] theorem State.modCtx_signals (n k : Nat) (f : Ctx → Ctx) : (s.modCtx n k f).signals = s.signals := rfl
@[simp] theorem State.modCtx_links (n k : Nat) (f : Ctx → Ctx) : (s.modCtx n k f).links = s.links := rfl
@[simp] theorem State.modCtx_dom (n k : Nat) (f : Ctx → Ctx) : (s.modCtx n k f).dom = s.dom := rfl
@[simp] theorem State.modCtx_mint (n k : Nat) (f : Ctx → Ctx) : (s.modCtx n k f).mint = s.mint := rfl
@[simp] theorem State.modCtx_tillCtl (n k : Nat) (f : Ctx → Ctx) : (s.modCtx n k f).tillCtl = s.tillCtl := rfl
@[simp] theorem State.modCtx_latches (n k : Nat) (f : Ctx → Ctx) : (s.modCtx n k f).latches = s.latches := rfl
@[simp] theorem State.modCtx_mportRdata (n k : Nat) (f : Ctx → Ctx) : (s.modCtx n k f).mportRdata = s.mportRdata := rfl
@[simp] theorem State.modCtx_elapsed (n k : Nat) (f : Ctx → Ctx) : (s.modCtx n k f).elapsed = s.elapsed := rfl
@[simp] theorem State.modCtx_wclk (n k : Nat) (f : Ctx → Ctx) : (s.modCtx n k f).wclk = s.wclk := rfl
@[simp] theorem State.modCtx_nextDep (n k : Nat) (f : Ctx → Ctx) : (s.modCtx n k f).nextDep = s.nextDep := rfl
@[simp] theorem State.modCtx_nextUid (n k : Nat) (f : Ctx → Ctx) : (s.modCtx n k f).nextUid = s.nextUid := rfl
@[simp] theorem State.modCtx_nextLaunch (n k : Nat) (f : Ctx → Ctx) : (s.modCtx n k f).nextLaunch = s.nextLaunch := rfl
@[simp] theorem State.modCtx_free (n k : Nat) (f : Ctx → Ctx) : (s.modCtx n k f).free = s.free := rfl
@[simp] theorem State.modCtx_pending (n k : Nat) (f : Ctx → Ctx) : (s.modCtx n k f).pending = s.pending := rfl

/-! ## dropCtx -/

/-- Marking when partitions last ran touches the partitions only. -/
theorem State.ranAt_eq (l : List Nat) : ∀ s : State,
    l.foldl (fun (s : State) p => s.modPart p fun v => { v with ranAt := s.wclk }) s =
      { s with parts := (l.foldl (fun (s : State) p => s.modPart p fun v => { v with ranAt := s.wclk }) s).parts } := by
  induction l with
  | nil => intro s; rfl
  | cons p l ih => intro s; rw [List.foldl_cons, ih]; rfl

/-- Contexts that go touch the contexts and their partitions' last run. -/
theorem State.dropCtxs_eq (gone : Ctx → Bool) : s.dropCtxs gone =
    { s with parts := (s.dropCtxs gone).parts, ctxs := s.ctxs.filter fun c => !gone c } := by
  unfold State.dropCtxs; dsimp only
  rw [State.ranAt_eq]

theorem State.dropCtx_eq (n k : Nat) : s.dropCtx n k = { s with
    parts := (s.dropCtx n k).parts, ctxs := s.ctxs.filter fun c => !(c.slice == n && c.slot == k) } := State.dropCtxs_eq s _

@[simp] theorem State.dropCtx_build (n k : Nat) : (s.dropCtx n k).build = s.build := by rw [State.dropCtx_eq]
@[simp] theorem State.dropCtx_boot (n k : Nat) : (s.dropCtx n k).boot = s.boot := by rw [State.dropCtx_eq]
@[simp] theorem State.dropCtx_flash (n k : Nat) : (s.dropCtx n k).flash = s.flash := by rw [State.dropCtx_eq]
@[simp] theorem State.dropCtx_sfdp (n k : Nat) : (s.dropCtx n k).sfdp = s.sfdp := by rw [State.dropCtx_eq]
@[simp] theorem State.dropCtx_fuses (n k : Nat) : (s.dropCtx n k).fuses = s.fuses := by rw [State.dropCtx_eq]
@[simp] theorem State.dropCtx_sensed (n k : Nat) : (s.dropCtx n k).sensed = s.sensed := by rw [State.dropCtx_eq]
@[simp] theorem State.dropCtx_sec (n k : Nat) : (s.dropCtx n k).sec = s.sec := by rw [State.dropCtx_eq]
@[simp] theorem State.dropCtx_tbu (n k : Nat) : (s.dropCtx n k).tbu = s.tbu := by rw [State.dropCtx_eq]
@[simp] theorem State.dropCtx_pwr (n k : Nat) : (s.dropCtx n k).pwr = s.pwr := by rw [State.dropCtx_eq]
@[simp] theorem State.dropCtx_ports (n k : Nat) : (s.dropCtx n k).ports = s.ports := by rw [State.dropCtx_eq]
@[simp] theorem State.dropCtx_strms (n k : Nat) : (s.dropCtx n k).strms = s.strms := by rw [State.dropCtx_eq]
@[simp] theorem State.dropCtx_fab (n k : Nat) : (s.dropCtx n k).fab = s.fab := by rw [State.dropCtx_eq]
@[simp] theorem State.dropCtx_mports (n k : Nat) : (s.dropCtx n k).mports = s.mports := by rw [State.dropCtx_eq]
@[simp] theorem State.dropCtx_ilv (n k : Nat) : (s.dropCtx n k).ilv = s.ilv := by rw [State.dropCtx_eq]
@[simp] theorem State.dropCtx_mem (n k : Nat) : (s.dropCtx n k).mem = s.mem := by rw [State.dropCtx_eq]
@[simp] theorem State.dropCtx_accs (n k : Nat) : (s.dropCtx n k).accs = s.accs := by rw [State.dropCtx_eq]
@[simp] theorem State.dropCtx_lateTags (n k : Nat) : (s.dropCtx n k).lateTags = s.lateTags := by rw [State.dropCtx_eq]
@[simp] theorem State.dropCtx_clusters (n k : Nat) : (s.dropCtx n k).clusters = s.clusters := by rw [State.dropCtx_eq]
@[simp] theorem State.dropCtx_slices (n k : Nat) : (s.dropCtx n k).slices = s.slices := by rw [State.dropCtx_eq]
@[simp] theorem State.dropCtx_leads (n k : Nat) : (s.dropCtx n k).leads = s.leads := by rw [State.dropCtx_eq]
@[simp] theorem State.dropCtx_deps (n k : Nat) : (s.dropCtx n k).deps = s.deps := by rw [State.dropCtx_eq]
@[simp] theorem State.dropCtx_queries (n k : Nat) : (s.dropCtx n k).queries = s.queries := by rw [State.dropCtx_eq]
@[simp] theorem State.dropCtx_snaps (n k : Nat) : (s.dropCtx n k).snaps = s.snaps := by rw [State.dropCtx_eq]
@[simp] theorem State.dropCtx_shadowsDue (n k : Nat) : (s.dropCtx n k).shadowsDue = s.shadowsDue := by rw [State.dropCtx_eq]
@[simp] theorem State.dropCtx_recovs (n k : Nat) : (s.dropCtx n k).recovs = s.recovs := by rw [State.dropCtx_eq]
@[simp] theorem State.dropCtx_delivered (n k : Nat) : (s.dropCtx n k).delivered = s.delivered := by rw [State.dropCtx_eq]
@[simp] theorem State.dropCtx_signals (n k : Nat) : (s.dropCtx n k).signals = s.signals := by rw [State.dropCtx_eq]
@[simp] theorem State.dropCtx_links (n k : Nat) : (s.dropCtx n k).links = s.links := by rw [State.dropCtx_eq]
@[simp] theorem State.dropCtx_dom (n k : Nat) : (s.dropCtx n k).dom = s.dom := by rw [State.dropCtx_eq]
@[simp] theorem State.dropCtx_mint (n k : Nat) : (s.dropCtx n k).mint = s.mint := by rw [State.dropCtx_eq]
@[simp] theorem State.dropCtx_tillCtl (n k : Nat) : (s.dropCtx n k).tillCtl = s.tillCtl := by rw [State.dropCtx_eq]
@[simp] theorem State.dropCtx_latches (n k : Nat) : (s.dropCtx n k).latches = s.latches := by rw [State.dropCtx_eq]
@[simp] theorem State.dropCtx_mportRdata (n k : Nat) : (s.dropCtx n k).mportRdata = s.mportRdata := by rw [State.dropCtx_eq]
@[simp] theorem State.dropCtx_elapsed (n k : Nat) : (s.dropCtx n k).elapsed = s.elapsed := by rw [State.dropCtx_eq]
@[simp] theorem State.dropCtx_wclk (n k : Nat) : (s.dropCtx n k).wclk = s.wclk := by rw [State.dropCtx_eq]
@[simp] theorem State.dropCtx_nextDep (n k : Nat) : (s.dropCtx n k).nextDep = s.nextDep := by rw [State.dropCtx_eq]
@[simp] theorem State.dropCtx_nextUid (n k : Nat) : (s.dropCtx n k).nextUid = s.nextUid := by rw [State.dropCtx_eq]
@[simp] theorem State.dropCtx_nextLaunch (n k : Nat) : (s.dropCtx n k).nextLaunch = s.nextLaunch := by rw [State.dropCtx_eq]
@[simp] theorem State.dropCtx_free (n k : Nat) : (s.dropCtx n k).free = s.free := by rw [State.dropCtx_eq]
@[simp] theorem State.dropCtx_pending (n k : Nat) : (s.dropCtx n k).pending = s.pending := by rw [State.dropCtx_eq]
@[simp] theorem State.dropCtx_ctxs (n k : Nat) : (s.dropCtx n k).ctxs = s.ctxs.filter fun c => !(c.slice == n && c.slot == k) := by
  rw [State.dropCtx_eq]

/-! ## act -/

@[simp] theorem State.act_build (n k : Nat) : (s.act n k).build = s.build := rfl
@[simp] theorem State.act_boot (n k : Nat) : (s.act n k).boot = s.boot := rfl
@[simp] theorem State.act_flash (n k : Nat) : (s.act n k).flash = s.flash := rfl
@[simp] theorem State.act_sfdp (n k : Nat) : (s.act n k).sfdp = s.sfdp := rfl
@[simp] theorem State.act_fuses (n k : Nat) : (s.act n k).fuses = s.fuses := rfl
@[simp] theorem State.act_sensed (n k : Nat) : (s.act n k).sensed = s.sensed := rfl
@[simp] theorem State.act_sec (n k : Nat) : (s.act n k).sec = s.sec := rfl
@[simp] theorem State.act_tbu (n k : Nat) : (s.act n k).tbu = s.tbu := rfl
@[simp] theorem State.act_ports (n k : Nat) : (s.act n k).ports = s.ports := rfl
@[simp] theorem State.act_strms (n k : Nat) : (s.act n k).strms = s.strms := rfl
@[simp] theorem State.act_fab (n k : Nat) : (s.act n k).fab = s.fab := rfl
@[simp] theorem State.act_mports (n k : Nat) : (s.act n k).mports = s.mports := rfl
@[simp] theorem State.act_ilv (n k : Nat) : (s.act n k).ilv = s.ilv := rfl
@[simp] theorem State.act_mem (n k : Nat) : (s.act n k).mem = s.mem := rfl
@[simp] theorem State.act_accs (n k : Nat) : (s.act n k).accs = s.accs := rfl
@[simp] theorem State.act_lateTags (n k : Nat) : (s.act n k).lateTags = s.lateTags := rfl
@[simp] theorem State.act_parts (n k : Nat) : (s.act n k).parts = s.parts := rfl
@[simp] theorem State.act_clusters (n k : Nat) : (s.act n k).clusters = s.clusters := rfl
@[simp] theorem State.act_slices (n k : Nat) : (s.act n k).slices = s.slices := rfl
@[simp] theorem State.act_leads (n k : Nat) : (s.act n k).leads = s.leads := rfl
@[simp] theorem State.act_deps (n k : Nat) : (s.act n k).deps = s.deps := rfl
@[simp] theorem State.act_queries (n k : Nat) : (s.act n k).queries = s.queries := rfl
@[simp] theorem State.act_snaps (n k : Nat) : (s.act n k).snaps = s.snaps := rfl
@[simp] theorem State.act_shadowsDue (n k : Nat) : (s.act n k).shadowsDue = s.shadowsDue := rfl
@[simp] theorem State.act_recovs (n k : Nat) : (s.act n k).recovs = s.recovs := rfl
@[simp] theorem State.act_delivered (n k : Nat) : (s.act n k).delivered = s.delivered := rfl
@[simp] theorem State.act_ctxs (n k : Nat) : (s.act n k).ctxs = s.ctxs := rfl
@[simp] theorem State.act_signals (n k : Nat) : (s.act n k).signals = s.signals := rfl
@[simp] theorem State.act_links (n k : Nat) : (s.act n k).links = s.links := rfl
@[simp] theorem State.act_dom (n k : Nat) : (s.act n k).dom = s.dom := rfl
@[simp] theorem State.act_mint (n k : Nat) : (s.act n k).mint = s.mint := rfl
@[simp] theorem State.act_tillCtl (n k : Nat) : (s.act n k).tillCtl = s.tillCtl := rfl
@[simp] theorem State.act_latches (n k : Nat) : (s.act n k).latches = s.latches := rfl
@[simp] theorem State.act_mportRdata (n k : Nat) : (s.act n k).mportRdata = s.mportRdata := rfl
@[simp] theorem State.act_elapsed (n k : Nat) : (s.act n k).elapsed = s.elapsed := rfl
@[simp] theorem State.act_wclk (n k : Nat) : (s.act n k).wclk = s.wclk := rfl
@[simp] theorem State.act_nextDep (n k : Nat) : (s.act n k).nextDep = s.nextDep := rfl
@[simp] theorem State.act_nextUid (n k : Nat) : (s.act n k).nextUid = s.nextUid := rfl
@[simp] theorem State.act_nextLaunch (n k : Nat) : (s.act n k).nextLaunch = s.nextLaunch := rfl
@[simp] theorem State.act_free (n k : Nat) : (s.act n k).free = s.free := rfl
@[simp] theorem State.act_pending (n k : Nat) : (s.act n k).pending = s.pending := rfl

/-! ## modAcc -/

@[simp] theorem State.modAcc_build (n k : Nat) (w : Bool) (f : Acc → Acc) : (s.modAcc n k w f).build = s.build := rfl
@[simp] theorem State.modAcc_boot (n k : Nat) (w : Bool) (f : Acc → Acc) : (s.modAcc n k w f).boot = s.boot := rfl
@[simp] theorem State.modAcc_flash (n k : Nat) (w : Bool) (f : Acc → Acc) : (s.modAcc n k w f).flash = s.flash := rfl
@[simp] theorem State.modAcc_sfdp (n k : Nat) (w : Bool) (f : Acc → Acc) : (s.modAcc n k w f).sfdp = s.sfdp := rfl
@[simp] theorem State.modAcc_fuses (n k : Nat) (w : Bool) (f : Acc → Acc) : (s.modAcc n k w f).fuses = s.fuses := rfl
@[simp] theorem State.modAcc_sensed (n k : Nat) (w : Bool) (f : Acc → Acc) : (s.modAcc n k w f).sensed = s.sensed := rfl
@[simp] theorem State.modAcc_sec (n k : Nat) (w : Bool) (f : Acc → Acc) : (s.modAcc n k w f).sec = s.sec := rfl
@[simp] theorem State.modAcc_tbu (n k : Nat) (w : Bool) (f : Acc → Acc) : (s.modAcc n k w f).tbu = s.tbu := rfl
@[simp] theorem State.modAcc_pwr (n k : Nat) (w : Bool) (f : Acc → Acc) : (s.modAcc n k w f).pwr = s.pwr := rfl
@[simp] theorem State.modAcc_ports (n k : Nat) (w : Bool) (f : Acc → Acc) : (s.modAcc n k w f).ports = s.ports := rfl
@[simp] theorem State.modAcc_strms (n k : Nat) (w : Bool) (f : Acc → Acc) : (s.modAcc n k w f).strms = s.strms := rfl
@[simp] theorem State.modAcc_fab (n k : Nat) (w : Bool) (f : Acc → Acc) : (s.modAcc n k w f).fab = s.fab := rfl
@[simp] theorem State.modAcc_mports (n k : Nat) (w : Bool) (f : Acc → Acc) : (s.modAcc n k w f).mports = s.mports := rfl
@[simp] theorem State.modAcc_ilv (n k : Nat) (w : Bool) (f : Acc → Acc) : (s.modAcc n k w f).ilv = s.ilv := rfl
@[simp] theorem State.modAcc_mem (n k : Nat) (w : Bool) (f : Acc → Acc) : (s.modAcc n k w f).mem = s.mem := rfl
@[simp] theorem State.modAcc_lateTags (n k : Nat) (w : Bool) (f : Acc → Acc) : (s.modAcc n k w f).lateTags = s.lateTags := rfl
@[simp] theorem State.modAcc_parts (n k : Nat) (w : Bool) (f : Acc → Acc) : (s.modAcc n k w f).parts = s.parts := rfl
@[simp] theorem State.modAcc_clusters (n k : Nat) (w : Bool) (f : Acc → Acc) : (s.modAcc n k w f).clusters = s.clusters := rfl
@[simp] theorem State.modAcc_slices (n k : Nat) (w : Bool) (f : Acc → Acc) : (s.modAcc n k w f).slices = s.slices := rfl
@[simp] theorem State.modAcc_leads (n k : Nat) (w : Bool) (f : Acc → Acc) : (s.modAcc n k w f).leads = s.leads := rfl
@[simp] theorem State.modAcc_deps (n k : Nat) (w : Bool) (f : Acc → Acc) : (s.modAcc n k w f).deps = s.deps := rfl
@[simp] theorem State.modAcc_queries (n k : Nat) (w : Bool) (f : Acc → Acc) : (s.modAcc n k w f).queries = s.queries := rfl
@[simp] theorem State.modAcc_snaps (n k : Nat) (w : Bool) (f : Acc → Acc) : (s.modAcc n k w f).snaps = s.snaps := rfl
@[simp] theorem State.modAcc_shadowsDue (n k : Nat) (w : Bool) (f : Acc → Acc) : (s.modAcc n k w f).shadowsDue = s.shadowsDue := rfl
@[simp] theorem State.modAcc_recovs (n k : Nat) (w : Bool) (f : Acc → Acc) : (s.modAcc n k w f).recovs = s.recovs := rfl
@[simp] theorem State.modAcc_delivered (n k : Nat) (w : Bool) (f : Acc → Acc) : (s.modAcc n k w f).delivered = s.delivered := rfl
@[simp] theorem State.modAcc_ctxs (n k : Nat) (w : Bool) (f : Acc → Acc) : (s.modAcc n k w f).ctxs = s.ctxs := rfl
@[simp] theorem State.modAcc_signals (n k : Nat) (w : Bool) (f : Acc → Acc) : (s.modAcc n k w f).signals = s.signals := rfl
@[simp] theorem State.modAcc_links (n k : Nat) (w : Bool) (f : Acc → Acc) : (s.modAcc n k w f).links = s.links := rfl
@[simp] theorem State.modAcc_dom (n k : Nat) (w : Bool) (f : Acc → Acc) : (s.modAcc n k w f).dom = s.dom := rfl
@[simp] theorem State.modAcc_mint (n k : Nat) (w : Bool) (f : Acc → Acc) : (s.modAcc n k w f).mint = s.mint := rfl
@[simp] theorem State.modAcc_tillCtl (n k : Nat) (w : Bool) (f : Acc → Acc) : (s.modAcc n k w f).tillCtl = s.tillCtl := rfl
@[simp] theorem State.modAcc_latches (n k : Nat) (w : Bool) (f : Acc → Acc) : (s.modAcc n k w f).latches = s.latches := rfl
@[simp] theorem State.modAcc_mportRdata (n k : Nat) (w : Bool) (f : Acc → Acc) : (s.modAcc n k w f).mportRdata = s.mportRdata := rfl
@[simp] theorem State.modAcc_elapsed (n k : Nat) (w : Bool) (f : Acc → Acc) : (s.modAcc n k w f).elapsed = s.elapsed := rfl
@[simp] theorem State.modAcc_wclk (n k : Nat) (w : Bool) (f : Acc → Acc) : (s.modAcc n k w f).wclk = s.wclk := rfl
@[simp] theorem State.modAcc_nextDep (n k : Nat) (w : Bool) (f : Acc → Acc) : (s.modAcc n k w f).nextDep = s.nextDep := rfl
@[simp] theorem State.modAcc_nextUid (n k : Nat) (w : Bool) (f : Acc → Acc) : (s.modAcc n k w f).nextUid = s.nextUid := rfl
@[simp] theorem State.modAcc_nextLaunch (n k : Nat) (w : Bool) (f : Acc → Acc) : (s.modAcc n k w f).nextLaunch = s.nextLaunch := rfl
@[simp] theorem State.modAcc_free (n k : Nat) (w : Bool) (f : Acc → Acc) : (s.modAcc n k w f).free = s.free := rfl
@[simp] theorem State.modAcc_pending (n k : Nat) (w : Bool) (f : Acc → Acc) : (s.modAcc n k w f).pending = s.pending := rfl

/-! ## modPwr -/

@[simp] theorem State.modPwr_build (f : Pwr → Pwr) : (s.modPwr f).build = s.build := rfl
@[simp] theorem State.modPwr_boot (f : Pwr → Pwr) : (s.modPwr f).boot = s.boot := rfl
@[simp] theorem State.modPwr_flash (f : Pwr → Pwr) : (s.modPwr f).flash = s.flash := rfl
@[simp] theorem State.modPwr_sfdp (f : Pwr → Pwr) : (s.modPwr f).sfdp = s.sfdp := rfl
@[simp] theorem State.modPwr_fuses (f : Pwr → Pwr) : (s.modPwr f).fuses = s.fuses := rfl
@[simp] theorem State.modPwr_sensed (f : Pwr → Pwr) : (s.modPwr f).sensed = s.sensed := rfl
@[simp] theorem State.modPwr_sec (f : Pwr → Pwr) : (s.modPwr f).sec = s.sec := rfl
@[simp] theorem State.modPwr_tbu (f : Pwr → Pwr) : (s.modPwr f).tbu = s.tbu := rfl
@[simp] theorem State.modPwr_ports (f : Pwr → Pwr) : (s.modPwr f).ports = s.ports := rfl
@[simp] theorem State.modPwr_strms (f : Pwr → Pwr) : (s.modPwr f).strms = s.strms := rfl
@[simp] theorem State.modPwr_fab (f : Pwr → Pwr) : (s.modPwr f).fab = s.fab := rfl
@[simp] theorem State.modPwr_mports (f : Pwr → Pwr) : (s.modPwr f).mports = s.mports := rfl
@[simp] theorem State.modPwr_ilv (f : Pwr → Pwr) : (s.modPwr f).ilv = s.ilv := rfl
@[simp] theorem State.modPwr_mem (f : Pwr → Pwr) : (s.modPwr f).mem = s.mem := rfl
@[simp] theorem State.modPwr_accs (f : Pwr → Pwr) : (s.modPwr f).accs = s.accs := rfl
@[simp] theorem State.modPwr_lateTags (f : Pwr → Pwr) : (s.modPwr f).lateTags = s.lateTags := rfl
@[simp] theorem State.modPwr_parts (f : Pwr → Pwr) : (s.modPwr f).parts = s.parts := rfl
@[simp] theorem State.modPwr_clusters (f : Pwr → Pwr) : (s.modPwr f).clusters = s.clusters := rfl
@[simp] theorem State.modPwr_slices (f : Pwr → Pwr) : (s.modPwr f).slices = s.slices := rfl
@[simp] theorem State.modPwr_leads (f : Pwr → Pwr) : (s.modPwr f).leads = s.leads := rfl
@[simp] theorem State.modPwr_deps (f : Pwr → Pwr) : (s.modPwr f).deps = s.deps := rfl
@[simp] theorem State.modPwr_queries (f : Pwr → Pwr) : (s.modPwr f).queries = s.queries := rfl
@[simp] theorem State.modPwr_snaps (f : Pwr → Pwr) : (s.modPwr f).snaps = s.snaps := rfl
@[simp] theorem State.modPwr_shadowsDue (f : Pwr → Pwr) : (s.modPwr f).shadowsDue = s.shadowsDue := rfl
@[simp] theorem State.modPwr_recovs (f : Pwr → Pwr) : (s.modPwr f).recovs = s.recovs := rfl
@[simp] theorem State.modPwr_delivered (f : Pwr → Pwr) : (s.modPwr f).delivered = s.delivered := rfl
@[simp] theorem State.modPwr_ctxs (f : Pwr → Pwr) : (s.modPwr f).ctxs = s.ctxs := rfl
@[simp] theorem State.modPwr_signals (f : Pwr → Pwr) : (s.modPwr f).signals = s.signals := rfl
@[simp] theorem State.modPwr_links (f : Pwr → Pwr) : (s.modPwr f).links = s.links := rfl
@[simp] theorem State.modPwr_dom (f : Pwr → Pwr) : (s.modPwr f).dom = s.dom := rfl
@[simp] theorem State.modPwr_mint (f : Pwr → Pwr) : (s.modPwr f).mint = s.mint := rfl
@[simp] theorem State.modPwr_tillCtl (f : Pwr → Pwr) : (s.modPwr f).tillCtl = s.tillCtl := rfl
@[simp] theorem State.modPwr_latches (f : Pwr → Pwr) : (s.modPwr f).latches = s.latches := rfl
@[simp] theorem State.modPwr_mportRdata (f : Pwr → Pwr) : (s.modPwr f).mportRdata = s.mportRdata := rfl
@[simp] theorem State.modPwr_elapsed (f : Pwr → Pwr) : (s.modPwr f).elapsed = s.elapsed := rfl
@[simp] theorem State.modPwr_wclk (f : Pwr → Pwr) : (s.modPwr f).wclk = s.wclk := rfl
@[simp] theorem State.modPwr_nextDep (f : Pwr → Pwr) : (s.modPwr f).nextDep = s.nextDep := rfl
@[simp] theorem State.modPwr_nextUid (f : Pwr → Pwr) : (s.modPwr f).nextUid = s.nextUid := rfl
@[simp] theorem State.modPwr_nextLaunch (f : Pwr → Pwr) : (s.modPwr f).nextLaunch = s.nextLaunch := rfl
@[simp] theorem State.modPwr_free (f : Pwr → Pwr) : (s.modPwr f).free = s.free := rfl
@[simp] theorem State.modPwr_pending (f : Pwr → Pwr) : (s.modPwr f).pending = s.pending := rfl

/-! ## modTb -/

@[simp] theorem State.modTb_build (f : Tb → Tb) : (s.modTb f).build = s.build := rfl
@[simp] theorem State.modTb_boot (f : Tb → Tb) : (s.modTb f).boot = s.boot := rfl
@[simp] theorem State.modTb_flash (f : Tb → Tb) : (s.modTb f).flash = s.flash := rfl
@[simp] theorem State.modTb_sfdp (f : Tb → Tb) : (s.modTb f).sfdp = s.sfdp := rfl
@[simp] theorem State.modTb_fuses (f : Tb → Tb) : (s.modTb f).fuses = s.fuses := rfl
@[simp] theorem State.modTb_sensed (f : Tb → Tb) : (s.modTb f).sensed = s.sensed := rfl
@[simp] theorem State.modTb_sec (f : Tb → Tb) : (s.modTb f).sec = s.sec := rfl
@[simp] theorem State.modTb_pwr (f : Tb → Tb) : (s.modTb f).pwr = s.pwr := rfl
@[simp] theorem State.modTb_ports (f : Tb → Tb) : (s.modTb f).ports = s.ports := rfl
@[simp] theorem State.modTb_strms (f : Tb → Tb) : (s.modTb f).strms = s.strms := rfl
@[simp] theorem State.modTb_fab (f : Tb → Tb) : (s.modTb f).fab = s.fab := rfl
@[simp] theorem State.modTb_mports (f : Tb → Tb) : (s.modTb f).mports = s.mports := rfl
@[simp] theorem State.modTb_ilv (f : Tb → Tb) : (s.modTb f).ilv = s.ilv := rfl
@[simp] theorem State.modTb_mem (f : Tb → Tb) : (s.modTb f).mem = s.mem := rfl
@[simp] theorem State.modTb_accs (f : Tb → Tb) : (s.modTb f).accs = s.accs := rfl
@[simp] theorem State.modTb_lateTags (f : Tb → Tb) : (s.modTb f).lateTags = s.lateTags := rfl
@[simp] theorem State.modTb_parts (f : Tb → Tb) : (s.modTb f).parts = s.parts := rfl
@[simp] theorem State.modTb_clusters (f : Tb → Tb) : (s.modTb f).clusters = s.clusters := rfl
@[simp] theorem State.modTb_slices (f : Tb → Tb) : (s.modTb f).slices = s.slices := rfl
@[simp] theorem State.modTb_leads (f : Tb → Tb) : (s.modTb f).leads = s.leads := rfl
@[simp] theorem State.modTb_deps (f : Tb → Tb) : (s.modTb f).deps = s.deps := rfl
@[simp] theorem State.modTb_queries (f : Tb → Tb) : (s.modTb f).queries = s.queries := rfl
@[simp] theorem State.modTb_snaps (f : Tb → Tb) : (s.modTb f).snaps = s.snaps := rfl
@[simp] theorem State.modTb_shadowsDue (f : Tb → Tb) : (s.modTb f).shadowsDue = s.shadowsDue := rfl
@[simp] theorem State.modTb_recovs (f : Tb → Tb) : (s.modTb f).recovs = s.recovs := rfl
@[simp] theorem State.modTb_delivered (f : Tb → Tb) : (s.modTb f).delivered = s.delivered := rfl
@[simp] theorem State.modTb_ctxs (f : Tb → Tb) : (s.modTb f).ctxs = s.ctxs := rfl
@[simp] theorem State.modTb_signals (f : Tb → Tb) : (s.modTb f).signals = s.signals := rfl
@[simp] theorem State.modTb_links (f : Tb → Tb) : (s.modTb f).links = s.links := rfl
@[simp] theorem State.modTb_dom (f : Tb → Tb) : (s.modTb f).dom = s.dom := rfl
@[simp] theorem State.modTb_mint (f : Tb → Tb) : (s.modTb f).mint = s.mint := rfl
@[simp] theorem State.modTb_tillCtl (f : Tb → Tb) : (s.modTb f).tillCtl = s.tillCtl := rfl
@[simp] theorem State.modTb_latches (f : Tb → Tb) : (s.modTb f).latches = s.latches := rfl
@[simp] theorem State.modTb_mportRdata (f : Tb → Tb) : (s.modTb f).mportRdata = s.mportRdata := rfl
@[simp] theorem State.modTb_elapsed (f : Tb → Tb) : (s.modTb f).elapsed = s.elapsed := rfl
@[simp] theorem State.modTb_wclk (f : Tb → Tb) : (s.modTb f).wclk = s.wclk := rfl
@[simp] theorem State.modTb_nextDep (f : Tb → Tb) : (s.modTb f).nextDep = s.nextDep := rfl
@[simp] theorem State.modTb_nextUid (f : Tb → Tb) : (s.modTb f).nextUid = s.nextUid := rfl
@[simp] theorem State.modTb_nextLaunch (f : Tb → Tb) : (s.modTb f).nextLaunch = s.nextLaunch := rfl
@[simp] theorem State.modTb_free (f : Tb → Tb) : (s.modTb f).free = s.free := rfl
@[simp] theorem State.modTb_pending (f : Tb → Tb) : (s.modTb f).pending = s.pending := rfl

/-! ## modMint -/

@[simp] theorem State.modMint_build (f : MintCmd → MintCmd) : (s.modMint f).build = s.build := rfl
@[simp] theorem State.modMint_boot (f : MintCmd → MintCmd) : (s.modMint f).boot = s.boot := rfl
@[simp] theorem State.modMint_flash (f : MintCmd → MintCmd) : (s.modMint f).flash = s.flash := rfl
@[simp] theorem State.modMint_sfdp (f : MintCmd → MintCmd) : (s.modMint f).sfdp = s.sfdp := rfl
@[simp] theorem State.modMint_fuses (f : MintCmd → MintCmd) : (s.modMint f).fuses = s.fuses := rfl
@[simp] theorem State.modMint_sensed (f : MintCmd → MintCmd) : (s.modMint f).sensed = s.sensed := rfl
@[simp] theorem State.modMint_sec (f : MintCmd → MintCmd) : (s.modMint f).sec = s.sec := rfl
@[simp] theorem State.modMint_tbu (f : MintCmd → MintCmd) : (s.modMint f).tbu = s.tbu := rfl
@[simp] theorem State.modMint_pwr (f : MintCmd → MintCmd) : (s.modMint f).pwr = s.pwr := rfl
@[simp] theorem State.modMint_ports (f : MintCmd → MintCmd) : (s.modMint f).ports = s.ports := rfl
@[simp] theorem State.modMint_strms (f : MintCmd → MintCmd) : (s.modMint f).strms = s.strms := rfl
@[simp] theorem State.modMint_fab (f : MintCmd → MintCmd) : (s.modMint f).fab = s.fab := rfl
@[simp] theorem State.modMint_mports (f : MintCmd → MintCmd) : (s.modMint f).mports = s.mports := rfl
@[simp] theorem State.modMint_ilv (f : MintCmd → MintCmd) : (s.modMint f).ilv = s.ilv := rfl
@[simp] theorem State.modMint_mem (f : MintCmd → MintCmd) : (s.modMint f).mem = s.mem := rfl
@[simp] theorem State.modMint_accs (f : MintCmd → MintCmd) : (s.modMint f).accs = s.accs := rfl
@[simp] theorem State.modMint_lateTags (f : MintCmd → MintCmd) : (s.modMint f).lateTags = s.lateTags := rfl
@[simp] theorem State.modMint_parts (f : MintCmd → MintCmd) : (s.modMint f).parts = s.parts := rfl
@[simp] theorem State.modMint_clusters (f : MintCmd → MintCmd) : (s.modMint f).clusters = s.clusters := rfl
@[simp] theorem State.modMint_slices (f : MintCmd → MintCmd) : (s.modMint f).slices = s.slices := rfl
@[simp] theorem State.modMint_leads (f : MintCmd → MintCmd) : (s.modMint f).leads = s.leads := rfl
@[simp] theorem State.modMint_deps (f : MintCmd → MintCmd) : (s.modMint f).deps = s.deps := rfl
@[simp] theorem State.modMint_queries (f : MintCmd → MintCmd) : (s.modMint f).queries = s.queries := rfl
@[simp] theorem State.modMint_snaps (f : MintCmd → MintCmd) : (s.modMint f).snaps = s.snaps := rfl
@[simp] theorem State.modMint_shadowsDue (f : MintCmd → MintCmd) : (s.modMint f).shadowsDue = s.shadowsDue := rfl
@[simp] theorem State.modMint_recovs (f : MintCmd → MintCmd) : (s.modMint f).recovs = s.recovs := rfl
@[simp] theorem State.modMint_delivered (f : MintCmd → MintCmd) : (s.modMint f).delivered = s.delivered := rfl
@[simp] theorem State.modMint_ctxs (f : MintCmd → MintCmd) : (s.modMint f).ctxs = s.ctxs := rfl
@[simp] theorem State.modMint_signals (f : MintCmd → MintCmd) : (s.modMint f).signals = s.signals := rfl
@[simp] theorem State.modMint_links (f : MintCmd → MintCmd) : (s.modMint f).links = s.links := rfl
@[simp] theorem State.modMint_dom (f : MintCmd → MintCmd) : (s.modMint f).dom = s.dom := rfl
@[simp] theorem State.modMint_tillCtl (f : MintCmd → MintCmd) : (s.modMint f).tillCtl = s.tillCtl := rfl
@[simp] theorem State.modMint_latches (f : MintCmd → MintCmd) : (s.modMint f).latches = s.latches := rfl
@[simp] theorem State.modMint_mportRdata (f : MintCmd → MintCmd) : (s.modMint f).mportRdata = s.mportRdata := rfl
@[simp] theorem State.modMint_elapsed (f : MintCmd → MintCmd) : (s.modMint f).elapsed = s.elapsed := rfl
@[simp] theorem State.modMint_wclk (f : MintCmd → MintCmd) : (s.modMint f).wclk = s.wclk := rfl
@[simp] theorem State.modMint_nextDep (f : MintCmd → MintCmd) : (s.modMint f).nextDep = s.nextDep := rfl
@[simp] theorem State.modMint_nextUid (f : MintCmd → MintCmd) : (s.modMint f).nextUid = s.nextUid := rfl
@[simp] theorem State.modMint_nextLaunch (f : MintCmd → MintCmd) : (s.modMint f).nextLaunch = s.nextLaunch := rfl
@[simp] theorem State.modMint_free (f : MintCmd → MintCmd) : (s.modMint f).free = s.free := rfl
@[simp] theorem State.modMint_pending (f : MintCmd → MintCmd) : (s.modMint f).pending = s.pending := rfl

/-! ## The field an update changes -/

@[simp] theorem State.modPwr_pwr (f : Pwr → Pwr) : (s.modPwr f).pwr = f s.pwr := rfl
@[simp] theorem State.modTb_tbu (f : Tb → Tb) : (s.modTb f).tbu = f s.tbu := rfl
@[simp] theorem State.modDep_deps (n : Nat) (f : Dep → Dep) : (s.modDep n f).deps = modFirst (·.id == n) f s.deps := rfl
@[simp] theorem State.modQuery_queries (n : Nat) (f : Query → Query) : (s.modQuery n f).queries = modFirst (·.uid == n) f s.queries := rfl
@[simp] theorem State.modPart_eq (p : Nat) (f : Part → Part) : s.setPart p (f (s.part p)) = s.modPart p f := rfl

/-! ## keep -/

@[simp] theorem State.keep_build (t : State) : (s.keep t).build = s.build := rfl
@[simp] theorem State.keep_boot (t : State) : (s.keep t).boot = t.boot := rfl
@[simp] theorem State.keep_flash (t : State) : (s.keep t).flash = t.flash := rfl
@[simp] theorem State.keep_sfdp (t : State) : (s.keep t).sfdp = t.sfdp := rfl
@[simp] theorem State.keep_fuses (t : State) : (s.keep t).fuses = t.fuses := rfl
@[simp] theorem State.keep_sensed (t : State) : (s.keep t).sensed = t.sensed := rfl
@[simp] theorem State.keep_sec (t : State) : (s.keep t).sec = t.sec := rfl
@[simp] theorem State.keep_tbu (t : State) : (s.keep t).tbu = t.tbu := rfl
@[simp] theorem State.keep_pwr (t : State) : (s.keep t).pwr = t.pwr := rfl
@[simp] theorem State.keep_ports (t : State) : (s.keep t).ports = t.ports := rfl
@[simp] theorem State.keep_strms (t : State) : (s.keep t).strms = t.strms := rfl
@[simp] theorem State.keep_fab (t : State) : (s.keep t).fab = t.fab := rfl
@[simp] theorem State.keep_mports (t : State) : (s.keep t).mports = t.mports := rfl
@[simp] theorem State.keep_ilv (t : State) : (s.keep t).ilv = t.ilv := rfl
@[simp] theorem State.keep_mem (t : State) : (s.keep t).mem = s.mem := rfl
@[simp] theorem State.keep_accs (t : State) : (s.keep t).accs = t.accs := rfl
@[simp] theorem State.keep_lateTags (t : State) : (s.keep t).lateTags = t.lateTags := rfl
@[simp] theorem State.keep_parts (t : State) : (s.keep t).parts = t.parts := rfl
@[simp] theorem State.keep_clusters (t : State) : (s.keep t).clusters = t.clusters := rfl
@[simp] theorem State.keep_slices (t : State) : (s.keep t).slices = t.slices := rfl
@[simp] theorem State.keep_leads (t : State) : (s.keep t).leads = t.leads := rfl
@[simp] theorem State.keep_deps (t : State) : (s.keep t).deps = t.deps := rfl
@[simp] theorem State.keep_queries (t : State) : (s.keep t).queries = t.queries := rfl
@[simp] theorem State.keep_snaps (t : State) : (s.keep t).snaps = t.snaps := rfl
@[simp] theorem State.keep_shadowsDue (t : State) : (s.keep t).shadowsDue = t.shadowsDue := rfl
@[simp] theorem State.keep_recovs (t : State) : (s.keep t).recovs = t.recovs := rfl
@[simp] theorem State.keep_delivered (t : State) : (s.keep t).delivered = t.delivered := rfl
@[simp] theorem State.keep_ctxs (t : State) : (s.keep t).ctxs = t.ctxs := rfl
@[simp] theorem State.keep_signals (t : State) : (s.keep t).signals = t.signals := rfl
@[simp] theorem State.keep_links (t : State) : (s.keep t).links = t.links := rfl
@[simp] theorem State.keep_dom (t : State) : (s.keep t).dom = t.dom := rfl
@[simp] theorem State.keep_mint (t : State) : (s.keep t).mint = t.mint := rfl
@[simp] theorem State.keep_tillCtl (t : State) : (s.keep t).tillCtl = t.tillCtl := rfl
@[simp] theorem State.keep_latches (t : State) : (s.keep t).latches = t.latches := rfl
@[simp] theorem State.keep_mportRdata (t : State) : (s.keep t).mportRdata = t.mportRdata := rfl
@[simp] theorem State.keep_elapsed (t : State) : (s.keep t).elapsed = t.elapsed := rfl
@[simp] theorem State.keep_wclk (t : State) : (s.keep t).wclk = t.wclk := rfl
@[simp] theorem State.keep_nextDep (t : State) : (s.keep t).nextDep = t.nextDep := rfl
@[simp] theorem State.keep_nextUid (t : State) : (s.keep t).nextUid = t.nextUid := rfl
@[simp] theorem State.keep_nextLaunch (t : State) : (s.keep t).nextLaunch = t.nextLaunch := rfl
@[simp] theorem State.keep_free (t : State) : (s.keep t).free = t.free := rfl
@[simp] theorem State.keep_pending (t : State) : (s.keep t).pending = s.pending := rfl

theorem settle_eq (base t : State) : settle base t = .next (base.keep t) := rfl

@[simp] theorem settle_next {base t u : State} : settle base t = .next u ↔ base.keep t = u := by
  rw [settle_eq]; exact ⟨fun h => by cases h; rfl, fun h => by rw [h]⟩

@[simp] theorem State.keep_self : s.keep s = s := rfl

/-! ## Units read after an update -/

@[simp] theorem State.part_setPart (p q : Nat) (v : Part) : (s.setPart p v).part q = if q = p then v else s.part q :=
  NMap.get_put s.parts p v q
@[simp] theorem State.part_modPart (p q : Nat) (f : Part → Part) :
    (s.modPart p f).part q = if q = p then f (s.part p) else s.part q := NMap.get_put s.parts p _ q
@[simp] theorem State.cluster_setCluster (m k : Nat) (v : Cluster) : (s.setCluster m v).cluster k = if k = m then v else s.cluster k :=
  NMap.get_put s.clusters m v k
@[simp] theorem State.cluster_modCluster (m k : Nat) (f : Cluster → Cluster) :
    (s.modCluster m f).cluster k = if k = m then f (s.cluster m) else s.cluster k := NMap.get_put s.clusters m _ k
@[simp] theorem State.slice_setSlice (n k : Nat) (v : Slice) : (s.setSlice n v).slice k = if k = n then v else s.slice k :=
  NMap.get_put s.slices n v k
@[simp] theorem State.slice_modSlice (n k : Nat) (f : Slice → Slice) :
    (s.modSlice n f).slice k = if k = n then f (s.slice n) else s.slice k := NMap.get_put s.slices n _ k
@[simp] theorem State.lead_modLead (n k : Nat) (f : Lead → Lead) :
    (s.modLead n f).lead k = if k = n then f (s.lead n) else s.lead k := NMap.get_put s.leads n _ k
@[simp] theorem State.port_modPort (n k : Nat) (f : Port → Port) :
    (s.modPort n f).port k = if k = n then f (s.port n) else s.port k := NMap.get_put s.ports n _ k
@[simp] theorem State.strm_modStrm (n k : Nat) (f : Stream → Stream) :
    (s.modStrm n f).strm k = if k = n then f (s.strm n) else s.strm k := NMap.get_put s.strms n _ k
@[simp] theorem State.mport_modMport (n k : Nat) (f : MPort → MPort) :
    (s.modMport n f).mport k = if k = n then f (s.mport n) else s.mport k := NMap.get_put s.mports n _ k
@[simp] theorem State.link_modLink (n k : Nat) (f : Link → Link) :
    (s.modLink n f).link k = if k = n then f (s.link n) else s.link k := NMap.get_put s.links n _ k
@[simp] theorem Part.pool_modPool (p : Part) (n k : Nat) (f : Pool → Pool) :
    (p.modPool n f).pool k = if k = n then f (p.pool n) else p.pool k := NMap.get_put p.pools n _ k
@[simp] theorem Pool.buf_modBuf (p : Pool) (n k : Nat) (f : Buf → Buf) :
    (p.modBuf n f).buf k = if k = n then f (p.buf n) else p.buf k := NMap.get_put p.bufs n _ k

/-- HEALTH never changes anything but its queue and the count of events lost (R273). -/
theorem State.health_eq (code unit part sev : Nat) (detail : List Byte) :
    s.health code unit part sev detail = { s with fab := (s.health code unit part sev detail).fab } := by
  unfold State.health; dsimp only; split <;> rfl

/-- What is queued depends on the queue, TB and the event only. -/
theorem State.health_fab_congr {s t : State} (hf : t.fab = s.fab) (ht : t.tbu.tb = s.tbu.tb) (code unit part sev : Nat)
    (detail : List Byte) : (t.health code unit part sev detail).fab = (s.health code unit part sev detail).fab := by
  unfold State.health; dsimp only; rw [hf, ht]; split <;> rfl

@[simp] theorem State.health_build (code unit part sev : Nat) (detail : List Byte) : (s.health code unit part sev detail).build = s.build := by
  rw [State.health_eq]
@[simp] theorem State.health_boot (code unit part sev : Nat) (detail : List Byte) : (s.health code unit part sev detail).boot = s.boot := by
  rw [State.health_eq]
@[simp] theorem State.health_flash (code unit part sev : Nat) (detail : List Byte) : (s.health code unit part sev detail).flash = s.flash := by
  rw [State.health_eq]
@[simp] theorem State.health_sfdp (code unit part sev : Nat) (detail : List Byte) : (s.health code unit part sev detail).sfdp = s.sfdp := by
  rw [State.health_eq]
@[simp] theorem State.health_fuses (code unit part sev : Nat) (detail : List Byte) : (s.health code unit part sev detail).fuses = s.fuses := by
  rw [State.health_eq]
@[simp] theorem State.health_sensed (code unit part sev : Nat) (detail : List Byte) : (s.health code unit part sev detail).sensed = s.sensed := by
  rw [State.health_eq]
@[simp] theorem State.health_sec (code unit part sev : Nat) (detail : List Byte) : (s.health code unit part sev detail).sec = s.sec := by
  rw [State.health_eq]
@[simp] theorem State.health_tbu (code unit part sev : Nat) (detail : List Byte) : (s.health code unit part sev detail).tbu = s.tbu := by
  rw [State.health_eq]
@[simp] theorem State.health_pwr (code unit part sev : Nat) (detail : List Byte) : (s.health code unit part sev detail).pwr = s.pwr := by
  rw [State.health_eq]
@[simp] theorem State.health_ports (code unit part sev : Nat) (detail : List Byte) : (s.health code unit part sev detail).ports = s.ports := by
  rw [State.health_eq]
@[simp] theorem State.health_strms (code unit part sev : Nat) (detail : List Byte) : (s.health code unit part sev detail).strms = s.strms := by
  rw [State.health_eq]
@[simp] theorem State.health_mports (code unit part sev : Nat) (detail : List Byte) : (s.health code unit part sev detail).mports = s.mports := by
  rw [State.health_eq]
@[simp] theorem State.health_ilv (code unit part sev : Nat) (detail : List Byte) : (s.health code unit part sev detail).ilv = s.ilv := by
  rw [State.health_eq]
@[simp] theorem State.health_mem (code unit part sev : Nat) (detail : List Byte) : (s.health code unit part sev detail).mem = s.mem := by
  rw [State.health_eq]
@[simp] theorem State.health_accs (code unit part sev : Nat) (detail : List Byte) : (s.health code unit part sev detail).accs = s.accs := by
  rw [State.health_eq]
@[simp] theorem State.health_lateTags (code unit part sev : Nat) (detail : List Byte) : (s.health code unit part sev detail).lateTags = s.lateTags := by
  rw [State.health_eq]
@[simp] theorem State.health_parts (code unit part sev : Nat) (detail : List Byte) : (s.health code unit part sev detail).parts = s.parts := by
  rw [State.health_eq]
@[simp] theorem State.health_clusters (code unit part sev : Nat) (detail : List Byte) : (s.health code unit part sev detail).clusters = s.clusters := by
  rw [State.health_eq]
@[simp] theorem State.health_slices (code unit part sev : Nat) (detail : List Byte) : (s.health code unit part sev detail).slices = s.slices := by
  rw [State.health_eq]
@[simp] theorem State.health_leads (code unit part sev : Nat) (detail : List Byte) : (s.health code unit part sev detail).leads = s.leads := by
  rw [State.health_eq]
@[simp] theorem State.health_deps (code unit part sev : Nat) (detail : List Byte) : (s.health code unit part sev detail).deps = s.deps := by
  rw [State.health_eq]
@[simp] theorem State.health_queries (code unit part sev : Nat) (detail : List Byte) : (s.health code unit part sev detail).queries = s.queries := by
  rw [State.health_eq]
@[simp] theorem State.health_snaps (code unit part sev : Nat) (detail : List Byte) : (s.health code unit part sev detail).snaps = s.snaps := by
  rw [State.health_eq]
@[simp] theorem State.health_shadowsDue (code unit part sev : Nat) (detail : List Byte) : (s.health code unit part sev detail).shadowsDue = s.shadowsDue := by
  rw [State.health_eq]
@[simp] theorem State.health_recovs (code unit part sev : Nat) (detail : List Byte) : (s.health code unit part sev detail).recovs = s.recovs := by
  rw [State.health_eq]
@[simp] theorem State.health_delivered (code unit part sev : Nat) (detail : List Byte) : (s.health code unit part sev detail).delivered = s.delivered := by
  rw [State.health_eq]
@[simp] theorem State.health_ctxs (code unit part sev : Nat) (detail : List Byte) : (s.health code unit part sev detail).ctxs = s.ctxs := by
  rw [State.health_eq]
@[simp] theorem State.health_signals (code unit part sev : Nat) (detail : List Byte) : (s.health code unit part sev detail).signals = s.signals := by
  rw [State.health_eq]
@[simp] theorem State.health_links (code unit part sev : Nat) (detail : List Byte) : (s.health code unit part sev detail).links = s.links := by
  rw [State.health_eq]
@[simp] theorem State.health_dom (code unit part sev : Nat) (detail : List Byte) : (s.health code unit part sev detail).dom = s.dom := by
  rw [State.health_eq]
@[simp] theorem State.health_mint (code unit part sev : Nat) (detail : List Byte) : (s.health code unit part sev detail).mint = s.mint := by
  rw [State.health_eq]
@[simp] theorem State.health_tillCtl (code unit part sev : Nat) (detail : List Byte) : (s.health code unit part sev detail).tillCtl = s.tillCtl := by
  rw [State.health_eq]
@[simp] theorem State.health_latches (code unit part sev : Nat) (detail : List Byte) : (s.health code unit part sev detail).latches = s.latches := by
  rw [State.health_eq]
@[simp] theorem State.health_mportRdata (code unit part sev : Nat) (detail : List Byte) : (s.health code unit part sev detail).mportRdata = s.mportRdata := by
  rw [State.health_eq]
@[simp] theorem State.health_elapsed (code unit part sev : Nat) (detail : List Byte) : (s.health code unit part sev detail).elapsed = s.elapsed := by
  rw [State.health_eq]
@[simp] theorem State.health_wclk (code unit part sev : Nat) (detail : List Byte) : (s.health code unit part sev detail).wclk = s.wclk := by
  rw [State.health_eq]
@[simp] theorem State.health_nextDep (code unit part sev : Nat) (detail : List Byte) : (s.health code unit part sev detail).nextDep = s.nextDep := by
  rw [State.health_eq]
@[simp] theorem State.health_nextUid (code unit part sev : Nat) (detail : List Byte) : (s.health code unit part sev detail).nextUid = s.nextUid := by
  rw [State.health_eq]
@[simp] theorem State.health_nextLaunch (code unit part sev : Nat) (detail : List Byte) : (s.health code unit part sev detail).nextLaunch = s.nextLaunch := by
  rw [State.health_eq]
@[simp] theorem State.health_free (code unit part sev : Nat) (detail : List Byte) : (s.health code unit part sev detail).free = s.free := by
  rw [State.health_eq]
@[simp] theorem State.health_pending (code unit part sev : Nat) (detail : List Byte) : (s.health code unit part sev detail).pending = s.pending := by
  rw [State.health_eq]

end Sys2Proof.Machine
end

