-- ==== Sys2Proof/Laws/Frames.lean ====
section
/-! SUPPORT. What the shared operations write: one lemma for each, that says which fields of the state it may change. -/

namespace Sys2Proof.Machine

open Sys2Proof

variable (s : State)

/-! ## The power controller writes its own state only -/

/-- Changes of the power controller, one after the other. -/
theorem State.pwr_trans {s t u : State} (h : t = { s with pwr := t.pwr }) (k : u = { t with pwr := u.pwr }) :
    u = { s with pwr := u.pwr } := k.trans (congrArg (fun x : State => { x with pwr := u.pwr }) h)
theorem State.openReason_eq (k : Nat) : s.openReason k = { s with pwr := (s.openReason k).pwr } := by
  unfold State.openReason; split <;> rfl
theorem State.closeReason_eq (k : Nat) : s.closeReason k = { s with pwr := (s.closeReason k).pwr } := by
  unfold State.closeReason; split <;> rfl
theorem State.setReason_eq (k : Nat) (b : Bool) : s.setReason k b = { s with pwr := (s.setReason k b).pwr } := by
  unfold State.setReason; split
  · exact s.openReason_eq k
  · exact s.closeReason_eq k
theorem State.steer_eq : s.steer = { s with pwr := s.steer.pwr } := by
  unfold State.steer; dsimp only; repeat' split
  all_goals rfl
theorem State.retune_eq : s.retune = { s with pwr := s.retune.pwr } := by
  unfold State.retune; split
  · exact State.pwr_trans (State.pwr_trans (State.pwr_trans (State.pwr_trans (State.pwr_trans (State.pwr_trans
      (State.setReason_eq _ _ _) (State.setReason_eq _ _ _)) (State.setReason_eq _ _ _)) (State.setReason_eq _ _ _))
      (State.steer_eq _)) rfl) (State.setReason_eq _ _ _)
  · rfl

/-- The part of the power controller that `retune` leaves alone: all but the handshakes, the budget position that a clock
step takes, the reasons and their log. -/
def Pwr.steady (p : Pwr) : Pwr :=
  { p with reqCode := 0, reqVid := 0, wclkReq := false, vidReq := false, shake := .idle, shakeStart := 0, shakeLate := false
           tlog := [], tlogHead := 0, active := [], budgetPos := 0, budgetNext := none }
theorem State.openReason_steady (k : Nat) : (s.openReason k).pwr.steady = s.pwr.steady := by
  unfold State.openReason; split <;> rfl
theorem State.closeReason_steady (k : Nat) : (s.closeReason k).pwr.steady = s.pwr.steady := by
  unfold State.closeReason; split <;> rfl
theorem State.setReason_steady (k : Nat) (b : Bool) : (s.setReason k b).pwr.steady = s.pwr.steady := by
  unfold State.setReason; split
  · exact s.openReason_steady k
  · exact s.closeReason_steady k
theorem State.steer_steady : s.steer.pwr.steady = s.pwr.steady := by
  unfold State.steer; dsimp only; repeat' split
  all_goals rfl
theorem Pwr.stepTaken_steady (p : Pwr) : p.stepTaken.steady = p.steady := by
  unfold Pwr.stepTaken; split <;> rfl
theorem State.retune_steady : s.retune.pwr.steady = s.pwr.steady := by
  unfold State.retune; split
  · dsimp only
    rw [State.setReason_steady, State.modPwr_pwr, Pwr.stepTaken_steady, State.steer_steady, State.setReason_steady, State.setReason_steady, State.setReason_steady, State.setReason_steady]
  · rfl
@[simp] theorem State.retune_fixed : s.retune.pwr.fixed = s.pwr.fixed :=
  (congrArg (fun p : Pwr => p.fixed) s.retune_steady : s.retune.pwr.steady.fixed = s.pwr.steady.fixed)
@[simp] theorem State.retune_fmax : s.retune.pwr.fmax = s.pwr.fmax :=
  (congrArg (fun p : Pwr => p.fmax) s.retune_steady : s.retune.pwr.steady.fmax = s.pwr.steady.fmax)
@[simp] theorem State.retune_code : s.retune.pwr.code = s.pwr.code :=
  (congrArg (fun p : Pwr => p.code) s.retune_steady : s.retune.pwr.steady.code = s.pwr.steady.code)
@[simp] theorem State.retune_vid : s.retune.pwr.vid = s.pwr.vid :=
  (congrArg (fun p : Pwr => p.vid) s.retune_steady : s.retune.pwr.steady.vid = s.pwr.steady.vid)
@[simp] theorem State.retune_wclkAck : s.retune.pwr.wclkAck = s.pwr.wclkAck :=
  (congrArg (fun p : Pwr => p.wclkAck) s.retune_steady : s.retune.pwr.steady.wclkAck = s.pwr.steady.wclkAck)
@[simp] theorem State.retune_vidAck : s.retune.pwr.vidAck = s.pwr.vidAck :=
  (congrArg (fun p : Pwr => p.vidAck) s.retune_steady : s.retune.pwr.steady.vidAck = s.pwr.steady.vidAck)
@[simp] theorem State.retune_thermPos : s.retune.pwr.thermPos = s.pwr.thermPos :=
  (congrArg (fun p : Pwr => p.thermPos) s.retune_steady : s.retune.pwr.steady.thermPos = s.pwr.steady.thermPos)
@[simp] theorem State.retune_cap : s.retune.pwr.cap = s.pwr.cap :=
  (congrArg (fun p : Pwr => p.cap) s.retune_steady : s.retune.pwr.steady.cap = s.pwr.steady.cap)
@[simp] theorem State.retune_bcap : s.retune.pwr.bcap = s.pwr.bcap :=
  (congrArg (fun p : Pwr => p.bcap) s.retune_steady : s.retune.pwr.steady.bcap = s.pwr.steady.bcap)
@[simp] theorem State.retune_pendCap : s.retune.pwr.pendCap = s.pwr.pendCap :=
  (congrArg (fun p : Pwr => p.pendCap) s.retune_steady : s.retune.pwr.steady.pendCap = s.pwr.steady.pendCap)
@[simp] theorem State.retune_ests : s.retune.pwr.ests = s.pwr.ests :=
  (congrArg (fun p : Pwr => p.ests) s.retune_steady : s.retune.pwr.steady.ests = s.pwr.steady.ests)
@[simp] theorem State.retune_energy : s.retune.pwr.energy = s.pwr.energy :=
  (congrArg (fun p : Pwr => p.energy) s.retune_steady : s.retune.pwr.steady.energy = s.pwr.steady.energy)
@[simp] theorem State.retune_energyRem : s.retune.pwr.energyRem = s.pwr.energyRem :=
  (congrArg (fun p : Pwr => p.energyRem) s.retune_steady : s.retune.pwr.steady.energyRem = s.pwr.steady.energyRem)
@[simp] theorem State.retune_activity : s.retune.pwr.activity = s.pwr.activity :=
  (congrArg (fun p : Pwr => p.activity) s.retune_steady : s.retune.pwr.steady.activity = s.pwr.steady.activity)
@[simp] theorem State.retune_target : s.retune.pwr.target = s.pwr.target :=
  (congrArg (fun p : Pwr => p.target) s.retune_steady : s.retune.pwr.steady.target = s.pwr.steady.target)
@[simp] theorem State.retune_sensors : s.retune.pwr.sensors = s.pwr.sensors :=
  (congrArg (fun p : Pwr => p.sensors) s.retune_steady : s.retune.pwr.steady.sensors = s.pwr.steady.sensors)
@[simp] theorem State.retune_slope : s.retune.pwr.slope = s.pwr.slope :=
  (congrArg (fun p : Pwr => p.slope) s.retune_steady : s.retune.pwr.steady.slope = s.pwr.steady.slope)
@[simp] theorem State.retune_floor : s.retune.pwr.floor = s.pwr.floor :=
  (congrArg (fun p : Pwr => p.floor) s.retune_steady : s.retune.pwr.steady.floor = s.pwr.steady.floor)
@[simp] theorem State.retune_lead : s.retune.pwr.lead = s.pwr.lead :=
  (congrArg (fun p : Pwr => p.lead) s.retune_steady : s.retune.pwr.steady.lead = s.pwr.steady.lead)
@[simp] theorem State.retune_hints : s.retune.pwr.hints = s.pwr.hints :=
  (congrArg (fun p : Pwr => p.hints) s.retune_steady : s.retune.pwr.steady.hints = s.pwr.steady.hints)
@[simp] theorem State.retune_drizzle : s.retune.pwr.drizzle = s.pwr.drizzle :=
  (congrArg (fun p : Pwr => p.drizzle) s.retune_steady : s.retune.pwr.steady.drizzle = s.pwr.steady.drizzle)
@[simp] theorem State.retune_falls : s.retune.pwr.falls = s.pwr.falls :=
  (congrArg (fun p : Pwr => p.falls) s.retune_steady : s.retune.pwr.steady.falls = s.pwr.steady.falls)
@[simp] theorem State.retune_bare : s.retune.pwr.bare = s.pwr.bare :=
  (congrArg (fun p : Pwr => p.bare) s.retune_steady : s.retune.pwr.steady.bare = s.pwr.steady.bare)
@[simp] theorem State.retune_flitsSeen : s.retune.pwr.flitsSeen = s.pwr.flitsSeen :=
  (congrArg (fun p : Pwr => p.flitsSeen) s.retune_steady : s.retune.pwr.steady.flitsSeen = s.pwr.steady.flitsSeen)
@[simp] theorem State.retune_drzCount : s.retune.pwr.drzCount = s.pwr.drzCount :=
  (congrArg (fun p : Pwr => p.drzCount) s.retune_steady : s.retune.pwr.steady.drzCount = s.pwr.steady.drzCount)
@[simp] theorem State.retune_trim : s.retune.pwr.trim = s.pwr.trim :=
  (congrArg (fun p : Pwr => p.trim) s.retune_steady : s.retune.pwr.steady.trim = s.pwr.steady.trim)
@[simp] theorem State.retune_worst : s.retune.pwr.worst = s.pwr.worst :=
  (congrArg (fun p : Pwr => p.worst) s.retune_steady : s.retune.pwr.steady.worst = s.pwr.steady.worst)
@[simp] theorem State.retune_tlogSel : s.retune.pwr.tlogSel = s.pwr.tlogSel :=
  (congrArg (fun p : Pwr => p.tlogSel) s.retune_steady : s.retune.pwr.steady.tlogSel = s.pwr.steady.tlogSel)
@[simp] theorem State.retune_tcum : s.retune.pwr.tcum = s.pwr.tcum :=
  (congrArg (fun p : Pwr => p.tcum) s.retune_steady : s.retune.pwr.steady.tcum = s.pwr.steady.tcum)
@[simp] theorem State.retune_sq : s.retune.pwr.sq = s.pwr.sq :=
  (congrArg (fun p : Pwr => p.sq) s.retune_steady : s.retune.pwr.steady.sq = s.pwr.steady.sq)
@[simp] theorem State.retune_lastStretch : s.retune.pwr.lastStretch = s.pwr.lastStretch :=
  (congrArg (fun p : Pwr => p.lastStretch) s.retune_steady : s.retune.pwr.steady.lastStretch = s.pwr.steady.lastStretch)
@[simp] theorem State.retune_estAt : s.retune.pwr.estAt = s.pwr.estAt :=
  (congrArg (fun p : Pwr => p.estAt) s.retune_steady : s.retune.pwr.steady.estAt = s.pwr.steady.estAt)
@[simp] theorem State.retune_relAt : s.retune.pwr.relAt = s.pwr.relAt :=
  (congrArg (fun p : Pwr => p.relAt) s.retune_steady : s.retune.pwr.steady.relAt = s.pwr.steady.relAt)
@[simp] theorem State.retune_thermAt : s.retune.pwr.thermAt = s.pwr.thermAt :=
  (congrArg (fun p : Pwr => p.thermAt) s.retune_steady : s.retune.pwr.steady.thermAt = s.pwr.steady.thermAt)
@[simp] theorem State.retune_marginMs : s.retune.pwr.marginMs = s.pwr.marginMs :=
  (congrArg (fun p : Pwr => p.marginMs) s.retune_steady : s.retune.pwr.steady.marginMs = s.pwr.steady.marginMs)

/-- A field `retune` leaves alone is read off the steady part. -/
theorem Pwr.steady_field {α : Type} (f : Pwr → α) {p q : Pwr} (hf : ∀ p, f p.steady = f p) (h : p.steady = q.steady) : f p = f q := by
  rw [← hf p, h, hf]
theorem State.shaken_eq : s.shaken = { s with pwr := s.shaken.pwr } := by
  unfold State.shaken; exact State.pwr_trans (State.pwr_trans rfl (State.closeReason_eq _ _)) (State.retune_eq _)
theorem State.shaken_steady : s.shaken.pwr.steady = s.pwr.steady := by
  unfold State.shaken; rw [State.retune_steady, State.closeReason_steady]; rfl
/-- A reason opened is active. -/
theorem State.openReason_active (k : Nat) : (s.openReason k).reason k = true := by
  unfold State.openReason
  split
  · assumption
  · have : ∀ (l : NMap Nat) v, (NMap.ins l k v).any (·.1 == k) = true := by
      intro l v; induction l with
      | nil => simp [NMap.ins]
      | cons e l ih =>
        obtain ⟨a, b⟩ := e
        unfold NMap.ins; split
        · simp
        · simp [ih]
    simpa [State.reason, State.modPwr, NMap.put] using this (s.pwr.active.filter fun x => x.1 != k) (s.pwr.tlogHead.toNat + 1)
/-- What opening a reason leaves of the handshakes. -/
theorem State.openReason_shake (k : Nat) : (s.openReason k).pwr.shake = s.pwr.shake ∧
    (s.openReason k).pwr.shakeLate = s.pwr.shakeLate ∧ (s.openReason k).pwr.reqCode = s.pwr.reqCode ∧
    (s.openReason k).pwr.reqVid = s.pwr.reqVid := by
  unfold State.openReason; split <;> exact ⟨rfl, rfl, rfl, rfl⟩

theorem NMap.any_ins (l : NMap Nat) (i v k : Nat) : (NMap.ins l i v).any (·.1 == k) = ((i == k) || l.any (·.1 == k)) := by
  induction l with
  | nil => simp [NMap.ins]
  | cons e l ih =>
    obtain ⟨a, b⟩ := e
    unfold NMap.ins; split
    · simp
    · simp only [List.any_cons, ih]; cases (a == k) <;> simp
theorem NMap.any_put {i k : Nat} (h : k ≠ i) (l : NMap Nat) (v : Nat) : (NMap.put 0 l i v).any (·.1 == k) = l.any (·.1 == k) := by
  have f : (l.filter fun e => e.1 != i).any (·.1 == k) = l.any (·.1 == k) := by
    rw [List.any_filter]; congr 1; funext e
    by_cases c : e.1 = k
    · subst c; simp [h]
    · simp [c]
  unfold NMap.put; dsimp only; split
  · exact f
  · rw [NMap.any_ins, f]; simp [Ne.symm h]
/-- Setting one reason leaves another as it is. -/
theorem State.reason_setReason {k j : Nat} (h : k ≠ j) (b : Bool) : (s.setReason j b).reason k = s.reason k := by
  unfold State.setReason
  split
  · unfold State.openReason
    split
    · rfl
    · simp only [State.reason, State.modPwr_pwr]; exact NMap.any_put h _ _
  · unfold State.closeReason
    split
    · simp only [State.reason, State.modPwr_pwr]; exact NMap.any_put h _ _
    · rfl
theorem State.reason_steer (k : Nat) : s.steer.reason k = s.reason k := by
  unfold State.steer; dsimp only; repeat' split
  all_goals rfl
theorem Pwr.stepTaken_active (p : Pwr) : p.stepTaken.active = p.active := by unfold Pwr.stepTaken; split <;> rfl
theorem State.reason_stepTaken (k : Nat) : (s.modPwr Pwr.stepTaken).reason k = s.reason k := by
  unfold State.reason; rw [State.modPwr_pwr, Pwr.stepTaken_active]
theorem State.reason_retune {k : Nat} (h1 : k ≠ rzBudget) (h2 : k ≠ rzThermal) (h5 : k ≠ rzVfLimit) (h6 : k ≠ rzFixed) :
    s.retune.reason k = s.reason k := by
  unfold State.retune; split
  · dsimp only
    rw [State.reason_setReason _ h1, State.reason_stepTaken, State.reason_steer, State.reason_setReason _ h5, State.reason_setReason _ h6, State.reason_setReason _ h2,
      State.reason_setReason _ h1]
  · rfl
/-- A reason closed is not active. -/
theorem State.closeReason_reason (k : Nat) : (s.closeReason k).reason k = false := by
  unfold State.closeReason
  split
  · simp [State.reason, State.modPwr, NMap.put]
  · rename_i h; simpa using h

/-! ## Answers: ports, the fabric, captures, the count of free values -/

theorem State.pump_eq (p c : Nat) : s.pump p c = { s with fab := (s.pump p c).fab, ports := (s.pump p c).ports } := by
  unfold State.pump; split <;> rfl
theorem State.send_eq (m : OutMsg) : s.send m = { s with fab := (s.send m).fab, ports := (s.send m).ports } := by
  unfold State.send; rw [State.pump_eq]
theorem State.decideCapture_eq (ty : Byte) (m : Msg) (a : Byte) :
    s.decideCapture ty m a = { s with parts := (s.decideCapture ty m a).parts } := by
  unfold State.decideCapture; split <;> rfl
theorem State.reply_eq (ty : Byte) (m : Msg) (inj : Bool) (a : Ans) :
    s.reply ty m inj a = { s with fab := (s.reply ty m inj a).fab, ports := (s.reply ty m inj a).ports
                                  parts := (s.reply ty m inj a).parts, free := (s.reply ty m inj a).free } := by
  unfold State.reply
  split
  · rfl
  · dsimp only
    rw [State.decideCapture_eq]
    split
    · rw [State.send_eq]
    · unfold State.retryNs
      split
      · rw [State.send_eq]
      · split <;> (dsimp only; rw [State.send_eq]; try rfl)
theorem State.security_eq (c u p v : Nat) : s.security c u p v = { s with fab := (s.security c u p v).fab, sec := (s.security c u p v).sec } := by
  unfold State.security; rw [State.health_eq]

/-! ## Registers of every partition -/

theorem foldPart_part (f : Nat → Part → Part) (l : List Nat) (hl : l.Nodup) (q : Nat) :
    (l.foldl (fun (t : State) p => t.modPart p (f p)) s).part q = if q ∈ l then f q (s.part q) else s.part q := by
  induction l generalizing s with
  | nil => simp
  | cons a l ih =>
    simp only [List.foldl_cons]
    rw [ih _ (List.nodup_cons.1 hl).2]
    have ha := (List.nodup_cons.1 hl).1
    by_cases h : q = a
    · subst h; simp [ha]
    · simp [h]
theorem foldPart_eq (f : Nat → Part → Part) (l : List Nat) :
    l.foldl (fun (t : State) p => t.modPart p (f p)) s =
      { s with parts := (l.foldl (fun (t : State) p => t.modPart p (f p)) s).parts } := by
  induction l generalizing s with
  | nil => rfl
  | cons a l ih => simp only [List.foldl_cons]; rw [ih]; rfl

end Sys2Proof.Machine
end

