-- ==== Sys2Proof/Laws/Ingress.lean ====
section
/-! SUPPORT. Messages: what egress adds, and the course of a message that passes every check. -/

namespace Sys2Proof.Machine

open Sys2Proof

/-- Draining an egress queue loses no message. -/
theorem drain_perm (held : OutMsg × Nat → Bool) (p c cr : Nat) (l : List (OutMsg × Nat)) :
    ((drain held p c cr l).2.1 ++ (drain held p c cr l).1.map (·.1)).Perm (l.map (·.1)) := by
  induction l generalizing cr with
  | nil => simp [drain]
  | cons e l ih =>
    obtain ⟨m, n⟩ := e
    unfold drain
    split
    · split
      · simp
      · split
        · simpa using ih (cr - n)
        · simp
    · exact (List.perm_middle.trans ((ih cr).cons m))
theorem State.pump_out (s : State) (p c : Nat) : (s.pump p c).out.Perm s.out := by
  unfold State.out State.pump
  split
  · exact .refl _
  · simp only [State.modPort, List.append_assoc]
    exact (drain_perm _ _ _ _ _).append_left _
/-- Sending puts one message out, and nothing else. -/
theorem State.send_out (s : State) (m : OutMsg) : (s.send m).out.Perm (s.out ++ [m]) := by
  unfold State.send
  refine (State.pump_out _ _ _).trans ?_
  simp [State.out]

/-- The state in which the effect of an admitted message begins. -/
def State.admitted (s : State) (type : Byte) (m : Msg) : State :=
  ((s.arrive (classOfType type) m).capture type m).noteTaken type m

theorem State.arrive_eq (s : State) (c : Nat) (m : Msg) :
    s.arrive c m = { s with ports := (s.arrive c m).ports, pwr := (s.arrive c m).pwr } := rfl
theorem State.capture_eq (s : State) (ty : Byte) (m : Msg) : s.capture ty m = { s with parts := (s.capture ty m).parts } := by
  unfold State.capture; dsimp only; split <;> rfl
theorem State.capture_part (s : State) (ty : Byte) (m : Msg) (p : Nat) :
    (s.capture ty m).part p = { s.part p with cap := ((s.capture ty m).part p).cap } := by
  unfold State.capture; dsimp only; split
  · by_cases h : p = s.partOf m
    · subst h; simp
    · simp [h]
  · rfl
theorem State.admitted_eq (s : State) (ty : Byte) (m : Msg) :
    s.admitted ty m = { s with
      ports := (s.admitted ty m).ports
      pwr := (s.admitted ty m).pwr
      parts := (s.admitted ty m).parts
      fab := (s.admitted ty m).fab } := by
  unfold State.admitted State.noteTaken; rw [State.capture_eq]; rfl

theorem find_none_of {α : Type} (l : List α) (f : α → Option Bool) (h : ∀ b ∈ l, f b ≠ some false) :
    l.find? (fun b => f b == some false) = none := by
  rw [List.find?_eq_none]; intro b hb; simpa using h b hb

/-- A message that passes checks 1 to 7 and wins has its effect. -/
theorem ingress_admitted (s : State) (ty : Byte) (right : Nat) (body : State → Bool) (act : State → Result) (m : Msg)
    (h : s.admits ty right m) (hb : body ((s.arrive (classOfType ty) m).capture ty m) = true) :
    ingress ty right body act m s = act (s.admitted ty m) := by
  obtain ⟨onPort, takes, opened, sized, noAck, notAny, enabled, stays, more, gen, door, hasRight, rest⟩ := h
  obtain ⟨owner, lock, loaded, wins⟩ := rest
  have hu : onUnit (decide (m.port < s.nfports)) = (fun r : Result => r) := by funext r; simp [onUnit, onPort]
  have hw : ∀ r, whenDue s (s.portTakes m.port) r = r := by intro r; simp [whenDue, takes]
  unfold ingress
  have hc : m.cls.toNat % 4 = classOfType ty := by
    simp only [wellSized, classRight, Bool.and_eq_true, beq_iff_eq] at sized
    exact sized.1.1.1.1.2
  rw [hu, hw, hc]
  dsimp only
  have j : (s.arrive (classOfType ty) m).judgeMsg ty right body m = (none, (s.arrive (classOfType ty) m).capture ty m) := by
    have e1 : (s.arrive (classOfType ty) m).earlyFault ty m = none := by
      unfold State.earlyFault
      have : (s.arrive (classOfType ty) m).boot = s.boot := rfl
      simp [this, opened, sized]
    have e2 : (s.arrive (classOfType ty) m).streamFault ty m = false := by
      unfold State.streamFault
      have : (s.arrive (classOfType ty) m).strm m.stream.toNat = s.strm m.stream.toNat := rfl
      have h : ¬ (s.strm m.stream.toNat).lastAcc = 4294967295#32 := more
      simp [this, enabled, stays, h, gen]
    have st : ∀ n, ((s.arrive (classOfType ty) m).capture ty m).strm n = s.strm n := by
      intro n; rw [State.capture_eq]; rfl
    have pt : ∀ p, ((s.arrive (classOfType ty) m).capture ty m).part p =
        { s.part p with cap := (((s.arrive (classOfType ty) m).capture ty m).part p).cap } := by
      intro p; rw [State.capture_part]; rfl
    have po : ((s.arrive (classOfType ty) m).capture ty m).partOf m = (s.strm m.stream.toNat).part.toNat := by
      unfold State.partOf; rw [st]
    have e3 : ((s.arrive (classOfType ty) m).capture ty m).rightsFault ty right m = none := by
      unfold State.rightsFault
      have pl : ∀ p, (((s.arrive (classOfType ty) m).capture ty m).part p).lockEn = (s.part p).lockEn := fun p => by rw [pt]
      simp only [st, pl]
      rcases owner with h | h <;> simp [noAck, door, hasRight, h, lock]
    have e4 : ((s.arrive (classOfType ty) m).capture ty m).reloading (s.strm m.stream.toNat).part.toNat ty = false := by
      have p1 : ∀ p, (((s.arrive (classOfType ty) m).capture ty m).part p).st = (s.part p).st := fun p => by rw [pt]
      have p2 : ∀ p, (((s.arrive (classOfType ty) m).capture ty m).part p).replay = (s.part p).replay := fun p => by rw [pt]
      rw [← loaded]; unfold State.reloading; simp only [p1, p2]
    have e5 : ((s.arrive (classOfType ty) m).capture ty m).arbLoss ty m = none := by
      have r : ((s.arrive (classOfType ty) m).capture ty m).rivals m = s.rivals m := by rw [State.capture_eq]; rfl
      have f : ∀ a b, ((s.arrive (classOfType ty) m).capture ty m).fares a b = s.fares a b := by
        intro a b; rw [State.capture_eq]; rfl
      unfold State.arbLoss
      rw [r]; simp only [f]
      rw [find_none_of _ _ wins]
    unfold State.judgeMsg
    rw [e1]; dsimp only
    rw [notAny, e2]; simp only [Bool.false_eq_true, if_false]
    rw [e3]; dsimp only
    rw [e5]; dsimp only
    rw [po, e4]; simp only [Bool.false_eq_true, if_false]
    rw [hb]; rfl
  rw [j]; rfl

end Sys2Proof.Machine
end

