-- ==== Sys2Proof/Laws/Kept.lean ====
section
/-! SUPPORT. What the operations that reach memory keep: the build, the queue of commands, and the canonical form of memory.
Every meaning answers with such a state, so that the invariant of Safety.lean is kept by every step. -/

namespace Sys2Proof.Machine

open Sys2Proof

/-- What the operations that reach memory leave alone: all but memory, the caches, the accesses on their way and the count of
free values. -/
def State.outside (s : State) : State := { s with mem := [], clusters := [], slices := [], accs := [], lateTags := [], free := 0 }

/-- `t` differs from `s` in what `outside` leaves out only, and its memory is in canonical form where that of `s` is. -/
structure State.Held (s t : State) : Prop where
  outside : t.outside = s.outside
  wf : s.mem.wf = true → t.mem.wf = true

/-- `t` has the build and the queue of `s`, and memory in canonical form where `s` has. -/
structure State.Kept (s t : State) : Prop where
  build : t.build = s.build
  pending : t.pending = s.pending
  wf : s.mem.wf = true → t.mem.wf = true

theorem State.Held.refl (s : State) : s.Held s := ⟨rfl, id⟩

theorem State.Held.trans {s t u : State} (h : s.Held t) (k : t.Held u) : s.Held u :=
  ⟨k.outside.trans h.outside, fun w => k.wf (h.wf w)⟩

theorem State.Held.of_eq {s t : State} (ho : t.outside = s.outside) (hm : t.mem = s.mem) : s.Held t :=
  ⟨ho, fun w => by rw [hm]; exact w⟩

theorem State.Held.foldl {α : Type} {f : State → α → State} (h : ∀ (s : State) (x : α), s.Held (f s x)) (l : List α) (s : State) :
    s.Held (l.foldl f s) := by
  induction l generalizing s with
  | nil => exact .refl s
  | cons x l ih => exact (h s x).trans (ih (f s x))

theorem State.Held.kept {s t : State} (h : s.Held t) : s.Kept t :=
  ⟨(congrArg (fun x : State => x.build) h.outside : t.outside.build = s.outside.build),
    (congrArg (fun x : State => x.pending) h.outside : t.outside.pending = s.outside.pending), h.wf⟩

theorem State.Kept.refl (s : State) : s.Kept s := ⟨rfl, rfl, id⟩

theorem State.Kept.trans {s t u : State} (h : s.Kept t) (k : t.Kept u) : s.Kept u :=
  ⟨k.build.trans h.build, k.pending.trans h.pending, fun w => k.wf (h.wf w)⟩

theorem State.Kept.foldl {α : Type} {f : State → α → State} (h : ∀ (s : State) (x : α), s.Kept (f s x)) (l : List α) (s : State) :
    s.Kept (l.foldl f s) := by
  induction l generalizing s with
  | nil => exact .refl s
  | cons x l ih => exact (h s x).trans (ih (f s x))

/-- What `settle` answers keeps what its base keeps. -/
theorem State.Kept.keep {s base : State} (h : s.Kept base) (t : State) : s.Kept (base.keep t) := ⟨h.build, h.pending, h.wf⟩

theorem settle_kept {s base t u : State} (h : s.Kept base) (e : settle base t = .next u) : s.Kept u := by
  cases e; exact h.keep t

/-! ## The operations of Ops.lean -/

theorem State.modCluster_held (s : State) (m : Nat) (f : Cluster → Cluster) : s.Held (s.modCluster m f) := .of_eq rfl rfl
theorem State.setCluster_held (s : State) (m : Nat) (v : Cluster) : s.Held (s.setCluster m v) := .of_eq rfl rfl
theorem State.modSlice_held (s : State) (n : Nat) (f : Slice → Slice) : s.Held (s.modSlice n f) := .of_eq rfl rfl
theorem State.modAcc_held (s : State) (n k : Nat) (w : Bool) (f : Acc → Acc) : s.Held (s.modAcc n k w f) := .of_eq rfl rfl
theorem State.freshBool_held (s : State) : s.Held s.freshBool.2 := .of_eq rfl rfl

theorem State.writeMem_held (s : State) (a : Nat) (bs : List Byte) : s.Held { s with mem := s.mem.writeN a bs } :=
  ⟨rfl, fun w => Memory.writeN_wf w a bs⟩

theorem State.dropL0_held (s : State) (m line : Nat) : s.Held (s.dropL0 m line) := by
  unfold State.dropL0
  refine .foldl (fun s e => ?_) _ _
  obtain ⟨n, v⟩ := e
  dsimp only
  split
  · exact .of_eq rfl rfl
  · exact .refl s

theorem State.dropL1_held (s : State) (m line : Nat) : s.Held (s.dropL1 m line) := by
  unfold State.dropL1
  dsimp only
  split
  · refine State.Held.trans ?_ (State.dropL0_held _ m line)
    exact .of_eq rfl rfl
  · exact State.dropL0_held s m line

theorem State.dropShared_held (s : State) (line : Nat) : s.Held (s.dropShared line) :=
  .foldl (fun s m => s.dropL1_held m line) _ _

theorem State.dropAll_held (s : State) (line : Nat) : s.Held (s.dropAll line) :=
  (s.modCluster_held _ _).trans (State.dropShared_held _ line)

theorem State.recallNow_held (s : State) (line : Nat) : s.Held (s.recallNow line) := by
  unfold State.recallNow
  split
  · exact .refl s
  · exact (((s.writeMem_held _ _).trans (State.modCluster_held _ _ _)).trans (State.modCluster_held _ _ _)).trans
      (State.dropL0_held _ _ _)

theorem State.pullOwned_held (s : State) (line : Nat) : s.Held (s.pullOwned line) := by
  unfold State.pullOwned
  split
  · exact .refl s
  · exact ((s.modCluster_held _ _).trans (State.modCluster_held _ _ _)).trans (State.dropL0_held _ _ _)

theorem State.discardLine_held (s : State) (line : Nat) : s.Held (s.discardLine line) := by
  unfold State.discardLine
  split
  · exact s.dropShared_held _
  · exact (s.pullOwned_held _).trans (State.dropAll_held _ _)

theorem State.homeWrite_held (s : State) (a : Nat) (bs : List Byte) : s.Held (s.homeWrite a bs) := by
  unfold State.homeWrite
  split
  · exact .refl s
  · dsimp only
    have h1 : s.Held ((linesOf a bs.length).foldl State.recallNow s) := .foldl (fun s l => s.recallNow_held l) _ s
    revert h1
    generalize (linesOf a bs.length).foldl State.recallNow s = s1
    intro h1
    refine h1.trans ((s1.writeMem_held a bs).trans (State.Held.trans ?_ (.foldl (fun s l => s.dropShared_held l) _ _)))
    refine .foldl (fun s l => ?_) _ _
    exact s.modCluster_held _ _

theorem State.applyWrite_held (s : State) (a : Acc) : s.Held (s.applyWrite a) := by
  unfold State.applyWrite
  split
  · exact s.homeWrite_held _ _
  · exact .refl s

theorem State.feed_held (s : State) (port : Nat) (w : Bool) : s.Held (s.feed port w) := by
  unfold State.feed
  split
  · exact .refl s
  · rename_i a _
    dsimp only
    generalize (if a.tag < tagLimit w then a.tag else s.freeTag port w) = n
    split
    · exact .of_eq rfl rfl
    · exact .refl s

theorem State.dropAcc_held (s : State) (port tag : Nat) (w : Bool) : s.Held (s.dropAcc port tag w) := by
  refine State.Held.trans ?_ (State.feed_held _ port w)
  exact .of_eq rfl rfl

theorem State.landAcc_held (s : State) (a : Acc) : s.Held (s.landAcc a) := (s.applyWrite_held a).trans (State.dropAcc_held _ _ _ _)

/-! ## Tries of an access -/

theorem State.tried_kept (s : State) (sys part paddr : Nat) (fs : List MemFail) : s.Kept (s.tried sys part paddr fs) := by
  unfold State.tried
  dsimp only
  split
  · exact ⟨by simp [State.portEvent, State.countFails], by simp [State.portEvent, State.countFails], by
      simp [State.portEvent, State.countFails]⟩
  · exact ⟨rfl, rfl, id⟩

theorem State.writeFree_kept (s : State) (a : Nat) (old : List Byte) (b : Bool) :
    s.Kept (if b then s else { s with mem := s.mem.writeN a old }) := by
  split
  · exact .refl s
  · exact (s.writeMem_held a old).kept

/-! ## Caches and faults -/

theorem State.makeRoom_held (s : State) (line : Nat) : s.Held (s.makeRoom line) := by
  unfold State.makeRoom
  dsimp only
  split
  · exact .refl s
  · split
    · split
      · exact s.recallNow_held _
      · exact .refl s
    · exact .refl s

theorem State.mergeLine_held (s : State) (line : Nat) (data : List Byte) : s.Held (s.mergeLine line data) :=
  (s.writeMem_held _ _).trans (State.modCluster_held _ _ _)

theorem State.loseLine_held (s : State) (line : Nat) : s.Held (s.loseLine line) := s.modCluster_held _ _

theorem State.flushCluster_held (s : State) (m : Nat) : s.Held (s.flushCluster m) := by
  unfold State.flushCluster
  dsimp only
  generalize (((s.cluster m).l1.lines ++ (s.cluster m).evbuf).filter (·.owned)).map (·.line) ++ (s.cluster m).grants.map (·.line) = owned
  refine State.Held.trans (State.Held.trans (State.Held.trans ?_ (.foldl (fun s l => s.recallNow_held l) _ _))
    (.foldl (fun s l => s.recallNow_held l) _ _)) (.foldl (fun s a => ?_) _ _)
  · have h : s.Held (if owned.isEmpty then (true, s) else s.freshBool).2 := by
      split
      · exact .refl s
      · exact s.freshBool_held
    generalize (if owned.isEmpty then (true, s) else s.freshBool) = p at h ⊢
    split
    · exact h.trans (.foldl (fun s l => s.recallNow_held l) _ _)
    · exact h.trans (.foldl (fun s l => s.loseLine_held l) _ _)
  · refine s.freshBool_held.trans ?_
    generalize s.freshBool = q
    split
    · exact State.applyWrite_held _ _
    · exact .refl _

theorem State.beforeRetire_held (s : State) (n : Nat) : s.Held (s.beforeRetire n) := by
  unfold State.beforeRetire
  dsimp only
  split
  · exact s.flushCluster_held _
  · exact .refl s

theorem State.fenceRange_held (s : State) (part base lines : Nat) : s.Held (s.fenceRange part base lines) :=
  .foldl (fun s l => (s.recallNow_held l).trans (State.dropAll_held _ l)) _ _

theorem State.injectBase_held (s : State) (p : Nat) (type : Byte) (m : Msg) : s.Held (s.injectBase p type m) := by
  unfold State.injectBase
  split
  · exact s.fenceRange_held _ _ _
  · exact .refl s

/-- The state a cut leaves, whatever its free choices are. -/
theorem State.cutWrites_held (s : State) : s.Held s.cutWrites := by
  unfold State.cutWrites
  dsimp only
  refine State.Held.trans (.foldl (fun s a => ?_) s.accs s) (.foldl (fun s m => .foldl (fun s l => ?_) _ _) _ _)
  · split
    · refine s.freshBool_held.trans ?_
      generalize s.freshBool = p
      split
      · exact State.homeWrite_held _ _ _
      · exact .refl _
    · exact .refl s
  · refine s.freshBool_held.trans ?_
    generalize s.freshBool = p
    split
    · exact State.recallNow_held _ _
    · exact .refl _

/-! ## Fills -/

theorem State.addSharer_held (s : State) (line m : Nat) : s.Held (s.addSharer line m) := s.modCluster_held _ _

theorem State.fillL2_held (s : State) (line part : Nat) (data : List Byte) : s.Held (s.fillL2 line part data).1 := by
  unfold State.fillL2
  dsimp only
  repeat' split
  all_goals try dsimp only
  all_goals first
    | exact .refl s
    | exact s.modCluster_held _ _
    | exact ((s.pullOwned_held _).trans (State.dropShared_held _ _)).trans (State.modCluster_held _ _ _)

theorem State.fillL1_held (s : State) (m line part : Nat) (data : List Byte) (ways : List Nat) :
    s.Held (s.fillL1 m line part data ways).1 := by
  unfold State.fillL1
  dsimp only
  repeat' split
  all_goals try dsimp only
  all_goals first
    | exact .refl s
    | exact s.setCluster_held _ _
    | exact State.Held.trans (s.setCluster_held _ _) (State.addSharer_held _ _ _)
    | exact State.Held.trans (s.dropL0_held _ _) (State.Held.trans (State.setCluster_held _ _ _) (State.addSharer_held _ _ _))

theorem State.clearWay_held (s : State) (m line w : Nat) : s.Held (s.clearWay m line w) := by
  unfold State.clearWay
  repeat' split
  all_goals first
    | exact .refl s
    | exact s.recallNow_held _

theorem State.preloadLine_kept (s : State) (m part : Nat) (ws : List Nat) (fails : List MemFail) (a : Nat) :
    s.Kept (s.preloadLine m part ws fails a).1 := by
  unfold State.preloadLine
  split
  · exact .refl s
  · rename_i sys _
    dsimp only
    split
    · exact .refl s
    · rename_i w _
      have h : s.Kept (if s.missesL2 part (lineOf sys) then s.tried sys part a fails else s) := by
        split
        · exact s.tried_kept _ _ _ _
        · exact .refl s
      generalize (if s.missesL2 part (lineOf sys) then s.tried sys part a fails else s) = t at h ⊢
      split
      · exact h
      · refine h.trans (State.Held.kept ?_)
        have k := fun data : List Byte => (((((t.recallNow_held (lineOf sys)).trans (State.makeRoom_held _ (lineOf sys))).trans
          (State.dropL1_held _ m (lineOf sys))).trans (State.fillL2_held _ (lineOf sys) part data)).trans
          (State.clearWay_held _ m (lineOf sys) w)).trans (State.fillL1_held _ m (lineOf sys) part data [w])
        exact (k _).trans (State.modCluster_held _ _ _)

theorem State.preloadRun_kept (s : State) (m part : Nat) (ws : List Nat) (fails : Fails) (a n : Nat) :
    s.Kept (s.preloadRun m part ws fails a n).1 := by
  unfold State.preloadRun
  have h : ∀ (l : List Nat) (x : State × Bool), s.Kept x.1 → s.Kept (l.foldl (fun (x : State × Bool) i =>
      ((x.1.preloadLine m part ws (triesOf fails i) (a + 64 * i)).1,
        x.2 && (x.1.preloadLine m part ws (triesOf fails i) (a + 64 * i)).2)) x).1 := by
    intro l
    induction l with
    | nil => exact fun _ h => h
    | cons i l ih => exact fun x h => ih _ (h.trans (State.preloadLine_kept ..))
  exact h _ (s, true) (.refl s)

theorem State.mergeTries_kept (s : State) (line part : Nat) (data : List Byte) (fails : List MemFail) :
    s.Kept (s.mergeTries line part data fails) := by
  unfold State.mergeTries
  dsimp only
  have h : s.Kept ((s.mergeTried line part fails).mergeLine line data) :=
    (s.tried_kept _ _ _ _).trans (State.mergeLine_held _ _ _).kept
  split
  · exact h
  · exact (h.trans (State.freshBool_held _).kept).trans (State.writeFree_kept _ _ _ _)

/-! ## Hit-core accesses -/

theorem State.loadRecall_held (s : State) (pl : Place) (part line : Nat) : s.Held (s.loadRecall pl part line) := by
  unfold State.loadRecall
  split
  · exact s.recallNow_held _
  · exact .refl s

theorem loadBase_held (x : Iss) (n : Nat) (s : State) : s.Held (loadBase x n s) := by
  refine .foldl (fun s l => ?_) _ _
  split
  · exact s.loadRecall_held _ _ _
  · exact .refl s

theorem storeLane_kept (x : Iss) (n : Nat) (fails : Fails) (s : State) (l : Nat) : s.Kept (storeLane x n fails s l) := by
  unfold storeLane
  split
  · rename_i t a p _ _
    dsimp only
    have h : s.Kept ((s.tried a p (t.gaddr x.ins true) (triesOf fails l)).homeWrite a (storeData x.ins n t)) :=
      (s.tried_kept _ _ _ _).trans (State.homeWrite_held _ _ _).kept
    split
    · exact h
    · exact (h.trans (State.freshBool_held _).kept).trans (State.writeFree_kept _ _ _ _)
  · exact .refl s

theorem storeBase_kept (x : Iss) (n : Nat) (fails : Fails) (s : State) : s.Kept (storeBase x n fails s) :=
  .foldl (storeLane_kept x n fails) _ _

/-! ## Retirement by a register write -/

theorem State.retireBits_kept (s : State) (m v : Nat) : s.Kept (s.retireBits m v) := by
  refine .foldl (fun s i => ?_) _ _
  dsimp only
  split
  · exact (s.beforeRetire_held _).kept.keep _
  · exact .refl s

end Sys2Proof.Machine
end

