-- ==== Sys2Proof/Laws/Keeps.lean ====
section
/-! SUPPORT. What an answer keeps: for each shared form of a meaning (a guard, a message, an acknowledgement, an instruction
issued to the lanes of a group) one lemma that its next state keeps the build, the queue and the form of memory. -/

namespace Sys2Proof.Machine

open Sys2Proof

/-- Every next state an answer gives is one `s` keeps. -/
structure Keeps (s : State) (r : Result) : Prop where
  kept : ∀ u, r = .next u → s.Kept u

theorem Keeps.next {s t : State} (h : s.Kept t) : Keeps s (.next t) := ⟨fun u e => by cases e; exact h⟩
theorem Keeps.fault (s : State) (f : Fault) : Keeps s (.fault f) := ⟨fun u e => by cases e⟩
theorem Keeps.refused (s : State) (f : Refusal) : Keeps s (.refused f) := ⟨fun u e => by cases e⟩
theorem Keeps.settle {s base : State} (t : State) (h : s.Kept base) : Keeps s (settle base t) := ⟨fun _ e => settle_kept h e⟩
theorem Keeps.onUnit {s : State} {b : Bool} {r : Result} (h : Keeps s r) : Keeps s (onUnit b r) := by
  unfold Machine.onUnit; split
  · exact h
  · exact .fault _ _
theorem Keeps.whenDue {s t : State} {b : Bool} {r : Result} (k : s.Kept t) (h : Keeps s r) : Keeps s (whenDue t b r) := by
  unfold Machine.whenDue; split
  · exact h
  · exact .next k
theorem Keeps.whenOpen {s t : State} {r : Result} (k : s.Kept t) (h : Keeps s r) : Keeps s (whenOpen t r) := .whenDue k h
theorem Keeps.onAcc {s t : State} {p n : Nat} {w : Bool} {f : Acc → Result} (k : s.Kept t) (h : ∀ a, Keeps s (f a)) : Keeps s (onAcc t p n w f) := by
  unfold Machine.onAcc; split; exact .next k; split
  · exact h _
  · exact .fault _ _

theorem State.Kept.of_eq {s t : State} (a : t.build = s.build) (b : t.pending = s.pending) (c : t.mem = s.mem) : s.Kept t :=
  ⟨a, b, fun w => by rw [c]; exact w⟩

theorem State.arrive_kept (s : State) (c : Nat) (m : Msg) : s.Kept (s.arrive c m) := .of_eq rfl rfl rfl
theorem State.noteTaken_kept (s : State) (c : Byte) (m : Msg) : s.Kept (s.noteTaken c m) := .of_eq rfl rfl rfl
theorem State.health_kept (s : State) (a b c d : Nat) (e : List Byte) : s.Kept (s.health a b c d e) := .of_eq (by simp) (by simp) (by simp)
theorem State.security_kept (s : State) (a b c d : Nat) : s.Kept (s.security a b c d) := by
  unfold State.security; exact .of_eq (by simp) (by simp) (by simp)
theorem State.capture_kept (s : State) (c : Byte) (m : Msg) : s.Kept (s.capture c m) := by
  unfold State.capture; dsimp only; split <;> exact .of_eq rfl rfl rfl
theorem State.rightsEvent_kept (s : State) (c : Byte) (m : Msg) : s.Kept (s.rightsEvent c m) := by
  unfold State.rightsEvent; split; exact s.security_kept ..; exact .refl s
theorem State.judgeMsg_kept (s : State) (ty : Byte) (r : Nat) (body : State → Bool) (m : Msg) : s.Kept (s.judgeMsg ty r body m).2 := by
  unfold State.judgeMsg; dsimp only
  split
  · dsimp only; split
    · exact .of_eq rfl rfl rfl
    · exact .refl s
  split; exact .refl s
  split; exact .refl s
  split
  · dsimp only; split
    · exact (s.capture_kept ty m).trans (State.rightsEvent_kept _ _ _)
    · exact s.capture_kept ty m
  split; exact s.capture_kept ty m
  split; exact s.capture_kept ty m
  split <;> exact s.capture_kept ty m

theorem Keeps.ingress {ty : Byte} {r : Nat} {body : State → Bool} {act : State → Result} {m : Msg} {s : State}
    (h : ∀ t, s.Kept t → Keeps s (act t)) : Keeps s (ingress ty r body act m s) := by
  unfold Machine.ingress
  refine .onUnit (.whenDue (.refl s) ?_)
  have k := (s.arrive_kept (m.cls.toNat % 4) m).trans (State.judgeMsg_kept (s.arrive (m.cls.toNat % 4) m) ty r body m)
  dsimp only
  split
  · exact .settle _ (.refl s)
  · rename_i s2 e
    rw [e] at k
    exact h _ (k.trans (s2.noteTaken_kept ty m))

theorem State.act_kept (s : State) (i n : Nat) : s.Kept (s.act i n) := .of_eq rfl rfl rfl
/-! ## Instructions (Operands.lean) -/

theorem State.modLanes_kept (s : State) (pl : Place) (l : List Nat) (f : Thread → Thread) : s.Kept (s.modLanes pl l f) :=
  State.Kept.foldl (f := fun s l => s.modThread pl l f) (fun _ _ => .of_eq rfl rfl rfl) l s

theorem State.takeSlot_kept (s : State) (pl : Place) (c : Ctx) (a : Bool) : s.Kept (s.takeSlot pl c a) := .of_eq rfl rfl rfl
theorem faultOf_keeps {s base : State} (x : Iss) (l k : Nat) (h : s.Kept base) : Keeps s (faultOf base x l k) := .settle _ h
theorem faultAt_keeps {s base : State} (x : Iss) (k : Nat) (h : s.Kept base) : Keeps s (faultAt base x k) := .settle _ h
theorem finish_keeps {s base : State} (p : Place) (t : State) (h : s.Kept base) : Keeps s (finish base p t) := .settle _ h
theorem issue_keeps {c o : Nat} {u : Uses} {pl : Place} {s : State} {body : Iss → State → Result}
    (h : ∀ x t, s.Kept t → Keeps s (body x t)) : Keeps s (issue c o u pl s body) := by
  unfold issue
  refine .onUnit ?_
  split
  · exact .next (.refl s)
  refine .whenDue (.refl s) ?_
  split
  · exact .next (.refl s)
  split
  · exact .next (.refl s)
  dsimp only
  have k1 := fun a => s.takeSlot_kept pl ‹Ctx› a
  have k2 := fun a l (f : Thread → Thread) n => ((k1 a).trans (State.modLanes_kept _ pl l f)).trans (State.act_kept _ 4 n)
  split
  · exact faultAt_keeps _ _ (k1 _)
  split
  · exact faultAt_keeps _ _ (k1 _)
  split
  · exact .next (.refl s)
  split
  · exact faultOf_keeps _ _ _ (k2 _ _ _ _)
  split
  · exact faultAt_keeps _ _ (k2 _ _ _ _)
  · exact h _ _ (k2 _ _ _ _)
theorem runLanes_keeps {x : Iss} {s t base : State} {f : Thread → Option Nat} {e : State → Nat → Thread → State}
    (k : s.Kept t) (h : s.Kept base) : Keeps s (runLanes x t base f e) := by
  unfold runLanes; split; exact faultOf_keeps _ _ _ k; exact finish_keeps _ _ h
theorem runGroup_keeps {x : Iss} {s t : State} {m : Bool} {e : List Nat → State → Result}
    (k : s.Kept t) (h : ∀ a, Keeps s (e a t)) : Keeps s (runGroup x t m e) := by
  unfold runGroup
  dsimp only
  repeat' split
  all_goals first
    | exact faultAt_keeps _ _ k
    | exact finish_keeps _ _ k
    | exact h _

/-- Writes through the home bank, one after another. -/
theorem homeWrites_kept (l : List (Nat × List Byte)) (s : State) : s.Kept (l.foldl (fun t x => t.homeWrite x.1 x.2) s) :=
  State.Kept.foldl (fun s _ => (s.homeWrite_held _ _).kept) l s

theorem landAll_kept (l : List Acc) (s : State) : s.Kept (l.foldl State.landAcc s) :=
  State.Kept.foldl (fun s x => (s.landAcc_held x).kept) l s

/-- What is kept holds the invariant. -/
theorem State.Kept.inv {s t : State} (h : s.Kept t) (i : s.inv = true) : t.inv = true := by
  simp only [State.inv, Bool.and_eq_true] at i ⊢
  exact ⟨by rw [h.build]; exact i.1, h.wf i.2⟩

end Sys2Proof.Machine
end

