-- ==== Sys2Proof/Tests/Slice0.lean ====
section
/-! SUPPORT. Tests: an ill-formed command for each check of WellFormed, small states that meet the hypotheses of each statement,
and single commands whose outcome the manual's own examples and tables give. -/

-- One declaration at a time: checks that run side by side would exceed the memory a check of the package may use.
set_option Elab.async false

namespace Sys2Proof.Tests

open Sys2Proof Sys2Proof.Machine

/-! ## Small states -/

/-- A partition with one window over the first 256 MiB, its journal on. -/
def aPart : Part :=
  { st := .loaded, liveMax := 16, quotaCtx := 64, jrnl := { base := 0x10000, jlog2 := 10, en := true }
    wins := [(0, { base := 0, limit := 0xFFFF000, tgt := 0, en := true, rd := true, wr := true })] }

/-- An LW4-64 in OPEN at TB 2 ms with one port, one stream, one partition and five admitted slices. -/
def up : State :=
  { build := { clusters := 4, dlinks := 2, plru := false }
    boot := { porst := false, phase := .opened, openedOnce := true }
    tbu := { tb := 2000000, lock := true, taken := true, window := some 0, wall := 3600000000000 }
    ports := [(0, { en := true, up := true, egress := { ctrl := 9, work := 9, resp := 9, dlv := 9 }
                    ingress := { ctrl := 32, work := 128, resp := 16 } })]
    mports := (List.range 8).map fun n => (n, { en := true })
    strms := [(1, { en := true, gen := 1, rights := 0xFF, anysrc := true })]
    parts := [(0, aPart)]
    slices := [0, 1, 16, 32, 48].map fun n => (n, { st := .admitted })
    elapsed := 2000000 }

/-- A message of a type on stream 1. -/
def msg (type : Byte) (seq : Word) (payload : List Byte) : Msg :=
  { port := 0, pclk := 1, flags := 0, stream := 1, sgen := 1, cls := BitVec.ofNat 8 (classOfType type), seq := seq, peer := 5
    payload := payload }

def zeros (n : Nat) : List Byte := List.replicate n 0

/-- The state a command leads to. -/
def after (c : Instr) (s : State) : State := match exec c s with | .next t => t | _ => s

/-- A command goes on. -/
def goes (c : Instr) (s : State) : Bool := match exec c s with | .next _ => true | _ => false

/-! ## Well-formed commands -/

theorem test_wf_good : (Instr.deposit (msg 1 1 (zeros 64))).wf = true ∧ (Instr.forward ⟨0, 0, 0, 0, 0, 0, 0, []⟩).wf = true ∧
    (Instr.iadd ⟨255, 15, 31⟩).wf = true := by decide
theorem test_wf_fport : (Instr.deposit { msg 1 1 [] with port := 64 }).wf = false := by decide
theorem test_wf_payload : (Instr.status { msg 1 1 [] with payload := List.replicate 4097 0 }).wf = false := by decide +kernel
theorem test_wf_packet : (Instr.forward ⟨4, 0, 0, 0, 0, 0, 0, []⟩).wf = false := by decide
theorem test_wf_place_slice : (Instr.iadd ⟨256, 0, 0⟩).wf = false := by decide
theorem test_wf_place_slot : (Instr.iadd ⟨0, 16, 0⟩).wf = false := by decide
theorem test_wf_place_group : (Instr.iadd ⟨0, 0, 32⟩).wf = false := by decide
theorem test_wf_cluster : (Instr.batchRelease 16).wf = false := by decide
theorem test_wf_slice : (Instr.sliceFault 256).wf = false := by decide
theorem test_wf_part : (Instr.journalFormat 32 0).wf = false := by decide
theorem test_wf_port_of_credit : (Instr.fabPortEnable 64 0).wf = false := by decide
theorem test_wf_class : (Instr.egressCreditReturn 0 4).wf = false := by decide
theorem test_wf_mport : (Instr.homeBankWrite 32 0).wf = false := by decide
theorem test_wf_lanes : (Instr.ld ⟨0, 0, 0⟩ [(32, [])]).wf = false := by decide
theorem test_wf_sensor : (Instr.thermalTrip 0 4 0).wf = false := by decide
theorem test_wf_bist : (Instr.bistDone [256] []).wf = false ∧ (Instr.bistDone [] [16]).wf = false := by decide
theorem test_wf_ring_scan : (Instr.ringScanDone (some 32) []).wf = false := by decide
theorem test_wf_link : (Instr.linkDown 4).wf = false := by decide
theorem test_wf_die : (Instr.forwardingResume 128).wf = false := by decide
theorem test_wf_lead : (Instr.leadWatchdog 32).wf = false := by decide
theorem test_wf_pool : (Instr.poolEnable 0 16 0).wf = false := by decide
theorem test_wf_thermal : (Instr.thermalStep [(64, 0)]).wf = false := by decide
theorem test_wf_margin : (Instr.marginSample [(256, 0)]).wf = false := by decide

/-- No row of the table has bits, so no word spells a command. -/
theorem test_no_word_spells_a_command : decodeTableWord 32 0 = none ∧ (State.reset.withFetchWord 32 0) = State.reset := by decide

/-! ## Hypotheses that are met: the machine as a whole, time, power -/

theorem met_StepKeepsInvariant : State.reset.inv = true ∧ ∃ t, step State.reset = .next t := ⟨by decide, _, rfl⟩

theorem met_TimeBaseTicks : up.boot.porst = false ∧ up.tbu.slew = none ∧ up.tbu.notick = false ∧
    ({ up with tbu := { up.tbu with notick := true } } : State).tbu.ticksBack = false ∧
    (let s : State := { up with tbu := { up.tbu with slew := some 1999995 } }
     s.tbu.slew = some 1999995 ∧ 1999995 + 8 < s.tbu.tb.toNat + 4 ∧ s.tbu.tb.toNat + 4 < 2 ^ 64) ∧ up.tbu.tb.toNat + 4 ≤ 1999996 + 8 ∧
    up.boot.phase ≠ .sync ∧ State.reset.tbu.taken = false ∧ up.tbu.window = some 0 ∧ 0 + 1000064 ≤ up.elapsed ∧
    ({ up with boot := { up.boot with phase := .sync }, tbu := {} } : State).deps = [] ∧ up.pending = [] := by decide

theorem met_SyncWords : up.tbu.taken = true ∧ up.tbu.lock = true ∧ up.boot.phase ≠ .sync ∧
    (2000001 : Dword).toNat % 1000000 ≠ 0 ∧ (1000000 : Dword).toNat + 65536 < up.tbu.tb.toNat ∧
    (2000000 : Dword) = up.tbu.tb ∧ (2000000 : Dword).toNat % 1000000 = 0 ∧ up.tbu.tb.toNat < (3000000 : Dword).toNat ∧
    (let s : State := { up with tbu := { up.tbu with tb := 2065536 } }
     (2000000 : Dword).toNat < s.tbu.tb.toNat ∧ s.tbu.tb.toNat ≤ (2000000 : Dword).toNat + 65536) ∧
    (let s : State := { up with tbu := { up.tbu with lock := false } }
     s.tbu.taken = true ∧ s.tbu.lock = false ∧ s.tbu.tb.toNat ≤ (2000000 : Dword).toNat ∧ (1000000 : Dword).toNat < s.tbu.tb.toNat) ∧
    up.isOpen = true := by decide

/-- Each case of R363 at its boundary, by the words of the rule. -/
theorem test_sync_word_fault : (after (.syncWord 1934464) { up with tbu := { up.tbu with tb := 2000001 } }).tbu.fault = true := by decide
theorem test_sync_word_slews_at_65536 :
    (after (.syncWord 2000000) { up with tbu := { up.tbu with tb := 2065536 } }).tbu.slew = some 2000000 := by decide
theorem test_sync_word_faults_at_65537 :
    (after (.syncWord 2000000) { up with tbu := { up.tbu with tb := 2065537 } }).tbu.lock = false := by decide

def tillOn : State :=
  { up with tillCtl := { en := true, irqEn := true, period := 60, bhi := 3540000000000 }
            parts := [(0, { aPart with till := some { start := 100 } })] }

theorem met_WallClockAndTill : up.isOpen = true ∧ (tillOn.part 0).till = some { start := 100 } ∧ (0 : Nat) < 32 ∧
    (1 : Word).getLsbD 0 = true ∧ up.tillCtl.en = false := by decide
theorem met_TillSnapshots : tillOn.tillCtl.en = true ∧ tillOn.tillCtl.next ≤ tillOn.tbu.wall.toNat ∧ tillOn.tillCtl.irqEn = true ∧
    tillOn.boot.openedOnce = true ∧ (tillOn.part 0).till = some { start := 100 } ∧ (0x80000000 : Word).getLsbD 31 = true := by decide

/-- Table 14.8: a wall clock at 3,600 s closes the interval whose B_hi is 3,540 s, with BOUNDARY 3,600 s and SEQ 1. -/
theorem test_table_14_8_first_close :
    let t := after .tillBoundaryClose tillOn
    (t.part 0).snap.seq = 1 ∧ (t.part 0).snap.bound = 3600000000000 ∧ (t.part 0).snap.skipped = 0 ∧ t.irq = true := by decide +kernel

def shaking (sh : Shake) : State := { up with pwr := { up.pwr with shake := sh, wclkReq := true, vidReq := true } }

theorem met_PowerHandshakes : (shaking .clk).pwr.shake = .clk ∧ true = (shaking .clk).pwr.wclkReq ∧
    ((shaking .vidUp).pwr.shake = .vidUp ∧ true = (shaking .vidUp).pwr.vidReq) ∧ (shaking .vidDown).pwr.shake = .vidDown ∧
    ((shaking .clk).pwr.shake ≠ .idle ∧ (shaking .clk).pwr.shakeLate = false ∧ (shaking .clk).pwr.shakeStart + 2000 < (shaking .clk).elapsed) ∧
    (let s : State := { up with pwr := { up.pwr with pendCap := some (100, 2000000) } }
     s.pwr.pendCap = some (100, 2000000) ∧ (2000000 : Dword).toNat ≤ s.tbu.tb.toNat) ∧
    up.powered = true ∧ up.pwr.estAt + 1000 ≤ up.elapsed ∧ up.pwr.relAt + 10000 ≤ up.elapsed := by decide

/-- `up` with P10 far above its cap, the budget at a position. -/
def hungry (pos : Nat) : State :=
  { up with boot := { up.boot with image := { up.boot.image with vf := [(84, 10)] } }
            pwr := { up.pwr with bcap := 1, ests := List.replicate 10 100000, budgetPos := pos, code := 72 } }

/-- Whatever the estimate, the mean of ten stays above the cap of 1. -/
theorem hungry_over (pos e : Nat) : ((hungry pos).addEstimate e).ce < ((hungry pos).addEstimate e).p10 := by
  show 1 < (100000 + (100000 + (100000 + (100000 + (100000 + (100000 + (100000 + (100000 + (100000 + (e + 0)))))))))) / 10
  omega

theorem hungry_tick (pos : Nat) (h : pos = 0 ∨ pos = 4) : exec .powerEstimateTick (hungry pos) =
    settle (hungry pos) ((hungry pos).addEstimate (hungry pos).estimate).advanceBudget.retune := by
  have j (e : Nat) : ((hungry pos).addEstimate e).judgeFloor = (hungry pos).addEstimate e := by
    unfold State.judgeFloor
    rw [decide_eq_true (hungry_over pos e)]
    rcases h with rfl | rfl <;> rfl
  show execPowerEstimateTick (hungry pos) = _
  unfold execPowerEstimateTick whenDue
  rw [if_pos (by rcases h with rfl | rfl <;> decide)]
  simp only [j]
  rw [if_pos (by rw [decide_eq_true (hungry_over _ _)]; rfl)]

/-- Each case of a tick over the cap: a step that is none of the clock's, and a clock step whose handshakes the tick begins.
Whether a tick is over the cap turns on the estimate, a free value (log 10). -/
theorem met_EstimateTicks : (hungry 0).pwr.shake = .idle ∧ clockStep ((hungry 0).stepDown 0) = false ∧ clockStep ((hungry 4).stepDown 4) = true ∧
    ((hungry 0).ce < (after .powerEstimateTick (hungry 0)).p10) ∧ ((hungry 4).ce < (after .powerEstimateTick (hungry 4)).p10) ∧
    (after .powerEstimateTick (hungry 4)).pwr.shake ≠ .idle := by
  refine ⟨by decide, by decide, by decide +kernel, ?_, ?_, ?_⟩
  · simp only [after, hungry_tick 0 (.inl rfl)]; exact hungry_over 0 _
  · simp only [after, hungry_tick 4 (.inr rfl)]; exact hungry_over 4 _
  · simp only [after, hungry_tick 4 (.inr rfl)]; exact nofun

theorem met_ThermalMargin : 0 < up.nclusters ∧ 3 < 4 ∧ 165 ≤ (165 : Byte).toNat ∧ (164 : Byte).toNat < 165 ∧ 15 < 4 * up.nclusters ∧
    up.pwr.thermAt + 100000 ≤ up.elapsed ∧ up.pwr.targetReading = 140 ∧ up.pwr.marginMs < up.tbu.tb.toNat / 1000000 ∧
    (0, (3 : Byte)) ∈ [(0, (3 : Byte))] ∧ (up.slice 0).st = .admitted := by decide

/-- R347: at 141 (one above TARGET 100 °C) the thermal position moves; at 138 (2 °C below) it moves back. -/
theorem test_thermal_step_down : (after (.thermalStep [(0, 141)]) up).pwr.thermPos = 1 := by decide +kernel
theorem test_thermal_step_back :
    (after (.thermalStep [(0, 138)]) { up with pwr := { up.pwr with thermPos := 1 } }).pwr.thermPos = 0 := by decide +kernel

def squalling : State := after (.squallBegin 0) up

theorem met_Squalls : 63 < up.nslices ∧ up.powered = true ∧ (up.slice 63).stretched = false ∧ (squalling.slice 0).stretched = true ∧
    squalling.reason 3 = true ∧ (∃ e ∈ squalling.slices, e.2.stretched = true) ∧
    (let t : State := { squalling with wclk := 256 }
     (t.slice 0).stretched = true ∧ (t.slice 0).stretchedAt + 256 ≤ t.wclk ∧
       let s := after (.squallEnd 0) t
       s.reason 3 = true ∧ (∀ e ∈ s.slices, e.2.stretched = false) ∧ s.elapsed < s.pwr.lastStretch + 1000 ∧
         s.pwr.lastStretch + 1000 ≤ s.elapsed + 1000) := by decide +kernel

/-- R345: a stretch lasts until 256 wclk have passed. -/
theorem test_stretch_lasts_256_wclk : (after (.squallEnd 0) { squalling with wclk := 255 }) = { squalling with wclk := 255 } ∧
    ((after (.squallEnd 0) { squalling with wclk := 256 }).slice 0).stretched = false := by decide +kernel

def hinted : State :=
  { up with pwr := { up.pwr with hints := [{ start := 2010000, stop := 2020000, arrived := 2000000, hclass := 1, level := 166 }] } }
def ramped : State := { after (.hintPreRamp 0) hinted with elapsed := 2012000 }
/-- Three of the five admitted slices have just lost their work. -/
def rushed : State := { up with slices := [0, 1, 16, 32, 48].map fun n => (n, { st := .admitted, busy := decide (n < 32) }) }
def aFloor : Drizzle := ⟨100, 0, 600⟩

theorem met_DrizzleAndHints : rushed.powered = true ∧ rushed.pwr.floor ≠ 0 ∧ rushed.idleRush = true ∧ up.idleRush = false ∧
    (let s : State := { up with pwr := { up.pwr with drizzle := some aFloor } }
     s.pwr.drizzle = some aFloor ∧ s.floorOf aFloor ≤ s.pwr.bare) ∧
    hinted.pwr.hints[0]? = some ⟨2010000, 2020000, 2000000, 1, 166, none⟩ ∧
    2010000 ≤ hinted.elapsed + 1000 * hinted.pwr.lead.toNat ∧ 1 ≤ hinted.pwr.lead.toNat ∧ hinted.elapsed < 2010000 + 2000 ∧
    (∃ h r, ramped.pwr.hints[0]? = some h ∧ h.ramp = some r ∧ h.start + 2000 ≤ ramped.elapsed ∧ ramped.pwr.bare < r.target) ∧
    2020000 ≤ ({ ramped with elapsed := 2020000 } : State).elapsed := by
  refine ⟨by decide, by decide, by decide +kernel, by decide +kernel, by decide +kernel, rfl, by decide, by decide, by decide, ⟨_, _, rfl, rfl, ?_⟩, by decide⟩
  decide +kernel

/-! ## Start-up -/

/-- Flash and start-up states with which a slot is selected. -/
def loading (b : Boot) : State := { boot := { b with porst := false, phase := .load } }

def bfpt (d1 d7 : Nat) : List Byte :=
  leBytes 4 0x50444653 ++ zeros 4 ++ [0, 0, 1, 9] ++ leBytes 3 16 ++ [0xFF] ++
    (List.range 9).flatMap fun k => leBytes 4 (if k = 1 then d1 else if k = 7 then d7 else 0)

def committed (c : Commit) : State :=
  { loading { sfdpOk := true } with flash := (List.range 64).map fun i => (i, byteAt c.bytes i) }

theorem met_ResetsClearAndKeep : State.reset.sec.busy = none ∧ State.reset.boot.updRun = false ∧ State.reset.boot.porst = true ∧
    ({ State.reset with boot := { State.reset.boot with porst := false } } : State).boot.phase = .fuse ∧
    up.boot.openedOnce = true ∧ up.boot.porst = false ∧ up.boot.phase ≠ .tripped ∧ up.boot.phase ≠ .failed ∧
    (1 : Word).getLsbD 0 = true ∧ up.boot.phase = .opened ∧ up.boot.updRun = false := by decide

theorem met_DiscoveryAndSlotSelection : (loading {}).boot.sfdpOk = false ∧ bfptOf (loading {}).sfdp = none ∧
    (∃ b, bfptOf (bfpt (2 ^ 24 - 2) 12) = some b ∧ bfptBits b < 2 ^ 24) ∧ (∃ b, bfptOf (bfpt (2 ^ 24 - 1) 13) = some b ∧ 12 ∉ bfptSizes b) ∧
    (∃ b, bfptOf (bfpt (2 ^ 24 - 1) 12) = some b ∧ 2 ^ 24 ≤ bfptBits b ∧ 12 ∈ bfptSizes b) := by
  refine ⟨rfl, rfl, ⟨_, rfl, ?_⟩, ⟨_, rfl, ?_⟩, ⟨_, rfl, ?_⟩⟩ <;> decide +kernel

theorem met_SlotSelection_none : let s := loading { sfdpOk := true }
    s.newest = none ∧ s.boot.trying = none ∧ s.boot.recOut = none := by decide +kernel
theorem met_SlotSelection_confirmed :
    let c : Commit := ⟨1, 1, 0, 0xFF, 0, 7, 0⟩
    (committed c).newest = some (0, c) ∧ c.trial = 0xFF ∧ (committed c).boot.trying = none := by decide +kernel
theorem met_SlotSelection_trial :
    let c : Commit := ⟨1, 1, 0, 1, 2, 7, 8⟩
    let d : Commit := ⟨1, 2, 0, 1, 3, 7, 8⟩
    let s (k : Nat) : State := { committed c with boot := { (committed c).boot with recOut := some k } }
    (committed c).newest = some (0, c) ∧ c.trial ≠ 0xFF ∧ c.attempts < 3 ∧ (committed d).newest = some (0, d) ∧ ¬ d.attempts < 3 ∧
    (s 2).newest = some (0, c) ∧ (s 2).boot.recOut = some 2 ∧ (s 4).boot.recOut = some 4 ∧ (s 4).boot.trying = none := by
  decide +kernel

def trying (b : Boot) : State := { boot := { b with porst := false, phase := .auth, trying := some 0 } }

theorem met_Authentication_fails : (loading { trying := some 0 }).boot.phase = .load ∧ (loading { trying := some 0 }).boot.trying = some 0 ∧
    (trying {}).judgeSlot 0 = some 3 ∧ (trying {}).boot.trying = some 0 ∧ (trying {}).boot.phase = .auth ∧
    (trying {}).boot.tryTrial = false ∧ (∃ x ∈ (trying { unusable := [(1, 3)] }).boot.unusable, x.1 = 1 - 0) ∧
    (∀ x ∈ (trying {}).boot.unusable, x.1 ≠ 1 - 0) ∧ 0 ≠ 1 - 0 ∧ (trying { tryTrial := true }).boot.tryTrial = true := by decide +kernel

theorem met_AuthenticationToRingScan (p : EngState) : let s : State := { up with boot := { up.boot with phase := p, warmUp := true } }
    let c : State := { up with boot := { up.boot with phase := p } }
    s.boot.phase = p ∧ s.boot.warmUp = true ∧ c.boot.warmUp = false ∧ c.tbu.lock = true ∧ c.deps = [] ∧
      ({ c with tbu := {} } : State).tbu.lock = false ∧ (∀ k, k < 32 → (({ s with parts := [] } : State).part k).jrnl.en = false) ∧
      (∃ n, n < s.nslices ∧ n ∉ [1] ∧ n / 16 ∉ [3]) ∧ ∀ n, n < s.nslices → n ∈ ([] : List Nat) ∨ n / 16 ∈ List.range 16 := by
  refine ⟨rfl, rfl, rfl, rfl, rfl, rfl, fun _ _ => rfl, ⟨0, by show 0 < 64; omega, by simp⟩, fun n h => .inr ?_⟩
  have : n < 64 := h
  simp; omega


/-! ## Registers, fuses, the TAP -/

theorem met_RegisterAccess : (0x020008 : BitVec 24).toNat / 4 = (0x02000B : BitVec 24).toNat / 4 ∧ 0x010000 ≤ (0x010000 : BitVec 24).toNat ∧
    up.slicectlAt (wordOff 0x010000) = none ∧ State.reset.isOpen = false ∧ 0x302000 ≤ (0x302000 : BitVec 24).toNat ∧
    up.nclusters ≤ ((0x140000 : BitVec 24).toNat - 0x100000) / 0x10000 ∧ up.isOpen = true ∧ 31 < 32 ∧ 3 < up.nclusters ∧
    (0x010000 : BitVec 24).toNat / 4 ≠ 0x020020 / 4 ∧ ¬ (0x020100 ≤ (0x010000 : BitVec 24).toNat) := by decide

/-- R14: the high word of a counter is the one latched when its low word was read. -/
theorem test_latch :
    let s := after (.counterLowWordRead 0x020018) { up with pwr := { up.pwr with energy := 0x1FFFFFFFF } }
    s.mportRdata = 0xFFFFFFFF ∧
      (after (.counterLowWordRead 0x02001C) { s with pwr := { s.pwr with energy := 0x200000000 } }).mportRdata = 1 := by decide +kernel

def pair (st : PState) (lock : Bool) : State :=
  { up with parts := [(0, { st := st, lockEn := lock, lockPeer := 1 }), (1, { lockEn := lock, lockRole := true })] }

theorem met_PairLocking : (0x80000001 : Word).toNat % 32 = 1 ∧ (0x80000001 : Word).getLsbD 31 = true ∧ ((pair .empty false).part 0).st = .empty ∧
    ((pair .isolated false).part 0).st = .isolated ∧ ((pair .empty false).part 1).st = .empty ∧ ((pair .empty false).part 1).lockEn = false ∧
    ((pair .loaded false).part 0).st ≠ .empty ∧ ((pair .empty true).part 1).lockEn = true ∧ (0 : Word).getLsbD 31 = false ∧
    ((pair .empty true).part 0).lockRole = false ∧ ((pair .empty true).part 0).lockPeer.toNat = 1 ∧ (pair .empty true).isOpen = true := by decide

theorem met_FusesAndTap : (0 : Word).toNat / 65536 ≠ 0xF05E ∧ (0xF05E0001 : Word).toNat % 4 = 1 ∧ (0xF05E0102 : Word).toNat % 4 = 2 ∧
    (0xF05E0102 : Word).toNat / 256 % 4 ≠ up.boot.image.keyIdx ∧ (∃ k, k < 4 ∧ k ≠ 1 ∧ up.sensed.revoke.getLsbD k = false) ∧
    (0xF05E0002 : Word).toNat / 256 % 4 = up.boot.image.keyIdx ∧
    (let s : State := { up with sensed := { up.sensed with revoke := 13 } }
     ∀ k, k < 4 → k ≠ 1 → s.sensed.revoke.getLsbD k = true) ∧
    (let s : State := { up with sec := { up.sec with busy := some (.revoke 3) } }
     s.sec.busy = some (.revoke 3) ∧ 3 < 4) ∧
    ({ up with sensed := { up.sensed with dbgKill := true } } : State).sensed.dbgKill = true ∧ up.sensed.dbgKill = false := by
  refine ⟨by decide, by decide, by decide, by decide, ⟨0, by decide⟩, by decide, ?_, by decide, rfl, rfl⟩
  intro s k h; have : k = 0 ∨ k = 1 ∨ k = 2 ∨ k = 3 := by omega
  rcases this with rfl | rfl | rfl | rfl <;> decide

/-! ## Ports, streams, HEALTH, messages -/

theorem met_FabricPortsAndCredits : 0 < up.nfports ∧ up.nfports ≤ 63 ∧ (0 : Word).getLsbD 0 = false ∧ (1 : Word).getLsbD 0 = true ∧
    (up.port 0).en = true ∧ (up.port 1).en = false ∧ up.boot.phase ≠ .tripped ∧ (∀ e ∈ up.fab.egressQ, e.1.port = 0 → e.1.cls ≠ 3) ∧
    ({ up with boot := { up.boot with phase := .tripped } } : State).boot.phase = .tripped ∧
    (let s : State := { up with ports := [(0, { en := true, buf := [(0, 0), (1, 0)] })] }
     let o : OutMsg := ⟨0, 2, 2, 0, 1, 1, 1, 5, []⟩
     (s.port 0).buf = [] ++ (0, 0) :: [(1, 0)] ∧ (s.port 0).buf = [(0, 0)] ++ (1, 0) :: [] ∧ (∀ x ∈ [(0, 0)], x.1 ≠ 1) ∧
       (s.port 0).deferred = [] ∧ stageNext (s.cluster 0).bpHold (s.cluster 0).holdCred.toNat (s.tasks 0) = false ∧
       ({ s with fab := { s.fab with egressQ := [(o, 1)] } } : State).borderHolds (o, 1) = false ∧
       stageNext ({ s.cluster 0 with bpHold := true, holdCred := 0 }).bpHold 0 (s.tasks 0) = true) := by decide

theorem met_StreamsOpenAndClose : up.isOpen = true ∧ (0x80000000 : Word).getLsbD 31 = true ∧ (up.strm up.fab.idx.toNat).en = false ∧
    (up.strm up.fab.idx.toNat).closing = false ∧ up.openStreams < 4096 ∧ (0 : Word).getLsbD 31 = false ∧
    (∀ h ∈ up.fab.heldGates, h.stream ≠ up.fab.idx) ∧
    (let s : State := { up with fab := { up.fab with idx := 1 } }; (s.strm s.fab.idx.toNat).en = true) := by decide

/-- Bits held for the former generation of a stream that opens go. -/
theorem test_open_drops_held_gates : let s : State := { up with fab := { up.fab with idx := 2, heldGates := [⟨2, 1, 3, 1, []⟩, ⟨1, 1, 3, 1, []⟩] } }
    (after (.streamOpen 0x800000FF) s).fab.heldGates = [⟨1, 1, 3, 1, []⟩] := by decide +kernel
theorem met_StreamsOpen_full : let s : State := { up with strms := (List.range 4096).map fun k => (k + 1, ({ closing := true } : Stream)) }
    4096 ≤ s.openStreams ∧ (s.strm s.fab.idx.toNat).en = false ∧ (s.strm s.fab.idx.toNat).closing = false := by decide +kernel

def unwell : State := { up with fab := { up.fab with hEn := true, hq := [⟨0x20, 0, 0xFF, 2, 0, []⟩] } }

theorem met_StatusHealthAndDiscards : up.fab.hq.length < 64 ∧ unwell.fab.hq = ⟨0x20, 0, 0xFF, 2, 0, []⟩ :: [] ∧ unwell.isOpen = true ∧
    unwell.fab.hEn = true ∧ (unwell.port unwell.fab.hPort.toNat).en = true ∧ 0 < (unwell.port unwell.fab.hPort.toNat).egress.ctrl ∧
    up.fab.hq = [] ∧ up.portTakes 0 = true ∧ wellSized 0x0C (msg 0x0C 0 []) = true ∧ wellSized 0x0D (msg 0x0D 0 []) = true ∧
    ingressType 0x0A = false ∧ (0x01 : Byte) ≠ 0x03 ∧ anyState 0x0C = true ∧ anyState 0x01 = false ∧
    egressOnly 0x0E = true ∧ classOfType 0x0E ≠ 3 ∧ egressOnly 0x0A = false ∧
    (let s : State := { up with boot := { up.boot with phase := .sync } }; s.isOpen = false ∧ s.portTakes 0 = true) := by decide
theorem met_Health_full : 64 ≤ (List.replicate 64 (⟨0, 0, 0, 0, 0, []⟩ : Health)).length := by decide

theorem met_MessageChecks : let m := msg 1 1 (zeros 64)
    m.port < up.nfports ∧ up.portTakes m.port = true ∧ State.reset.boot.phase ≠ .opened ∧ wellSized 1 (msg 1 1 (zeros 63)) = false ∧
    wellSized 1 m = true ∧ (up.strm 2).en = false ∧ ({ m with sgen := 2 } : Msg).sgen ≠ (up.strm 1).gen ∧ (up.strm 1).lastAcc ≠ 0xFFFFFFFF ∧
    ({ m with port := 1 } : Msg).port ≠ (up.strm 1).port.toNat ∧ ({ up.strm 1 with rights := 0xFE }).rights.getLsbD 0 = false ∧
    ({ up.strm 1 with anysrc := false, owner := 4 }).owner.toNat ≠ m.peer.toNat % 2 ^ 20 ∧ (up.strm 1).rights.getLsbD 0 = true ∧
    (up.part 0).lockEn = false ∧ up.rivals m = [] ∧ (up.part 1).st ≠ .loaded := by decide


def hintBody : List Byte := leBytes 4 1000 ++ leBytes 4 1000 ++ [1, 128] ++ zeros 6
def waitingHint (n c : Nat) : Hint := ⟨2001000 + n, 2002000 + n, 2000000, c, 9, none⟩
def tailMsg : Msg := msg 7 0 ([2, 0, 255, 15] ++ zeros 4)

theorem met_HintBudgetAndTail_passes : up.admits 8 2 (msg 8 0 hintBody) ∧ up.admits 9 3 (msg 9 0 (leBytes 8 100 ++ leBytes 8 2000000)) ∧
    up.admits 7 1 tailMsg ∧ ({ up with fab := { up.fab with mportOrders := [(0, .tail 0 5)] } } : State).admits 7 1 tailMsg := by
  refine ⟨?_, ?_, ?_, ?_⟩ <;> simp only [State.admits] <;> decide +kernel

theorem met_HintBudgetAndTail : hintOk hintBody = true ∧ up.pwr.hints.length < 4 ∧
    (waitingHint 999 1).overlaps (waitingHint 0 1) = true ∧ (waitingHint 1000 1).overlaps (waitingHint 0 1) = false ∧
    (∀ x ∈ List.replicate 4 (waitingHint 0 2), x.overlaps (waitingHint 0 1) = false) ∧
    up.budgetOk (leBytes 8 100 ++ leBytes 8 2000001) = true ∧
    fieldAt (leBytes 8 100 ++ leBytes 8 2000000) 8 8 ≤ up.tbu.tb.toNat ∧ up.tbu.tb.toNat < fieldAt (leBytes 8 100 ++ leBytes 8 2000001) 8 8 ∧
    byteAt tailMsg.payload 0 = 2 ∧ up.tailOverruled 0 (fieldAt tailMsg.payload 2 2) tailMsg.pclk = false ∧
    ({ up with fab := { up.fab with mportOrders := [(0, .tail 0 5)] } } : State).tailOverruled 0 (fieldAt tailMsg.payload 2 2) tailMsg.pclk = true := by
  decide +kernel

/-- An L2 line of partition 0 at partition address 0. -/
def cached : State := { up with clusters := [(0, { bank := { l2 := { lines := [⟨0, 0, 0, zeros 64, false, 0, none⟩] } } })] }

theorem met_TreeFences : let b := zeros 8 ++ leBytes 8 1
    cached.admits 0x0B 0 (msg 0x0B 0 b) ∧ fenceOk b = true ∧ lineOf 64 ∉ cached.cachedLines 0 ∧ 0 ∈ cached.cachedLines 0 ∧
    0 ∈ (cached.part 0).seenAt 0 ∧ fieldAt b 0 8 ≤ 0 ∧ 0 < fieldAt b 0 8 + 64 * fieldAt b 8 4 := by
  simp only [State.admits]; decide +kernel

/-- A line that two windows alias is dropped whichever of them the fence names (R49). -/
theorem test_fence_reaches_every_alias : let win (b t : Nat) : Win := { base := b, limit := b + 0xFFF, tgt := t, en := true, rd := true }
    let s : State := { cached with parts := [(0, { aPart with wins := [(0, win 0 0), (1, win 0x100000 0)] })] }
    ((after (.treeFence (msg 0x0B 0 (leBytes 8 0x100000 ++ leBytes 8 1))) s).cluster 0).bank.l2.lines = [] := by decide +kernel

/-! ## Die links -/

/-- Link 0 carries packets to die 3, forwarding is on. -/
def linked : State :=
  { up with links := [(0, { en := true, up := true, helloIn := true, helloOut := true })]
            dom := { routes := [(3, 8)], fwdEn := true, transits := [⟨7, 3, 0, 0, 0, [], 0, false, 2, some 2000000⟩] } }
/-- The same, its batch not yet acknowledged and refused so often. -/
def sentBatch (nacks : Nat) : State := { linked with dom := { linked.dom with transits := [⟨7, 3, 0, 0, 0, [], 0, false, nacks, none⟩] } }

def packet (dst : Byte) : Packet :=
  { link := 0, nmemb := 0, src := 3, dst := dst, part := 0, arg := 3, xfer := 7, payload := zeros 8 ++ leBytes 8 1 }

theorem met_ForwardingFromHome : let f : FwdQueue := ⟨3, 0, List.replicate 16 ⟨0, 0⟩⟩
    (({ linked with clusters := [(0, { fqs := [f] })] } : State).cluster 0).fqs.find? (fun f => f.die == 3 && f.part == 0) = some f ∧
    16 ≤ f.members.length ∧ linked.canForward 3 = true ∧ linked.canForward 4 = false ∧ (packet 0).link < linked.build.dlinks ∧
    linked.takesPkt (packet 0) = true ∧ linked.transit? 7 = some ⟨7, 3, 0, 0, 0, [], 0, false, 2, some 2000000⟩ ∧
    (⟨7, 3, 0, 0, 0, [], 0, false, 2, some 2000000⟩ : Transit).names (packet 0) = true ∧ linked.liveRoute 3 = some 0 ∧ 2000000 ≤ linked.elapsed ∧
    (sentBatch 3).transit? 7 = some ⟨7, 3, 0, 0, 0, [], 0, false, 3, none⟩ ∧ (sentBatch 3).takesPkt (packet 0) = true ∧
    0 + 10000 ≤ linked.elapsed ∧ linked.isOpen = true := by decide

theorem met_PacketsAtAnotherDie : linked.takesPkt (packet 0) = true ∧ linked.liveRoute 3 = some 0 ∧
    (linked.part 1).st ≠ .loaded ∧ linked.linkOpen 0 = true ∧ (packet 3).dst.toNat % 128 ≠ linked.die ∧ linked.liveRoute 4 = none ∧
    (packet 4).dst.toNat % 128 ≠ linked.die ∧ 8 < (9 : Byte).toNat ∧
    (let s : State := { linked with clusters := cached.clusters }
     s.takesPkt (packet 0) = true ∧ 0 ∈ s.cachedLines 0 ∧ 0 ∈ (s.part 0).seenAt 0 ∧
       0 < fieldAt (packet 0).payload 0 8 + 64 * fieldAt (packet 0).payload 8 4) := by decide


theorem met_LinkStates : 0 < up.build.dlinks ∧ (let s : State := { up with links := [(0, { en := true })] }
      (s.link 0).en = true ∧ (s.link 0).up = false) ∧ (linked.link 0).up = true ∧ linked.routeTo 3 = some 0 ∧ up.build.dlinks ≤ 3 ∧
    (8 : Word).getLsbD 3 = true ∧ (1 : Word).getLsbD 3 = false ∧ (1 : Word).getLsbD 0 = true ∧ linked.linkOpen 0 = true ∧
    (let s : State := { linked with dom := { linked.dom with down := [(3, 1999999)] } }
     s.dom.down.find? (·.1 == 3) = some (3, 1999999) ∧
       max (1999999 : Dword).toNat (s.link 0).helloTb.toNat / 1000000 < s.tbu.tb.toNat / 1000000) ∧ 8 < (9 : Byte).toNat := by decide

/-! ## IMAGE_WRITE, partitions, capture -/

def imageMsg (op slot dlen : Nat) : Msg :=
  msg 0x0F 0 ([BitVec.ofNat 8 op, BitVec.ofNat 8 slot] ++ leBytes 2 dlen ++ zeros 12 ++ zeros dlen)

theorem met_ImageWritesQueue : (∀ x ∈ [(1, 0), (2, 1), (3, 0), (4, 0)], up.imageOk x.1 (imageMsg x.1 1 x.2).payload = true) ∧
    up.imageOk 5 (imageMsg 5 0 0).payload = true ∧ up.boot.updQ.length < 4 ∧
    4 ≤ (List.replicate 4 (imageOpOf (imageMsg 1 1 0).payload)).length := by decide
theorem met_ImageWritesQueue_passes : up.admits 0x0F 5 (imageMsg 1 1 0) ∧ up.admits 0x0F 5 (imageMsg 2 1 1) ∧
    up.admits 0x0F 5 (imageMsg 5 0 0) := by simp only [State.admits]; decide +kernel

def updating (op : Nat) (b : Boot) : State :=
  { up with boot := { b with porst := false, phase := .opened, updQ := [⟨op, 1, 0, 5, [1]⟩], updRun := true } }

theorem met_ImageOperations : (updating 1 {}).boot.updQ = ⟨1, 1, 0, 5, [1]⟩ :: [] ∧ (updating 1 {}).isOpen = true ∧
    (updating 1 {}).boot.updRun = true ∧ (updating 1 {}).boot.updAt + 4 * (updating 1 {}).opMax ⟨1, 1, 0, 5, [1]⟩ ≤ (updating 1 {}).elapsed ∧
    (let s : State := { updating 1 {} with boot := { (updating 1 {}).boot with updRun := false } }; s.boot.updRun = false ∧ s.isOpen = true) ∧
    (∀ i, i < 1 → NMap.get 0xFF (updating 2 {}).flash (slotBase 1 + 0 + i) = 0xFF) ∧
    (let s : State := { updating 2 {} with flash := [(slotBase 1, 0)] }
     ∃ i, i < 1 ∧ NMap.get 0xFF s.flash (slotBase 1 + 0 + i) ≠ 0xFF) ∧ (updating 4 {}).boot.verified = none ∧
    (updating 4 { verified := some 4 }).boot.verified = some 4 ∧ (4 : Word) ≠ 5 ∧ (updating 4 { verified := some 5 }).boot.verified = some 5 ∧
    (updating 5 {}).boot.trialBoot = false ∧ (updating 5 { trialBoot := true }).boot.trialBoot = true := by
  refine ⟨rfl, rfl, rfl, by decide, ⟨rfl, rfl⟩, ?_, ⟨0, by decide⟩, rfl, rfl, by decide, rfl, rfl, rfl⟩
  intro i h; simp [updating, up, NMap.get]
theorem met_ImageOperations_verify : (updating 3 {}).judgeSlot 1 = some 3 := by decide +kernel

def reloadMsg (phase : Byte) : Msg := msg 0x10 0 ([0, phase] ++ zeros 14)
def isolated : State := { up with parts := [(0, { aPart with st := .isolated })] }
def loadingPart : State := { up with parts := [(0, { aPart with st := .loading, loadReq := some (0, 4096, aPart.wins) })] }

theorem met_PartitionReload_passes : up.admits 0x10 4 (reloadMsg 1) ∧ isolated.admits 0x10 4 (reloadMsg 2) := by
  refine ⟨?_, ?_⟩ <;> simp only [State.admits] <;> decide +kernel

theorem met_PartitionReload : up.reloadOk 1 (reloadMsg 1).payload = true ∧ up.mint.cur = none ∧
    isolated.reloadOk 2 (reloadMsg 2).payload = true ∧ (loadingPart.part 0).st = .loading ∧
    (loadingPart.part 0).loadReq = some (0, 4096, aPart.wins) ∧
    (loadingPart.modPart 0 fun v => { v with wins := aPart.wins }).rangeReady 0 0 4096 false = true := by decide +kernel

def captureMsg (op : Byte) : Msg := msg 0x11 0 ([0, op] ++ zeros 6 ++ zeros 8 ++ [16] ++ zeros 7)
def aRec : CapRec := ⟨0, 0, some 0, zeros 16, false⟩
def capturing (c : Cap) : State := { up with parts := [(0, { aPart with cap := { c with active := true } })] }
def replaying : State := { up with parts := [(0, { aPart with replay := some { base := 0, log2 := 16, startTb := 0 } })] }
/-- The same, with stream 1 one of another partition: check 6 refuses CAPTURE_CTL on a stream of a partition that replays (R393). -/
def stopping : State :=
  { replaying with parts := replaying.parts ++ [(1, aPart)], strms := [(1, { en := true, gen := 1, part := 1, rights := 0xFF, anysrc := true })] }

theorem met_CaptureControl_passes : up.admits 0x11 6 (captureMsg 1) ∧ (capturing {}).admits 0x11 6 (captureMsg 2) ∧
    up.admits 0x11 6 (captureMsg 3) ∧ stopping.admits 0x11 6 (captureMsg 4) := by
  refine ⟨?_, ?_, ?_, ?_⟩ <;> simp only [State.admits] <;> decide +kernel

theorem met_CaptureControl : up.captureOk 1 (captureMsg 1).payload = true ∧ (capturing {}).captureOk 2 (captureMsg 2).payload = true ∧
    up.captureOk 3 (captureMsg 3).payload = true ∧ stopping.captureOk 4 (captureMsg 4).payload = true := by decide +kernel

/-- A capture record's first 32 bytes (Table 14.7) at address 0: its length, flags, answer. -/
def recAt (num len flags : Nat) (answer : Byte) (m : List Byte) : State :=
  { replaying with mem := (List.range 64).filterMap fun i =>
      let b := byteAt (zeros 8 ++ leBytes 4 num ++ leBytes 2 len ++ [BitVec.ofNat 8 flags, answer] ++ m) i
      if b = 0 then none else some ⟨i, b⟩ }

theorem met_CaptureRecords : (capturing { queue := [aRec], log2 := 16 }).boot.phase ≠ .tripped ∧ aRec.answer.isSome = true ∧
    (capturing { queue := [aRec], log2 := 16 }).bordered 0 = false ∧
    (((capturing { log2 := 5 }).part 0).cap.place aRec.rlen).2.2 = false ∧
    (((capturing { log2 := 16 }).part 0).cap.place aRec.rlen).2.2 = true ∧
    (∀ w, ∃ ws, (capturing { log2 := 16 }).capWrites 0 (((capturing { log2 := 16 }).part 0).cap.writes aRec w) = some ws ∧
      ∀ x ∈ ws, (capturing { log2 := 16 }).portEn x.1 = true) ∧
    (∀ w, (capturing { log2 := 16, base := 2 ^ 40 }).capWrites 0 (((capturing { log2 := 16, base := 2 ^ 40 }).part 0).cap.writes aRec w) = none) := by
  refine ⟨by decide, by decide, by decide, by decide, by decide, fun w => ?_, fun w => ?_⟩
  · have h : ((capturing { log2 := 16 }).part 0).cap.writes aRec w = ((capturing { log2 := 16 }).part 0).cap.writes aRec 0 := rfl
    rw [h]; exact ⟨_, rfl, by decide⟩
  · have h : ((capturing { log2 := 16, base := 2 ^ 40 }).part 0).cap.writes aRec w =
        ((capturing { log2 := 16, base := 2 ^ 40 }).part 0).cap.writes aRec 0 := rfl
    rw [h]; decide

theorem met_Replay : replaying.isOpen = true ∧ (replaying.part 0).replay = some { base := 0, log2 := 16, startTb := 0 } ∧
    2 ^ 16 < (2 ^ 16 - 31) + 32 ∧ (replaying.part 0).cap.paced = false ∧
    (∃ hd, (recAt 0 64 0x80 0 []).readPart 0 0 32 = some hd ∧ bitAt (byteAt hd 14).toNat 7 = true) ∧
    (∃ hd, (recAt 2 64 0 0 []).readPart 0 0 32 = some hd ∧ bitAt (byteAt hd 14).toNat 7 = false ∧ fieldAt hd 8 4 ≠ (0 + 1) % 2 ^ 32) ∧
    (∃ hd, (recAt 0 32 0x40 0 []).readPart 0 0 32 = some hd ∧ bitAt (byteAt hd 14).toNat 7 = false ∧ bitAt (byteAt hd 14).toNat 6 = true) ∧
    (∃ hd, (recAt 0 32 0 1 []).readPart 0 0 32 = some hd ∧ bitAt (byteAt hd 14).toNat 6 = false ∧ byteAt hd 15 ≠ 0) ∧
    (∃ bs, (recAt 0 64 0 0 ([9, 0] ++ leBytes 2 16)).readPart 0 0 64 = some bs ∧ byteAt bs 16 = 9 ∧ byteAt bs 15 = 0 ∧
      up.budgetOk (recordedMsg bs).2.payload = true ∧ fieldAt (recordedMsg bs).2.payload 8 8 ≤ up.tbu.tb.toNat) := by
  refine ⟨by decide, by decide, by decide, by decide, ⟨_, rfl, ?_⟩, ⟨_, rfl, ?_⟩, ⟨_, rfl, ?_⟩, ⟨_, rfl, ?_⟩, ⟨_, rfl, ?_⟩⟩ <;> decide +kernel

/-! ## The ledger -/

/-- A DEPOSIT's body: one query record at 0x20000, graph 0, epoch 7 (Table 9.9). -/
def depositMsg (seq : Word) : Msg := msg 1 seq (leBytes 8 0x20000 ++ leBytes 4 1 ++ zeros 12 ++ leBytes 4 7 ++ zeros 36)

def walkGraph (nodes : List GNode) : NMap Graph := [(0, { gather := 64, nodes := nodes })]
def aNode (op : Nat) (mask arg : Word) : GNode := { op := op, prio := 0, kernel := 0, mask := mask, addr := 0x30000, arg := arg }

/-- `up` with a task graph of one TRAVERSE node. -/
def graphed : State := { up with parts := [(0, { aPart with graphs := walkGraph [aNode 1 0 0] })] }

def aDep (step : DStep) : Dep :=
  { id := 3, part := 0, stream := 1, sgen := 1, seq := 2, port := 0, peer := 5, qbase := 0x20000, qcount := 1, graphId := 0, timed := false
    handle := {}, dmode := 0, terse := false, endpoint := 5, release := 0, home := 1, ring := 1, pos := 0, step := step }

def withDep (d : Dep) : State := { graphed with deps := [d], nextDep := 4, nextUid := 9 }

theorem met_DepositsAreJournaled : let m := depositMsg 1
    let b := parseDeposit m.payload
    graphed.admits 1 0 m ∧ graphed.depositOk 0 false m = true ∧ graphed.depositOverruled 0 m b = false ∧ (graphed.part 0).split = false ∧
    (graphed.part 0).jrnl.en = true ∧ (graphed.part 0).jrnl.formatting = false ∧ (graphed.part 0).jrnl.replaying = false ∧
    graphed.pendingTwin m = none ∧ graphed.quotaFault 0 b = false ∧ b.dmode = 0 ∧ graphed.depositBusy 0 1 (graphed.homeOf 1) b = false ∧
    (graphed.translate 0 ((graphed.part 0).jrnl.slotAddr 1 ((graphed.part 0).jrnl.written 1)) 64 true).isSome = true ∧
    (let s : State := { graphed with fab := { graphed.fab with mportOrders := [(0, .close 1)] } }
     s.depositOk 0 false m = true ∧ s.depositOverruled 0 m b = true) ∧
    (let s : State := { graphed with parts := [(0, { graphed.part 0 with split := true })] }
     s.depositOk 0 false m = true ∧ (s.part 0).split = true) ∧
    (let s : State := { graphed with strms := [(1, { graphed.strm 1 with lastAcc := 1 })] }
     s.depositOk 0 false m = true ∧ m.seq.toNat ≤ (s.strm 1).lastAcc.toNat) ∧
    (let s : State := { graphed with parts := [(0, { graphed.part 0 with jrnl := {} })] }
     s.depositOk 0 false m = true ∧ (s.part 0).jrnl.en = false) ∧
    (let s : State := { graphed with parts := [(0, { graphed.part 0 with liveMax := 0 })] }
     s.depositOk 0 false m = true ∧ s.quotaFault 0 b = true) ∧
    (let s : State := { graphed with parts := [(0, { graphed.part 0 with jrnl := { en := true, jlog2 := 4, base := 0x10000 } })] }
     s.depositOk 0 false m = true ∧ s.depositBusy 0 1 (s.homeOf 1) b = true) ∧
    (let s := withDep { aDep .journal with seq := 1 }
     s.pendingTwin m = some { aDep .journal with seq := 1 } ∧ s.dep? 3 = some { aDep .journal with seq := 1 }) := by
  simp only [State.admits]; decide +kernel

/-- What waits for the answer of an access of a purpose. -/
def awaiting (p : Purpose) (d : Dep) : State :=
  { withDep d with accs := [{ port := 0, tag := 0, write := true, part := 0, addr := 0x10000, paddr := 0x10000, data := zeros 63 ++ [1]
                              purpose := p, issued := 0 }] }

theorem met_RecordAcknowledgements : let w (p : Purpose) (st : DStep) := (awaiting p (aDep st)).acc? 0 0 true
    (awaiting (.depositRec 3) (aDep .journal)).boot.phase ≠ .tripped ∧
    ((w (.depositRec 3) .journal).map fun a => (a.purpose, a.applied)) = some (.depositRec 3, false) ∧
    (awaiting (.depositRec 3) (aDep .journal)).dep? 3 = some (aDep .journal) ∧ (aDep .journal).answered = false ∧
    (awaiting (.depositRec 3) (aDep .journal)).heldFor 1 1 2 = none ∧
    ((w (.gateRec 3 1 [(0, msg 7 2 [])]) .running).map (·.purpose)) = some (.gateRec 3 1 [(0, msg 7 2 [])]) ∧
    ((w (.retireRec 3) .retiring).map (·.purpose)) = some (.retireRec 3) ∧ ((w (.resultHdr 3) .writing).map (·.purpose)) = some (.resultHdr 3) := by
  decide +kernel

/-- A retirement whose list names buffer 0 of pool 0, which is claimed. -/
theorem met_RetireFreesBuffer : let d := { aDep .retiring with dmode := 1, buffer := 0x1000000, freeList := [0x1000000] }
    let s : State := { awaiting (.retireRec 3) d with parts := [(0, { aPart with
      pools := [(0, { en := true, count := 1, bufs := [(0, { gen := 1, claim := some 3, owner := some (0, 1) })] })] })] }
    let b := ((s.part d.part).pool (poolOf 0x1000000)).buf (indexOf 0x1000000)
    d.freeList = [0x1000000] ∧ s.dep? (b.claim.getD 3) = some d ∧ d.receiptOut = true ∧ b.claim.isSome = true ∧
    b.gen.toNat = (0x1000000 : Word).toNat / 2 ^ 24 ∧ b.owner = some (d.part, d.stream.toNat) := by decide +kernel

/-- A RECEIPT sent 1 ms ago. -/
def sentReceipt (n : Nat) (r : Bool) : Dep := { aDep .receipt with receiptAt := 1000000, resends := n, redirected := r }

theorem met_ReceiptsAndTheirAnswers : (withDep (aDep .delivered)).receiptTurn (aDep .delivered) = true ∧
    (let s : State := { withDep (aDep .delivered) with deps := [{ aDep .running with seq := 1 }, { aDep .delivered with id := 4 }] }
     s.receiptTurn { aDep .delivered with id := 4 } = false) ∧ (sentReceipt 2 false).receiptAt + 1000000 ≤ up.elapsed ∧
    (sentReceipt 2 false).resends < 3 ∧ 3 ≤ (sentReceipt 3 false).resends ∧ (sentReceipt 3 true).redirected = true ∧
    (let s := withDep (sentReceipt 0 false)
     let m := msg 5 2 [0, 0, 0, 0]
     let r := msg 3 2 [3, 4, 0, 0, 0, 0, 0, 0]
     s.portTakes 0 = true ∧ wellSized 5 m = true ∧ wellSized 3 r = true ∧ (s.strm 1).en = true ∧ m.sgen = (s.strm 1).gen ∧
       s.depNamed m = some (sentReceipt 0 false) ∧ s.depNamed r = some (sentReceipt 0 false) ∧
       s.dep? 3 = some (sentReceipt 0 false) ∧ (sentReceipt 0 false).dest.toNat % 2 ^ 20 = m.peer.toNat % 2 ^ 20 ∧
       (s.part 0).replay = none ∧ (s.part 0).st = .loaded ∧ byteAt r.payload 0 = 3 ∧ byteAt r.payload 1 = 4 ∧
       byteAt (msg 3 2 [2, 4, 0, 0, 0, 0, 0, 0]).payload 0 ≠ 3) := by decide +kernel

theorem met_AcceptBounds : let d := { aDep .journal with arrived := 1998500 }
    let e := { aDep .journal with dupHeld := [(1998500, depositMsg 2)] }
    let h : HeldGate := ⟨1, 1, 2, 1, [(1998500, msg 7 2 [])]⟩
    let s : State := { up with fab := { up.fab with heldGates := [h] } }
    (withDep d).deps.find? (fun d => d.stream == 1 && d.seq == 2 && d.step == .journal) = some d ∧ (withDep d).dep? d.id = some d ∧
    d.answered = false ∧ d.injected = false ∧ d.arrived + 1500 ≤ (withDep d).elapsed ∧
    ¬ (withDep d).elapsed < d.arrived + 1500 ∧ e.dupHeld = (1998500, depositMsg 2) :: [] ∧ 1998500 + 1500 ≤ up.elapsed ∧
    s.gateWaits 1 2 = [.held h] ∧ s.heldFor 1 1 2 = some h := by
  refine ⟨rfl, rfl, rfl, rfl, ?_, ?_, rfl, ?_, rfl, rfl⟩ <;> decide

/-- An EVENT whose GATE record is not acknowledged. -/
theorem met_AcceptBounds_record : let g := awaiting (.gateRec 3 1 [(1998500, msg 7 2 [])]) (aDep .running)
    ∃ a, g.gateWaits 1 2 = [.acc a] ∧ g.accs = [a] ∧ a.write = true ∧ a.purpose = .gateRec 3 1 [(1998500, msg 7 2 [])] :=
  ⟨_, rfl, rfl, rfl, rfl⟩

def gateMsg (seq : Word) : Msg := msg 7 seq [1, 0, 1, 0, 0, 0, 0, 0]
/-- `withDep`, with the deposit's SEQ the last accepted one. -/
def accepted (d : Dep) : State := { withDep d with strms := [(1, { up.strm 1 with lastAcc := 2 })] }

theorem met_GateEvents : let s := accepted (aDep .running)
    let h : HeldGate := ⟨1, 1, 10, 1, []⟩
    s.admits 7 0 (gateMsg 2) ∧ byteAt (gateMsg 2).payload 0 = 1 ∧ (s.part 0).jrnl.formatting = false ∧ (s.part 0).jrnl.replaying = false ∧
    s.depNamed (gateMsg 2) = some (aDep .running) ∧ s.ringRoom 0 1 0 = true ∧
    (s.translate 0 ((s.part 0).jrnl.slotAddr 1 ((s.part 0).jrnl.written 1)) 64 true).isSome = true ∧
    (accepted (aDep .receipt)).depNamed (gateMsg 2) = some (aDep .receipt) ∧ s.depNamed (gateMsg 1) = none ∧
    (gateMsg 1).seq.toNat ≤ (s.strm 1).lastAcc.toNat ∧ s.depNamed (gateMsg 10) = none ∧
    (s.strm 1).lastAcc.toNat < (gateMsg 10).seq.toNat ∧ (gateMsg 10).seq.toNat ≤ (s.strm 1).lastAcc.toNat + 8 ∧
    s.heldFor 1 1 10 = none ∧ (s.strm 1).lastAcc.toNat + 8 < (gateMsg 11).seq.toNat ∧
    ({ s with fab := { s.fab with heldGates := [h] } } : State).heldFor 1 1 10 = some h := by simp only [State.admits]; decide +kernel

/-! ## Pools, rings, memory ports, caches -/

def pooled (c : Option Nat) : State := { up with parts := [(0, { aPart with pools := [(0, { en := true, count := 1, bufs := [(0, { claim := c })] })] })] }

theorem met_PoolsAndJournalRings : ((up.part 0).pool 0).en = false ∧ ((pooled none).part 0).pool 0 ≠ {} ∧
    ((pooled none).part 0 |>.pool 0).en = true ∧ (0 : Word).getLsbD 0 = false ∧
    (∀ b ∈ ((pooled none).part 0 |>.pool 0).bufs, b.2.claim = none) ∧ (∃ b ∈ ((pooled (some 3)).part 0 |>.pool 0).bufs, b.2.claim ≠ none) ∧
    (let s : State := { up with parts := [] }
     (s.part 0).jrnl.en = false ∧ (0xA01 : Word).getLsbD 0 = true ∧ (0xA01 : Word).toNat / 256 % 32 = 10 ∧ (0xA01 : Word).getLsbD 1 = false ∧
       (0x1403 : Word).getLsbD 1 = true ∧ (0x1403 : Word).toNat / 256 % 32 = 20) ∧
    (up.part 0).jrnl.en = true ∧ up.liveOf 0 = [] ∧ (withDep (aDep .running)).liveOf 0 ≠ [] ∧
    (let a : Acc := { port := 0, tag := 0, write := true, part := 0, addr := 0x10000, paddr := 0x10000, data := zeros 64, purpose := .format 0
                      issued := 0 }
     let s : State := { up with accs := [a], parts := [(0, { aPart with jrnl := { aPart.jrnl with formatting := true } })] }
     (s.part 0).jrnl.formatting = true ∧
       ∀ a ∈ s.accs, a.purpose = .format 0 →
         s.formatGoes a = true ∧ a.write = true ∧ a.applied = false ∧ a.data = List.replicate 64 0 ∧ a.addr % 64 = 0) ∧
    (let a : Acc := { port := 0, tag := 0, write := true, part := 0, addr := 0x10000, paddr := 0x10000, data := zeros 64, purpose := .format 0
                      issued := 0, st := .retryAt 3000000 }
     ({ up with accs := [a] } : State).formatGoes a = false) := by decide +kernel

/-- A read on port 0 that has failed so often and stands so. -/
def failing (n : Nat) (st : AccSt) (w : Bool) : State :=
  { withDep (aDep .reading) with accs := [{ port := 0, tag := 0, write := w, part := 0, addr := 0, paddr := 0, data := [], purpose := .header 3
                                            tries := n, issued := 1995000, st := st }] }

theorem met_MemoryPortFailures : (∀ x ∈ [(2, AccSt.out, false), (3, .out, false), (1, .retryAt 2000000, false), (4, .stalled 2000000, true)],
      ((failing x.1 x.2.1 x.2.2).accs.find? (fun a => a.port == 0 && a.tag == 0 && a.write == x.2.2)).isSome = true) ∧
    (∀ x ∈ [2, 3], (((failing x .out false).accs.find? (fun a => a.port == 0 && a.tag == 0 && a.write == false)).map fun a =>
      ((failing x .out false).voidWrite a, a.st, a.tries)) = some (none, .out, x)) ∧
    0 < up.nmports ∧ 1995000 + 5000 ≤ (failing 2 .out false).elapsed ∧ 2 < 3 ∧ 3 % 4 = 3 ∧ 2000000 ≤ up.elapsed ∧
    up.elapsed < 1995001 + 5000 ∧ (1 : Byte) ≠ 0 ∧ (1 : Byte) ≠ 2 ∧ (2 : Byte).getLsbD 0 = false ∧ (3 : Byte).getLsbD 0 = true ∧
    (up.mport 0).en = true ∧ 0 < tagLimit false ∧ 0 < tagLimit true ∧ up.bordered 0 = false ∧ up.boot.phase ≠ .tripped ∧
    ({ up with lateTags := [⟨0, 8192, false, true⟩] } : State).lateTags.find? (fun t => t.port == 0 && t.tag == 8192 && t.write == false) =
      some ⟨0, 8192, false, true⟩ ∧ up.lateTags.find? (fun t => t.port == 0 && t.tag == 0 && t.write == false) = none := by decide +kernel

def scratch : CLine := ⟨0, 0x400, 0, zeros 64, true, 0, none⟩

theorem met_HomeBankWrites : let s := awaiting (.gateRec 3 1 []) (aDep .running)
    let r : State := { s with clusters := [(0, { bank := { q := [(0, scratch)] } })] }
    let g : State := { s with clusters := [(0, { grants := [scratch] })] }
    (∃ a, s.accs.find? (fun a => a.port == 0 && a.tag == 0 && a.write == true) = some a ∧ a.st = .out ∧ a.applied = false ∧
      s.mergesFirst a = false ∧ linesOf a.addr a.data.length = [0x400] ∧ ownAck a.purpose = true ∧ r.mergesFirst a = true) ∧
    (¬ ∃ m, m < s.nclusters ∧ ∃ g ∈ (s.cluster m).grants, g.line = 0x400) ∧ s.ownerOf 0x400 = none ∧
    (∃ m, m < g.nclusters ∧ ∃ x ∈ (g.cluster m).grants, x.line = 0x400) ∧ 0 < s.nmports ∧ s.boot.phase ≠ .tripped := by
  refine ⟨⟨_, rfl, ?_⟩, ?_, by decide +kernel, ⟨0, by decide +kernel⟩, by decide +kernel⟩
  · decide +kernel
  · rintro ⟨m, _, g, hg, _⟩
    exact (List.not_mem_nil (a := g)) hg

/-- One thread of a kernel on slice `n` that waits for an atomic operation at line 0x400. -/
def atomWaits (n : Nat) : Ctx :=
  { slice := n, slot := 0, gen := 1, part := 0, dep := 3, kernel := 0, node := 0, launch := 0, nq := 0, localBytes := 0
    groups := [{ threads := [{ wait := .atomic ⟨0x10000, 0, 0, 1, 0, 0, 0⟩ }] }] }
def owning (c : Cluster) (ctxs : List Ctx) : State := { up with clusters := [(0, c)], ctxs := ctxs }

theorem met_ScratchLineOwnership_requests :
    (let s := owning {} [atomWaits 16]
     (s.ownFor 1 0x400).isSome = true ∧ s.isOpen = true ∧ s.ownWaits 1 0x400 = true ∧ s.lineBusy 0x400 = false ∧ s.recallOf 0x400 = none ∧
       s.granted 0x400 = false ∧ (∀ k, k < 1 → s.ownWaits k 0x400 = false) ∧ (s.cluster 1).up = [] ∧ s.ownerOf 0x400 = none ∧
       (s.ownFor 1 0x400).all (fun w => (s.fillL2 0x400 w.r.part []).2) = true ∧ s.portEn (64 * 0x400) = true) ∧
    (let s := owning { l1 := { lines := [scratch] } } [atomWaits 16]
     s.ownWaits 1 0x400 = true ∧ s.ownerOf 0x400 = some (0, scratch) ∧ s.lineBusy 0x400 = false ∧ s.recallOf 0x400 = none) := by decide +kernel

theorem met_ScratchLineOwnership :
    (let s := owning { l1 := { lines := [scratch] }, recalls := [0x400] } []
     0x400 ∈ (s.cluster 0).recalls ∧ (∀ g ∈ (s.cluster 0).grants, g.line ≠ 0x400) ∧ s.downFirst 0 .recall 0x400 = true ∧
       (s.cluster 0).held? 0x400 = some scratch) ∧
    (let s := owning { grants := [scratch] } []
     (s.cluster 0).grants.find? (·.line == 0x400) = some scratch ∧ s.downFirst 0 .grant 0x400 = true ∧
       (s.fillL1 0 0x400 scratch.part scratch.data (s.cluster 0).unlockedWays).2 = true ∧ s.atomsOn 0 0x400 = []) ∧
    (let s := owning { bank := { q := [(1, scratch)] } } []
     (s.cluster (s.bankOf 0x400)).bank.q.find? (fun x => x.1 == 1 && x.2.line == 0x400) = some (1, scratch) ∧
       s.upFirst 1 .response 0x400 = true ∧ s.portEn (64 * 0x400) = true) ∧
    (let s := owning { evbuf := [scratch] } []
     (s.cluster 0).evbuf.find? (fun l => l.line == 0x400) = some scratch ∧ 0x400 ∉ (s.cluster 0).wbAcks ∧ s.upFirst 0 .writeback 0x400 = true) ∧
    (let s := owning { evbuf := [{ scratch with owned := false }], wbAcks := [0x400] } []
     (s.cluster 0).evbuf.find? (fun l => l.line == 0x400) = some { scratch with owned := false } ∧ 0x400 ∈ (s.cluster 0).wbAcks ∧
       s.downFirst 0 .ack 0x400 = true) := by
  decide +kernel

/-- No other L1 holds the line that the witness above recalls. -/
theorem met_ScratchLineOwnership_sole (k : Nat) (h : k ≠ 0) :
    ((owning { l1 := { lines := [scratch] }, recalls := [0x400] } []).cluster k).held? 0x400 = none := by
  simp [owning, State.cluster, NMap.get, h]; rfl

theorem met_PreloadsAndLockedWays : (0x00018000 : Word).getLsbD 15 = true ∧ (0x00018000 : Word).getLsbD 14 = false ∧ up.nclusters ≤ 15 ∧
    (up.cluster 0).preload = none ∧ up.preloadRefused 0 0 1 = true ∧
    ({ up with parts := [(0, { aPart with ways := 1 })] } : State).preloadRefused 0 0 1 = false ∧
    (0x00014000 : Word).getLsbD 15 = false ∧ (0x00014000 : Word).getLsbD 14 = true ∧
    (owning { locks := [(0, 1)] } []).clusters ≠ [] ∧ (1 : Half).getLsbD 0 = true ∧
    (∀ b ∈ [(0 : Nat), 2 ^ 40], let s := owning { preload := some (0, 1), preLines := 1, preAddr := BitVec.ofNat 56 b } []
      (s.cluster 0).preload = some (0, 1) ∧ s.bordered 0 = false ∧ s.preloadReady 0 b 1 = true ∧
        (s.preloadRun 0 0 (waysIn 1) [] b 1).2 = (b == 0)) := by decide +kernel

/-! ## Clearing -/


/-- The lines of a small image of epoch 0 at address 0: header, a NODE4 whose one child is a leaf, the leaf, its sphere
record (Tables 2.4 to 2.14). -/
def lineBytes (fields : List (Nat × List Byte)) (line : Nat) : Memory :=
  (fields.map fun f => (f.2.mapIdx fun i b => (⟨64 * line + f.1 + i, b⟩ : Host.Cell)).filter fun c => c.2 != 0).flatten
def smallImage : Memory :=
  lineBytes [(0, [0x40, 2, 3]), (8, [4]), (12, [1])] 0 ++
    lineBytes [(0, [2, 0x10, 3]), (8, [2]), (40, [0xFF, 0xFF, 0xFF, 0xFF]), (48, [0xFF, 0xFF, 0xFF, 0xFF]), (56, [0xFF, 0xFF, 0xFF, 0xFF])] 1 ++
    lineBytes [(0, [0x10, 2, 1]), (8, [3]), (12, [1]), (16, [9])] 2 ++ lineBytes [(0, [0x20, 2, 1]), (22, [0x80, 0x3F])] 3

/-- A RAY query record from the origin along +x, to +infinity (Table 3.1). -/
def rayBytes : List Byte := [1, 0, 0xFF, 0] ++ zeros 16 ++ [0, 0, 0x80, 0x3F] ++ zeros 12 ++ [0, 0, 0x80, 0x7F] ++ zeros 8

def aQuery (bytes : List Byte) : Query :=
  { uid := 8, dep := 3, part := 0, qid := 0, bytes := bytes, handle := {}, hdr := { dims := 3, lineCount := 4, root := 1 }, graphId := 0
    cluster := 1, slice := 16, next := { line := 1, key := 0 } }
def onTree (q : Query) (b : Option Batch) : State :=
  { withDep { aDep .running with nextIdx := 1, hdr := some q.hdr, hdrRead := true } with
    mem := smallImage, queries := [q]
    slices := up.slices.filter (·.1 != 16) ++ [(16, { st := .admitted, inQ := b.toList })] }

/-- The header line of an image whose sharding record stands in line 4, and that record (Tables 2.4 and 2.19). -/
def shardHead : Memory := lineBytes [(0, [0x40, 2, 3]), (8, [8]), (12, [1]), (18, [1]), (20, [4])] 0
def shardedImage : Memory := shardHead ++ lineBytes [(0, [0x20]), (8, [1]), (12, [5]), (24, [5]), (32, [64])] 4
/-- The read of a line of deposit 3's header has come. -/
def heading (m : Memory) (d : Dep) (a : Nat) : State :=
  { withDep d with mem := m, accs := [{ port := 0, tag := 0, write := false, part := 0, addr := a, paddr := a, data := [], purpose := .header 3
                                        issued := 0 }] }
def bytesAt (m : Memory) (a : Nat) : List Byte := m.readN a 64

theorem met_DepositsStart : let d := { aDep .held with stampReached := false, release := 2000000 }
    (withDep d).dep? 3 = some d ∧ d.step = .held ∧ d.stampReached = false ∧ d.release.toNat ≤ up.tbu.tb.toNat ∧ d.mintHeld = false ∧
    ((withDep d).part d.part).graph d.graphId ≠ {} ∧ (((withDep d).part d.part).graph d.graphId).nodes ≠ [] ∧
    ((withDep d).translate d.part (d.handle.base.toNat + 64 * d.hdrNext) 64 false).isSome = true ∧
    (let e := { d with handle := { base := 2 ^ 40 } }; (withDep e).translate e.part (e.handle.base.toNat + 64 * e.hdrNext) 64 false = none) ∧
    { d with mintHeld := true }.mintHeld = true ∧ up.tbu.tb.toNat < ({ d with release := 2000001 } : Dep).release.toNat := by decide +kernel

/-- Header lines of each age; a header that passes its checks and one that does not; a sharding line that follows, good and bad. -/
theorem met_ReadHeaders : let s := heading smallImage (aDep .reading) 0
    s.dep? 3 = some (aDep .reading) ∧ (s.accFor (.header 3)).map (·.addr) = some 0 ∧ s.readSys 0 64 = bytesAt smallImage 0 ∧
    epochAge (lineTag (bytesAt smallImage 0)) 0 = .current ∧ epochAge (lineTag (bytesAt smallImage 0)) 7 = .older ∧
    epochAge (lineTag (bytesAt (lineBytes [(4, [9])] 0) 0)) 0 = .newer ∧ parseHeader 0 (bytesAt smallImage 0) = some ({ dims := 3, lineCount := 4, root := 1 }, 0, 0) ∧
    parseHeader 0 (bytesAt [] 0) = none ∧
    (let h : ImgHdr := { dims := 3, lineCount := 8, root := 1 }
     parseHeader 0 (bytesAt shardHead 0) = some (h, 4, 1) ∧ { aDep .reading with hdrLines := [bytesAt shardHead 0] }.hdrNext = 4 ∧
       epochAge (lineTag (bytesAt shardedImage 256)) 0 = .current ∧
       (parseShard s.pkg h 4 1 [bytesAt shardedImage 256]).isSome = true ∧ parseShard s.pkg h 4 1 [bytesAt shardHead 256] = none) ∧
    smallImage.wf = true ∧ shardedImage.wf = true := by decide +kernel

theorem met_OlderHeaders : let d := { aDep .reading with hdrOlder := some (0, 1000000, 1999000) }
    let e := { aDep .reading with hdrOlder := some (4, 1000000, 1999000) }
    d.hdrOlder = some (d.hdrNext, 1000000, 1999000) ∧ (∀ k f x, e.hdrOlder = some (k, f, x) → k ≠ e.hdrNext) ∧
    (withDep d).dep? 3 = some d ∧ (withDep d).accs = [] ∧ 1999000 + 1000 ≤ up.elapsed ∧ 1000000 + 1000000 ≤ up.elapsed ∧
    (heading [] d 0).granted 0 = false := by
  refine ⟨rfl, ?_, rfl, rfl, by decide, by decide, by decide⟩
  rintro k f x h; cases h; decide

/-- A query that waits for its older line 1, its read come or not. -/
def waitsOlder (m : Memory) (come : Bool) : State :=
  { onTree { aQuery rayBytes with st := .older 1 1000000 1999000 } none with
    mem := m
    accs := if come then [{ port := 0, tag := 0, write := false, part := 0, addr := 64, paddr := 64, data := [], purpose := .reread 8, issued := 0 }]
            else [] }

theorem met_OlderLines : let q := { aQuery rayBytes with st := .older 1 1000000 1999000 }
    let s := waitsOlder smallImage
    (s false).query? 8 = some q ∧ q.uid = 8 ∧ (∀ y ∈ (s false).queries, y.uid < (s false).nextUid) ∧ (s false).ctxs = [] ∧ (s false).accs = [] ∧
    1999000 + 1000 ≤ up.elapsed ∧ 1000000 + 1000000 ≤ up.elapsed ∧ q.pin = none ∧ q.visitor = none ∧ ((s false).dep? q.dep).isSome = true ∧
    ((s false).translate q.part ((s false).imgAddr q 1) 64 false).isSome = true ∧
    (let v := { q with handle := { base := 2 ^ 40 } }; (s false).translate v.part ((s false).imgAddr v 1) 64 false = none) ∧
    ((s true).accFor (.reread 8)).map (·.addr) = some 64 ∧ epochAge (lineTag ((s true).readSys 64 64)) 0 = .current ∧
    epochAge (lineTag ((s true).readSys 64 64)) 7 = .older ∧
    epochAge (lineTag ((waitsOlder (lineBytes [(4, [9])] 1) true).readSys 64 64)) 0 = .newer := by decide +kernel

theorem met_QueryRecords : let d := { aDep .reading with hdr := some { dims := 3, lineCount := 4, root := 1 } }
    let read (p : Purpose) : State := { withDep d with accs := [{ port := 0, tag := 0, write := false, part := 0, addr := 0x20000, paddr := 0x20000
                                                                  data := [], purpose := p, issued := 0 }] }
    let s := read (.queryRec 3 0)
    s.dep? 3 = some d ∧ d.nextIdx < d.qcount ∧ (withDep d).accs = [] ∧ (withDep d).canPlace d = true ∧ s.rerunHere d 16 = none ∧
    s.translate 0 (2 ^ 40) 64 false = none ∧ (s.accs.find? fun a => a.purpose == .queryRec 3 0).isSome = true ∧
    (s.part 0).lockEn = false ∧ d.third = false ∧ d.killed = [] ∧ s.hasContext 0 0 16 = true ∧ clusterOf 16 = d.home ∧ s.placesFor d 17 = none ∧
    ((read (.rerun 3 0 0 1)).rerunHere d 16).map (fun x => x.2) = some (0, 0, 1) ∧
    (let e : State := { withDep d with parts := [(0, { graphed.part 0 with quotaCtx := 0 })] }
     e.canPlace d = false ∧ e.translate 0 0x20000 64 false ≠ none) := by decide +kernel

def theKey (cls : TestClass) (line : Nat) : NodeKey := { part := 0, base := 0, epoch := 0, line := line, cls := cls }
def aQueue (n : Nat) (ripe : Bool) (r : Option Nat) : NQueue :=
  { id := 0, key := theKey .ray 1, members := List.replicate n ⟨8, 0⟩, readyAt := r, ripe := ripe }
def queueing (m : NQueue) : State :=
  { onTree (aQuery rayBytes) none with clusters := [(1, { nqs := [m], fwdHigh := 0 })], wclk := 256 }
/-- The read of the line of the queue has come, failed or come again. -/
def lineRead (st : AccSt) : State :=
  { queueing (aQueue 1 false none) with accs := [{ port := 0, tag := 0, write := false, part := 0, addr := 64, paddr := 64, data := []
                                                   purpose := .node 8, issued := 0, st := st }] }

theorem met_NodeQueues : let s := queueing (aQueue 1 false none)
    let q := aQuery rayBytes
    ((s.cluster 1).queue? 0).map (fun v => (v.key, v.members, v.headIn, v.readyAt)) = some (theKey .ray 1, [⟨8, 0⟩], false, none) ∧
    [8].findSome? s.query? = some q ∧ s.translate 0 (s.imgAddr q 1) 64 false = some 64 ∧ s.accs = [] ∧
    ({ s with parts := [] } : State).translate 0 (s.imgAddr q 1) 64 false = none ∧
    (∃ a ∈ (lineRead (.retryAt 3000000)).accs, a.purpose = .node 8 ∧ a.st ≠ .out) ∧
    (∀ a ∈ (lineRead .out).accs, a.st = .out ∧ (a.paddr = s.imgAddr q 1 → a.addr = 64)) ∧ (s.cluster 1).unlockedWays ≠ [] ∧
    (s.cluster 1).preloaded = [] ∧ q.cluster = 1 ∧ (s.cluster 1).l1.lines = [] ∧
    moreLines q.hdr false 1 (s.bankLine (lineOf 64) q.part) = [] ∧
    moreLines q.hdr true 2 (s.bankLine 2 q.part) ≠ [] := by decide +kernel

theorem met_NodeQueues_grants (k : Nat) : ((queueing (aQueue 1 false none)).cluster k).grants = [] := by
  simp only [queueing, State.cluster, NMap.get]; split <;> rfl

theorem met_QueuesBatchesAndClusters :
    (let s := queueing (aQueue 1 false (some 0))
     (s.cluster 1).nqs.find? (·.id == 0) = some (aQueue 1 false (some 0)) ∧ (aQueue 1 false (some 0)).members.head? = some ⟨8, 0⟩ ∧
       max 0 0 + (s.cluster 1).ageLimit ≤ s.wclk ∧ ¬ s.wclk < max 0 0 + (s.cluster 1).ageLimit) ∧
    (let s := queueing (aQueue 16 true (some 0))
     (s.cluster 1).strag = [] ∧ (s.cluster 1).relAt ≠ s.wclk + 1 ∧
       ((s.batchSlices 1 0 (theKey .ray 1)).find? fun k => !s.gated k && decide ((s.slice k).inQ.length < 4)) = some 16) ∧
    (let s := queueing (aQueue 1 true (some 0))
     (s.cluster 1).xcluster = true ∧ s.crowded 1 = true ∧ (s.forwards 1).map (fun x => (x.1.id, x.2)) = some (0, 0) ∧
       (∀ j, j < 1 → (s.forwards j).map Prod.snd ≠ some 0) ∧
       ((s.setCluster 1 { ((s.cluster 1).takeBatch 0 s.wclk).1 with fwdout := satInc (s.cluster 1).fwdout 1, fwdAt := s.wclk + 1 }).moveTo 0
         (((s.cluster 1).takeBatch 0 s.wclk).2.map (·.uid))).isSome = true) := by decide +kernel

/-! ## Traversal -/

def batchOf (cls : TestClass) (line : Nat) : Batch := { key := theKey cls line, members := [8], released := 0 }

theorem met_NodeVisits : let q := aQuery rayBytes
    let s := onTree q (some (batchOf .ray 1))
    16 < s.nslices ∧ s.works 16 = true ∧ s.headBatch 16 = some (batchOf .ray 1) ∧ 8 < s.nextUid ∧ s.query? 8 = some q ∧
    ({ q with visits := 1048576 } : Query).visits = 1048576 ∧ (∀ y ∈ s.queries, y.uid < s.nextUid) ∧
    q.spilled = [] ∧ q.stack.length + 0 + 1 ≤ 8 := by decide +kernel

/-- The visit's node parses and admits its one child, line 2. -/
theorem met_NodeVisits_hit : let q := aQuery rayBytes
    (q.geo.bind fun g => match ((onTree q (some (batchOf .ray 1))).readNode q 16).1 with
      | .ok ls => (parseNode q.hdr q.next.line ls).map fun node =>
          (boxVisit node g (keyX q.next.key) (q.limit g) (q.bound g)).1.map fun h => (h.line, q.admits g (fpWord h.key))
      | _ => none) = some [(2, true)] := by decide +kernel

theorem met_SpillFill : let kid : Child := { line := 2, key := 0 }
    let q := { aQuery rayBytes with st := .spill, spilled := List.replicate 8 kid }
    let s : State := { onTree q none with
      accs := [{ port := 0, tag := 0, write := false, part := 0, addr := 0x10000, paddr := 0x10000, data := [], purpose := .spillRd 8, issued := 0 }] }
    s.query? 8 = some q ∧ (∃ a g, s.accFor (.spillRd 8) = some a ∧ q.geo = some g ∧
      q.admits g (BitVec.ofNat 32 (fieldAt (s.readSys a.addr 64) 60 4)) = true) ∧ (∀ x ∈ s.accs, x.purpose ≠ .spillWr 8) ∧
    8 ≤ q.spilled.length := by
  refine ⟨?_, ⟨_, _, rfl, rfl, ?_⟩, ?_, ?_⟩ <;> decide +kernel

def atLeaf : Query := { aQuery rayBytes with next := { line := 2, key := 0, leaf := true }, stack := [{ line := 2, key := 0, leaf := true }] }

/-- What a leaf's type and its record lines give, where the query's graph node enables it. -/
def leafSeen {α : Type} (s : State) (q : Query) (type : Nat) (f : Geo → Leaf → List (List Byte) → Option α) : Option α :=
  q.geo.bind fun g => match s.lookLeaf q 16 with
    | (.leaf l, s1) =>
      if leafEnabled (s.graphOf q) g l.type && l.type == type then
        match s1.readRecords q 16 l with
        | some (.ok ls, _) => f g l ls
        | _ => none
      else none
    | _ => none

theorem met_LeafVisits : let q := atLeaf
    let s := onTree q (some (batchOf .leaf 2))
    s.shadowsDue = [] ∧ s.headBatch 16 = some (batchOf .leaf 2) ∧ s.unitOf 16 8 = 0 ∧ s.query? 8 = some q ∧ q.visitor = none ∧
    leafSeen s q 2 (fun g f ls => if g.anyMode then none else (parseRecords q.hdr f ls).map fun ps =>
      let r := testPrims g f (keyX q.next.key) ps 0 q 0 0 0
      (r.1.held.length, r.2.1, r.2.2.2, r.1.admits g 0)) = some (1, 1, 0, true) := by decide +kernel

/-- A blob leaf of one layer at line 2, surface or density by its output byte (Tables 2.11, 2.16 and 2.17); a brick leaf there
(Table 2.15); and a MARCH query. -/
def blobImage (output : Byte) : Memory :=
  lineBytes [(0, [0x10, 8, 1]), (8, [3]), (12, [2])] 2 ++
    lineBytes [(0, [0x20, 8]), (8, [output, 1, 3]), (38, [0x80, 0x3F]), (56, [3, 1, 1, 1])] 3 ++ lineBytes [(0, [0x20, 8]), (8, [64]), (12, [96])] 4
def brickImage : Memory :=
  lineBytes [(0, [0x10, 7, 1]), (8, [3]), (12, [10])] 2 ++ lineBytes [(0, [0x20, 7]), (20, [0, 0, 0x80, 0x3F, 0, 0, 0x80, 0x3F, 0, 0, 0x80, 0x3F])] 3 ++
    ((List.range 9).map fun k => lineBytes [(0, [0x20, 7])] (4 + k)).flatten
def marchBytes : List Byte := [6, 0, 0xFF, 0] ++ zeros 16 ++ [0, 0, 0x80, 0x3F] ++ zeros 12 ++ [0, 0, 0x80, 0x7F] ++ zeros 8
def marching (bytes : List Byte) : Query := { atLeaf with bytes := bytes, hdr := { dims := 3, lineCount := 13, root := 1 } }
def marchState (q : Query) (image : Memory) : State :=
  { onTree q (some (batchOf .leaf 2)) with mem := image, parts := [(0, { aPart with graphs := walkGraph [aNode 1 0 0, aNode 3 0 0] })] }

theorem met_NeuralLeaf : let q := marching marchBytes
    let s := marchState q (blobImage 1)
    s.unitOf 16 8 = 1 ∧ leafSeen s q 8 (fun g l ls => (parseBlob l ls).map fun b => (b.output, g.kind, q.admits g 0, q.vols.length)) =
      some (1, .march, true, 0) := by decide +kernel

/-- One pass of the trace finds the surface at the origin, where the network gives 0. -/
theorem met_SurfaceLeaf : let q := marching rayBytes
    let s := marchState q (blobImage 0)
    leafSeen s q 8 (fun g l ls => (parseBlob l ls).map fun b =>
      let k := (surfOf g l b (keyX q.next.key) (keyX q.next.tout)).loop 4096 { t := keyX q.next.key, q := q }
      ([b.output == 1, g.kind == .march, k.bad, g.anyMode && k.accepted, k.q.admits g 0], k.n, k.q.held.length)) =
        some ([false, false, false, false, true], 1, 1) := by decide +kernel

theorem met_BrickLeaf : let q := marching marchBytes
    leafSeen (marchState q brickImage) q 7 (fun g l ls => (parseBrick l ls).map fun _ => (q.vols, q.admits g 0)) = some ([], true) := by
  decide +kernel

theorem met_MarchTracking :
    (let q := { marching marchBytes with st := .march, pin := some 16 }
     (marchState q (blobImage 1)).query? 8 = some q ∧ (q.geo.map (·.kind)) = some .march ∧ q.vols = [] ∧ q.track = none ∧ q.pin.isSome = true) ∧
    (let q := { marching marchBytes with st := .march }
     q.pin = none ∧ q.staged = [] ∧ (q.bits ||| ((marchState q (blobImage 1)).graphOf q).walkBits) &&& ((marchState q (blobImage 1)).graphOf q).queryBits =
       ((marchState q (blobImage 1)).graphOf q).queryBits ∧ ((marchState q (blobImage 1)).dep? q.dep).isSome = true) := by decide +kernel

/-! ## Instructions -/

/-- An instruction word under the unconditional guard, by the fields of Table 7.3. -/
def word (cls op dst sa sb sc imm : Nat) : Dword :=
  BitVec.ofNat 64 (cls * 2 ^ 60 + op * 2 ^ 54 + 2 ^ 50 + dst * 2 ^ 42 + sa * 2 ^ 34 + sb * 2 ^ 26 + sc * 2 ^ 18 + imm)

/-- A context on slice 16 with one group of these threads, and a kernel of one word for it. -/
def kctx (ths : List Thread) : Ctx :=
  { slice := 16, slot := 0, gen := 1, part := 0, dep := 3, kernel := 0, node := 1, launch := 0, nq := 1, localBytes := 4096
    groups := [{ threads := ths }], ls := (List.range 192).map fun i => (i, some 0) }
def kstate (flags : Byte) (w : Dword) (ths : List Thread) : State :=
  { onTree (aQuery rayBytes) none with
    parts := [(0, { aPart with graphs := walkGraph [aNode 1 0 0, aNode 4 0 0], code := [w]
                               kernels := [(0, { codeLen := 1, width := ths.length, ngroups := 1, nreg := 152, lsplit := 1, lsGroup := 16
                                                 flags := flags })] })]
    ctxs := [kctx ths] }
def pl0 : Place := ⟨16, 0, 0⟩

/-- The word issues as operation `op` of class `cls`. -/
def issued (flags : Byte) (w : Dword) (ths : List Thread) (cls op : Nat) (u : Uses) : Prop :=
  (kstate flags w ths).issues pl0 cls op u (kctx ths) { threads := ths } 0 (insOf w)
/-- And every thread executes it. -/
def acts (flags : Byte) (w : Dword) (ths : List Thread) (cls op : Nat) (u : Uses) : Prop :=
  issued flags w ths cls op u ∧ Group.acting { threads := ths } 0 (insOf w) = ths

/-- Classes 0, 1, 3 and 7: class, operation, and more registers than any of their uses. -/
def plainRows : List (Nat × Nat × Uses) :=
  ((List.range 20).map fun o => (0, o, { d := 1, a := 1, b := 1 })) ++ ((List.range 12).map fun o => (1, o, { d := 2, a := 2, b := 2, c := 2 })) ++
    ((List.range 5).map fun o => (3, o, { a := 1 })) ++ ((List.range 4).map fun o => (7, o, { d := 1, a := 1 }))

/-- Every operation of these classes issues, at the last registers and with DST discarded too; S2R reads register 0x14, FSETP
compares, CALL has room, RET a place to go. -/
theorem met_PlainInstructions : (∀ r ∈ plainRows, acts 0 (word r.1 r.2.1 150 150 150 150 0x14) [{}] r.1 r.2.1 r.2.2) ∧
    (∀ r ∈ plainRows, acts 0 (word r.1 r.2.1 255 151 151 151 0) [{}] r.1 r.2.1 { a := 1 }) ∧ (150 : Nat) % 8 ≠ 7 ∧
    acts 0 (word 3 2 0 0 0 0 0) [{ calls := [7] }] 3 2 {} ∧ acts 0 (word 3 1 0 0 0 0 0) [{ calls := List.replicate 7 0 }] 3 1 {} := by
  simp only [acts, issued, State.issues]
  refine ⟨?_, ?_, ?_, ?_, ?_⟩ <;> decide +kernel

theorem met_Exit : (∃ th ∈ [({} : Thread), { pc := 1 }], th.ready = true ∧ (th.holds 0 && th.guard (insOf (word 3 3 0 0 0 0 0))) = false) ∧
    (∀ th ∈ List.replicate 2 ({} : Thread), th.exited = false → (th.holds 0 && th.guard (insOf (word 3 3 0 0 0 0 0))) = true) ∧
    (kctx [{}]).groups.length = 1 := by decide

/-- Table 7.4 on fixed operands: a sum wraps, and saturates with IMM bit 0. -/
theorem test_iadd : let th : Thread := { regs := [(0, 0x7FFFFFFF), (1, 1)] }
    (((after (.iadd pl0) (kstate 0 (word 0 0 2 0 1 0 0) [th])).thread? pl0 0).map fun t => (t.reg 2, t.pc)) = some (0x80000000, 1) ∧
    (((after (.iadd pl0) (kstate 0 (word 0 0 2 0 1 0 1) [th])).thread? pl0 0).map (·.reg 2)) = some 0x7FFFFFFF := by decide +kernel

/-- FP32 addition rounds to nearest even (R111): 1 + 2^-24 is 1. -/
theorem test_fadd : let th : Thread := { regs := [(0, 0x3F800000), (1, 0x33800000)] }
    (((after (.fadd pl0) (kstate 0 (word 1 0 2 0 1 0 0) [th])).thread? pl0 0).map (·.reg 2)) = some 0x3F800000 := by decide +kernel

def at64 : Thread := { regs := [(0, 64)] }
def memWord (op : Nat) : Dword := word 2 op 4 0 2 6 9

theorem met_MemoryInstructions_issue : ∀ r ∈ ([(0, { d := 1, a := 2 }), (1, { d := 2, a := 2 }), (2, { a := 2, b := 1 }), (3, { a := 2, b := 2 }),
      (4, { d := 1, a := 1 }), (5, { a := 1, b := 1 }), (6, { d := 1, a := 2, b := 1, bImm := false }), (7, { d := 1, a := 1, b := 1, bImm := false }),
      (8, {}), (9, { d := 1, a := 1 })] : List (Nat × Uses)), acts 0 (memWord r.1) [at64] 2 r.1 r.2 := by
  simp only [acts, issued, State.issues]; decide +kernel

theorem met_MemoryInstructions : let s := kstate 0 (word 2 0 4 0 2 6 0) [at64]
    let i := insOf (word 2 0 4 0 2 6 0)
    at64.gaddr i true % 8 = 0 ∧ s.translate 0 (at64.gaddr i true) 8 false = some 64 ∧ s.missesL1 16 0 (lineOf 64) = true ∧
    s.missesL2 0 (lineOf 64) = true ∧ (s.translate 0 (at64.gaddr i true) 8 true).isSome = true ∧ at64.laddr i % 4 = 0 ∧
    at64.laddr i + 4 ≤ 4096 ∧ (∀ k, k < 4 → NMap.get none (kctx [at64]).ls (at64.laddr i + k) = (zeros 4)[k]?) ∧ (memWord 6).toNat % 16 = 9 ∧
    (s.cluster 1).l1.lines.find? (fun l => l.line == lineOf 64 && l.part == 0 && l.owned) = none ∧
    regOk (s.kernelOf (kctx [at64])).nreg i.sc 1 = true ∧ (at64.a i).toNat + 4 ≤ 4096 ∧ at64.gaddr i false % 4 = 0 := by decide +kernel

/-- A line the cluster owns, which the slice's view holds too. -/
theorem met_AtomAndLoadHits : let l : CLine := { scratch with line := 1 }
    let s : State := { kstate 0 (memWord 6) [at64] with
      slices := [(16, { st := .admitted, dcache := { lines := [l] } })], clusters := [(1, { l1 := { lines := [l] } })] }
    (s.slice 16).dcache.find 1 0 = some l ∧ s.coreRuns 16 = true ∧
    (s.cluster 1).l1.lines.find? (fun l => l.line == 1 && l.part == 0 && l.owned) = some l := by decide +kernel

theorem met_Stores_unowned (line : Nat) : (kstate 0 (word 2 2 4 0 2 6 0) [at64]).ownerOf line = none := rfl

theorem met_Ldline : let s := kstate 0 (word 2 9 4 0 2 6 60) [{}]
    let q := aQuery rayBytes
    s.query? 8 = some q ∧ (s.readImg q 16 1).1 = .ok [s.mem.readN 64 64] ∧ (s.readImg { q with handle := { epoch := 7 } } 16 1).1 = .older 1 ∧
    (({ s with mem := lineBytes [(4, [9])] 1 } : State).readImg q 16 1).1 = .newer 1 9 ∧ q.pin = none ∧ q.visitor = none ∧
    (s.readImg { q with handle := { base := 2 ^ 40 } } 16 1).1 = .miss := by decide +kernel

/-- Eight threads whose registers all read 0: tiles A at 0, B at 8, C and D at 24 (Table 7.5). -/
def eight : List Thread := List.replicate 8 {}

theorem met_MatrixInstructions_issue : acts 0 (word 4 0 24 0 8 24 0x011) eight 4 0 { b := 1, bImm := false } ∧
    acts 0 (word 4 0 24 0 8 24 0x111) eight 4 0 { b := 1, bImm := false } ∧
    acts 0 (word 4 1 24 24 8 9 0x00) eight 4 1 { b := 1, c := 2, bImm := false } ∧
    (∀ o ∈ [2, 3], acts 0 (word 4 o 24 0 24 0 0x20) eight 4 o { a := 1, b := 1, bImm := false }) := by
  simp only [acts, issued, State.issues]
  refine ⟨?_, ?_, ?_, ?_⟩ <;> decide +kernel

theorem met_MatrixInstructions : let k := (kstate 0 0 eight).kernelOf (kctx eight)
    (k.width = 8 ∧ k.nreg ≤ 255 ∧ tileOk k 0 (16 * fmtWidth 1) false = true ∧ tileOk k 8 (32 * fmtWidth 1) false = true ∧
      tileOk k 24 1024 false = true ∧ mayMeet 1 1 = true) ∧ mayMeet 9 10 = true ∧ fmtInt 9 = true ∧
    (tileOk k 24 512 false = true ∧ tileOk k 24 (16 * 32) false = true ∧ (0 : Word).toNat + 192 ≤ 4096 ∧
      ∀ j, j < 192 → NMap.get none (kctx eight).ls j = (zeros 192)[j]?) ∧
    fragFmtOk (insOf (word 4 2 24 0 24 0 0x20)) = true ∧ fragFmtOk (insOf (word 4 2 24 0 24 0 0x0A)) = true ∧ 0 + 4 * 512 ≤ 4096 := by
  decide +kernel

theorem met_SignalsEventsAndWork_issue : ∀ r ∈ ([(0, { a := 1, b := 1 }), (1, { b := 1 }), (2, {}), (3, {}), (4, { a := 1 })] : List (Nat × Uses)),
      acts 2 (word 5 r.1 0 0 1 0 0) [{}] 5 r.1 r.2 := by
  simp only [acts, issued, State.issues]; decide +kernel

theorem met_SignalsEventsAndWork : ((kctx [{}]).ev &&& (0 : Word) = 0 ∧ (kctx [{}]).ev &&& (1 : Word) ≠ 1) ∧
    (∀ th ∈ [({} : Thread)], th.exited = true → th.wait = .run) ∧ (kctx [{}]).groups.length = 1 ∧
    (let s := kstate 2 (word 5 3 0 0 1 0 0) [{}]
     s.worksWait pl0 = false ∧ bitAt (s.kernelOf (kctx [{}])).flags.toNat 1 = true ∧ (kctx [{}]).node < 16 ∧ (s.dep? 3).isSome = true ∧
       s.readyAtNode 3 0 1 = [] ∧ s.moreWork 3 0 1 = true ∧ (s.query? 8).isSome = true ∧
       ({ s with queries := [] } : State).readyAtNode 3 0 1 = [] ∧ ({ s with queries := [] } : State).moreWork 3 0 1 = false ∧
       (let q := { aQuery rayBytes with st := .tasks }
        (({ s with queries := [q] } : State).readyAtNode 3 0 1).head? = some q)) ∧
    ({ kctx [{}] with node := 255 } : Ctx).node = 255 := by decide +kernel

/-- A second group of which one thread runs, or all wait at the barrier (BAR); a thread that waits for work (GETWORK again). -/
theorem met_Barriers : (∃ x ∈ [({ threads := [{}] } : Group)], ∃ th ∈ x.threads, th.ready = true) ∧
    (∀ x ∈ [({ threads := [{ wait := .barrier }] } : Group)], ∀ th ∈ x.threads, th.exited = true ∨ th.wait = .barrier) ∧
    (let s := kstate 2 (word 5 3 0 0 1 0 0) [{ wait := .work 0 }]
     s.coreRuns 16 = true ∧ s.bordered 0 = false ∧ s.ctx? 16 0 = some (kctx [{ wait := .work 0 }]) ∧
       (kctx [{ wait := .work 0 }]).groups[0]? = some { threads := [{ wait := .work 0 }] }) := by decide +kernel

def serving : Thread := { query := some 8 }
/-- DST, SA, SB, SC and IMM of a QRY instruction: BUF and its 48 bytes begin at 0. -/
def qryWord (op : Nat) : Dword := word 6 op 0 0 1 2 2

theorem met_QueryInstructions_issue : ∀ r ∈ ([(0, { d := 1 }), (1, { d := 1 }), (2, { a := 1, c := 2 }), (3, { d := 1 }), (4, { d := 1, a := 1 }),
      (5, { a := 1, b := 1 }), (6, { a := 1 }), (7, { a := 1 }), (8, { a := 1 })] : List (Nat × Uses)),
      acts 4 (qryWord r.1) [serving] 6 r.1 r.2 ∧ acts 4 (qryWord r.1) [{}] 6 r.1 r.2 := by
  simp only [acts, issued, State.issues]; decide +kernel

theorem met_QueryInstructions : let s := kstate 4 (qryWord 7) [serving]
    s.query? 8 = some (aQuery rayBytes) ∧ bitAt (s.kernelOf (kctx [serving])).flags.toNat 2 = true ∧ (aQuery rayBytes).geo.isSome = true ∧
    ({ kctx [serving] with leaf := some ⟨2, 1, [9], 0, 3, 1⟩ } : Ctx).leaf.isSome = true ∧ (insOf (qryWord 5)).imm % 4 ≠ 3 ∧
    ∀ k, k < 48 → NMap.get none (kctx [serving]).ls (0 + k) = (zeros 48)[k]? := by decide +kernel

/-- A thread that serves no query has no QRY effect, whatever its operands: a BUF that is not aligned is no fault (R194). -/
theorem test_emitq_without_query : let th : Thread := { regs := [(0, 1)] }
    ((after (.emitq pl0) (kstate 4 (qryWord 7) [th])).thread? pl0 0).map (·.pc) = some 1 := by decide +kernel

/-- The deposit of these states lives, its run is not killed. -/
theorem met_ThreadFaults : let s := kstate 0 (memWord 0) [{ regs := [(0, 2)] }]
    s.dep? 3 = some { aDep .running with nextIdx := 1, hdr := some (aQuery rayBytes).hdr, hdrRead := true } ∧ (aDep .running).killedIn 0 = none ∧
    s.bordered 0 = false ∧ (∀ q ∈ s.queries, q.uid < s.nextUid) ∧ (∀ i, s.issueSlot pl0 i = s.issueSlot pl0 i) := by
  refine ⟨rfl, rfl, by decide +kernel, by decide +kernel, fun _ => rfl⟩

/-- Words that no table lists and pcs behind the kernel's end; the budget; illegal registers. -/
theorem met_ReservedWords : (let s := kstate 0 (word 8 0 0 0 0 0 0) [{}]
      s.nextPc (kctx [{}]) { threads := [{}] } = some 0 ∧ (s.code (kctx [{}]) 0).map (·.listed) = some false ∧
        s.issueSlot pl0 ((s.code (kctx [{}]) 0).getD (insOf 0)) ≠ none) ∧
    (let s := kstate 0 (memWord 0) [{ pc := 1 }]
     s.nextPc (kctx [{ pc := 1 }]) { threads := [{ pc := 1 }] } = some 1 ∧ s.code (kctx [{ pc := 1 }]) 1 = none ∧ s.issueSlot pl0 (insOf 0) ≠ none) ∧
    (let s : State := { kstate 0 (word 0 0 0 255 0 0 0) [{ issued := 1 }] with clusters := [(1, { ibudget := 1 })] }
     (s.cluster 1).ibudget ≠ 0 ∧ (s.cluster 1).ibudget.toNat ≤ 1) ∧
    (insOf (word 0 0 0 255 0 0 0)).listed = true ∧ (insOf (word 0 0 0 255 0 0 0)).sa = 255 := by decide +kernel

theorem met_FaultsIssue : acts 0 (word 3 1 0 0 0 0 0) [{ calls := List.replicate 8 0 }] 3 1 {} ∧ acts 0 (word 3 2 0 0 0 0 0) [{}] 3 2 {} ∧
    acts 0 (word 2 0 4 0 2 6 0) [{ regs := [(0, 2)] }] 2 0 { d := 1, a := 2 } ∧ acts 0 (word 2 0 4 0 2 6 0) [{ regs := [(1, 1)] }] 2 0 { d := 1, a := 2 } ∧
    acts 0 (word 2 2 4 0 2 6 0) [{ regs := [(1, 1)] }] 2 2 { a := 2, b := 1 } ∧ acts 0 (word 2 4 4 0 2 6 0) [{ regs := [(0, 4096)] }] 2 4 { d := 1, a := 1 } ∧
    acts 0 (word 2 9 4 0 2 6 0) [serving] 2 9 { d := 1, a := 1 } ∧ acts 0 (word 1 5 0 0 0 7 0) [{}] 1 5 { a := 1, b := 1 } ∧
    acts 0 (qryWord 7) [serving] 6 7 { a := 1 } ∧ acts 0 (word 5 3 0 0 1 0 0) [{}] 5 3 {} := by
  simp only [acts, issued, State.issues]
  refine ⟨?_, ?_, ?_, ?_, ?_, ?_, ?_, ?_, ?_, ?_⟩ <;> decide +kernel

theorem met_FaultConditions : let i := insOf (word 2 0 4 0 2 6 0)
    let s := kstate 0 (word 2 0 4 0 2 6 0) [at64]
    ({ regs := [(0, 2)] } : Thread).gaddr i true % 4 ≠ 0 ∧ ({ regs := [(0, 2)] } : Thread).laddr i % 4 ≠ 0 ∧
    ({ regs := [(1, 1)] } : Thread).gaddr i true = 2 ^ 32 ∧ s.translate 0 (2 ^ 32) 4 false = none ∧ s.translate 0 (2 ^ 32) 4 true = none ∧
    4096 < ({ regs := [(0, 4096)] } : Thread).laddr i + 4 ∧ 4 ≤ (triesOf [(0, List.replicate 4 .error)] 0).length ∧
    (insOf (word 1 5 0 0 0 7 0)).sc % 8 = 7 ∧ bitAt (0 : Byte).toNat 2 = false ∧ bitAt (0 : Byte).toNat 1 = false := by decide +kernel

/-- Tile operations: beside an exited thread, with a reserved tile, with formats that may not meet. -/
theorem met_TileFaults_issue :
    issued 0 (word 4 2 24 0 0 0 0x20) (List.replicate 7 ({} : Thread) ++ [{ exited := true }]) 4 2 { a := 1, b := 1, bImm := false } ∧
    acts 0 (word 4 2 0 0 0 0 0x30) eight 4 2 { a := 1, b := 1, bImm := false } ∧
    acts 0 (word 4 0 24 0 8 24 0x091) eight 4 0 { b := 1, bImm := false } := by
  simp only [acts, issued, State.issues]
  refine ⟨?_, ?_, ?_⟩ <;> decide +kernel

theorem met_TileFaults : let k := (kstate 0 0 eight).kernelOf (kctx eight)
    fragWords (insOf (word 4 2 24 0 0 0 0x20)) = some 512 ∧ fragWords (insOf (word 4 2 0 0 0 0 0x30)) = none ∧
    tileOk k 24 512 true = true ∧ mayMeet 1 9 = false ∧ mmaPair (insOf (word 4 0 24 0 8 24 0x091)) = false ∧
    tileOk k 0 (16 * fmtWidth 1) false = true ∧ tileOk k 8 (32 * fmtWidth 9) false = true ∧ tileOk k 24 512 false = true := by decide +kernel

/-! ## Task graphs -/

/-- Query 8 stands after its traversal, with a KERNEL node of a two-thread kernel next to it. -/
def tasked (q : Query) (nodes : List GNode) (d : Dep) : State :=
  { onTree { q with st := .tasks, bits := 1, readyAt := [(1, 1)] } none with
    deps := [d], wclk := 64
    parts := [(0, { aPart with graphs := walkGraph nodes
                               kernels := [(0, { codeLen := 1, width := 1, ngroups := 1, nreg := 8, lsplit := 1 })] })] }
def running : Dep := { aDep .running with nextIdx := 1, hdr := some { dims := 3, lineCount := 4, root := 1 }, hdrRead := true }

/-- The KERNEL node's task is the one a core slot of slice 16 takes; it is full, and its query has waited 64 wclk. -/
theorem met_KernelLaunches : let s := tasked (aQuery rayBytes) [aNode 1 0 0, aNode 4 0 0] running
    let k := (s.part 0).kernel 0
    s.isOpen = true ∧ s.dep? 3 = some running ∧ clusterOf 16 = 1 ∧ s.readyAtNode 3 0 1 = s.queries ∧ k.threads = 1 ∧
    (∃ q ∈ s.queries, NMap.get 0 q.readyAt 1 - 1 + ((s.part 0).graph 0).gather ≤ s.wclk) ∧
    (s.taskList 1).map (fun x => (x.kind, x.dep, x.node, x.rank)) = [(.kernel, 3, 1, 0)] ∧
    (∀ x ∈ s.taskList 1, s.mayTake 16 15 x = true ∧ s.mayTake 16 16 x = false) := by
  decide +kernel

/-- A KERNEL leaf at line 2. -/
def kernelLeaf : State :=
  { onTree { atLeaf with hdr := { dims := 3, lineCount := 4, root := 1 } } (some (batchOf .leaf 2)) with
    mem := lineBytes [(0, [0x10, 9, 1]), (8, [3]), (12, [1])] 2 ++ lineBytes [(0, [0x20, 9])] 3
    parts := [(0, { aPart with graphs := walkGraph [aNode 1 0 0]
                               kernels := [(0, { codeLen := 1, width := 1, ngroups := 1, nreg := 8, lsplit := 1 })] })] }

theorem met_LeafKernel : let s := kernelLeaf
    s.works 16 = true ∧ s.headBatch 16 = some (batchOf .leaf 2) ∧ s.unitOf 16 8 = 2 ∧ (s.query? 8).isSome = true ∧ s.bordered 0 = false ∧
    (((s.query? 8).map fun q => match s.lookLeaf q 16 with
      | (.leaf f, s1) => match s1.readRecords q 16 f with
        | some (.ok ls, s2) => (kernelRun ls, f.kernel, ((s2.takeMembers 16 []).leafTaskAt 16).isSome,
            ((s2.takeMembers 16 []).offered 16 0).all fun x => ((s2.takeMembers 16 []).leafTaskAt 16).all fun y => !x.before y)
        | _ => (false, 0, false, false)
      | _ => (false, 0, false, false)) = some (true, 0, true, true)) ∧ ((s.part 0).kernel 0).codeLen ≠ 0 ∧ ((s.part 0).kernel 0).threads = 1 ∧
    bitAt ((s.part 0).kernel 0).flags.toNat 2 = false ∧ s.coreFor 0 0 16 16 = true ∧ s.coreTakes 16 0 ((s.part 0).kernel 0) = true ∧ ((s.part 0).kernel 1).codeLen = 0 := by decide +kernel

theorem met_EmitTask : let s := tasked { aQuery rayBytes with staged := [rayBytes] } [aNode 1 0 0, aNode 5 0 0] running
    let q := { aQuery rayBytes with st := .tasks, bits := 1, readyAt := [(1, 1)], staged := [rayBytes] }
    s.query? 8 = some q ∧ q.dep = 3 ∧ q.pin = none ∧ q.visitor = none ∧ q.st = .tasks ∧
    q.bits &&& (s.graphOf q).queryBits ≠ (s.graphOf q).queryBits ∧
    ((s.graphOf q).indices (· == opEmit)).find? (fun j => nodeReady (s.graphOf q) j q.bits (s.gateOf 3)) = some 1 ∧
    (∀ k, k < q.staged.length → emitOk q (q.created + k) = true) ∧ (s.placeSecondaries q q.created q.staged).isSome = true ∧
    (({ s with parts := [(0, { s.part 0 with quotaCtx := 1 })] } : State).placeSecondaries q q.created q.staged).isNone = true ∧
    (∃ k, k < q.staged.length ∧ emitOk { q with created := 4 } (4 + k) = false) := by
  decide +kernel

def finished (nodes : List GNode) (d : Dep) : State := { tasked (aQuery rayBytes) nodes d with queries := [] }

theorem met_Reduce : let s := finished [aNode 1 0 0, aNode 6 0 0] running
    s.nextReduce running = some 1 ∧ (s.translate 0 0x30000 8 true).isSome = true ∧ running.killedIn 0 = none ∧
    ({ s with parts := [(0, { s.part 0 with wins := [] })] } : State).translate 0 0x30000 8 true = none := by decide +kernel

theorem met_Deliver : let t := finished [aNode 1 0 0, aNode 7 0 0] running
    let b := { running with dmode := 1, done := [⟨0, 0, 0, 1, 0, 0, [⟨0, 0, 0, 0, 0, 0, 0⟩], 1, 0, [], [], false⟩] }
    let u : State := { finished [aNode 1 0 0, aNode 7 0 0] b with parts := [(0, { (t.part 0) with
      pools := [(0, { en := true, base := 0x40000, count := 1, sizeLog2 := 12 })] })] }
    t.deliverDue running = true ∧ (t.part 0).lockEn = false ∧ running.dmode = 0 ∧
    u.deliverDue b = true ∧ bufLines ((b.stream? 0).take (u.bufRoom b)) ≠ [] ∧
    (∀ x ∈ bufLines ((b.stream? 0).take (u.bufRoom b)), (u.translate 0 (u.bufAddr b + x.1) x.2.length true).isSome = true) ∧
    (let l : State := { t with parts := [(0, { t.part 0 with lockEn := true })] }
     l.deliverDue running = true ∧ (l.part 0).lockEn = true) := by decide +kernel

/-- The address of SR_ADDR for slot 0, GEN 1 of slice 16, and that of lead core 2 (Table 7.2). -/
def ctxAddr : Word := 0x2010
def leadAddr : Word := 0x102
def signalled (th : Thread) (p : Nat) (a : Word) : State :=
  { kstate 0 0 [th] with signals := [⟨p, 1, a, 1⟩], slices := [(16, { st := .admitted, gens := [(0, 1)] })] }

theorem met_SignalDelivery : (signalled {} 0 ctxAddr).signals[0]? = some ⟨0, 1, ctxAddr, 1⟩ ∧ 3 < 2 * up.nclusters ∧ (up.lead 3).faulted = false ∧
    (up.cluster (3 / 2)).retired = false ∧ sigLead leadAddr = true ∧ sigUnit leadAddr < 2 * up.nclusters ∧ sigLead ctxAddr = false ∧
    sigUnit ctxAddr = 16 ∧ 16 < up.nslices ∧ sigSlot ctxAddr = 0 ∧ sigGen ctxAddr = 1 ∧ sigGen 0x4010 ≠ 1 ∧ up.nslices ≤ sigUnit 0x20FF ∧
    sigLead 0x20FF = false ∧ (signalled {} 0 ctxAddr).ctx? 16 0 = some (kctx [{}]) ∧
    (kctx [{}]).part ≠ 1 ∧ (kctx [{}]).part = 0 ∧ NMap.get 0 ((signalled {} 0 ctxAddr).slice 16).gens 0 = 1 ∧
    ({ signalled {} 0 ctxAddr with ctxs := [] } : State).ctx? 16 0 = none ∧
    (∃ x ∈ (kctx [{}]).groups, ∃ th ∈ x.threads, th.ready = true) := by decide +kernel

theorem met_SignalWakes : (∀ x ∈ (kctx [{}]).groups, ∀ th ∈ x.threads, ∀ m, th.wait ≠ .event m) ∧
    (kctx [{ wait := .event 1 }]).groups = [{ threads := [{ wait := .event 1 }] }] ∧ (0 ||| (1 : Word)) &&& 1 = 1 ∧ (0 ||| (2 : Word)) &&& 1 ≠ 1 := by
  refine ⟨?_, rfl, by decide, by decide⟩
  intro x hx th ht m; simp [kctx] at hx; subst hx; simp at ht; subst ht; simp

theorem met_DeadlockKill : let c : Ctx := { kctx [{ wait := .event 1 }] with blockedAt := some 0 }
    let s : State := { kstate 0 0 [{}] with ctxs := [c], wclk := 4096 }
    s.ctxs.filter (·.part == 0) = [c] ∧ c.blockedAt = some 0 ∧ s.ctx? c.slice c.slot = some c ∧ (s.dep? c.dep).isSome = true ∧
    running.killedIn 0 = none ∧ 0 + 4096 ≤ s.wclk ∧ (s.part 0).ranAt + 4096 ≤ s.wclk ∧ s.unsignalled c = true ∧ ¬ 4095 ≥ 0 + 4096 := by
  decide +kernel

/-! ## Mint -/

/-- BUILD of one point at 0x40000 to 0x50000, PERM at 0x60000 (Table 8.4). -/
def buildDesc : List Byte :=
  [1, 4, 0, 1] ++ leBytes 4 1 ++ leBytes 8 0x40000 ++ leBytes 8 0x50000 ++ leBytes 4 64 ++ leBytes 4 1 ++ leBytes 8 0x60000 ++ zeros 16 ++
    [0, 0, 3, 0] ++ zeros 4
def minting (desc : List Byte) (d : Dep) : State :=
  { withDep d with
    mem := lineBytes [(0, desc)] (0x70000 / 64)
    parts := [(0, { aPart with mring := { base := 0x70000, sizeLog2 := 4, en := true, tail := 1 } })] }

theorem met_MintCommands_rejected : let s := minting (zeros 64) (aDep .running)
    s.isOpen = true ∧ s.readPart 0 0x70000 64 = some (zeros 64) ∧ s.mint.cur = none ∧ s.mintNext = some 0 ∧ (s.part 0).mring.entry 0 = 0x70000 ∧
    (s.translate 0 (0x70000 + 64) 64 true).isSome = true ∧ s.mintBad 0 (parseMint (zeros 64)) = true ∧ s.mintNext ≠ some 1 ∧
    s.rangeReady 0 0x70000 64 false = true ∧ (∀ x ∈ (parseMint (zeros 64)).inputs, s.rangeReady 0 x.1 x.2 false = true) ∧ (∃ g ∈ granules 0x70000 64, g.1 / 64 = 0x1C00) ∧
    (s.translate 0 (64 * 0x1C00) 1 false).isSome = true ∧ up.fab.hq.length < 64 := by
  decide +kernel

theorem met_MintCommands_built : let s := minting buildDesc (aDep .running)
    let c := parseMint buildDesc
    let m := s.mintBuilt 0 c
    s.readPart 0 0x70000 64 = some buildDesc ∧ s.mintNext = some 0 ∧ s.mintBad 0 c = false ∧ m.status = 0 ∧ c.inPlace = false ∧ c.op ≠ 2 ∧
    (∀ x ∈ c.inputs, s.rangeReady 0 x.1 x.2 false = true) ∧
    mintWrites c m ≠ [] ∧ (∀ x ∈ mintWrites c m, (s.translate 0 x.1 x.2.length true).isSome = true) ∧
    (aDep .running).handle.base ≠ BitVec.ofNat 64 c.outBase ∧
    (let d := { aDep .running with handle := { base := 0x50000 } }
     d.handle.base = BitVec.ofNat 64 c.outBase ∧ d.handle.epoch ≠ c.written ∧ d.step ≠ .receipt ∧ d.step ≠ .retiring) := by decide +kernel

/-- REFIT in place of the small image, of epoch 1 here, with its sphere's record at 0x40000 and PERM at 0x60000. -/
def refitDesc : List Byte :=
  [2, 2, 0, 1] ++ leBytes 4 1 ++ leBytes 8 0x40000 ++ zeros 8 ++ leBytes 4 4 ++ leBytes 4 1 ++ leBytes 8 0x60000 ++ zeros 16 ++ [0, 0, 3, 0] ++ zeros 4
def refitting : State :=
  let s := minting refitDesc (aDep .running)
  { s with mem := (List.range 4).flatMap (fun l => ((smallImage ++ [(24, 1)] ++ (List.range 4).map fun k => (64 * k + 4, 1)).filter
                    fun c => c.1 / 64 == l)) ++ lineBytes [(14, [0x80, 0x3F])] 0x1000 ++ s.mem }

theorem met_MintCommands_refit : let s := refitting
    let c := parseMint refitDesc
    s.readPart 0 0x70000 64 = some refitDesc ∧ c.op = 2 ∧ c.inPlace = true ∧ s.mintBad 0 c = false ∧
    s.rangeReady 0 c.src (64 * c.outLines) false = true ∧ (∀ x ∈ c.inputs, s.rangeReady 0 x.1 x.2 false = true) ∧
    (s.mintSource 0 c).toOption.map (fun h => ((s.mintRefitted 0 c h).status, (mintWrites c (s.mintRefitted 0 c h)).length)) = some (0, 4) := by
  decide +kernel

/-- A point that is a NaN is void (R66). -/
theorem met_MintCommands_void : recordPrim 4 3 ([0, 0, 0xC0, 0x7F] ++ zeros 8) = none := by decide +kernel

def aCmd : MintCmd :=
  { part := 0, index := 0, desc := buildDesc, target := 0x50000, epoch := 1, drain := true, writes := [(0x50000, zeros 64)] }

theorem met_MintDrain : let s : State := { minting buildDesc (aDep .running) with mint := { cur := some aCmd } }
    let t : State := { minting buildDesc { aDep .running with handle := { base := 0x50000 } } with mint := { cur := some aCmd } }
    s.mintBlocked aCmd = false ∧ (parseMint aCmd.desc).inPlace = false ∧ t.mintBlocked aCmd = true ∧
    (∀ x ∈ aCmd.writes, (s.translate aCmd.part x.1 x.2.length true).isSome = true) := by decide +kernel

theorem met_MintCompletionAndRings : let s : State := { awaiting .mintRec (aDep .running) with mint := { cur := some { aCmd with status := 1 } } }
    (∃ a, s.acc? 0 0 true = some a ∧ a.purpose = .mintRec ∧ a.applied = false) ∧ s.mint.cur = some { aCmd with status := 1 } ∧
    (s.deps.map (·.id)).Nodup ∧ (∀ line, s.ownerOf line = none) ∧ (1 : Word).getLsbD 0 = true ∧ (0 : Word).getLsbD 0 = false ∧
    (∀ c, up.mint.cur = some c → c.part ≠ 0) ∧ (∀ x, up.mint.redo = some x → x.1 ≠ 0) ∧
    (let t : State := { minting buildDesc (aDep .running) with mint := { cur := some aCmd } }
     (t.part 0).mring.en = true ∧ t.mint.cur = some aCmd ∧ aCmd.part = 0 ∧ aCmd.completing = false ∧
       (t.translate 0 ((t.part 0).mring.entry aCmd.index + 64) 64 true).isSome = true) := by
  refine ⟨⟨_, rfl, rfl, rfl⟩, rfl, by decide, fun _ => rfl, by decide, by decide, ?_, ?_, by decide⟩
  · intro c h; cases h
  · intro x h; cases h

/-! ## Faults, audits, locked pairs -/

theorem met_UnitFaults : let s : State := { up with wclk := 65536, slices := [(0, { st := .admitted, inQ := [batchOf .ray 1] }), (1, { st := .admitted })] }
    s.inService 0 = true ∧ (∃ k, k ≠ 0 ∧ clusterOf k = clusterOf 0 ∧ k < s.nslices ∧ (s.slice k).st = .admitted) ∧
    s.headBatch 0 = some (batchOf .ray 1) ∧ (batchOf .ray 1).released + 65536 ≤ s.wclk ∧
    ¬ s.wclk < (batchOf .ray 1).released + 65536 ∧ (0x00000001 : Word) = BitVec.ofNat 32 (2 ^ (0 % 16)) ∧ 3 < s.nclusters ∧
    7 < 2 * s.nclusters ∧ s.boot.ranSince + 10000 ≤ s.elapsed ∧ (s.lead 7).faulted = false ∧ (s.lead 6).faulted = false ∧
    (s.cluster 3).lead ≠ 7 % 2 ∧ (s.cluster 3).lead = 6 % 2 ∧
    (({ s with leads := [(6, { faulted := true })] } : State).lead 6).faulted = true ∧ (s.cluster 3).retired = false ∧
    (s.clustersAfter 3).head? = some 0 ∧ ({ s with slices := [] } : State).clustersAfter 3 = [] := by
  refine ⟨by decide, ⟨1, by decide⟩, ?_⟩; decide

/-- Recoveries: one that has lasted too long, a third one, one that is done, one still within its 200 µs. -/
theorem met_Recoveries : let a : Acc := { port := 0, tag := 0, write := false, part := 0, addr := 0, paddr := 0, data := [], purpose := .rerun 3 0 0 1, issued := 0 }
    let s : State := { up with accs := [a] }
    let x (at' : Nat) : Recov := { start := at', fams := [(3, 0, 0)], third := false }
    s.recovering (x 0) = true ∧ (x 0).reported = false ∧ (x 0).start + 200000 < s.elapsed ∧ { x 0 with third := true }.third = true ∧
    s.elapsed ≤ (x 1800000).start + 200000 ∧ s.recovering { x 0 with fams := [] } = false := by decide +kernel

def probing (v : Slice) : State := { up with slices := [(5, v)] }

theorem met_AdmitWritesAreLimited : ((probing { st := .bist }).slice 5).st = .bist ∧ 3 ≤ ((probing { st := .retired, fails := 3 }).slice 5).fails ∧
    ((probing { st := .probation, mismatch := true }).slice 5).mismatch = true ∧ (up.slice 0).st ≠ .retired ∧ 5 < up.nslices := by decide

theorem met_Readmission : (0x00200000 : Word) = BitVec.ofNat 32 (2 ^ (16 + 5 % 16)) ∧ clusterOf 5 = 0 ∧
    ((probing { st := .retired, fails := 2 }).slice 5).fails < 3 ∧ (up.cluster 0).retired = false ∧
    65536 ≤ ((probing { st := .probation, compared := 65536 }).slice 5).compared ∧
    ((probing { st := .probation, compared := 65535 }).slice 5).compared < 65536 ∧
    ((probing { st := .waiting, since := 1999999 }).slice 5).since.toNat / 1000000 < up.tbu.tb.toNat / 1000000 ∧
    up.tbu.tb.toNat / 1000000 ≤ ((probing { st := .waiting, since := 2000000 }).slice 5).since.toNat / 1000000 := by decide

/-- A shadow of query 8 on slice 32, and the original as it ended with a status. -/
def shadow (st : Byte) : Query :=
  { aQuery rayBytes with uid := 7, cluster := 2, slice := 32, pin := some 32, shadowOf := some 8, st := .ended, status := some st }
def audited (st : Byte) (more : List Query) : State :=
  { withDep running with queries := shadow st :: more, snaps := [(aQuery rayBytes, 1)] }

theorem met_AuditCompare : let s := audited 1 []
    s.query? 7 = some (shadow 1) ∧ s.snapOf 8 = some (aQuery rayBytes, 1) ∧ (s.queries.any (·.voteWith == some 7)) = false ∧
    (∀ y ∈ s.queries, y.uid < s.nextUid) ∧ (shadow 1).memEvent = false ∧ (aQuery rayBytes).memEvent = false ∧
    { shadow 1 with memEvent := true }.memEvent = true ∧ sameEnd (aQuery rayBytes) 1 (shadow 1) 1 = true ∧
    sameEnd (aQuery rayBytes) 1 (shadow 0) 0 = false ∧ (s.slice 32).st ≠ .probation ∧
    s.thirdSlices (aQuery rayBytes) (shadow 0) = [48, 0, 1] ∧ s.sliceCtx 48 < 2048 ∧ s.partCtx 0 < (s.part 0).quotaCtx.toNat ∧
    (let full : State := { s with parts := [(0, { s.part 0 with quotaCtx := 0 })] }
     full.thirdSlices (aQuery rayBytes) (shadow 0) ≠ [] ∧ ¬ full.partCtx 0 < (full.part 0).quotaCtx.toNat) ∧
    ({ s with slices := up.slices.filter (·.1 != 48) } : State).thirdSlices { aQuery rayBytes with ran := [(0, 1), (1, 1)] } (shadow 0) = [] ∧
    (({ s with slices := [(32, { st := .probation })] } : State).slice 32).st = .probation := by decide +kernel

def third (st : Byte) : Query := { shadow st with uid := 6, slice := 48, cluster := 3, pin := some 48, voteWith := some 7 }

theorem met_AuditVote : let s := audited 0 [third 2]
    s.query? 6 = some (third 2) ∧ (third 2).voteWith = some 7 ∧ s.query? 7 = some (shadow 0) ∧ (third 2).shadowOf = some 8 ∧
    s.snapOf 8 = some (aQuery rayBytes, 1) ∧ (third 2).st = .ended ∧
    sameEnd (third 2) 2 (aQuery rayBytes) 1 = false ∧ sameEnd (third 2) 2 (shadow 0) ((shadow 0).status.getD 0) = false ∧
    sameEnd (third 1) 1 (aQuery rayBytes) 1 = true ∧ (shadow 0).pin.getD 0 < s.nslices ∧
    sameEnd (third 0) 0 (aQuery rayBytes) 1 = false ∧ sameEnd (third 0) 0 (shadow 0) ((shadow 0).status.getD 0) = true ∧
    (departs (aQuery rayBytes).trace (shadow 0).trace).getD (aQuery rayBytes).slice = 16 := by decide +kernel

def aRun (r : Nat) (b : Byte) (tr : List (Word × Nat × List Visit)) : RunOut := ⟨r, [[b]], [], false, tr⟩
/-- A deposit whose third run has ended beside two runs. -/
def voting (a b : RunOut) (k : List (Nat × Byte)) : State :=
  let d := { running with third := true, runs := [a, b], killed := k }
  { finished [aNode 1 0 0] d with parts := [(0, { aPart with graphs := walkGraph [aNode 1 0 0], lockEn := true })] }

theorem met_LockedPairs :
    (let d := { running with runs := [aRun 0 1 [], aRun 1 1 []] }
     (withDep d).dep? 3 = some d ∧ d.step = .running ∧ d.third = false ∧ (aRun 0 1 []).records = (aRun 1 1 []).records ∧
       (aRun 0 1 []).receipt = (aRun 1 1 []).receipt ∧ d.dmode = 0) ∧ (aRun 0 1 []).agrees (aRun 1 2 []) = false ∧
    minoritySlice [((0 : Word), 0, [⟨1, 0, 5⟩])] [((0 : Word), 0, [⟨1, 1, 6⟩])] = some 5 ∧
    minoritySlice [] [((0 : Word), 0, [⟨1, 1, 6⟩])] = none ∧ 5 < up.nslices := by decide +kernel

/-- The third run's outcomes: with neither of two, the run without a failed access; with either of two that are like it. -/
theorem met_LockVote : let s := voting (aRun 0 1 []) (aRun 1 2 []) []
    (s.dep? 3).map (fun d => (s.allQueriesDone d, (aRun 0 1 []).agrees (s.runOut d 2), (aRun 1 2 []).agrees (s.runOut d 2))) =
      some (true, false, false) ∧
    (s.dep? 3).map (fun d => (({ s.runOut d 2 with run := 0 }).agrees (s.runOut d 2), (s.runOut d 2).memEvent)) = some (true, false) ∧
    { aRun 0 1 [] with memEvent := true }.memEvent = true ∧
    [{ aRun 0 1 [] with memEvent := true }, aRun 1 2 [], aRun 2 3 []].find? (fun x => !x.memEvent) = some (aRun 1 2 []) ∧
    { running with memFault := some (0, 0x40, 1) }.memFault = some (0, 0x40, 1) ∧ ({ running with killed := [(2, 0x10)] }.killedIn 2).isSome = true := by
  decide +kernel

/-- Link 0 up, the small image in memory, and a FORWARD of one ray at line 1 (Table 5.7). -/
def visited : State := { linked with mem := smallImage }
def forwarded : Packet := { packet 0 with nmemb := 1, payload := rayBytes ++ zeros 8 ++ leBytes 4 1 ++ zeros 68 }
theorem met_visitors : visited.takesPkt forwarded = true ∧ visited.routeTo 3 = some 0 ∧ (visited.link 0).up = true ∧
    (visited.takeVisitors forwarded).toOption.isSome = true := by decide +kernel
theorem test_visitor_placed : (visited.takeVisitors forwarded).toOption.map (fun s => s.queries.map fun q => q.visitor) =
    some [some (3, 7)] := by decide +kernel

/-! ## An image that authenticates -/

/-- An image of 1,024 bytes with three empty sections (Tables 13.5 and 13.6), signed outside Lean under the private key 1 with
the nonce 1, so that key and R are the base point. -/
def imageHead : List Byte :=
  leBytes 4 0x474D4943 ++ [1, 4, 0, 0xFF] ++ leBytes 4 1024 ++ leBytes 4 5 ++ leBytes 4 0 ++ [0, 3, 0, 0] ++ beBytes 48 p384Gx ++
    beBytes 48 p384Gy ++ zeros 8 ++ ([1, 2, 3] : List Byte).flatMap fun t => [t, 0, 0, 0] ++ leBytes 4 192 ++ zeros 8
def signature : List Byte := beBytes 48 p384Gx ++
  beBytes 48 0xfa167b86ef64285ec60f39eb20b81d340c218cdfc4715bf29cc3a5bc153e00a376362990aeae012b5f770b5f827abd9e
def signed : State :=
  { boot := { porst := false, phase := .load, trying := some 0 }
    sensed := { keyHash := [sha384 (beBytes 48 p384Gx ++ beBytes 48 p384Gy)] }
    flash := imageHead.mapIdx (fun i b => (slotBase 0 + i, b)) ++ signature.mapIdx (fun i b => (slotBase 0 + 928 + i, b)) }

/-- R383 part by part: each part is evaluated by itself. -/
theorem judged {s : State} {k : Nat} {hd bs : List Byte} (h0 : s.wellFormedImage k = true) (h1 : s.flashN (slotBase k) 384 = hd)
    (h2 : s.flashN (slotBase k) (fieldAt hd 8 4) = bs)
    (h3 : sha384 ((hd.drop 24).take 96) = s.sensed.keyHash.getD (byteAt hd 20).toNat [])
    (h4 : s.sensed.revoke.getLsbD (byteAt hd 20).toNat = false)
    (h5 : ecdsaOk ((hd.drop 24).take 96) (bs.drop (fieldAt hd 8 4 - 96)) (bs.take (fieldAt hd 8 4 - 96)) = true)
    (h6 : ¬ fieldAt hd 16 4 < s.sensed.svn) : s.judgeSlot k = none := by
  subst h1 h2
  simp only [State.judgeSlot, h0, h3, h4, h5, h6, Bool.not_true, Bool.false_eq_true, if_false, bne_self_eq_false, Bool.or_self]

def padding (n : Nat) : List Byte := List.replicate n 0xFF
theorem padding_length (n : Nat) : (padding n).length = n := by simp [padding]
theorem padding_get (n i : Nat) : (padding n)[i]?.getD 0xFF = 0xFF := by
  simp only [padding, List.getElem?_replicate]; split <;> rfl
def signedImage : List Byte := imageHead ++ padding 752 ++ signature

theorem get_written {d : Byte} (rest : NMap Byte) (bs : List Byte) (base i : Nat) :
    NMap.get d (bs.mapIdx (fun j b => (base + j, b)) ++ rest) (base + i) = if i < bs.length then bs.getD i d else NMap.get d rest (base + i) := by
  induction bs generalizing base i with
  | nil => simp
  | cons b bs ih =>
    rw [List.mapIdx_cons, List.cons_append, NMap.get]
    by_cases h : i = 0
    · subst h; simp
    · obtain ⟨k, rfl⟩ : ∃ k, i = k + 1 := ⟨i - 1, by omega⟩
      have e : (fun (j : Nat) (b : Byte) => (base + (j + 1), b)) = fun j b => (base + 1 + j, b) := by
        funext j b; simp only [Prod.mk.injEq, and_true]; omega
      have hk := ih (base + 1) k
      rw [show base + 1 + k = base + (k + 1) by omega] at hk
      simp [e, hk]

theorem get_before {d : Byte} (rest : NMap Byte) (bs : List Byte) (base i : Nat) (h : i < base) :
    NMap.get d (bs.mapIdx (fun j b => (base + j, b)) ++ rest) i = NMap.get d rest i := by
  induction bs generalizing base with
  | nil => simp
  | cons b bs ih =>
    have e : (fun (j : Nat) (b : Byte) => (base + (j + 1), b)) = fun j b => (base + 1 + j, b) := by
      funext j b; simp only [Prod.mk.injEq, and_true]; omega
    rw [List.mapIdx_cons, List.cons_append, NMap.get, if_neg (by omega), e, ih _ (by omega)]

theorem signed_byte (i : Nat) (h : i < 1024) : NMap.get 0xFF signed.flash (slotBase 0 + i) = signedImage.getD i 0xFF := by
  have l1 : imageHead.length = 176 := by decide +kernel
  have l2 : signature.length = 96 := by decide +kernel
  have hf : signed.flash = imageHead.mapIdx (fun i b => (slotBase 0 + i, b)) ++ (signature.mapIdx (fun i b => (slotBase 0 + 928 + i, b)) ++ []) := by
    simp [signed]
  rw [hf, get_written]
  simp only [signedImage, List.getD_eq_getElem?_getD, List.append_assoc]
  by_cases h1 : i < 176
  · rw [if_pos (by omega), List.getElem?_append_left (by omega)]
  · rw [if_neg (by omega), List.getElem?_append_right (by omega), l1]
    by_cases h2 : i < 928
    · rw [List.getElem?_append_left (by rw [padding_length]; omega), padding_get]
      rw [get_before _ _ _ _ (by omega)]; rfl
    · rw [List.getElem?_append_right (by rw [padding_length]; omega), show slotBase 0 + i = slotBase 0 + 928 + (i - 928) by omega, get_written]
      rw [if_pos (by omega), padding_length, List.getD_eq_getElem?_getD, show i - 176 - 752 = i - 928 by omega]

theorem signed_flash (n : Nat) (h : n ≤ 1024) : signed.flashN (slotBase 0) n = signedImage.take n := by
  have l : signedImage.length = 1024 := by decide +kernel
  apply List.ext_getElem (by simp [State.flashN]; omega)
  intro i h1 h2
  simp only [State.flashN, List.length_map, List.length_range] at h1
  simp only [State.flashN, List.getElem_map, List.getElem_range, List.getElem_take]
  rw [signed_byte i (by omega), List.getD_eq_getElem?_getD, List.getElem?_eq_getElem (by omega)]; rfl

/-- The steps of a signature's check, each value named. -/
theorem ecdsa_by {pub sig m : List Byte} {x y r v e w u1 u2 : Nat} (hx : beNat (pub.take 48) = x) (hy : beNat ((pub.drop 48).take 48) = y)
    (hr : beNat (sig.take 48) = r) (hv : beNat ((sig.drop 48).take 48) = v) (he : beNat (sha384 m) = e) (hw : invMod p384N v = w)
    (h1 : e * w % p384N = u1) (h2 : r * w % p384N = u2)
    (hc : (onCurve x y && decide (0 < r) && decide (r < p384N) && decide (0 < v) && decide (v < p384N)) = true)
    (hs : (let (a, _, z) := ptAdd (ptMul 385 u1 (p384Gx, p384Gy, 1)) (ptMul 385 u2 (x, y, 1))
           z != 0 && a * invMod p384P (z * z) % p384P % p384N == r) = true) : ecdsaOk pub sig m = true := by
  subst hx hy hr hv he hw h1 h2
  simp only [ecdsaOk, hc, if_true]
  exact hs

theorem signed_ecdsa : let hd := signedImage.take 384
    let bs := signedImage.take 1024
    ecdsaOk ((hd.drop 24).take 96) (bs.drop (fieldAt hd 8 4 - 96)) (bs.take (fieldAt hd 8 4 - 96)) = true :=
  ecdsa_by (x := p384Gx) (y := p384Gy) (r := p384Gx)
    (v := 0xfa167b86ef64285ec60f39eb20b81d340c218cdfc4715bf29cc3a5bc153e00a376362990aeae012b5f770b5f827abd9e)
    (e := 0x4f8eb16430d92327375d72cc2d976fbf9e04517d38c9c05a42cc63db92e9d66b21333732ef58d7bf2522ad271004b2e7)
    (w := 0x7ecdd2bc98d1e49f8b6f8ed3fb921eb00c2b7bc4c7c57d93753e16ce13ac74d94d0117b495bf33efc8601d7b8bc7643c)
    (u1 := 0xbbc0a76cb868a7fb1d91c8ee71147509d22cf2b85a0bf07fff7e297ac4bbeb039604748c90d75032e93efa8fea0bd97c)
    (u2 := 0x443f589347975804e26e37118eeb8af62dd30d47a5f40f7fc7e524072f7b42dbc2159925b7d9574803ad1edae2b94ff8)
    (by decide +kernel) (by decide +kernel) (by decide +kernel) (by decide +kernel) (by decide +kernel) (by decide +kernel) (by decide +kernel)
    (by decide +kernel) (by decide +kernel) (by decide +kernel)

theorem met_Authentication : signed.boot.phase = .load ∧ signed.boot.trying = some 0 ∧ signed.judgeSlot 0 = none :=
  ⟨rfl, rfl, judged (by decide +kernel) (signed_flash 384 (by omega)) (signed_flash 1024 (by omega)) (by decide +kernel) (by decide +kernel) signed_ecdsa (by decide +kernel)⟩

end Sys2Proof.Tests
end

section
/-! PROOF. ADMIT writes, failed readmissions and their count (R304, R305): what holds in every state, what needs a slice map in
canonical form, and the state without one that refutes O59. -/

namespace Sys2Proof.Machine

open Sys2Proof

variable (s : State)

/-! ## ADMIT writes -/

theorem State.readmit_eq (n : Nat) : s.readmit n = { s with slices := (s.readmit n).slices } := by
  unfold State.readmit; split <;> rfl

/-- A slice that has failed three times or is not retired takes no ADMIT write, whichever slice the write is for. -/
theorem State.slice_readmit {n : Nat} (h : 3 ≤ (s.slice n).fails ∨ (s.slice n).st ≠ .retired) (k : Nat) :
    (s.readmit k).slice n = s.slice n := by
  unfold State.readmit
  split
  · next due =>
    simp only [Bool.and_eq_true, beq_iff_eq, decide_eq_true_eq] at due
    obtain ⟨⟨retired, few⟩, -⟩ := due
    have other : n ≠ k := by
      rintro rfl
      rcases h with h | h
      · omega
      · exact h retired
    simp [other]
  · rfl

theorem State.admitBits_spares (m v : Nat) :
    s.admitBits m v = { s with slices := (s.admitBits m v).slices } ∧
      ∀ n, 3 ≤ (s.slice n).fails ∨ (s.slice n).st ≠ .retired → (s.admitBits m v).slice n = s.slice n := by
  unfold State.admitBits
  generalize List.range 16 = bits
  induction bits generalizing s with
  | nil => exact ⟨rfl, fun _ _ => rfl⟩
  | cons i bits ih =>
    rw [List.foldl_cons]
    split
    · obtain ⟨frame, spared⟩ := ih (s.readmit (16 * m + i))
      refine ⟨?_, fun n h => ?_⟩
      · rw [frame, State.readmit_eq]
      · have kept := s.slice_readmit h (16 * m + i)
        rw [spared n (by rwa [kept]), kept]
    · exact ih s

/-- An ADMIT write, whatever its data, spares a slice that has failed three times or is not retired (R305). -/
theorem exec_sliceReadmit_spares {m : Nat} (d : Word) (opened : s.isOpen = true) (built : m < s.nclusters) :
    ∃ t, exec (.sliceReadmit m d) s = .next t ∧ t = { s with slices := t.slices } ∧
      ∀ n, 3 ≤ (s.slice n).fails ∨ (s.slice n).st ≠ .retired → t.slice n = s.slice n := by
  have ran : exec (.sliceReadmit m d) s = settle s (s.admitBits m d.toNat) := by
    change execSliceReadmit m d s = _
    simp [execSliceReadmit, unitWrite, whenOpen, whenDue, opened, built]
  obtain ⟨frame, spared⟩ := s.admitBits_spares m d.toNat
  exact ⟨_, ran, by rw [frame], spared⟩

/-! ## Failed readmissions -/

@[simp] theorem State.slice_keep (t : State) (k : Nat) : (s.keep t).slice k = t.slice k := rfl

@[simp] theorem State.slice_health (code unit part sev : Nat) (detail : List Byte) (k : Nat) :
    (s.health code unit part sev detail).slice k = s.slice k := by
  rw [State.health_eq]; rfl

/-- A failed readmission leaves the slice retired with one failure more. -/
@[simp] theorem State.slice_readmitFails (n cause : Nat) :
    (s.readmitFails n cause).slice n = { s.slice n with st := .retired, fails := (s.slice n).fails + 1, mismatch := false } := by
  simp [State.readmitFails]

theorem exec_readmitBistDone_fails {n : Nat} (built : n < s.nslices) (opened : s.isOpen = true) (bist : (s.slice n).st = .bist) :
    ∃ t, exec (.readmitBistDone n false) s = .next t ∧ (t.slice n).st = .retired ∧ (t.slice n).fails = (s.slice n).fails + 1 := by
  have ran : exec (.readmitBistDone n false) s = settle s (s.readmitFails n 1) := by
    change execReadmitBistDone n false s = _
    simp [execReadmitBistDone, onUnit, whenDue, built, opened, bist]
  exact ⟨_, ran.trans (settle_eq _ _), by simp⟩

/-- The state without the pinned copies of a slice (R301). -/
def State.unpinned (s : State) (n : Nat) : State := (s.queries.filter (·.pin == some n)).foldl State.dropShadow s

/-- A mismatch in probation: the pinned copies go, then readmission fails, which is also a slice fault (R293, R304). -/
theorem exec_probationEnd_mismatch {n : Nat} (built : n < s.nslices) (opened : s.isOpen = true)
    (probation : (s.slice n).st = .probation) (mismatch : (s.slice n).mismatch = true) :
    exec (.probationEnd n) s = settle s (((s.unpinned n).readmitFails n 2).health 0x01 (unitSlice n) noPart 1 [5]) := by
  change execProbationEnd n s = _
  simp [execProbationEnd, onUnit, whenDue, built, opened, probation, mismatch, State.unpinned]

/-! ## Slice maps in canonical form -/

/-- In canonical form a read finds the entry that a key is listed with. -/
theorem NMap.get_of_mem {β : Type} [DecidableEq β] {d : β} {m : NMap β} (h : NMap.wf d m = true) {k : Nat} {v : β} (hm : (k, v) ∈ m) :
    NMap.get d m k = v := by
  induction m with
  | nil => simp at hm
  | cons e m ih =>
    obtain ⟨j, w⟩ := e
    obtain ⟨-, above, rest⟩ := NMap.wf_cons.mp h
    rcases List.mem_cons.mp hm with same | later
    · cases same; simp [NMap.get]
    · have : j < k := above _ later
      rw [NMap.get, if_neg (by omega)]
      exact ih rest later

/-- `t` has the slice map in canonical form, and every slice with the failures `s` has. -/
structure State.SameFails (s t : State) : Prop where
  wf : NMap.wf {} t.slices = true
  fails : ∀ k, (t.slice k).fails = (s.slice k).fails

theorem State.SameFails.trans {s t u : State} (h : s.SameFails t) (k : t.SameFails u) : s.SameFails u :=
  ⟨k.wf, fun n => (k.fails n).trans (h.fails n)⟩

theorem State.SameFails.of_slices {s t : State} (wf : NMap.wf {} s.slices = true) (h : t.slices = s.slices) : s.SameFails t :=
  ⟨by rwa [h], fun k => by simp only [State.slice, h]⟩

theorem State.SameFails.foldl {α : Type} {f : State → α → State}
    (h : ∀ (s : State) (x : α), NMap.wf {} s.slices = true → s.SameFails (f s x)) (l : List α) (s : State)
    (wf : NMap.wf {} s.slices = true) : s.SameFails (l.foldl f s) := by
  induction l generalizing s with
  | nil => exact .of_slices wf rfl
  | cons x l ih => exact (h s x wf).trans (ih _ (h s x wf).wf)

/-- Writing listed slices back, each with its own failures. -/
theorem State.SameFails.writeBack {f : State → Nat × Slice → State} (hf : ∀ t e, ∃ v, f t e = t.setSlice e.1 v ∧ v.fails = e.2.fails)
    (l : List (Nat × Slice)) {s t : State} (h : s.SameFails t) (hl : ∀ e ∈ l, s.slice e.1 = e.2) : s.SameFails (l.foldl f t) := by
  induction l generalizing t with
  | nil => exact h
  | cons e l ih =>
    rw [List.foldl_cons]
    obtain ⟨v, written, same⟩ := hf t e
    rw [written]
    refine ih ⟨NMap.put_wf h.wf _ _, fun k => ?_⟩ fun e he => hl e (by simp [he])
    rw [State.slice_setSlice]
    split
    · next own => rw [own, same, hl e (by simp)]
    · exact h.fails k

theorem State.modClusters_slices (f : State → Nat → Cluster → Cluster) (l : List Nat) :
    (l.foldl (fun (s : State) m => s.modCluster m (f s m)) s).slices = s.slices := by
  induction l generalizing s with
  | nil => rfl
  | cons m l ih => exact ih (s.modCluster m (f s m))

theorem State.unqueue_sameFails (gone : Nat → Bool) (wf : NMap.wf {} s.slices = true) : s.SameFails (s.unqueue gone) := by
  have clusters := fun f => State.SameFails.of_slices wf (s.modClusters_slices f (List.range s.nclusters))
  unfold State.unqueue
  refine (clusters _).trans (.writeBack ?_ _ (.of_slices (clusters _).wf rfl) fun _ listed => NMap.get_of_mem (clusters _).wf listed)
  exact fun _ _ => ⟨_, rfl, rfl⟩

theorem State.dropShadow_sameFails (q : Query) (wf : NMap.wf {} s.slices = true) : s.SameFails (s.dropShadow q) := by
  have unqueued := s.unqueue_sameFails (· == q.uid) wf
  refine unqueued.trans (.of_slices unqueued.wf ?_)
  have discarded : (s.discard (· == q.uid)).slices = (s.unqueue (· == q.uid)).slices := by
    unfold State.discard
    dsimp only
    rw [State.cancelAccs_eq]
  unfold State.dropShadow
  dsimp only
  split
  · split <;> exact discarded
  · exact discarded

/-- Where the slice map is in canonical form, a failed probation counts one failure and leaves the slice retired (R305). -/
theorem exec_probationEnd_fails {n : Nat} (wf : NMap.wf {} s.slices = true) (built : n < s.nslices) (opened : s.isOpen = true)
    (probation : (s.slice n).st = .probation) (mismatch : (s.slice n).mismatch = true) :
    ∃ t, exec (.probationEnd n) s = .next t ∧ (t.slice n).st = .retired ∧ (t.slice n).fails = (s.slice n).fails + 1 := by
  have same : s.SameFails (s.unpinned n) := .foldl (fun s q => s.dropShadow_sameFails q) _ s wf
  exact ⟨_, (exec_probationEnd_mismatch s built opened probation mismatch).trans (settle_eq _ _), by simp [same.fails n]⟩

/-! ## The refutation -/

/-- A pinned copy on slice 5, and a slice map that holds key 5 twice: a read finds the entry without a failure. -/
def listedTwice : State :=
  { boot := { phase := .opened }
    slices := [(5, { st := .probation, mismatch := true }), (5, { fails := 2 })]
    queries := [{ uid := 0, dep := 0, part := 0, qid := 0, bytes := [], handle := {}, hdr := { dims := 3, lineCount := 1, root := 0 }
                  graphId := 0, cluster := 0, slice := 5, pin := some 5 }] }

/-- Dropping the pinned copy writes back every entry of the map in turn, so the last one, with two failures, stays. -/
theorem listedTwice_fails_unpinned : ((listedTwice.unpinned 5).slice 5).fails = 2 := by decide +kernel

/-- Refutes O59: the statement asks nothing of the slice map, and where the map lists a slice twice (`listedTwice`) a failed
probation takes its failures from 0 to 3. In canonical form it counts one (`exec_probationEnd_fails`); the other clauses hold in every
state (`exec_sliceReadmit_spares`, `exec_readmitBistDone_fails`). -/
theorem not_admitWritesAreLimited : ¬ Obligations.AdmitWritesAreLimited := by
  rintro ⟨-, failed⟩
  obtain ⟨t, ran, -, counted⟩ := (failed listedTwice 5 (by decide) rfl).2 rfl rfl
  rw [exec_probationEnd_mismatch _ (by decide) rfl rfl rfl, settle_next] at ran
  subst ran
  have before : (listedTwice.slice 5).fails = 0 := rfl
  simp [listedTwice_fails_unpinned, before] at counted

end Sys2Proof.Machine
end

section
/-! PROOF. RECEIPTs: sent in turn, resent, redirected, given up and acknowledged (R30, R255, R263 to R266, R284, R413). -/

namespace Sys2Proof.Machine

open Sys2Proof

variable (s : State)

/-! ## Deposits, and messages out, after an update -/

/-- The deposit an update names, and every other one. -/
theorem State.dep?_modDep (i j : Nat) (f : Dep → Dep) (hf : ∀ d, (f d).id = d.id) :
    (s.modDep i f).dep? j = if j = i then (s.dep? i).map f else s.dep? j := by
  unfold State.dep?
  rw [State.modDep_deps]
  induction s.deps with
  | nil => simp [modFirst]
  | cons d l ih =>
    by_cases hi : d.id = i
    · by_cases hj : j = i
      · simp [modFirst, hf, hi, hj]
      · simp [modFirst, hf, hi, hj, Ne.symm hj]
    · by_cases hj : d.id = j
      · have other : j ≠ i := fun h => hi (hj.trans h)
        simp [modFirst, hj, other]
      · simpa [modFirst, hi, hj] using ih

theorem State.id_of_dep? {i : Nat} {d : Dep} (h : s.dep? i = some d) : d.id = i := by
  simpa using List.find?_some h

@[simp] theorem State.out_modDep (i : Nat) (f : Dep → Dep) : (s.modDep i f).out = s.out := rfl
@[simp] theorem State.out_keep (t : State) : (s.keep t).out = t.out := rfl
@[simp] theorem State.dep?_keep (t : State) (i : Nat) : (s.keep t).dep? i = t.dep? i := rfl
@[simp] theorem State.dep?_send (m : OutMsg) (i : Nat) : (s.send m).dep? i = s.dep? i := by rw [State.send_eq]; rfl
@[simp] theorem State.hq_send (m : OutMsg) : (s.send m).fab.hq = s.fab.hq := by
  unfold State.send State.pump
  split <;> rfl

@[simp] theorem State.out_health (code unit part sev : Nat) (detail : List Byte) : (s.health code unit part sev detail).out = s.out := by
  unfold State.health; dsimp only; split <;> rfl

/-- While there is room, a HEALTH event is queued (R273). -/
theorem State.health_queued (code unit part sev : Nat) (detail : List Byte) (room : s.fab.hq.length < 64) :
    ∃ h ∈ (s.health code unit part sev detail).fab.hq, h.code = BitVec.ofNat 16 code := by
  simp [State.health, room]

/-! ## Sending a RECEIPT -/

theorem State.sendReceipt_eq {i : Nat} {d : Dep} (h : s.dep? i = some d) :
    s.sendReceipt i = (s.send (receiptMsg d)).modDep i fun d => { d with step := .receipt, receiptAt := s.elapsed } := by
  simp only [State.sendReceipt, h]

theorem State.out_sendReceipt {i : Nat} {d : Dep} (h : s.dep? i = some d) : (s.sendReceipt i).out.Perm (s.out ++ [receiptMsg d]) := by
  rw [s.sendReceipt_eq h]; exact s.send_out _

theorem State.dep?_sendReceipt {i : Nat} {d : Dep} (h : s.dep? i = some d) (j : Nat) :
    (s.sendReceipt i).dep? j = if j = i then some { d with step := .receipt, receiptAt := s.elapsed } else s.dep? j := by
  rw [s.sendReceipt_eq h, State.dep?_modDep]
  · simp [h]
  · exact fun _ => rfl

theorem State.sendReceipt_frame (i : Nat) :
    s.sendReceipt i = { s with fab := (s.sendReceipt i).fab, ports := (s.sendReceipt i).ports, deps := (s.sendReceipt i).deps } := by
  unfold State.sendReceipt
  split
  · rfl
  · rw [State.send_eq]; rfl

@[simp] theorem State.hq_sendReceipt (i : Nat) : (s.sendReceipt i).fab.hq = s.fab.hq := by
  unfold State.sendReceipt
  split
  · rfl
  · exact s.hq_send _

/-! ## Retirement -/

/-- `t` differs from `s` by journal records on their way: in their rings, the accesses and the count of activity. -/
def State.Journaled (s t : State) : Prop := t = { s with parts := t.parts, pwr := t.pwr, accs := t.accs }

theorem State.Journaled.trans {s t u : State} (h : s.Journaled t) (k : t.Journaled u) : s.Journaled u := by
  unfold State.Journaled at h k ⊢
  rw [k, h]

theorem State.writeJournal_journaled {d : Dep} {kind : Byte} {body : List Byte} {p : Purpose} {t : State}
    (h : s.writeJournal d kind body p = some t) : s.Journaled t := by
  unfold State.writeJournal at h
  dsimp only at h
  split at h <;> cases h
  rfl

/-- Records written one after the other. -/
theorem State.Journaled.foldl {α : Type} {f : State → α → Option State} (hf : ∀ s x t, f s x = some t → s.Journaled t) (l : List α) :
    ∀ {o : Option State} {s t : State}, (∀ u, o = some u → s.Journaled u) →
      l.foldl (fun o x => o.bind fun u => f u x) o = some t → s.Journaled t := by
  induction l with
  | nil => exact fun start h => start _ h
  | cons x l ih =>
    refine fun {o s t} start h => ih (fun u hu => ?_) h
    obtain ⟨v, written, next⟩ := Option.bind_eq_some_iff.mp hu
    exact (start v written).trans (hf v x u next)

theorem State.writeFrees_journaled {d : Dep} {t : State} (h : s.writeFrees d = some t) : s.Journaled t := by
  unfold State.writeFrees at h
  dsimp only at h
  split at h
  · exact s.writeJournal_journaled h
  · exact .foldl (fun s _ _ => s.writeJournal_journaled) _ (fun u hu => by cases hu; rfl) h

/-- The agent's next retirement: nothing, or records on their way and one deposit marked. -/
theorem State.retireNext_cases (home : Nat) : s.retireNext home = s ∨
    ∃ t i, s.Journaled t ∧ s.retireNext home = t.modDep i fun x => { x with retireOn := true } := by
  unfold State.retireNext
  split
  · exact .inl rfl
  · split
    · exact .inl rfl
    · next d _ =>
      split
      · next t written => exact .inr ⟨t, d.id, s.writeFrees_journaled written, rfl⟩
      · exact .inl rfl

@[simp] theorem State.fab_retireNext (home : Nat) : (s.retireNext home).fab = s.fab := by
  rcases s.retireNext_cases home with none | ⟨t, i, records, next⟩
  · rw [none]
  · rw [next, State.modDep_fab, records]

/-- The next retirement marks a deposit at most, whichever is asked for. -/
theorem State.dep?_retireNext (home : Nat) {i : Nat} {d : Dep} (h : s.dep? i = some d) :
    ∃ b, (s.retireNext home).dep? i = some { d with retireOn := b } := by
  rcases s.retireNext_cases home with none | ⟨t, j, records, next⟩
  · exact ⟨d.retireOn, by rw [none, h]⟩
  · have same : t.dep? i = some d := by rw [records]; exact h
    rw [next, State.dep?_modDep _ _ _ _ (by exact fun _ => rfl)]
    split
    · next own => exact ⟨true, by rw [← own, same]; rfl⟩
    · exact ⟨d.retireOn, same⟩

@[simp] theorem State.fab_retire (d : Dep) (reason : Byte) (frees : List Word) : (s.retire d reason frees).fab = s.fab := by
  simp [State.retire]

@[simp] theorem State.out_retire (d : Dep) (reason : Byte) (frees : List Word) : (s.retire d reason frees).out = s.out := by
  simp [State.out]

/-- A deposit given to retirement stands there with its reason and its free list. -/
theorem State.dep?_retire {d : Dep} (h : s.dep? d.id = some d) (reason : Byte) (frees : List Word) :
    ∃ d', (s.retire d reason frees).dep? d.id = some d' ∧ d'.step = .retiring ∧ d'.rreason = reason ∧ d'.freeList = frees := by
  have begun : (s.modDep d.id fun x => { x with step := .retiring, rreason := reason, freeList := frees }).dep? d.id =
      some { d with step := .retiring, rreason := reason, freeList := frees } := by
    rw [State.dep?_modDep _ _ _ _ (by exact fun _ => rfl), if_pos rfl, h]; rfl
  obtain ⟨b, marked⟩ := State.dep?_retireNext _ d.home begun
  exact ⟨_, marked, rfl, rfl, rfl⟩

/-! ## Refused receipts (R265) -/

@[simp] theorem State.dep?_health (code unit part sev : Nat) (detail : List Byte) (i : Nat) :
    (s.health code unit part sev detail).dep? i = s.dep? i := by
  rw [State.health_eq]; rfl

/-- A redirected RECEIPT that is refused or not acknowledged: the deposit is retired without acknowledgement. -/
theorem State.receiptRefused_redirected {d : Dep} (h : s.dep? d.id = some d) (redirected : d.redirected = true) :
    (∃ d', (s.receiptRefused d).dep? d.id = some d' ∧ d'.step = .retiring ∧ d'.rreason = 1 ∧ d'.freeList = []) ∧
      (s.receiptRefused d).out = s.out ∧ (s.fab.hq.length < 64 → ∃ h ∈ (s.receiptRefused d).fab.hq, h.code = 0x15) := by
  simp only [State.receiptRefused, redirected, if_true]
  refine ⟨State.dep?_retire _ (by simpa [State.depEvent] using h) 1 [], by simp [State.depEvent], fun room => ?_⟩
  rw [State.fab_retire]
  exact s.health_queued _ _ _ _ _ room

/-- The state in which a refused deposit's RECEIPT leaves for the source of its DEPOSIT. -/
def State.redirect (s : State) (d : Dep) : State :=
  ((s.stopHits d).depEvent 0x14 1 d).modDep d.id fun x => { x with redirected := true, stopDelivery := true, resends := 0 }

theorem State.receiptRefused_first {d : Dep} (step : d.step = .receipt) (redirected : d.redirected = false) :
    s.receiptRefused d = (s.redirect d).sendReceipt d.id := by
  simp [State.receiptRefused, State.redirect, step, redirected]

theorem State.redirect_frame (d : Dep) : s.redirect d = { s with fab := (s.redirect d).fab, deps := (s.redirect d).deps } := by
  unfold State.redirect State.depEvent
  rw [State.health_eq]; rfl

theorem State.dep?_redirect {d : Dep} (h : s.dep? d.id = some d) (i : Nat) : (s.redirect d).dep? i =
    if i = d.id then some { d with redirected := true, stopDelivery := true, resends := 0 } else s.dep? i := by
  have same : ∀ k, ((s.stopHits d).depEvent 0x14 1 d).dep? k = s.dep? k := fun k => by rw [State.depEvent, State.dep?_health]; rfl
  rw [State.redirect, State.dep?_modDep _ _ _ _ (by exact fun _ => rfl), same, same, h]; rfl

/-- The first refusal: the RECEIPT leaves again, redirected, with HEALTH ENDPOINT_REFUSED. -/
theorem State.receiptRefused_redirects {d : Dep} (h : s.dep? d.id = some d) (step : d.step = .receipt) (redirected : d.redirected = false) :
    (∃ o ∈ (s.receiptRefused d).out, o = receiptMsg { d with redirected := true }) ∧
      (s.receiptRefused d).dep? d.id = some { d with redirected := true, stopDelivery := true, resends := 0, receiptAt := s.elapsed } ∧
      (∀ i, i ≠ d.id → (s.receiptRefused d).dep? i = s.dep? i) ∧
      (s.receiptRefused d = { s with fab := (s.receiptRefused d).fab, ports := (s.receiptRefused d).ports
                                     deps := (s.receiptRefused d).deps }) ∧
      (s.fab.hq.length < 64 → ∃ h ∈ (s.receiptRefused d).fab.hq, h.code = 0x14) := by
  rw [s.receiptRefused_first step redirected]
  have named : (s.redirect d).dep? d.id = some { d with redirected := true, stopDelivery := true, resends := 0 } := by
    rw [s.dep?_redirect h, if_pos rfl]
  have clock : (s.redirect d).elapsed = s.elapsed := by rw [s.redirect_frame]
  refine ⟨⟨_, (State.out_sendReceipt _ named).mem_iff.mpr (List.mem_append_right _ (.head _)), rfl⟩, ?_, fun i other => ?_, ?_,
    fun room => ?_⟩
  · rw [State.dep?_sendReceipt _ named, if_pos rfl, clock, ← step]
  · rw [State.dep?_sendReceipt _ named, if_neg other, s.dep?_redirect h, if_neg other]
  · rw [State.sendReceipt_frame, s.redirect_frame]
  · rw [State.hq_sendReceipt]
    exact (s.stopHits d).health_queued _ _ _ _ _ room

/-! ## RECEIPT_SEND and RECEIPT_TIMEOUT (R30, R284) -/

section Timers

variable {s : State} {i : Nat} {d : Dep} (named : s.dep? i = some d)
include named

theorem exec_receiptSend : exec (.receiptSend i) s =
    whenDue s (s.isOpen && d.step == .delivered && s.receiptTurn d) (settle s (s.sendReceipt i)) := by
  change execReceiptSend i s = _
  simp only [execReceiptSend, named]

theorem exec_receiptTimeout : exec (.receiptTimeout i) s =
    whenDue s (s.isOpen && d.step == .receipt && decide (d.receiptAt + 1000000 ≤ s.elapsed))
      (settle s (if d.resends < 3 then (s.modDep i fun x => { x with resends := x.resends + 1 }).sendReceipt i
                 else s.receiptRefused d)) := by
  change execReceiptTimeout i s = _
  simp only [execReceiptTimeout, named]

theorem exec_receiptTimeout_early (early : s.elapsed < d.receiptAt + 1000000) : exec (.receiptTimeout i) s = .next s := by
  rw [exec_receiptTimeout named]
  simp [whenDue, show ¬ d.receiptAt + 1000000 ≤ s.elapsed by omega]

theorem exec_receiptSend_waits (turn : s.receiptTurn d = false) : exec (.receiptSend i) s = .next s := by
  rw [exec_receiptSend named]
  simp [whenDue, turn]

variable (opened : s.isOpen = true)
include opened

theorem exec_receiptSend_sends (step : d.step = .delivered) (turn : s.receiptTurn d = true) :
    ∃ t, exec (.receiptSend i) s = .next t ∧ t.out.Perm (s.out ++ [receiptMsg d]) ∧
      t.dep? i = some { d with step := .receipt, receiptAt := s.elapsed } ∧ (∀ k, k ≠ i → t.dep? k = s.dep? k) ∧
      t = { s with fab := t.fab, ports := t.ports, deps := t.deps } := by
  have ran : exec (.receiptSend i) s = settle s (s.sendReceipt i) := by
    rw [exec_receiptSend named]
    simp [whenDue, opened, step, turn]
  refine ⟨_, ran.trans (settle_eq _ _), s.out_sendReceipt named, ?_, fun k other => ?_, ?_⟩
  · rw [State.dep?_keep, s.dep?_sendReceipt named, if_pos rfl]
  · rw [State.dep?_keep, s.dep?_sendReceipt named, if_neg other]
  · rw [State.sendReceipt_frame]; rfl

variable (step : d.step = .receipt) (late : d.receiptAt + 1000000 ≤ s.elapsed)
include step late

theorem exec_receiptTimeout_resends (few : d.resends < 3) :
    ∃ t, exec (.receiptTimeout i) s = .next t ∧ t.out.Perm (s.out ++ [receiptMsg d]) ∧
      t.dep? i = some { d with resends := d.resends + 1, receiptAt := s.elapsed } ∧ (∀ k, k ≠ i → t.dep? k = s.dep? k) ∧
      t = { s with fab := t.fab, ports := t.ports, deps := t.deps } := by
  have ran : exec (.receiptTimeout i) s =
      settle s ((s.modDep i fun x => { x with resends := x.resends + 1 }).sendReceipt i) := by
    rw [exec_receiptTimeout named]
    simp [whenDue, opened, step, late, few]
  have counted : ∀ k, (s.modDep i fun x => { x with resends := x.resends + 1 }).dep? k =
      if k = i then some { d with resends := d.resends + 1 } else s.dep? k := fun k => by
    rw [State.dep?_modDep _ _ _ _ (by exact fun _ => rfl), named]; rfl
  have mine := (counted i).trans (if_pos rfl)
  have sent := State.out_sendReceipt _ mine
  refine ⟨_, ran.trans (settle_eq _ _), sent, ?_, fun k other => ?_, ?_⟩
  · rw [State.dep?_keep, State.dep?_sendReceipt _ mine, if_pos rfl, ← step]; rfl
  · rw [State.dep?_keep, State.dep?_sendReceipt _ mine, if_neg other, counted, if_neg other]
  · rw [State.sendReceipt_frame]; rfl

theorem exec_receiptTimeout_gives_up (many : 3 ≤ d.resends) : exec (.receiptTimeout i) s = .next (s.keep (s.receiptRefused d)) := by
  rw [exec_receiptTimeout named]
  simp [whenDue, opened, step, late, Nat.not_lt.mpr many, settle_eq]

theorem exec_receiptTimeout_redirects (many : 3 ≤ d.resends) (redirected : d.redirected = false) :
    ∃ t, exec (.receiptTimeout i) s = .next t ∧ (∃ o ∈ t.out, o = receiptMsg { d with redirected := true }) ∧
      t.dep? i = some { d with redirected := true, stopDelivery := true, resends := 0, receiptAt := s.elapsed } ∧
      (∀ k, k ≠ i → t.dep? k = s.dep? k) ∧ t = { s with fab := t.fab, ports := t.ports, deps := t.deps } ∧
      (s.fab.hq.length < 64 → ∃ h ∈ t.fab.hq, h.code = 0x14) := by
  obtain rfl := s.id_of_dep? named
  obtain ⟨sent, moved, others, frame, event⟩ := s.receiptRefused_redirects named step redirected
  exact ⟨_, exec_receiptTimeout_gives_up named opened step late many, sent, moved, others, by rw [frame]; rfl, event⟩

theorem exec_receiptTimeout_retires (many : 3 ≤ d.resends) (redirected : d.redirected = true) :
    ∃ t d', exec (.receiptTimeout i) s = .next t ∧ t.dep? i = some d' ∧ d'.step = .retiring ∧ d'.rreason = 1 ∧ d'.freeList = [] ∧
      t.out = s.out ∧ (s.fab.hq.length < 64 → ∃ h ∈ t.fab.hq, h.code = 0x15) := by
  obtain rfl := s.id_of_dep? named
  obtain ⟨⟨d', moved, retiring, reason, frees⟩, silent, event⟩ := s.receiptRefused_redirected named redirected
  exact ⟨_, d', exec_receiptTimeout_gives_up named opened step late many, moved, retiring, reason, frees, silent, event⟩

end Timers

/-! ## Answers to a delivery: RECEIPT_ACK and the endpoint's REFUSE (R255) -/

/-- An answer to a delivery that passes its checks and names a deposit whose RECEIPT is out, from the endpoint that got it. -/
structure State.Answers (s : State) (ty : Byte) (m : Msg) (d : Dep) : Prop where
  isAck : isAckType ty = true
  built : m.port < s.nfports
  takes : s.portTakes m.port = true
  opened : s.boot.phase = .opened
  sized : wellSized ty m = true
  live : (s.strm m.stream.toNat).en = true ∨ (s.strm m.stream.toNat).closing = true
  gen : m.sgen = (s.strm m.stream.toNat).gen
  named : s.depNamed m = some d
  stands : s.dep? d.id = some d
  step : d.step = .receipt
  dest : d.dest.toNat % 2 ^ 20 = m.peer.toNat % 2 ^ 20
  inService : (s.part (s.strm m.stream.toNat).part.toNat).st = .loaded ∨ (s.part (s.strm m.stream.toNat).part.toNat).st = .draining

theorem ack_cases {ty : Byte} (h : isAckType ty = true) : ty = 3 ∨ ty = 5 := by
  simpa [isAckType] using h

/-- No rule of Table 9.15 names an answer to a delivery. -/
theorem State.fares_ack {ty : Byte} (h : isAckType ty = true) (m : Msg) (b : Typed) : s.fares (ty, m) b = none := by
  rcases ack_cases h with rfl | rfl <;>
    simp [State.fares, State.rule1, rule2, rule4, State.plain, opposed]

/-- What an answer to a delivery meets once its flits and its capture record are in. -/
def State.heard (s : State) (ty : Byte) (m : Msg) : State := (s.arrive (classOfType ty) m).capture ty m

theorem State.heard_frame (ty : Byte) (m : Msg) :
    s.heard ty m = { s with ports := (s.heard ty m).ports, pwr := (s.heard ty m).pwr, parts := (s.heard ty m).parts } := by
  unfold State.heard; rw [State.capture_eq]; rfl

theorem State.heard_part (ty : Byte) (m : Msg) (p : Nat) : (s.heard ty m).part p = { s.part p with cap := ((s.heard ty m).part p).cap } := by
  unfold State.heard; rw [State.capture_part]; rfl

section Checks

variable {s : State} {ty : Byte} {m : Msg} {d : Dep} (h : s.Answers ty m d)
include h

theorem State.Answers.earlyFault (c : Nat) : (s.arrive c m).earlyFault ty m = none := by
  have phase : (s.arrive c m).boot.phase = .opened := h.opened
  simp [State.earlyFault, phase, h.sized]

theorem State.Answers.notAny : anyState ty = false := by
  rcases ack_cases h.isAck with rfl | rfl <;> rfl

theorem State.Answers.streamFault (c : Nat) : (s.arrive c m).streamFault ty m = false := by
  have strm : (s.arrive c m).strm m.stream.toNat = s.strm m.stream.toNat := rfl
  have noDeposit : ¬ ty = 1#8 := by rcases ack_cases h.isAck with rfl | rfl <;> decide
  rcases h.live with live | live <;> simp [State.streamFault, strm, live, h.gen, noDeposit]

theorem State.Answers.rightsFault (right : Nat) : (s.heard ty m).rightsFault ty right m = none := by
  have named : (s.heard ty m).depNamed m = some d := by rw [State.heard_frame]; exact h.named
  simp only [State.rightsFault, h.isAck, if_true, named, h.dest, bne_self_eq_false, Bool.and_false, Bool.false_eq_true, if_false]

theorem State.Answers.arbLoss : (s.heard ty m).arbLoss ty m = none := by
  unfold State.arbLoss
  rw [find_none_of _ _ fun b _ => by rw [State.fares_ack _ h.isAck]; exact nofun]

theorem State.Answers.reloading : (s.heard ty m).reloading ((s.heard ty m).partOf m) ty = false := by
  have strm : (s.heard ty m).partOf m = (s.strm m.stream.toNat).part.toNat := by rw [State.heard_frame]; rfl
  rw [strm]
  unfold State.reloading
  rw [State.heard_part]
  rcases h.inService with st | st <;> simp [h.isAck, st]

/-- An answer to a delivery passes its checks, and what it does begins in `admitted`. -/
theorem ingress_answer (right : Nat) (act : State → Result) :
    ingress ty right (fun _ => true) act m s = act (s.admitted ty m) := by
  have cls : m.cls.toNat % 4 = classOfType ty := by
    have sized := h.sized
    simp only [wellSized, classRight, Bool.and_eq_true, beq_iff_eq] at sized
    exact sized.1.1.1.1.2
  have judged : (s.arrive (classOfType ty) m).judgeMsg ty right (fun _ => true) m = (none, s.heard ty m) := by
    unfold State.judgeMsg
    rw [h.earlyFault]
    simp only [h.notAny, h.streamFault, Bool.false_eq_true, if_false]
    change (match (s.heard ty m).rightsFault ty right m with | some f => _ | none => _) = _
    rw [h.rightsFault]
    change (match (s.heard ty m).arbLoss ty m with | some r => _ | none => _) = _
    rw [h.arbLoss]
    change (if (s.heard ty m).reloading ((s.heard ty m).partOf m) ty then _ else _) = _
    rw [h.reloading]; rfl
  unfold ingress
  simp only [onUnit, whenDue, h.built, h.takes, decide_true, if_true, cls]
  rw [judged]; rfl

end Checks

/-! ## What stands when an answer takes effect -/

@[simp] theorem State.dep?_admitted (ty : Byte) (m : Msg) (i : Nat) : (s.admitted ty m).dep? i = s.dep? i := by
  rw [State.admitted_eq]; rfl

@[simp] theorem State.depNamed_admitted (ty : Byte) (m k : Msg) : (s.admitted ty m).depNamed k = s.depNamed k := by
  rw [State.admitted_eq]; rfl

@[simp] theorem State.elapsed_admitted (ty : Byte) (m : Msg) : (s.admitted ty m).elapsed = s.elapsed := by
  rw [State.admitted_eq]

@[simp] theorem State.partOf_admitted (ty : Byte) (m k : Msg) : (s.admitted ty m).partOf k = s.partOf k := by
  rw [State.admitted_eq]; rfl

theorem State.part_admitted (ty : Byte) (m : Msg) (p : Nat) :
    (s.admitted ty m).part p = { s.part p with cap := ((s.admitted ty m).part p).cap } := s.heard_part ty m p

theorem State.fab_admitted (ty : Byte) (m : Msg) :
    ∃ taken, (s.admitted ty m).fab = { s.fab with arbPclk := m.pclk, arbTaken := taken } :=
  ⟨_, by rw [State.admitted, State.noteTaken, State.capture_eq]; rfl⟩

@[simp] theorem State.out_admitted (ty : Byte) (m : Msg) : (s.admitted ty m).out = s.out := by
  obtain ⟨taken, fab⟩ := s.fab_admitted ty m
  simp [State.out, fab]

theorem State.pwr_admitted (ty : Byte) (m : Msg) :
    (s.admitted ty m).pwr = { s.pwr with activity := (s.admitted ty m).pwr.activity } := by
  rw [State.admitted, State.noteTaken, State.capture_eq]; rfl

theorem State.port_admitted (ty : Byte) (m : Msg) {n : Nat} (other : n ≠ m.port) : (s.admitted ty m).port n = s.port n := by
  rw [State.admitted, State.noteTaken, State.capture_eq]
  exact NMap.get_put_ne s.ports other _

/-- A message that has no effect is taken all the same. -/
theorem State.took_admitted (ty : Byte) (m : Msg) : s.took m (s.keep (s.admitted ty m)) := by
  obtain ⟨taken, fab⟩ := s.fab_admitted ty m
  refine ⟨?_, ?_, fun n other => s.port_admitted ty m other, s.part_admitted ty m, s.pwr_admitted ty m⟩
  · rw [State.admitted_eq]; rfl
  · rw [State.keep_fab, fab]

/-! ## RECEIPT_ACK (R265, R266, R413) -/

section Acknowledged

variable {s : State} {m : Msg} {d : Dep} (h : s.Answers 5 m d)
include h

theorem exec_receiptAck : exec (.receiptAck m) s = settle s
    (if (s.part (s.partOf m)).replay.isSome then s.admitted 5 m else (s.admitted 5 m).retire d 0 (handlesOf m.payload)) := by
  have acts : (s.admitted 5 m).takeReceiptAck m = (s.admitted 5 m).retire d 0 (handlesOf m.payload) := by
    simp [State.takeReceiptAck, h.named, Option.filter, h.step]
  change execReceiptAck m s = _
  rw [execReceiptAck, ingress_answer h, acts, State.partOf_admitted, State.part_admitted]

theorem exec_receiptAck_retires (live : (s.part (s.partOf m)).replay = none) :
    ∃ t d', exec (.receiptAck m) s = .next t ∧ t.dep? d.id = some d' ∧ d'.step = .retiring ∧ d'.rreason = 0 ∧
      d'.freeList = handlesOf m.payload ∧ t.out = s.out ∧ t.mem = s.mem := by
  obtain ⟨d', moved, retiring, reason, frees⟩ := State.dep?_retire (s.admitted 5 m) (by simpa using h.stands) 0 (handlesOf m.payload)
  refine ⟨_, d', (exec_receiptAck h).trans (settle_eq _ _), ?_⟩
  rw [live]
  exact ⟨moved, retiring, reason, frees, by simp, rfl⟩

theorem exec_receiptAck_replaying (replaying : (s.part (s.partOf m)).replay ≠ none) :
    ∃ t, exec (.receiptAck m) s = .next t ∧ s.took m t ∧ t.out = s.out := by
  refine ⟨_, (exec_receiptAck h).trans (settle_eq _ _), ?_⟩
  rw [if_pos (Option.isSome_iff_ne_none.mpr replaying)]
  exact ⟨s.took_admitted 5 m, by simp⟩

end Acknowledged

/-! ## The endpoint's REFUSE (R255, R261, R265) -/

section Refused

variable {s : State} {m : Msg} {d : Dep} (h : s.Answers 3 m d)
include h

theorem exec_endpointRefuse : exec (.endpointRefuse m) s = settle s
    (if byteAt m.payload 0 == 3 && d.refusable (byteAt m.payload 1) then (s.admitted 3 m).receiptRefused d else s.admitted 3 m) := by
  have refused : ((s.admitted 3 m).depNamed m).filter Dep.outstanding = some d := by
    simp [h.named, Option.filter, Dep.outstanding, h.step]
  change execEndpointRefuse m s = _
  rw [execEndpointRefuse, ingress_answer h, refused]
  dsimp only
  split <;> rfl

theorem exec_endpointRefuse_other (other : byteAt m.payload 0 ≠ 3) :
    ∃ t, exec (.endpointRefuse m) s = .next t ∧ s.took m t ∧ t.out = s.out := by
  refine ⟨_, (exec_endpointRefuse h).trans (settle_eq _ _), ?_⟩
  rw [if_neg fun both => other (by simpa using (Bool.and_eq_true_iff.mp both).1)]
  exact ⟨s.took_admitted 3 m, by simp⟩

variable (stale : byteAt m.payload 0 = 3) (receipt : byteAt m.payload 1 = 4)
include stale receipt

theorem exec_endpointRefuse_stale : exec (.endpointRefuse m) s = .next (s.keep ((s.admitted 3 m).receiptRefused d)) := by
  rw [exec_endpointRefuse h, if_pos (by simp [stale, receipt, Dep.refusable, h.step])]; rfl

theorem exec_endpointRefuse_redirects (redirected : d.redirected = false) :
    ∃ t, exec (.endpointRefuse m) s = .next t ∧ (∃ o ∈ t.out, o = receiptMsg { d with redirected := true }) ∧
      t.dep? d.id = some { d with redirected := true, stopDelivery := true, resends := 0, receiptAt := s.elapsed } := by
  obtain ⟨sent, moved, -⟩ := (s.admitted 3 m).receiptRefused_redirects (by simpa using h.stands) h.step redirected
  rw [State.elapsed_admitted] at moved
  exact ⟨_, exec_endpointRefuse_stale h stale receipt, sent, moved⟩

theorem exec_endpointRefuse_retires (redirected : d.redirected = true) :
    ∃ t d', exec (.endpointRefuse m) s = .next t ∧ t.dep? d.id = some d' ∧ d'.step = .retiring ∧ d'.rreason = 1 ∧ t.out = s.out := by
  obtain ⟨⟨d', moved, retiring, reason, -⟩, silent, -⟩ :=
    (s.admitted 3 m).receiptRefused_redirected (by simpa using h.stands) redirected
  exact ⟨_, d', exec_endpointRefuse_stale h stale receipt, moved, retiring, reason, silent.trans (s.out_admitted 3 m)⟩

end Refused

/-- Settles O35: the timers' cases from `exec_receiptSend` and `exec_receiptTimeout`, the answers' from `ingress_answer`. -/
theorem receiptsAndTheirAnswers : Obligations.ReceiptsAndTheirAnswers := by
  refine ⟨fun s i d opened named => ⟨fun step turn => ?_, fun _ turn => ?_, fun step late few => ?_, fun step late many first => ?_,
    fun step late many again => ?_, fun early => ?_⟩, ?_⟩
  · exact exec_receiptSend_sends named opened step turn
  · exact exec_receiptSend_waits named turn
  · exact exec_receiptTimeout_resends named opened step late few
  · exact exec_receiptTimeout_redirects named opened step late many first
  · exact exec_receiptTimeout_retires named opened step late many again
  · exact exec_receiptTimeout_early named early
  rintro c ty s m d kind built takes opened sized live gen named stands step dest inService
  rcases kind with ⟨rfl, rfl⟩ | ⟨rfl, rfl⟩
  · have h : s.Answers 5 m d := ⟨rfl, built, takes, opened, sized, live, gen, named, stands, step, dest, inService⟩
    exact ⟨fun _ => exec_receiptAck_retires h, fun _ => exec_receiptAck_replaying h, nofun, nofun, nofun⟩
  · have h : s.Answers 3 m d := ⟨rfl, built, takes, opened, sized, live, gen, named, stands, step, dest, inService⟩
    exact ⟨nofun, nofun, fun _ => exec_endpointRefuse_redirects h, fun _ => exec_endpointRefuse_retires h,
      fun _ => exec_endpointRefuse_other h⟩

end Sys2Proof.Machine
end

section
/-! PROOF. Squalls: the stretch of a slice, PWR_SQ and SAG_N of its cluster, and the one log entry of reason SQUALL (R345, R346). -/

namespace Sys2Proof.Machine

open Sys2Proof

variable (s : State)

/-! ## PWR_SQ and the log entry of a reason, after a reason is set and after `retune` -/

@[simp] theorem State.slice_modPwr (f : Pwr → Pwr) (k : Nat) : (s.modPwr f).slice k = s.slice k := rfl

/-- Setting one reason leaves the log entry of another as it is. -/
theorem State.entry_setReason {k j : Nat} (h : k ≠ j) (on : Bool) :
    NMap.get 0 (s.setReason j on).pwr.active k = NMap.get 0 s.pwr.active k := by
  unfold State.setReason State.openReason State.closeReason
  split <;> split
  · rfl
  · simp only [State.modPwr_pwr]; exact NMap.get_put_ne _ h _
  · simp only [State.modPwr_pwr]; exact NMap.get_put_ne _ h _
  · rfl

@[simp] theorem State.steer_active : s.steer.pwr.active = s.pwr.active := by
  unfold State.steer; dsimp only; repeat' split
  all_goals rfl

/-- `retune` leaves the entry of a reason it does not judge as it is. -/
theorem State.entry_retune {k : Nat} (h1 : k ≠ rzBudget) (h2 : k ≠ rzThermal) (h5 : k ≠ rzVfLimit) (h6 : k ≠ rzFixed) :
    NMap.get 0 s.retune.pwr.active k = NMap.get 0 s.pwr.active k := by
  unfold State.retune
  split
  · dsimp only
    rw [State.entry_setReason _ h1, State.modPwr_pwr, Pwr.stepTaken_active, State.steer_active, State.entry_setReason _ h5,
      State.entry_setReason _ h6, State.entry_setReason _ h2, State.entry_setReason _ h1]
  · rfl

@[simp] theorem State.openReason_sq (k : Nat) : (s.openReason k).pwr.sq = s.pwr.sq :=
  Pwr.steady_field (fun p => p.sq) (fun _ => rfl) (s.openReason_steady k)

/-- A reason that is active already keeps its entry when it is opened again. -/
theorem State.openReason_of_active {k : Nat} (h : s.reason k = true) : s.openReason k = s := if_pos h

/-! ## SAG_N -/

theorem State.sagN_eq_false_of_stretched {n : Nat} (h : (s.slice n).stretched = true) : s.sagN (n / 16) = false := by
  have place : 16 * (n / 16) + n % 16 = n := Nat.div_add_mod n 16
  simp only [State.sagN, Bool.not_eq_false', List.any_eq_true, List.mem_range]
  exact ⟨n % 16, Nat.mod_lt _ (by decide), by rwa [place]⟩

theorem State.sagN_eq_true_of_calm {m : Nat} (h : ∀ k, k / 16 = m → (s.slice k).stretched = false) : s.sagN m = true := by
  simp only [State.sagN, Bool.not_eq_true', List.any_eq_false, List.mem_range]
  intro j hj
  simp [h (16 * m + j) (by omega)]

/-! ## SQUALL_BEGIN -/

/-- A squall of slice `n` begins: it is stretched, and its cluster counts it. -/
def State.stretch (s : State) (n : Nat) : State :=
  (s.modSlice n fun v => { v with stretched := true, stretchedAt := s.wclk }).modPwr fun p =>
    { p with sq := NMap.put 0 p.sq (clusterOf n) (satInc (NMap.get 0 p.sq (clusterOf n)) 1) }

theorem exec_squallBegin {n : Nat} (built : n < s.nslices) (powered : s.powered = true) (calm : (s.slice n).stretched = false) :
    exec (.squallBegin n) s = .next { s with
      slices := (s.stretch n).slices
      pwr := ((s.stretch n).openReason rzSquall).retune.pwr } := by
  have ran : exec (.squallBegin n) s = settle s ((s.stretch n).openReason rzSquall).retune := by
    change execSquallBegin n s = _
    simp [execSquallBegin, onUnit, whenDue, built, powered, calm, State.stretch]
  rw [ran, settle_eq, State.retune_eq, State.openReason_eq]; rfl

@[simp] theorem State.slice_stretch (n k : Nat) : (s.stretch n).slice k =
    if k = n then { s.slice n with stretched := true, stretchedAt := s.wclk } else s.slice k := by simp [State.stretch]

theorem State.sq_stretch (n m : Nat) : NMap.get 0 (s.stretch n).pwr.sq m =
    if m = n / 16 then satInc (NMap.get 0 s.pwr.sq (n / 16)) 1 else NMap.get 0 s.pwr.sq m := NMap.get_put s.pwr.sq _ _ m

/-- One entry covers every squall: a stretch under an open entry opens none (R346). -/
theorem State.openReason_stretch (n : Nat) (h : s.reason rzSquall = true) : (s.stretch n).openReason rzSquall = s.stretch n :=
  State.openReason_of_active _ h

theorem exec_squallBegin_stretches {n : Nat} (built : n < s.nslices) (powered : s.powered = true) (calm : (s.slice n).stretched = false) :
    ∃ t, exec (.squallBegin n) s = .next t ∧ t.slice n = { s.slice n with stretched := true, stretchedAt := s.wclk } ∧
      (∀ k, k ≠ n → t.slice k = s.slice k) ∧ t.sagN (n / 16) = false ∧
      NMap.get 0 t.pwr.sq (n / 16) = satInc (NMap.get 0 s.pwr.sq (n / 16)) 1 ∧
      (∀ m, m ≠ n / 16 → NMap.get 0 t.pwr.sq m = NMap.get 0 s.pwr.sq m) ∧ t.reason rzSquall = true ∧
      (s.reason rzSquall = true → NMap.get 0 t.pwr.active rzSquall = NMap.get 0 s.pwr.active rzSquall) ∧
      t = { s with slices := t.slices, pwr := t.pwr } := by
  have counts : ((s.stretch n).openReason rzSquall).retune.pwr.sq = (s.stretch n).pwr.sq := by simp
  refine ⟨_, exec_squallBegin s built powered calm, (s.slice_stretch n n).trans (if_pos rfl),
    fun k other => (s.slice_stretch n k).trans (if_neg other), ?_, ?_, fun m other => ?_, ?_, fun active => ?_, rfl⟩
  · exact State.sagN_eq_false_of_stretched _ (congrArg Slice.stretched ((s.slice_stretch n n).trans (if_pos rfl)))
  · rw [counts, State.sq_stretch, if_pos rfl]
  · rw [counts, State.sq_stretch, if_neg other]
  · exact (State.reason_retune _ (by decide) (by decide) (by decide) (by decide)).trans (State.openReason_active _ _)
  · rw [State.entry_retune _ (by decide) (by decide) (by decide) (by decide), s.openReason_stretch n active]; rfl

/-! ## SQUALL_END -/

theorem exec_squallEnd {n : Nat} (built : n < s.nslices) (stretched : (s.slice n).stretched = true)
    (lasted : (s.slice n).stretchedAt + 256 ≤ s.wclk) :
    exec (.squallEnd n) s = .next { s with
      slices := (s.modSlice n fun v => { v with stretched := false }).slices
      pwr := { s.pwr with lastStretch := s.elapsed } } := by
  change execSquallEnd n s = _
  simp only [execSquallEnd, onUnit, whenDue, built, stretched, lasted, decide_true, Bool.and_self, if_true]
  rfl

theorem exec_squallEnd_recovers {n : Nat} (built : n < s.nslices) (stretched : (s.slice n).stretched = true)
    (lasted : (s.slice n).stretchedAt + 256 ≤ s.wclk) :
    ∃ t, exec (.squallEnd n) s = .next t ∧ t.slice n = { s.slice n with stretched := false } ∧ (∀ k, k ≠ n → t.slice k = s.slice k) ∧
      ((∀ k, k ≠ n → k / 16 = n / 16 → (s.slice k).stretched = false) → t.sagN (n / 16) = true) ∧
      t.pwr = { s.pwr with lastStretch := s.elapsed } ∧ t = { s with slices := t.slices, pwr := t.pwr } := by
  have after := fun k => s.slice_modSlice n k fun v => { v with stretched := false }
  refine ⟨_, exec_squallEnd s built stretched lasted, (after n).trans (if_pos rfl), fun k other => (after k).trans (if_neg other),
    fun rest => State.sagN_eq_true_of_calm _ fun k mate => ?_, rfl, rfl⟩
  refine (congrArg Slice.stretched (after k)).trans ?_
  split
  · rfl
  · next other => exact rest k other mate

/-! ## SQUALL_LOG_CLOSE -/

theorem exec_squallLogClose_closes (active : s.reason rzSquall = true) (calm : ∀ e ∈ s.slices, e.2.stretched = false)
    (passed : s.pwr.lastStretch + 1000 ≤ s.elapsed) :
    ∃ t, exec .squallLogClose s = .next t ∧ t.reason rzSquall = false ∧ t = { s with pwr := t.pwr } := by
  have ran : exec .squallLogClose s = settle s (s.closeReason rzSquall).retune := by
    change execSquallLogClose s = _
    have none : (s.slices.any fun e => e.2.stretched) = false := List.any_eq_false.mpr fun e he => by simp [calm e he]
    simp [execSquallLogClose, whenDue, active, none, passed]
  refine ⟨_, ran.trans (settle_eq _ _), ?_, ?_⟩
  · exact (State.reason_retune _ (by decide) (by decide) (by decide) (by decide)).trans (s.closeReason_reason rzSquall)
  · rw [State.retune_eq, State.closeReason_eq]; rfl

theorem exec_squallLogClose_waits (h : (∃ e ∈ s.slices, e.2.stretched = true) ∨ s.elapsed < s.pwr.lastStretch + 1000) :
    exec .squallLogClose s = .next s := by
  have early : (!(s.slices.any fun e => e.2.stretched) && decide (s.pwr.lastStretch + 1000 ≤ s.elapsed)) = false := by
    rcases h with some | soon
    · simp [List.any_eq_true.mpr some]
    · simp [Nat.not_le.mpr soon]
  change execSquallLogClose s = _
  simp [execSquallLogClose, whenDue, Bool.and_assoc, early]

/-- Settles O11, one lemma for each of SQUALL_BEGIN, SQUALL_END and the two answers of SQUALL_LOG_CLOSE. -/
theorem squalls : Obligations.Squalls :=
  ⟨fun s _ => exec_squallBegin_stretches s, fun s _ => exec_squallEnd_recovers s, fun s active =>
    ⟨exec_squallLogClose_closes s active, exec_squallLogClose_waits s⟩⟩

end Sys2Proof.Machine
end

section
/-! PROOF. Sync words after the first, the ticks that bring a slewing TB back, and TB_STAT.SLEW (R362, R363). -/

namespace Sys2Proof.Machine

open Sys2Proof

variable (s : State)

/-- A HEALTH event that finds room stands at the end of the queue (R273). -/
theorem State.health_appended (code unit part sev : Nat) (detail : List Byte) (room : s.fab.hq.length < 64) :
    ∃ h, (s.health code unit part sev detail).fab = { s.fab with hq := s.fab.hq ++ [h] } ∧ h.code = BitVec.ofNat 16 code ∧
      h.severity = BitVec.ofNat 8 sev := by
  simp only [State.health, if_pos room]
  exact ⟨_, rfl, rfl, rfl⟩

/-! ## The judgement of a later word, by the cases of R363 -/

/-- The fault case of R363 for a word `w` against the held TB `h`: off the grid, or too far behind. -/
def SyncBad (w h : Dword) : Prop := w.toNat % 1000000 ≠ 0 ∨ w.toNat + 65536 < h.toNat

section Judged

variable {s} {w : Dword} (taken : s.tbu.taken = true)
include taken

section Locked

variable (locked : s.tbu.lock = true)
include locked

theorem State.judgeSync_fault (bad : SyncBad w s.tbu.tb) :
    s.judgeSync w = (s.modTb fun t => { t with fault := true, lock := false, slew := none }).health 0x0103 unitInst noPart 2
      (syncDetail w s.tbu.tb) := by
  have bad' : w.toNat % syncPeriod ≠ 0 ∨ w.toNat + slewMax < s.tbu.tb.toNat := bad
  simp only [State.judgeSync, taken, locked, Bool.not_true, Bool.false_eq_true, if_false, if_pos bad']

/-- A word that is no fault is equal, ahead or behind. -/
theorem State.judgeSync_locked (good : ¬ SyncBad w s.tbu.tb) : s.judgeSync w =
    if w = s.tbu.tb then s.takeSync w
    else if s.tbu.tb.toNat < w.toNat then
      (((s.setTb w).takeSync w).modTb fun t => { t with slew := none, slips := satInc t.slips 1 }).health 0x0102 unitInst noPart 1
        (syncDetail w s.tbu.tb)
    else (s.takeSync w).modTb fun t => { t with slew := some w } := by
  have good' : ¬ (w.toNat % syncPeriod ≠ 0 ∨ w.toNat + slewMax < s.tbu.tb.toNat) := good
  simp only [State.judgeSync, taken, locked, Bool.not_true, Bool.false_eq_true, if_false, if_neg good']

variable (grid : w.toNat % 1000000 = 0)
include grid

theorem State.judgeSync_equal (equal : w = s.tbu.tb) : s.judgeSync w = s.takeSync w := by
  have good : ¬ SyncBad w s.tbu.tb := by rw [← equal]; unfold SyncBad; omega
  rw [State.judgeSync_locked taken locked good, if_pos equal]

theorem State.judgeSync_ahead (ahead : s.tbu.tb.toNat < w.toNat) :
    s.judgeSync w = (((s.setTb w).takeSync w).modTb fun t => { t with slew := none, slips := satInc t.slips 1 }).health
      0x0102 unitInst noPart 1 (syncDetail w s.tbu.tb) := by
  have good : ¬ SyncBad w s.tbu.tb := by unfold SyncBad; omega
  have other : w ≠ s.tbu.tb := fun h => absurd (congrArg BitVec.toNat h) (by omega)
  rw [State.judgeSync_locked taken locked good, if_neg other, if_pos ahead]

theorem State.judgeSync_behind (behind : w.toNat < s.tbu.tb.toNat) (near : s.tbu.tb.toNat ≤ w.toNat + 65536) :
    s.judgeSync w = (s.takeSync w).modTb fun t => { t with slew := some w } := by
  have good : ¬ SyncBad w s.tbu.tb := by unfold SyncBad; omega
  have other : w ≠ s.tbu.tb := fun h => absurd (congrArg BitVec.toNat h) (by omega)
  rw [State.judgeSync_locked taken locked good, if_neg other, if_neg (Nat.lt_asymm behind)]

end Locked

theorem State.judgeSync_unlocked (unlocked : s.tbu.lock = false) : s.judgeSync w =
    if w.toNat % 1000000 = 0 ∧ s.tbu.tb.toNat ≤ w.toNat then (s.setTb w).takeSync w else s := by
  simp only [State.judgeSync, taken, unlocked, Bool.not_true, Bool.not_false, Bool.false_eq_true, if_false, if_true]; rfl

theorem State.judgeSync_ignores (unlocked : s.tbu.lock = false) (unfit : w.toNat % 1000000 ≠ 0 ∨ w.toNat < s.tbu.tb.toNat) :
    s.judgeSync w = s := by
  rw [State.judgeSync_unlocked taken unlocked, if_neg (by omega)]

/-- Whatever the case, the unit goes on counting from a first word, and writes its own state and the HEALTH queue only. -/
theorem State.judgeSync_frame :
    (s.judgeSync w).tbu.taken = true ∧ s.judgeSync w = { s with tbu := (s.judgeSync w).tbu, fab := (s.judgeSync w).fab } := by
  cases locked : s.tbu.lock
  case false =>
    rw [State.judgeSync_unlocked taken locked]
    split
    · exact ⟨rfl, rfl⟩
    · exact ⟨taken, rfl⟩
  case true =>
    by_cases bad : SyncBad w s.tbu.tb
    · rw [State.judgeSync_fault taken locked bad, State.health_eq]
      exact ⟨taken, rfl⟩
    · rw [State.judgeSync_locked taken locked bad]
      split
      · exact ⟨rfl, rfl⟩
      · split
        · rw [State.health_eq]
          exact ⟨rfl, rfl⟩
        · exact ⟨rfl, rfl⟩

end Judged

/-! ## SYNC_WORD -/

/-- A word that arrives clears NOTICK (R364). -/
def State.ticksHeard (s : State) : State := s.modTb fun t => { t with notick := false, ticksBack := false }

/-- A later word in any phase but SYNC is judged, and a window opens whether or not it is taken (R364). -/
theorem exec_syncWord {w : Dword} (live : s.boot.porst = false) (settled : s.boot.phase ≠ .sync) (taken : s.tbu.taken = true) :
    exec (.syncWord w) s = .next { s with
      tbu := { (s.ticksHeard.judgeSync w).tbu with window := some s.elapsed }
      fab := (s.ticksHeard.judgeSync w).fab } := by
  obtain ⟨still, frame⟩ := State.judgeSync_frame (s := s.ticksHeard) (w := w) taken
  have phase : (s.ticksHeard.judgeSync w).boot.phase ≠ .sync := by rw [frame]; exact settled
  have clock : (s.ticksHeard.judgeSync w).elapsed = s.elapsed := by rw [frame]; rfl
  have ran : exec (.syncWord w) s = settle s ((s.ticksHeard.judgeSync w).modTb fun t => { t with window := some s.elapsed }) := by
    change execSyncWord w s = _
    have heard : (s.modTb fun t => { t with notick := false, ticksBack := false }) = s.ticksHeard := rfl
    simp [execSyncWord, whenDue, live, heard, still, phase, clock]
  rw [ran, settle_eq, frame]; rfl

/-! ## TB_TICK -/

theorem State.foldl_tbu {α : Type} {f : State → α → State} (h : ∀ (s : State) (x : α), (f s x).tbu = s.tbu) (l : List α) :
    (l.foldl f s).tbu = s.tbu := by
  induction l generalizing s with
  | nil => rfl
  | cons x l ih => exact (ih (f s x)).trans (h s x)

@[simp] theorem State.noteIdle_tbu : s.noteIdle.tbu = s.tbu := by
  unfold State.noteIdle
  refine State.foldl_tbu s (fun _ _ => ?_) _
  rfl

@[simp] theorem State.chargeBusy_tbu : s.chargeBusy.tbu = s.tbu := by
  unfold State.chargeBusy
  refine State.foldl_tbu s (fun s p => ?_) _
  dsimp only
  split
  · rfl
  · split <;> rfl

theorem exec_tbTick (live : s.boot.porst = false) : exec .tbTick s = settle s s.chargeBusy.noteIdle.tick := by
  change execTbTick s = _
  simp [execTbTick, whenDue, live]

theorem State.tick_steady (steady : s.tbu.slew = none) : s.tick.tbu.tb = s.tbu.tb + 8 := by
  have same : (s.pass 8).tbu = s.tbu := rfl
  simp only [State.tick, State.modTb_tbu, same, steady]
  rfl

/-- A slewing TB gains 4 ns on a reference that gains 8, until the reference is no longer behind it (R363). -/
theorem State.tick_slewing {r : Dword} (slewing : s.tbu.slew = some r) :
    (s.tick.tbu.tb, s.tick.tbu.slew) =
      if (s.tbu.tb + 4).toNat ≤ (r + 8).toNat then (r + 8, none) else (s.tbu.tb + 4, some (r + 8)) := by
  have same : (s.pass 8).tbu = s.tbu := rfl
  simp only [State.tick, State.modTb_tbu, same, slewing]
  split <;> rfl

theorem exec_tbTick_steady (live : s.boot.porst = false) (steady : s.tbu.slew = none) :
    ∃ t, exec .tbTick s = .next t ∧ t.tbu.tb = s.tbu.tb + 8 := by
  have ticked := State.tick_steady s.chargeBusy.noteIdle (by simpa using steady)
  exact ⟨_, (exec_tbTick s live).trans (settle_eq _ _), by rw [State.keep_tbu, ticked]; simp⟩

theorem exec_tbTick_slewing {r : Dword} (live : s.boot.porst = false) (slewing : s.tbu.slew = some r) (small : r.toNat + 8 < 2 ^ 64)
    (low : s.tbu.tb.toNat + 4 < 2 ^ 64) :
    ∃ t, exec .tbTick s = .next t ∧
      (r.toNat + 8 < s.tbu.tb.toNat + 4 → t.tbu.tb = s.tbu.tb + 4 ∧ t.tbu.slew = some (r + 8)) ∧
      (s.tbu.tb.toNat + 4 ≤ r.toNat + 8 → t.tbu.tb = r + 8 ∧ t.tbu.slew = none) := by
  have ticked := State.tick_slewing s.chargeBusy.noteIdle (r := r) (by simpa using slewing)
  have reference : (r + 8).toNat = r.toNat + 8 := by bv_omega
  have held : (s.tbu.tb + 4).toNat = s.tbu.tb.toNat + 4 := by bv_omega
  rw [State.noteIdle_tbu, State.chargeBusy_tbu, reference, held] at ticked
  refine ⟨_, (exec_tbTick s live).trans (settle_eq _ _), fun behind => ?_, fun met => ?_⟩ <;> rw [State.keep_tbu]
  · rw [if_neg (Nat.not_le.mpr behind)] at ticked
    exact Prod.mk.inj ticked
  · rw [if_pos met] at ticked
    exact Prod.mk.inj ticked

/-! ## TB_STAT.SLEW -/

theorem State.mportRead_tbStat (opened : s.isOpen = true) : s.mportRead 0x010008 = BitVec.ofNat 32 (s.tbRead 0x08) := by
  have offset : wordOff 0x010008 = 0x010008 := by decide
  have own : s.counterAt 0x010008 = none := by simp [State.counterAt, State.clusterAt]
  have below : s.counterAt (0x010008 - 4) = none := by simp [State.counterAt, State.clusterAt]
  have block : s.plainRead 0x010008 = s.tbRead 0x08 := by simp [State.plainRead]
  simp only [State.mportRead, offset, opened, own, below, block, Bool.not_true, Bool.false_and, Bool.false_eq_true, if_false, ite_self]

theorem State.tbStat_slew : (s.tbRead 0x08).testBit 2 = s.tbu.slew.isSome := by
  have small : ∀ b, bit b < 2 := by decide
  have lock := small s.tbu.lock
  have slew := small s.tbu.slew.isSome
  have field : s.tbRead 0x08 / 2 ^ 2 % 2 = bit s.tbu.slew.isSome := by
    simp only [State.tbRead, if_true, flg, fld]
    omega
  rw [Nat.testBit_eq_decide_div_mod_eq, field]
  cases s.tbu.slew.isSome <;> rfl

/-- Settles O6: a later word by the cases of `State.judgeSync`, the ticks by `State.tick_slewing`, SLEW by `State.tbStat_slew`. A
word that relocks steps TB without a slip (log 50). -/
theorem syncWords : Obligations.SyncWords := by
  refine ⟨fun s w live settled taken => ?_, exec_tbTick_steady, fun s _ => exec_tbTick_slewing s, fun s opened => ?_⟩
  · have ran := exec_syncWord s (w := w) live settled taken
    refine ⟨fun locked => ⟨fun bad => ?_, fun grid equal => ?_, fun grid ahead => ?_, fun grid behind near => ?_⟩,
      fun unlocked => ⟨fun grid above => ?_, fun unfit => ?_⟩⟩
    · rw [State.judgeSync_fault (s := s.ticksHeard) taken locked bad, State.health_eq] at ran
      exact ⟨_, ran, rfl, rfl, rfl, rfl, rfl, rfl, rfl, fun room => State.health_appended _ _ _ _ _ _ room⟩
    · rw [State.judgeSync_equal (s := s.ticksHeard) taken locked grid equal] at ran
      exact ⟨_, ran, rfl, rfl, rfl, rfl, rfl, rfl, rfl⟩
    · rw [State.judgeSync_ahead (s := s.ticksHeard) taken locked grid ahead, State.health_eq] at ran
      exact ⟨_, ran, rfl, rfl, rfl, rfl, rfl, fun room => State.health_appended _ _ _ _ _ _ room, rfl⟩
    · rw [State.judgeSync_behind (s := s.ticksHeard) taken locked grid behind near] at ran
      exact ⟨_, ran, rfl, rfl, rfl, rfl, rfl, rfl⟩
    · rw [State.judgeSync_unlocked (s := s.ticksHeard) taken unlocked, if_pos ⟨grid, above⟩] at ran
      exact ⟨_, ran, rfl, rfl, rfl, rfl⟩
    · rw [State.judgeSync_ignores (s := s.ticksHeard) taken unlocked unfit] at ran
      exact ⟨_, ran, rfl, unlocked, rfl, rfl, rfl⟩
  · rw [s.mportRead_tbStat opened, BitVec.getLsbD_ofNat, s.tbStat_slew]; rfl

end Sys2Proof.Machine
end

section
/-! PROOF. A wall clock past a boundary closes every partition's interval into its snapshot; the acknowledgement of a snapshot,
and the interrupt it raises (R417, R419, R428). -/

namespace Sys2Proof.Machine

open Sys2Proof

variable (s : State)

/-! ## Closing the intervals (R417) -/

/-- BOUNDARY of R417: the largest multiple of PERIOD at or below TB_WALL. -/
def State.tillBoundary (s : State) : Nat := s.tbu.wall.toNat / s.tillCtl.ns * s.tillCtl.ns

theorem Part.closeTill_running {v : Part} {i : Till} (now : Dword) (bound skipped : Nat) (running : v.till = some i) :
    v.closeTill now bound skipped = { v with
      till := some { start := now }
      snap := { seq := v.snap.seq + 1, valid := true, skipped := min 0x7FFF skipped, missed := v.snap.valid, reset := i.reset
                fwd := i.fwd, back := i.back, start := i.start, stop := now, bound := BitVec.ofNat 64 bound, queries := i.queries
                visits := i.visits, busy := i.busy, step := i.step } } := by
  simp only [Part.closeTill, running]

/-- What the close of this tick makes of a partition. -/
def State.closeInterval (s : State) (v : Part) : Part :=
  v.closeTill s.tbu.tb s.tillBoundary ((s.tillBoundary - s.tillCtl.next) / s.tillCtl.ns)

/-- The close of this tick in every partition: irreducible, so that `rfl` does not run the 32 closes. -/
@[irreducible] def State.closeIntervals (s : State) : State :=
  (List.range 32).foldl (fun (t : State) p => t.modPart p s.closeInterval) s

theorem State.toNat_tillBoundary : (BitVec.ofNat 64 s.tillBoundary).toNat = s.tillBoundary := by
  have below : s.tillBoundary ≤ s.tbu.wall.toNat := Nat.div_mul_le_self _ _
  rw [BitVec.toNat_ofNat, Nat.mod_eq_of_lt (Nat.lt_of_le_of_lt below s.tbu.wall.isLt)]

theorem State.closeIntervals_eq : s.closeIntervals = { s with parts := s.closeIntervals.parts } := by
  unfold State.closeIntervals
  exact foldPart_eq s (fun _ => s.closeInterval) (List.range 32)

theorem State.part_closeIntervals {p : Nat} (built : p < 32) : s.closeIntervals.part p = s.closeInterval (s.part p) := by
  unfold State.closeIntervals
  exact (foldPart_part s (fun _ => s.closeInterval) _ List.nodup_range p).trans (if_pos (List.mem_range.mpr built))

theorem State.part_closeIntervals_running {p : Nat} {i : Till} (built : p < 32) (running : (s.part p).till = some i) :
    (s.closeIntervals.part p).till = some { start := s.tbu.tb } ∧
    (s.closeIntervals.part p).snap =
      { seq := (s.part p).snap.seq + 1, valid := true, skipped := (s.closeIntervals.part p).snap.skipped
        missed := (s.part p).snap.valid, reset := i.reset, fwd := i.fwd, back := i.back, start := i.start, stop := s.tbu.tb
        bound := BitVec.ofNat 64 s.tillBoundary, queries := i.queries, visits := i.visits, busy := i.busy, step := i.step } := by
  rw [s.part_closeIntervals built, State.closeInterval, Part.closeTill_running _ _ _ running]
  exact ⟨rfl, rfl⟩

theorem exec_tillBoundaryClose (enabled : s.tillCtl.en = true) (passed : s.tillCtl.next ≤ s.tbu.wall.toNat) :
    exec .tillBoundaryClose s = .next { s with
      parts := s.closeIntervals.parts
      tillCtl := { s.tillCtl with bhi := BitVec.ofNat 64 s.tillBoundary } } := by
  have ran : exec .tillBoundaryClose s =
      settle s { s.closeIntervals with tillCtl := { s.tillCtl with bhi := BitVec.ofNat 64 s.tillBoundary } } := by
    change execTillBoundaryClose s = _
    simp only [execTillBoundaryClose, whenDue, enabled, passed, decide_true, Bool.and_self, if_true, State.closeIntervals]
    rfl
  rw [ran, settle_eq, State.closeIntervals_eq]; rfl

/-! ## IRQ (R428) -/

/-- A value other than the default stands in the list. -/
theorem NMap.mem_of_get_ne {β : Type} {d : β} {m : NMap β} {i : Nat} (h : NMap.get d m i ≠ d) : (i, NMap.get d m i) ∈ m := by
  induction m with
  | nil => exact absurd rfl h
  | cons e m ih =>
    obtain ⟨k, v⟩ := e
    simp only [NMap.get] at h ⊢
    split
    · next hit => simp [hit]
    · next miss =>
      rw [if_neg miss] at h
      exact List.mem_cons_of_mem _ (ih h)

theorem State.irq_of_snapshot {p : Nat} (opened : s.boot.openedOnce = true) (enabled : s.tillCtl.irqEn = true)
    (valid : (s.part p).snap.valid = true) : s.irq = true := by
  have changed : s.part p ≠ {} := fun reset => by rw [reset] at valid; cases valid
  have source : (s.parts.any fun e => e.2.snap.valid) = true :=
    List.any_eq_true.mpr ⟨(p, s.part p), NMap.mem_of_get_ne changed, valid⟩
  simp only [State.irq, opened, enabled, source, Bool.and_self, Bool.or_true]

/-! ## The acknowledgement (Table 14.13) -/

/-- No register of the till block orders messages of its cycle (R15). -/
theorem State.orderOf_till {o : Nat} (v : Nat) (low : 0x098000 ≤ o) (high : o < 0x099100) : s.orderOf o v = none := by
  simp only [State.orderOf]
  rw [if_neg (by omega), if_neg (by omega), if_neg (by omega)]

theorem State.regWrite_till {o : Nat} (v : Nat) (low : 0x098000 ≤ o) (high : o < 0x099100) :
    s.regWrite o v = s.tillWrite (o - 0x098000) v := by
  simp only [State.regWrite]
  rw [if_neg (by omega), if_neg (by omega), if_neg (by omega), if_neg (by omega), if_neg (by omega), if_pos ⟨low, high⟩]

/-- In OPEN a write in the till block is that of its register, and nothing else. -/
theorem exec_mportRegisterWrite_till {off : BitVec 24} (aclk : Nat) (d : Word) (opened : s.isOpen = true)
    (low : 0x098000 ≤ wordOff off) (high : wordOff off < 0x099100) :
    exec (.mportRegisterWrite aclk off d) s = settle s (s.tillWrite (wordOff off - 0x098000) d.toNat) := by
  have noCluster : s.slicectlAt (wordOff off) = none := by
    simp only [State.slicectlAt, State.clusterAt]
    rw [if_neg (by omega)]
  change execMportRegisterWrite aclk off d s = _
  simp only [execMportRegisterWrite, whenOpen, whenDue, opened, noCluster, State.ordered, State.noteOrder, State.orderOf_till s _ low high,
    State.regWrite_till s _ low high, if_true]
  rw [if_neg (by omega)]

/-- The snapshot of a partition is acknowledged. -/
def Part.acknowledge (v : Part) : Part := { v with snap := { v.snap with valid := false } }

/-- The write of 1 to VALID of TIL_Pp_FLAGS. -/
theorem State.tillWrite_valid {p v : Nat} (built : p < 32) (one : bitAt v 31 = true) :
    s.tillWrite (0x104 + 0x80 * p) v = s.modPart p Part.acknowledge := by
  have index : (0x104 + 0x80 * p - 0x100) / 0x80 = p := by omega
  simp only [State.tillWrite]
  rw [if_neg (by omega), if_neg (by omega), if_pos ⟨by omega, by omega, by omega, one⟩, index]
  rfl

theorem wordOff_tillFlags {p : Nat} (built : p < 32) : wordOff (BitVec.ofNat 24 (0x098104 + 0x80 * p)) = 0x098104 + 0x80 * p := by
  simp only [wordOff, BitVec.toNat_ofNat]
  omega

theorem exec_mportRegisterWrite_tillFlags {p : Nat} (aclk : Nat) {d : Word} (opened : s.isOpen = true) (built : p < 32)
    (one : d.getLsbD 31 = true) :
    exec (.mportRegisterWrite aclk (BitVec.ofNat 24 (0x098104 + 0x80 * p)) d) s =
      settle s (s.modPart p Part.acknowledge) := by
  have place := wordOff_tillFlags built
  have register : 0x098104 + 0x80 * p - 0x098000 = 0x104 + 0x80 * p := by omega
  rw [exec_mportRegisterWrite_till s aclk d opened (by omega) (by omega), place, register,
    State.tillWrite_valid s built ((bitAt_toNat d 31).trans one)]

/-- Settles O8: the close by `exec_tillBoundaryClose` and what it makes of each partition, IRQ by `State.irq_of_snapshot`, the
acknowledgement by `exec_mportRegisterWrite_tillFlags`. The boundary is that of R417; a PERIOD beyond its range counts as it is
written (log 95). -/
theorem tillSnapshots : Obligations.TillSnapshots := by
  refine ⟨fun s enabled passed => ?_, fun s a p d opened built one => ?_⟩
  · refine ⟨_, exec_tillBoundaryClose s enabled passed, rfl, s.toNat_tillBoundary,
      fun p built i running => s.part_closeIntervals_running built running, ?_⟩
    rintro irqEn opened ⟨p, i, built, running⟩
    obtain ⟨-, snapshot⟩ := s.part_closeIntervals_running built running
    exact State.irq_of_snapshot _ (p := p) opened irqEn (congrArg Snap.valid snapshot)
  · exact ⟨_, (exec_mportRegisterWrite_tillFlags s a opened built one).trans (settle_eq _ _), rfl,
      fun q => s.part_modPart p q Part.acknowledge⟩

end Sys2Proof.Machine
end
